-- ==== Sys2Proof/Word.lean ====
section
/-! DEFINITION. Sys2Proof/Word.lean: the word types of the block, with the widths of rules R9 and R11. -/

namespace Sys2Proof

/-- A Symbol, and one byte of `IBUF` or `OBUF` (rules R9, R47, R48). -/
abbrev Byte := BitVec 8

/-- The 32-bit width of the host registers, of the length header and of the counts (rule R11). -/
abbrev Word := BitVec 32

/-- A bit position: `RPOS` and `WPOS` are 36 bits wide (rules R25, R26). -/
abbrev Pos := BitVec 36

end Sys2Proof
end

