-- ==== Sys2Proof/Config.lean ====
section
/-! DEFINITION. Sys2Proof/Config.lean: the parameters the source leaves open (rule R10) as plain data, and the
free values, each an opaque constant with no body, so that nothing in Lean can say which value it is. -/

namespace Sys2Proof

/-- What DECODE does with a payload bit 1 when the tree is a single leaf (rule R10, rule R228). -/
inductive LeafrootBit1Policy where
  | fault
  | accept
deriving DecidableEq, Repr

/-- The parameters of rule R10. `nodeCap = none` is the infinite node memory. They are arguments of the model, not
state of the block; `State.cfg` carries them because `exec` and `step` have no other argument (log 2). -/
structure Params where
  ibufCap : Nat
  obufCap : Nat
  nodeCap : Option Nat
  leafrootBit1 : LeafrootBit1Policy
  invariantChecks : Bool
deriving DecidableEq, Repr

/-- The constraints of rule R10 on the parameters. -/
def Params.wf (p : Params) : Bool :=
  decide (p.ibufCap ≤ 2 ^ 32 - 1) && decide (4 ≤ p.obufCap) && decide (p.obufCap ≤ 2 ^ 32 - 1) &&
    match p.nodeCap with
    | none => true
    | some n => decide (511 ≤ n)

/-- The parameters a run from `State.reset` has: the defaults of rule R10 where it gives one (`NODE_CAP` = 511,
policy `fault`, checks `on`). DESIGN CHOICE (log 2, unsafe): it gives none for the two buffer capacities, and the
model takes the largest ones it allows. -/
def Params.default : Params where
  ibufCap := 2 ^ 32 - 1
  obufCap := 2 ^ 32 - 1
  nodeCap := some 511
  leafrootBit1 := .fault
  invariantChecks := true

/-- FREE VALUE: the `n`-th word drawn for a value the spec leaves unspecified (rules R39, R40, R250, R283; log 4,
log 5). -/
opaque Config.freeWord : Nat → Word

/-- FREE VALUE: the `n`-th byte so drawn (`OBUF` outside the result, rule R48; `WACC` after an error, rule R250). -/
opaque Config.freeByte : Nat → Byte

/-- FREE VALUE: the `n`-th node pointer so drawn (`ROOT` and `CUR` after an error, rule R250). It is cut to `PTR_W` bits
where it is drawn. -/
opaque Config.freePtr : Nat → Option Nat

/-- FREE VALUE: the `n`-th sequence number so drawn (`SEQ` after an error, rule R250). It is cut to `PTR_W` + 1 bits
where it is drawn. -/
opaque Config.freeSeq : Nat → Nat

/-- FREE VALUE: the `n`-th content of `FREQ` so drawn (rule R250). -/
opaque Config.freeCounts : Nat → Vector Word 256

/-- FREE VALUE: the `n`-th content of `CODE` so drawn (rule R250). Each code is cut to 255 bits where it is drawn. -/
opaque Config.freeCodes : Nat → Vector (List Bool) 256

/-- FREE VALUE: what `IBUF` holds at an address that nothing has written since the reset numbered by the first
argument (rule R50; log 6). It is a function, so that reading such a byte twice gives the same byte (rules R70 and
R78). -/
opaque Config.ibufFill : Nat → Nat → Byte

end Sys2Proof
end

