-- ==== Sys2Proof/Machine/State.lean ====
section
/-! DEFINITION. Sys2Proof/Machine/State.lean: every piece of state that 10_state.md gives the block, as plain data,
the state after reset (rule R50), and the reasons a step can stop. The fields after `codeTap` are the model's own
(log 3, 4, 6, 10, 12). -/

namespace Sys2Proof.Machine

/-- The values of `PHASE` (rule R24). The reserved codes 11, 12 and 13 are not representable, as rule R107 asks. -/
inductive Phase where
  | idle
  | eCount
  | eBuild
  | eGen
  | eHdr
  | eTree
  | ePack
  | eFin
  | dHdr
  | dTree
  | dWalk
  | done
  | error
deriving DecidableEq, Repr

/-- A sub-cause of an error; it determines the kind (rules R240 to R245). -/
inductive Cause where
  | hdrTrunc
  | treeTrunc
  | payloadTrunc
  | nodeOverflow
  | leafrootBit1
  | countSum
  | codePrefix
  | codeMissing
  | badCmd
  | badIlen
  | encObufFull
  | decNTooLarge
deriving DecidableEq, Repr

/-- An allocated entry of `NODE` (rule R42). The constructor is its `TAG`; the fields that mean nothing for a tag are
not there (93_implementation_defined.md U9). The pointers are numbers that fit `PTR_W` bits and `seq` fits `PTR_W` + 1, as
`WidthInv` of Safety.lean says and every step keeps; the width depends on `NODE_CAP` (rule R11; log 17). -/
inductive Node where
  | leaf (sym : Byte) (count : Word) (seq : Nat)
  | internal (left right : Nat) (count : Word) (seq : Nat)
deriving DecidableEq, Repr

/-- An entry of `STACK` (rule R46): a node index; for the code table generator also the path so far; for the
deserializer also the left child already read, when there is one. -/
structure Frame where
  node : Nat
  left : Option Nat
  path : List Bool
deriving DecidableEq, Repr

/-- An access the host makes (rules R30, R38, R60, R65, R110). -/
inductive HostAccess where
  /-- A read of one 32-bit word at a `REG` offset, 0x0000 to 0x7FFF. -/
  | read32 (off : BitVec 15)
  /-- A write of one 32-bit word at a `REG` offset. -/
  | write32 (off : BitVec 15) (v : Word)
  /-- A byte or half-word read in `REG` (rule R38). -/
  | readNarrow (off : BitVec 15)
  /-- A byte or half-word write in `REG` (rule R38). -/
  | writeNarrow (off : BitVec 15) (v : Word)
  | readIbuf (a : Nat)
  | writeIbuf (a : Nat) (v : Byte)
  | readObuf (a : Nat)
  | writeObuf (a : Nat) (v : Byte)
  /-- A write to `IBUF` of the byte the host read last: the copy of `LOOPBACK` (rule R111). -/
  | copyToIbuf (a : Nat)
  /-- `WAIT`: reads of `STATUS` until `STATE` is not `BUSY` (rule R110). -/
  | wait
  /-- `LOOPBACK` (rule R111). -/
  | loopback
deriving DecidableEq, Repr

/-- What happens next, from outside the engine's own sequence (log 3). -/
inductive Event where
  /-- The reset input is asserted (rule R270). -/
  | reset
  /-- The engine takes its turn. -/
  | engine
  /-- The host makes an access. -/
  | host (a : HostAccess)
  /-- The engine takes its turn for one operation of the I/O controller instead of a whole phase: the select and the
  operand lines (rule R94; log 10). -/
  | bio (sel : BitVec 3) (operand : Word)
  /-- The engine takes its turn for one token of the stream instead of a whole phase (log 11). -/
  | token
deriving DecidableEq, Repr

/-- What the result lines of the I/O controller show until the phase that asked has taken it (log 10). -/
inductive BioOut where
  | none
  | value (v : Word)
  | eob
deriving DecidableEq, Repr

/-- The state of the block (rule R20) and, after `codeTap`, the model's own fields. -/
structure State where
  /-- The parameters of rule R10: constant, no operation writes them. -/
  cfg : Params
  cmd : Word
  phase : Phase
  err : Word
  flags : BitVec 3
  ilen : Word
  olen : Word
  nhdr : Word
  nrem : Word
  iidx : Word
  /-- A number that fits `PTR_W` bits, or `NONE`: the width depends on `NODE_CAP` (rules R11, R21; log 17). -/
  root : Option Nat
  /-- As `root`. -/
  cur : Option Nat
  /-- A number that fits `PTR_W` + 1 bits (rules R11, R21; log 17). -/
  seq : Nat
  rpos : Pos
  wpos : Pos
  wacc : Byte
  freq : Vector Word 256
  /-- The allocated entries of `NODE`, by index. An index that is not listed holds nothing the spec specifies. -/
  node : List (Nat × Node)
  /-- The members of `PQ`. -/
  pq : List Nat
  /-- `CODE[s]` as its bit string, 255 bits at most (rule R45); the empty string is `LEN` = 0. -/
  code : Vector (List Bool) 256
  /-- `STACK`, the top first. -/
  stack : List Frame
  ibuf : List Host.Cell
  obuf : List Host.Cell
  /-- The `FREQ` tap is valid (rule R39). -/
  freqTap : Bool
  /-- The `CODE` tap is valid (rule R40). -/
  codeTap : Bool
  /-- MODEL'S OWN: FINALIZE has been performed since the command started (log 12). -/
  finalized : Bool
  /-- MODEL'S OWN: the result lines of the I/O controller (log 10). -/
  bioOut : BioOut
  /-- MODEL'S OWN: the marker bit of a leaf has been read in D_TREE, or written in E_TREE, by itself, and its symbol is
  next (rules R185, R190; log 10). -/
  marker : Bool
  /-- MODEL'S OWN: the data of the host's last read (log 3). -/
  rdata : Word
  /-- MODEL'S OWN: how many free values have been drawn (log 4). -/
  draws : Nat
  /-- MODEL'S OWN: how many resets there have been (log 6). -/
  epoch : Nat
  /-- MODEL'S OWN: what happens next, first first; when the list is empty the engine takes every turn (log 3). -/
  events : List Event
deriving DecidableEq, Repr

/-- Why the machine stops with a fault. None of them can happen to a phase in a state that a host's accesses reach:
each is an access that the spec says has no place to go. All are safe: the model stops where hardware would go on. -/
inductive Fault where
  /-- Raised by every access to `IBUF` at or beyond `IBUF_CAP`, by the engine or by the host: rule R60 gives the
  space addresses 0 to `IBUF_CAP` - 1 only. Safe. -/
  | noSuchIbufByte (addr : Nat)
  /-- Raised by EMIT and by host accesses to `OBUF` at or beyond `OBUF_CAP`: rules R16 and R60. Safe. -/
  | noSuchObufByte (addr : Nat)
  /-- Raised by E_BUILD, E_GEN, E_TREE, D_TREE and D_WALK for a node pointer that is `NONE`, names no allocated entry,
  or lies beyond `NODE_CAP`: rules R42 and R43. Safe. -/
  | noSuchNode (ptr : Option Nat)
  /-- Raised by E_GEN, E_TREE, D_TREE and D_WALK when the entries they follow form no finite tree, which rule R43 rules
  out. Safe. -/
  | treeNotFinite
deriving DecidableEq, Repr

/-- Why the machine refuses. All are safe. -/
inductive Refusal where
  /-- Raised by an arm of `exec` whose instruction has no meaning yet; no arm of this model raises it. Safe. -/
  | notModelled (mnemonic : String)
  /-- Raised by WRBIT, WRBYTE and WRU32 after FINALIZE within one command, and by a phase that would do so: rule R127
  and 93_implementation_defined.md U6 leave it undefined. Safe. -/
  | writeAfterFinalize
  /-- Raised by a stream token performed outside the phases that write or read it (rules R95 to R97; log 11). Safe. -/
  | tokenOutOfPhase
  /-- Raised by an I/O controller event with the reserved select 3: rule R107 and 93_implementation_defined.md U10.
  Safe. -/
  | reservedBioSelect
  /-- Raised by an I/O controller event with bits on operand lines that the operation does not have (log 10). Safe. -/
  | bioOperandTooWide
deriving DecidableEq, Repr

/-- The state right after reset (rule R50). DESIGN CHOICE (log 7, unsafe): the spec leaves `FREQ`, `NODE` and `CODE`
unspecified; here `FREQ` is all 0, `CODE` empty and no `NODE` entry is allocated. `IBUF` and `OBUF` list nothing. The
model's own fields start at 0, empty, `none` and `false`. -/
def State.reset : State where
  cfg := Params.default
  cmd := 0
  phase := .idle
  err := 0
  flags := 0
  ilen := 0
  olen := 0
  nhdr := 0
  nrem := 0
  iidx := 0
  root := none
  cur := none
  seq := 0
  rpos := 0
  wpos := 0
  wacc := 0
  freq := Vector.replicate 256 0
  node := []
  pq := []
  code := Vector.replicate 256 []
  stack := []
  ibuf := []
  obuf := []
  freqTap := false
  codeTap := false
  finalized := false
  bioOut := .none
  marker := false
  rdata := 0
  draws := 0
  epoch := 0
  events := []

end Sys2Proof.Machine
end

