-- ==== Sys2Proof/Machine/Flags.lean ====
section
/-! DEFINITION. Sys2Proof/Machine/Flags.lean: `STATUS`, `FLAGS` and `ERR` as words. The block has no condition codes
(40_bitstream_io.md: "No operation of this file writes a flag: the block has no condition codes"), so there is no
other flag computation. -/

namespace Sys2Proof.Machine

/-- The 4-bit code of a phase (rule R24). -/
def Phase.code : Phase → BitVec 4
  | .idle => 0
  | .eCount => 1
  | .eBuild => 2
  | .eGen => 3
  | .eHdr => 4
  | .eTree => 5
  | .ePack => 6
  | .eFin => 7
  | .dHdr => 8
  | .dTree => 9
  | .dWalk => 10
  | .done => 14
  | .error => 15

/-- The phase that a code names (rule R24); the reserved codes name none (rule R107). -/
def phaseOfCode (c : BitVec 4) : Option Phase :=
  match c.toNat with
  | 0 => some .idle
  | 1 => some .eCount
  | 2 => some .eBuild
  | 3 => some .eGen
  | 4 => some .eHdr
  | 5 => some .eTree
  | 6 => some .ePack
  | 7 => some .eFin
  | 8 => some .dHdr
  | 9 => some .dTree
  | 10 => some .dWalk
  | 14 => some .done
  | 15 => some .error
  | _ => none

/-- `STATUS.STATE`, a function of `PHASE`: 0 `IDLE`, 1 `BUSY`, 2 `DONE`, 3 `ERROR` (rule R32). -/
def Phase.stateField : Phase → BitVec 2
  | .idle => 0
  | .done => 2
  | .error => 3
  | _ => 1

/-- `STATUS.STATE` is `BUSY` (rule R32). -/
def busy (s : State) : Bool := s.phase.stateField == 1

/-- `STATUS`: bits 1:0 `STATE`, bits 7:4 `PHASE`, all others 0 (rule R32). -/
def statusWord (s : State) : Word :=
  BitVec.ofNat 32 (16 * s.phase.code.toNat + s.phase.stateField.toNat)

/-- `FLAGS` read as a register: bits 2:0, all others 0 (rule R37). -/
def flagsWord (s : State) : Word := s.flags.setWidth 32

/-- `FLAGS.DIAG_FREQ` (rule R37). -/
def diagFreq (s : State) : Bool := s.flags.getLsbD 0

/-- `FLAGS.DIAG_CODE` (rule R37). -/
def diagCode (s : State) : Bool := s.flags.getLsbD 1

/-- `ERR.KIND` (rule R240). Kind 2 is never raised (rule R242). -/
def Cause.kind : Cause → Nat
  | .hdrTrunc | .treeTrunc | .payloadTrunc | .nodeOverflow | .leafrootBit1 => 1
  | .countSum | .codePrefix | .codeMissing => 3
  | .badCmd | .badIlen => 4
  | .encObufFull | .decNTooLarge => 5

/-- `ERR.SUB` (rule R240). -/
def Cause.sub : Cause → Nat
  | .hdrTrunc | .countSum | .badCmd | .encObufFull => 1
  | .treeTrunc | .codePrefix | .badIlen | .decNTooLarge => 2
  | .payloadTrunc | .codeMissing => 3
  | .nodeOverflow => 4
  | .leafrootBit1 => 5

/-- The value of `ERR`: `256 * SUB + KIND` (rule R240). -/
def Cause.word (c : Cause) : Word := BitVec.ofNat 32 (256 * c.sub + c.kind)

/-- `ERR.KIND`, bits 3:0 (rule R33). -/
def errKind (w : Word) : BitVec 4 := w.extractLsb' 0 4

end Sys2Proof.Machine
end

