-- ==== Sys2Proof/Machine/Operands.lean ====
section
/-! DEFINITION. Sys2Proof/Machine/Operands.lean: how numbers are laid out as stream bits and assembled from them
(rules R62, R63, R102, R103). The block's operations have no other operand form: there are no register numbers and
no addressing modes besides the cursors. -/

namespace Sys2Proof.Machine

/-- The low `n` bits of `v` in stream order, bit `n - 1` first (rules R62, R102, R103). -/
def bitsMsb : Nat → Nat → List Bool
  | 0, _ => []
  | n + 1, v => v.testBit n :: bitsMsb n v

/-- One step of the assembly of a number from stream bits: `v <- 2 * v + b` (rule R121). -/
def pushBit (v : Nat) (b : Bool) : Nat := 2 * v + b.toNat

/-- The number whose bits, most significant first, are the given stream bits (rule R102). -/
def bitsValue (bits : List Bool) : Nat := bits.foldl pushBit 0

/-- Bit `7 - (p mod 8)` of a byte: the stream bit at position `p` of the byte at address `p div 8` (rule R62). -/
def streamBitOf (byte : Byte) (p : Nat) : Bool := byte.getLsbD (7 - p % 8)

/-- The eight bits of a byte in stream order, most significant first (rule R102). -/
def byteBits (v : Byte) : List Bool := bitsMsb 8 v.toNat

/-- The four bytes of a 32-bit value in stream order, most significant first (rule R103). -/
def wordBytes (v : Word) : List Byte :=
  [v.extractLsb' 24 8, v.extractLsb' 16 8, v.extractLsb' 8 8, v.extractLsb' 0 8]

end Sys2Proof.Machine
end

