-- ==== Sys2Proof/Machine/Ops.lean ====
section
/-! DEFINITION. Sys2Proof/Machine/Ops.lean: the shared operations: sparse tables and buffers, the error entry, the
start of a command, the bit reader and the bit writer, the node memory, the symbol emitter. -/

namespace Sys2Proof.Machine

/-! ### Sparse tables in one canonical form -/

/-- What a table lists at a key. -/
def Table.get? {α : Type} : List (Nat × α) → Nat → Option α
  | [], _ => none
  | (k, v) :: t, i => if k = i then some v else Table.get? t i

/-- Writes a key, keeping the keys strictly rising. -/
def Table.set {α : Type} : List (Nat × α) → Nat → α → List (Nat × α)
  | [], i, v => [(i, v)]
  | (k, w) :: t, i, v =>
    if i < k then (i, v) :: (k, w) :: t
    else if i = k then (i, v) :: t
    else (k, w) :: Table.set t i v

/-- The keys of a table are strictly rising. -/
abbrev Table.rising {α : Type} (t : List (Nat × α)) : Prop := t.Pairwise fun a b => a.1 < b.1

/-- The canonical form of a buffer: addresses strictly rising. An unlisted address holds no byte that the spec
specifies (rule R50), which no listed byte equals, so a written byte is always listed (log 6). -/
abbrev Memory.wf (m : List Host.Cell) : Prop := Table.rising m

/-! ### Widths that depend on a parameter -/

/-- `PTR_W`: the least width that holds `NODE_CAP` - 1, 9 bits for `NODE_CAP` = 511 (rule R11). DESIGN CHOICE (log 17):
an infinite node memory has no last index, and the rule gives it no width. -/
def ptrWidth (p : Params) : Option Nat := p.nodeCap.map fun n => Nat.log2 (n - 1) + 1

/-- The width of `SEQ`, `PTR_W` + 1 (rule R11). -/
def seqWidth (p : Params) : Option Nat := (ptrWidth p).map (· + 1)

/-- A number fits a width, where there is one. -/
def fitsWidth (w : Option Nat) (i : Nat) : Bool :=
  match w with
  | none => true
  | some w => decide (i < 2 ^ w)

/-- The low bits of a number that a width keeps, where there is one. -/
def cutWidth (w : Option Nat) (i : Nat) : Nat :=
  match w with
  | none => i
  | some w => i % 2 ^ w

/-- The bits of a code that an entry of `CODE` has room for: `LEN` is at most 255 (rule R45). -/
def cutCode (c : List Bool) : List Bool := c.take 255

/-! ### The buffers -/

/-- The byte `IBUF` holds at an address of the space: the one written last, or else the unspecified but constant one
(rules R50, R70, R78; log 6). -/
def ibufByte (s : State) (a : Nat) : Byte :=
  (Table.get? s.ibuf a).getD (Config.ibufFill s.epoch a)

/-! ### Outcomes of the engine's operations -/

/-- How an operation of the engine ends: with a result; with the signal EOB, which the phase that asked for the read
turns into an error (rule R128); with the error entry performed, after which nothing else of the command happens (rule
R16); or with a stop. -/
inductive Flow (α : Type) where
  | ok (a : α) (s : State)
  | eob (s : State)
  | raised (s : State)
  | fault (r : Fault)
  | refused (r : Refusal)

/-- `call OP(args)` and then the next statement; whatever ends `OP` ends the caller too (rule R16). -/
def Flow.bind {α β : Type} (x : Flow α) (f : α → State → Flow β) : Flow β :=
  match x with
  | .ok a s => f a s
  | .eob s => .eob s
  | .raised s => .raised s
  | .fault r => .fault r
  | .refused r => .refused r

/-- The error entry, `raise Kind(SUB)` (rule R250). `ERR`, `OLEN`, `PQ`, `STACK` and `PHASE` as written there;
`CMD`, `FLAGS`, `ILEN`, `RPOS` and `WPOS` kept; what it calls unspecified is drawn free, no entry of `NODE` is known
any more, no token is half done, and both taps are not valid. `OBUF` keeps what the writer stored, as 93_implementation_defined.md U5 allows
(log 5). DESIGN CHOICE (log 17): what is drawn is cut to the width of its register, `PTR_W` for `ROOT` and `CUR`,
`PTR_W` + 1 for `SEQ`, 255 bits for a code; with `NODE_CAP` infinite the spec gives no `PTR_W`, and the first three are
any number. -/
def raise (c : Cause) (s : State) : State :=
  { s with
    err := c.word
    olen := 0
    pq := []
    stack := []
    phase := .error
    freqTap := false
    codeTap := false
    wacc := Config.freeByte s.draws
    nhdr := Config.freeWord s.draws
    nrem := Config.freeWord (s.draws + 1)
    iidx := Config.freeWord (s.draws + 2)
    root := (Config.freePtr s.draws).map (cutWidth (ptrWidth s.cfg))
    cur := (Config.freePtr (s.draws + 1)).map (cutWidth (ptrWidth s.cfg))
    seq := cutWidth (seqWidth s.cfg) (Config.freeSeq s.draws)
    freq := Config.freeCounts s.draws
    code := (Config.freeCodes s.draws).map cutCode
    node := []
    marker := false
    draws := s.draws + 3 }

/-- An EOB signal becomes the error of the phase that asked (rule R128). -/
def Flow.onEob {α : Type} (x : Flow α) (c : Cause) : Flow α :=
  match x with
  | .eob s => .raised (raise c s)
  | y => y

/-- The outcome of a whole operation. -/
def Flow.outcome (x : Flow Unit) : Host.Outcome State Fault Refusal :=
  match x with
  | .ok _ s => .next s
  | .eob s => .next s
  | .raised s => .next s
  | .fault r => .fault r
  | .refused r => .refused r

/-! ### The start of a command -/

/-- The initialisation of an accepted command write (rule R51). `NODE` needs no clearing there, because only
allocated entries are read; here no entry is allocated after it (log 8). -/
def initCommand (s : State) : State :=
  { s with
    err := 0
    flags := s.cmd.extractLsb' 2 3
    olen := 0
    rpos := 0
    wpos := 0
    wacc := 0
    nhdr := 0
    nrem := 0
    iidx := 0
    seq := 0
    root := none
    cur := none
    pq := []
    stack := []
    node := []
    freqTap := false
    codeTap := false
    finalized := false
    marker := false }

/-- The word is not a legal command: a reserved bit set, no mode, or both modes (rules R92, R246). -/
def illegalCmd (w : Word) : Bool :=
  w &&& 0xFFFFFFE0#32 != 0 || w.extractLsb' 0 2 == 0 || w.extractLsb' 0 2 == 3

/-- An accepted write of `w` to `CMD` (rule R246). -/
def acceptCmd (w : Word) (s : State) : State :=
  let s := initCommand { s with cmd := w }
  if illegalCmd w then raise .badCmd s
  else if s.cfg.ibufCap < s.ilen.toNat then raise .badIlen s
  else if w.getLsbD 0 then { s with phase := .eCount }
  else { s with phase := .dHdr }

/-- A write of `w` to `CMD`: accepted unless `STATE` is `BUSY`, when it changes nothing (rules R31, R246, R282). -/
def writeCmd (w : Word) (s : State) : State := if busy s then s else acceptCmd w s

/-! ### The reader -/

/-- `MemRead(IBUF, a, 1)` by the engine; an address beyond the space does not exist (rules R16, R60). -/
def memReadIbuf (a : Nat) (s : State) : Flow Byte :=
  if a < s.cfg.ibufCap then .ok (ibufByte s a) s else .fault (.noSuchIbufByte a)

/-- RDBIT (rule R120). -/
def rdBit (s : State) : Flow Bool :=
  if 8 * s.ilen.toNat ≤ s.rpos.toNat then .eob s
  else
    (memReadIbuf (s.rpos.toNat / 8) s).bind fun byte s =>
      .ok (streamBitOf byte s.rpos.toNat) { s with rpos := s.rpos + 1 }

/-- `n` RDBITs, the results in stream order. -/
def rdBits : Nat → State → Flow (List Bool)
  | 0, s => .ok [] s
  | n + 1, s =>
    (rdBit s).bind fun b s =>
      (rdBits n s).bind fun bs s => .ok (b :: bs) s

/-- RDBYTE: eight RDBITs, assembled most significant bit first (rules R102, R121). -/
def rdByte (s : State) : Flow Byte :=
  (rdBits 8 s).bind fun bits s => .ok (BitVec.ofNat 8 (bitsValue bits)) s

/-- `n` RDBYTEs accumulated big-endian: `v <- 256 * v + B` (rule R122). -/
def rdBytesBe : Nat → Nat → State → Flow Nat
  | 0, v, s => .ok v s
  | n + 1, v, s => (rdByte s).bind fun b s => rdBytesBe n (256 * v + b.toNat) s

/-- RDU32: four RDBYTEs, big-endian (rules R103, R122). -/
def rdU32 (s : State) : Flow Word :=
  (rdBytesBe 4 0 s).bind fun v s => .ok (BitVec.ofNat 32 v) s

/-! ### The writer -/

/-- Stores a completed byte at `OBUF[OLEN]`, or raises ENC_OBUF_FULL when it has no room (rules R124, R127). -/
def storeByte (v : Byte) (s : State) : Flow Unit :=
  if s.cfg.obufCap ≤ s.olen.toNat then .raised (raise .encObufFull s)
  else .ok () { s with obuf := Table.set s.obuf s.olen.toNat v, olen := s.olen + 1, wacc := 0 }

/-- WRBIT (rule R124). After FINALIZE the spec gives it no effect (93_implementation_defined.md U6; log 12). -/
def wrBit (b : Bool) (s : State) : Flow Unit :=
  if s.finalized then .refused .writeAfterFinalize
  else
    let s := { s with wacc := 2 * s.wacc + BitVec.ofNat 8 b.toNat, wpos := s.wpos + 1 }
    if s.wpos.toNat % 8 = 0 then storeByte s.wacc s else .ok () s

/-- WRBITs of a bit string, first bit first. -/
def wrBits : List Bool → State → Flow Unit
  | [], s => .ok () s
  | b :: bs, s => (wrBit b s).bind fun _ s => wrBits bs s

/-- WRBYTE: eight WRBITs, most significant bit first (rule R125). -/
def wrByte (v : Byte) (s : State) : Flow Unit := wrBits (byteBits v) s

/-- WRBYTEs of bytes, first byte first. -/
def wrBytes : List Byte → State → Flow Unit
  | [], s => .ok () s
  | v :: vs, s => (wrByte v s).bind fun _ s => wrBytes vs s

/-- WRU32: four WRBYTEs, big-endian (rule R126). -/
def wrU32 (v : Word) (s : State) : Flow Unit := wrBytes (wordBytes v) s

/-- FINALIZE: the pending bits, padded on the right with zeros (rule R127). -/
def finalizeOp (s : State) : Flow Unit :=
  let r := s.wpos.toNat % 8
  let s := { s with finalized := true }
  if r = 0 then .ok () s else storeByte (s.wacc <<< (8 - r)) s

/-! ### The node memory -/

/-- The entry a node pointer names (rules R28, R42). -/
def nodeAt (p : Option Nat) (s : State) : Flow Node :=
  match p with
  | none => .fault (.noSuchNode none)
  | some i =>
    match Table.get? s.node i with
    | some n => .ok n s
    | none => .fault (.noSuchNode (some i))

/-- `NODE` has an entry of index `i`: it lies below `NODE_CAP` (rules R10, R42). -/
def nodeFits (i : Nat) (s : State) : Bool :=
  match s.cfg.nodeCap with
  | none => true
  | some n => decide (i < n)

/-- `NODE[i] <- n`. -/
def setNode (i : Nat) (n : Node) (s : State) : Flow Unit :=
  if nodeFits i s then .ok () { s with node := Table.set s.node i n } else .fault (.noSuchNode (some i))

/-- The `COUNT` of a node (rule R42). -/
def Node.count : Node → Word
  | .leaf _ c _ => c
  | .internal _ _ c _ => c

/-- The `SEQ` of a node (rule R42). -/
def Node.seq : Node → Nat
  | .leaf _ _ q => q
  | .internal _ _ _ q => q

/-- An entry of `STACK` that is a node index alone. -/
def Frame.at (i : Nat) : Frame := { node := i, left := none, path := [] }

/-! ### The tables by symbol, and the emitter -/

/-- The 256 symbols in increasing order (rule R9). -/
def allSymbols : List Byte := (List.range 256).map (BitVec.ofNat 8)

/-- `FREQ[sym]` (rule R41). -/
def freqAt (s : State) (sym : Byte) : Word := s.freq[sym.toNat]'sym.isLt

/-- `CODE[sym]` (rule R45). -/
def codeAt (s : State) (sym : Byte) : List Bool := s.code[sym.toNat]'sym.isLt

/-- `FREQ[sym] <- v`. -/
def setFreq (sym : Byte) (v : Word) (s : State) : State :=
  { s with freq := s.freq.set sym.toNat v sym.isLt }

/-- `CODE[sym] <- path` (rule R170). No path of a tree over the 256 symbols is longer than the 255 bits of the entry (rule
R175); DESIGN CHOICE (log 17): of a longer one, which no command makes, the first 255 bits are kept. -/
def setCode (sym : Byte) (path : List Bool) (s : State) : State :=
  { s with code := s.code.set sym.toNat (cutCode path) sym.isLt }

/-- EMIT, the symbol emitter (rule R229). -/
def emit (sym : Byte) (s : State) : Flow Unit :=
  if s.olen.toNat < s.cfg.obufCap then
    .ok () { s with obuf := Table.set s.obuf s.olen.toNat sym, olen := s.olen + 1 }
  else .fault (.noSuchObufByte s.olen.toNat)

end Sys2Proof.Machine
end

