-- ==== Sys2Proof/Machine/Bio.lean ====
section
/-! DEFINITION. Sys2Proof/Machine/Bio.lean: the `BIO` family, the operations of the bitstream I/O controller
performed by themselves (40_bitstream_io.md; log 10). The phases call the same operations of Ops.lean. -/

namespace Sys2Proof.Machine

/-- A reading operation ends: its result, or the signal EOB, is on the result lines (rules R120, R123; log 10). -/
def readOutcome {α : Type} (toWord : α → Word) (x : Flow α) : Host.Outcome State Fault Refusal :=
  match x with
  | .ok a s => .next { s with bioOut := .value (toWord a) }
  | .eob s => .next { s with bioOut := .eob }
  | .raised s => .next s
  | .fault r => .fault r
  | .refused r => .refused r

/-- RDBIT (rule R120). -/
def execRdbit (s : State) : Host.Outcome State Fault Refusal :=
  readOutcome (fun b => BitVec.ofNat 32 b.toNat) (rdBit s)

/-- RDBYTE (rule R121). -/
def execRdbyte (s : State) : Host.Outcome State Fault Refusal :=
  readOutcome (fun v => v.setWidth 32) (rdByte s)

/-- RDU32 (rule R122). -/
def execRdu32 (s : State) : Host.Outcome State Fault Refusal :=
  readOutcome (fun v => v) (rdU32 s)

/-- WRBIT (rule R124). -/
def execWrbit (b : Bool) (s : State) : Host.Outcome State Fault Refusal := (wrBit b s).outcome

/-- WRBYTE (rule R125). -/
def execWrbyte (v : Nat) (s : State) : Host.Outcome State Fault Refusal := (wrByte (BitVec.ofNat 8 v) s).outcome

/-- WRU32 (rule R126). -/
def execWru32 (v : Nat) (s : State) : Host.Outcome State Fault Refusal := (wrU32 (BitVec.ofNat 32 v) s).outcome

/-- FINALIZE (rule R127). -/
def execFinalize (s : State) : Host.Outcome State Fault Refusal := (finalizeOp s).outcome

end Sys2Proof.Machine
end

