-- ==== Sys2Proof/Machine/Builder.lean ====
section
/-! DEFINITION. Sys2Proof/Machine/Builder.lean: the tree builder, E_BUILD (42_tree_builder.md). -/

namespace Sys2Proof.Machine

/-- `a` comes before `b` in the total order of rule R153. -/
def nodeBefore (a b : Node) : Bool :=
  if a.count ≠ b.count then decide (a.count < b.count)
  else
    match a, b with
    | .leaf x _ _, .leaf y _ _ => decide (x < y)
    | _, _ => decide (a.seq < b.seq)

/-- A node is created: it takes the index `SEQ`, joins `PQ`, and `SEQ` advances (rules R22, R151). -/
def addNode (n : Nat → Node) (s : State) : Flow Unit :=
  (setNode s.seq (n s.seq) s).bind fun _ s => .ok () { s with pq := s.pq ++ [s.seq], seq := s.seq + 1 }

/-- One leaf for each present symbol of the list, in its order (rule R152). -/
def seedLoop : List Byte → State → Flow Unit
  | [], s => .ok () s
  | sym :: syms, s =>
    if freqAt s sym = 0 then seedLoop syms s
    else (addNode (fun i => .leaf sym (freqAt s sym) i) s).bind fun _ s => seedLoop syms s

/-- The least of a candidate and the entries of a list of indices, by rule R153. -/
def leastLoop : List Nat → Nat → Node → State → Flow (Nat × Node)
  | [], i, n, s => .ok (i, n) s
  | j :: js, i, n, s =>
    (nodeAt (some j) s).bind fun m s =>
      if nodeBefore m n then leastLoop js j m s else leastLoop js i n s

/-- The least member of `PQ`, which leaves it (rules R151, R154). -/
def removeLeast (s : State) : Flow (Nat × Node) :=
  match s.pq with
  | [] => .fault (.noSuchNode none)
  | i :: is =>
    (nodeAt (some i) s).bind fun n s =>
      (leastLoop is i n s).bind fun a s => .ok a { s with pq := s.pq.erase a.1 }

/-- The loop of rule R154, at most `n` more merges: the node removed first becomes the left child. -/
def mergeLoop : Nat → State → Flow Unit
  | 0, s => .ok () s
  | n + 1, s =>
    if 2 ≤ s.pq.length then
      (removeLeast s).bind fun a s =>
        (removeLeast s).bind fun b s =>
          (addNode (fun i => .internal a.1 b.1 (a.2.count + b.2.count) i) s).bind fun _ s => mergeLoop n s
    else .ok () s

/-- The root (rules R155, R156). -/
def takeRoot (s : State) : State :=
  match s.pq with
  | [r] => { s with root := some r, pq := [] }
  | _ => { s with root := none }

/-- An allocated internal node has the sum of its children's counts (rule R160). -/
def countSumHolds (s : State) (i : Nat) (n : Node) : Bool :=
  match n with
  | .leaf _ _ _ => true
  | .internal l r c _ =>
    if i < s.seq then
      match Table.get? s.node l, Table.get? s.node r with
      | some nl, some nr => c == nl.count + nr.count
      | _, _ => false
    else true

/-- The check of rule R160, and on to E_GEN. -/
def checkCounts (s : State) : Flow Unit :=
  if s.cfg.invariantChecks && !(s.node.all fun e => countSumHolds s e.1 e.2) then .raised (raise .countSum s)
  else .ok () { s with phase := .eGen }

/-- E_BUILD (rule R151). -/
def execEBuild (s : State) : Host.Outcome State Fault Refusal :=
  ((seedLoop allSymbols s).bind fun _ s =>
    (mergeLoop s.pq.length s).bind fun _ s => checkCounts (takeRoot s)).outcome

end Sys2Proof.Machine
end

