-- ==== Sys2Proof/Syntax.lean ====
section
/-! DEFINITION. Sys2Proof/Syntax.lean: the 22 operations of the opcode table, one constructor each (rules R12, R90
and R108). -/

namespace Sys2Proof

/-- An operation of the block, in one of the four senses of rule R12.
(a) `CMD`: a command word written to the `CMD` register, with its three flag bits (rule R91).
(b) `PHASE`: the unit of work the engine performs while `PHASE` holds its code (rule R93).
(c) `BIO`: an operation of the bitstream I/O controller (rule R94), the writing ones with their operand.
(d) `WIRE`: a token of the compressed stream (rules R95 to R97).
Operands that the spec gives as a number of a stated range are numbers here, and `WellFormed` is that range. -/
inductive Instr where
  | encode (diagFreq diagCode diagBits : Bool)
  | decode (diagFreq diagCode diagBits : Bool)
  | eCount
  | eBuild
  | eGen
  | eHdr
  | eTree
  | ePack
  | eFin
  | dHdr
  | dTree
  | dWalk
  | rdbit
  | rdbyte
  | rdu32
  | wrbit (b : Bool)
  | wrbyte (v : Nat)
  | wru32 (v : Nat)
  | finalize
  | lenhdr (n : Nat)
  | tnodeInt
  | tnodeLeaf (s : Nat)
deriving DecidableEq, Repr

end Sys2Proof
end

