-- ==== Sys2Proof/Decode.lean ====
section
/-! DEFINITION. Sys2Proof/Decode.lean: the encodings of 30_encoding.md. `decode` is total on every word of every
format and rejects by name; `encode` is written from the same tables; `decodeTableWord` reads a word numbered as the
opcode table numbers it. -/

namespace Sys2Proof

open Sys2Proof.Machine (bitsMsb bitsValue)

/-- The bits of an operation where the block sees them (rule R90): the word of a write to `CMD`; the 4-bit value of
`STATUS[7:4]`; the 3-bit select of the I/O controller beside its operand lines; stream bits at the place of the
header; stream bits at the place of a tree token. The format is part of the place, never of the bits: the same code
value stands for different operations in different formats (log 9). DESIGN CHOICE (log 10): the operand lines are 32
bits wide and an operation with a shorter operand, or none, has zeros on the rest. -/
inductive Code where
  | cmd (w : Word)
  | phase (c : BitVec 4)
  | bio (sel : BitVec 3) (operand : Word)
  | header (bits : List Bool)
  | tree (bits : List Bool)
deriving DecidableEq, Repr

/-- Why a word is no operation. -/
inductive Reject where
  /-- `CMD`: a bit of 31:5 is set (rule R92). -/
  | cmdReservedBits
  /-- `CMD`: neither `enc` nor `dec` (rule R92). -/
  | cmdNoMode
  /-- `CMD`: both `enc` and `dec` (rule R92). -/
  | cmdBothModes
  /-- `PHASE`: codes 0, 14, 15, states in which the engine performs no operation (rule R93). -/
  | phaseNoOperation
  /-- `PHASE`: the reserved codes 11, 12, 13 (rule R107). -/
  | phaseReserved
  /-- `BIO`: the reserved select 3 (rule R107). -/
  | bioReserved
  /-- `BIO`: bits on operand lines that the operation does not have. -/
  | bioOperandTooWide
  /-- `WIRE`: a header that is not 32 bits (rule R95). -/
  | headerLength
  /-- `WIRE`: a tree token that is not one `0`, or a `1` and eight bits (rules R96, R97). -/
  | treeTokenLength
deriving DecidableEq, Repr

/-- The `CMD` format (rules R91, R92). -/
def decodeCmd (w : Word) : Except Reject Instr :=
  if w.extractLsb' 5 27 ≠ 0 then .error .cmdReservedBits
  else
    match w.getLsbD 0, w.getLsbD 1 with
    | true, false => .ok (.encode (w.getLsbD 2) (w.getLsbD 3) (w.getLsbD 4))
    | false, true => .ok (.decode (w.getLsbD 2) (w.getLsbD 3) (w.getLsbD 4))
    | false, false => .error .cmdNoMode
    | true, true => .error .cmdBothModes

/-- The `PHASE` format (rule R93). -/
def decodePhase (c : BitVec 4) : Except Reject Instr :=
  match c.toNat with
  | 1 => .ok .eCount
  | 2 => .ok .eBuild
  | 3 => .ok .eGen
  | 4 => .ok .eHdr
  | 5 => .ok .eTree
  | 6 => .ok .ePack
  | 7 => .ok .eFin
  | 8 => .ok .dHdr
  | 9 => .ok .dTree
  | 10 => .ok .dWalk
  | 11 | 12 | 13 => .error .phaseReserved
  | _ => .error .phaseNoOperation

/-- An operation without operand: its operand lines are 0 (log 10). -/
def bioPlain (operand : Word) (i : Instr) : Except Reject Instr :=
  if operand = 0 then .ok i else .error .bioOperandTooWide

/-- The `BIO` format (rule R94). -/
def decodeBio (sel : BitVec 3) (operand : Word) : Except Reject Instr :=
  match sel.toNat with
  | 0 => bioPlain operand .rdbit
  | 1 => bioPlain operand .rdbyte
  | 2 => bioPlain operand .rdu32
  | 4 => if operand.toNat < 2 then .ok (.wrbit (operand.getLsbD 0)) else .error .bioOperandTooWide
  | 5 => if operand.toNat < 2 ^ 8 then .ok (.wrbyte operand.toNat) else .error .bioOperandTooWide
  | 6 => .ok (.wru32 operand.toNat)
  | 7 => bioPlain operand .finalize
  | _ => .error .bioReserved

/-- LENHDR: the first 32 bits of the compressed buffer, bit 31 of N first (rule R95). -/
def decodeHeader (bits : List Bool) : Except Reject Instr :=
  if bits.length = 32 then .ok (.lenhdr (bitsValue bits)) else .error .headerLength

/-- How many bits a tree token has, told from its first bit (rule R105). -/
def treeTokenWidth (marker : Bool) : Nat := if marker then 9 else 1

/-- TNODE_INT and TNODE_LEAF (rules R96, R97). -/
def decodeTree (bits : List Bool) : Except Reject Instr :=
  match bits with
  | [false] => .ok .tnodeInt
  | true :: sym => if sym.length = 8 then .ok (.tnodeLeaf (bitsValue sym)) else .error .treeTokenLength
  | _ => .error .treeTokenLength

/-- The operation that a word of a format stands for, or the name of what is wrong with it. -/
def decode : Code → Except Reject Instr
  | .cmd w => decodeCmd w
  | .phase c => decodePhase c
  | .bio sel operand => decodeBio sel operand
  | .header bits => decodeHeader bits
  | .tree bits => decodeTree bits

/-- A command word: the mode bits and the flags at bits 2, 3 and 4 (rules R91, R110). -/
def cmdWord (mode : Nat) (diagFreq diagCode diagBits : Bool) : Word :=
  BitVec.ofNat 32 (mode + 4 * diagFreq.toNat + 8 * diagCode.toNat + 16 * diagBits.toNat)

/-- The bits of an operation, from the tables of rules R91, R93, R94 and the patterns of rules R95 to R97. -/
def encode : Instr → Code
  | .encode f c b => .cmd (cmdWord 1 f c b)
  | .decode f c b => .cmd (cmdWord 2 f c b)
  | .eCount => .phase 1
  | .eBuild => .phase 2
  | .eGen => .phase 3
  | .eHdr => .phase 4
  | .eTree => .phase 5
  | .ePack => .phase 6
  | .eFin => .phase 7
  | .dHdr => .phase 8
  | .dTree => .phase 9
  | .dWalk => .phase 10
  | .rdbit => .bio 0 0
  | .rdbyte => .bio 1 0
  | .rdu32 => .bio 2 0
  | .wrbit b => .bio 4 (BitVec.ofNat 32 b.toNat)
  | .wrbyte v => .bio 5 (BitVec.ofNat 32 v)
  | .wru32 v => .bio 6 (BitVec.ofNat 32 v)
  | .finalize => .bio 7 0
  | .lenhdr n => .header (bitsMsb 32 n)
  | .tnodeInt => .tree [false]
  | .tnodeLeaf s => .tree (true :: bitsMsb 8 s)

/-- The readings of a word of the opcode table, in the order they are tried. The table's widths are 32 (`CMD` and
LENHDR), 4 (`PHASE`), 3 (`BIO`), 1 and 9 (tree tokens); a width that is no whole number of bytes may come rounded up
(8 for 4, 3 and 1; 16 for 9). DESIGN CHOICE (log 9): a container does not say its format, so an 8-bit one is read as
a `PHASE` code where it is the code of an operation, then as a `BIO` select, then as a tree token, and a 32-bit one as
a command where it is a legal one, then as a header. -/
def tableReadings (nbits w : Nat) : List Code :=
  let cmd := if w < 2 ^ 32 then [Code.cmd (BitVec.ofNat 32 w), Code.header (bitsMsb 32 w)] else []
  let phase := if w < 2 ^ 4 then [Code.phase (BitVec.ofNat 4 w)] else []
  let bio := if w < 2 ^ 3 then [Code.bio (BitVec.ofNat 3 w) 0] else []
  let int := if w < 2 then [Code.tree (bitsMsb 1 w)] else []
  let leaf := if w < 2 ^ 9 then [Code.tree (bitsMsb 9 w)] else []
  match nbits with
  | 32 => cmd
  | 16 => leaf
  | 9 => leaf
  | 8 => phase ++ bio ++ int
  | 4 => phase
  | 3 => bio
  | 1 => int
  | _ => []

/-- The first reading that is an operation, with that operation. -/
def firstReading : List Code → Option (Code × Instr)
  | [] => none
  | c :: cs =>
    match decode c with
    | .ok i => some (c, i)
    | .error _ => firstReading cs

/-- The operation the decoder reads from a word numbered as the opcode table numbers it. -/
def decodeTableWord (nbits w : Nat) : Option Instr :=
  (firstReading (tableReadings nbits w)).map Prod.snd

end Sys2Proof
end

