-- ==== Sys2Proof/Machine/Cmd.lean ====
section
/-! DEFINITION. Sys2Proof/Machine/Cmd.lean: the `CMD` family, ENCODE and DECODE: a host write of the command word
(rules R200, R220, R246). What the command then does is its phases, one turn of the engine each (log 1). -/

namespace Sys2Proof.Machine

/-- ENCODE (rule R200): the write of an ENCODE word to `CMD`. While `BUSY` the write changes nothing (rule R282). -/
def execEncode (f c b : Bool) (s : State) : Host.Outcome State Fault Refusal :=
  .next (writeCmd (cmdWord 1 f c b) s)

/-- DECODE (rule R220): the write of a DECODE word to `CMD`. While `BUSY` the write changes nothing (rule R282). -/
def execDecode (f c b : Bool) (s : State) : Host.Outcome State Fault Refusal :=
  .next (writeCmd (cmdWord 2 f c b) s)

end Sys2Proof.Machine
end

