-- ==== Sys2Proof/Machine/CodeGen.lean ====
section
/-! DEFINITION. Sys2Proof/Machine/CodeGen.lean: the code table generator, E_GEN (43_code_table_generator.md). -/

namespace Sys2Proof.Machine

/-- GEN, run with `STACK` in place of the recursion (rules R46, R170), at most `n` more nodes. -/
def genLoop : Nat → State → Flow Unit
  | 0, s => if s.stack.isEmpty then .ok () s else .fault .treeNotFinite
  | n + 1, s =>
    match s.stack with
    | [] => .ok () s
    | fr :: rest =>
      (nodeAt (some fr.node) s).bind fun nd s =>
        match nd with
        | .leaf sym _ _ => genLoop n (setCode sym fr.path { s with stack := rest })
        | .internal l r _ _ =>
          genLoop n { s with
            stack := { node := l, left := none, path := fr.path ++ [false] } ::
              { node := r, left := none, path := fr.path ++ [true] } :: rest }

/-- The codes of the table, by the root (rules R171, R172, R173). Each node of a tree is visited once, so the number
of allocated entries bounds the traversal. -/
def genCodes (s : State) : Flow Unit :=
  match s.root with
  | none => .ok () s
  | some r =>
    (nodeAt (some r) s).bind fun nd s =>
      match nd with
      | .leaf sym _ _ => .ok () (setCode sym [false] s)
      | .internal _ _ _ _ => genLoop s.node.length { s with stack := [Frame.at r] }

/-- No string of the list is a prefix of another; equal strings count as prefixes (rule R176). -/
def prefixFree : List (List Bool) → Bool
  | [] => true
  | c :: cs => (cs.all fun d => !c.isPrefixOf d && !d.isPrefixOf c) && prefixFree cs

/-- Check (a) of rule R176. -/
def codesPrefixFree (s : State) : Bool := prefixFree (s.code.toList.filter fun c => !c.isEmpty)

/-- Check (b) of rule R176. -/
def codesMatchCounts (s : State) : Bool :=
  allSymbols.all fun sym => (codeAt s sym).isEmpty == (freqAt s sym == 0)

/-- The checks of rule R176, (a) before (b), and on to E_HDR. -/
def checkCodes (s : State) : Flow Unit :=
  if s.cfg.invariantChecks && !codesPrefixFree s then .raised (raise .codePrefix s)
  else if s.cfg.invariantChecks && !codesMatchCounts s then .raised (raise .codeMissing s)
  else .ok () { s with phase := .eHdr }

/-- E_GEN (rule R170). -/
def execEGen (s : State) : Host.Outcome State Fault Refusal :=
  ((genCodes { s with code := Vector.replicate 256 [] }).bind fun _ s => checkCodes s).outcome

end Sys2Proof.Machine
end

