-- ==== Sys2Proof/Machine/TreeCodec.lean ====
section
/-! DEFINITION. Sys2Proof/Machine/TreeCodec.lean: the tree serializer E_TREE and the tree deserializer D_TREE
(44_tree_codec.md). -/

namespace Sys2Proof.Machine

/-- The token of an internal node is written (rules R96, R185). -/
def writeInt (s : State) : Flow Unit := wrBit false s

/-- The token of a leaf is written (rules R97, R185). -/
def writeLeaf (sym : Byte) (s : State) : Flow Unit := (wrBit true s).bind fun _ s => wrByte sym s

/-- SER, run with `STACK` in place of the recursion (rules R46, R185), at most `n` more nodes. -/
def serLoop : Nat → State → Flow Unit
  | 0, s => if s.stack.isEmpty then .ok () s else .fault .treeNotFinite
  | n + 1, s =>
    match s.stack with
    | [] => .ok () s
    | fr :: rest =>
      (nodeAt (some fr.node) s).bind fun nd s =>
        match nd with
        | .leaf sym _ _ => (writeLeaf sym { s with stack := rest }).bind fun _ s => serLoop n s
        | .internal l r _ _ =>
          (writeInt { s with stack := Frame.at l :: Frame.at r :: rest }).bind fun _ s => serLoop n s

/-- The serialization of the tree at `ROOT`; nothing when there is none (rules R185, R188). Where `STACK` holds nodes
still to be written, it goes on with them (log 10). -/
def serTree (s : State) : Flow Unit :=
  match s.stack with
  | [] =>
    match s.root with
    | none => .ok () s
    | some r => serLoop s.node.length { s with stack := [Frame.at r] }
  | _ :: _ => serLoop s.node.length s

/-- E_TREE (rule R185). -/
def execETree (s : State) : Host.Outcome State Fault Refusal :=
  ((serTree s).bind fun _ s => .ok () { s with phase := .ePack }).outcome

/-- DES has read the subtree at index `i` and returns it to the node that waits for it; the result says whether the
whole tree is read (rules R46, R190). -/
def desReturn : List Frame → Nat → State → Flow Bool
  | [], i, s => .ok true { s with stack := [], root := some i }
  | fr :: rest, i, s =>
    match fr.left with
    | none => .ok false { s with stack := { node := fr.node, left := some i, path := [] } :: rest }
    | some l =>
      (setNode fr.node (.internal l i 0 fr.node) s).bind fun _ s => desReturn rest fr.node s

/-- The node of index `SEQ` is an internal one: its children are read next (rule R190). -/
def desInt (s : State) : Flow Bool :=
  .ok false { s with stack := Frame.at s.seq :: s.stack, seq := s.seq + 1 }

/-- The node of index `SEQ` is the leaf of `sym` (rule R190). -/
def desLeaf (sym : Byte) (s : State) : Flow Bool :=
  (setNode s.seq (.leaf sym 0 s.seq) s).bind fun _ s => desReturn s.stack s.seq { s with seq := s.seq + 1 }

/-- The node capacity test of DES, made before the marker bit is read (rule R190). -/
def desRoom (s : State) : Flow Unit :=
  if nodeFits s.seq s then .ok () s else .raised (raise .nodeOverflow s)

/-- One token of the tree is read from the stream (rule R190). -/
def desToken (s : State) : Flow Bool :=
  (desRoom s).bind fun _ s =>
    ((rdBit s).onEob .treeTrunc).bind fun m s =>
      if m then ((rdByte s).onEob .treeTrunc).bind fun sym s => desLeaf sym s
      else desInt s

/-- DES, run with `STACK` in place of the recursion (rules R46, R190), at most `n` more tokens. -/
def desLoop : Nat → State → Flow Unit
  | 0, _ => .fault .treeNotFinite
  | n + 1, s => (desToken s).bind fun whole s => if whole then .ok () s else desLoop n s

/-- How many bits the reader still has, and one. Each token takes at least one bit, so it bounds DES and the walk. -/
def bitsLeft (s : State) : Nat := 8 * s.ilen.toNat - s.rpos.toNat + 1

/-- D_TREE (rule R189). It starts with an empty `STACK`; with one it finds, it goes on where the tokens so far left
off (log 10, log 11). -/
def execDTree (s : State) : Host.Outcome State Fault Refusal :=
  ((desLoop (bitsLeft s) s).bind fun _ s => .ok () { s with phase := .dWalk }).outcome

end Sys2Proof.Machine
end

