-- ==== Sys2Proof/Machine/Decoder.lean ====
section
/-! DEFINITION. Sys2Proof/Machine/Decoder.lean: the decoder's phases D_HDR and D_WALK (46_decoder.md). -/

namespace Sys2Proof.Machine

/-- What D_HDR does with the N it has read (rules R222, R223). -/
def headerRead (n : Word) (s : State) : Flow Unit :=
  let s := { s with nhdr := n, nrem := n }
  if s.cfg.obufCap < n.toNat then .raised (raise .decNTooLarge s)
  else if n = 0 then .ok () { s with phase := .done }
  else .ok () { s with phase := .dTree }

/-- D_HDR (rule R222). -/
def execDHdr (s : State) : Host.Outcome State Fault Refusal :=
  (((rdU32 s).onEob .hdrTrunc).bind fun n s => headerRead n s).outcome

/-- From an internal node with the given children down to a leaf, one bit per branch (rules R226, R227), at most `n`
more bits. -/
def descend : Nat → Nat → Nat → State → Flow Byte
  | 0, _, _, _ => .fault .treeNotFinite
  | n + 1, l, r, s =>
    ((rdBit s).onEob .payloadTrunc).bind fun b s =>
      let s := { s with cur := some (if b then r else l) }
      (nodeAt s.cur s).bind fun nd s =>
        match nd with
        | .leaf sym _ _ => .ok sym s
        | .internal l r _ _ => descend n l r s

/-- The symbol of a tree that is a single leaf: one bit is consumed, and the policy decides about a 1 (rule R228). -/
def walkLeafRoot (sym : Byte) (s : State) : Flow Byte :=
  ((rdBit s).onEob .payloadTrunc).bind fun b s =>
    if b && s.cfg.leafrootBit1 == .fault then .raised (raise .leafrootBit1 s) else .ok sym s

/-- One symbol of the payload (rule R226). -/
def walkSymbol (s : State) : Flow Byte :=
  let s := { s with cur := s.root }
  (nodeAt s.cur s).bind fun nd s =>
    match nd with
    | .leaf sym _ _ => walkLeafRoot sym s
    | .internal l r _ _ => descend (bitsLeft s) l r s

/-- The loop of D_WALK, at most `n` more symbols (rule R226). -/
def walkLoop : Nat → State → Flow Unit
  | 0, s => .ok () s
  | n + 1, s =>
    if s.nrem = 0 then .ok () s
    else
      (walkSymbol s).bind fun sym s =>
        (emit sym s).bind fun _ s => walkLoop n { s with nrem := s.nrem - 1 }

/-- D_WALK, the bit-stream walker (rule R226). -/
def execDWalk (s : State) : Host.Outcome State Fault Refusal :=
  ((walkLoop s.nrem.toNat s).bind fun _ s => .ok () { s with phase := .done }).outcome

end Sys2Proof.Machine
end

