-- ==== Sys2Proof/Machine/Encoder.lean ====
section
/-! DEFINITION. Sys2Proof/Machine/Encoder.lean: the frequency analyzer (E_COUNT) and the encoder's own phases E_HDR,
E_PACK and E_FIN. -/

namespace Sys2Proof.Machine

/-- The loop of E_COUNT, at most `n` more iterations (rule R141). -/
def countLoop : Nat → State → Flow Unit
  | 0, s => .ok () s
  | n + 1, s =>
    if s.iidx < s.ilen then
      (memReadIbuf s.iidx.toNat s).bind fun sym s =>
        countLoop n { setFreq sym (freqAt s sym + 1) s with iidx := s.iidx + 1 }
    else .ok () s

/-- E_COUNT (rule R141). -/
def execECount (s : State) : Host.Outcome State Fault Refusal :=
  let s := { s with freq := Vector.replicate 256 0, iidx := 0 }
  ((countLoop s.ilen.toNat s).bind fun _ s => .ok () { s with phase := .eBuild }).outcome

/-- The write of the header: `NHDR <- N`, WRU32, and on to E_TREE (rule R204). -/
def writeHeader (n : Word) (s : State) : Flow Unit :=
  (wrU32 n { s with nhdr := n }).bind fun _ s => .ok () { s with phase := .eTree }

/-- E_HDR (rule R204). -/
def execEHdr (s : State) : Host.Outcome State Fault Refusal := (writeHeader s.ilen s).outcome

/-- The loop of E_PACK, at most `n` more iterations (rule R207). -/
def packLoop : Nat → State → Flow Unit
  | 0, s => .ok () s
  | n + 1, s =>
    if s.iidx < s.ilen then
      (memReadIbuf s.iidx.toNat s).bind fun sym s =>
        (wrBits (codeAt s sym) s).bind fun _ s => packLoop n { s with iidx := s.iidx + 1 }
    else .ok () s

/-- E_PACK, the bit-packer (rule R207). -/
def execEPack (s : State) : Host.Outcome State Fault Refusal :=
  ((packLoop s.ilen.toNat { s with iidx := 0 }).bind fun _ s => .ok () { s with phase := .eFin }).outcome

/-- What E_FIN does after FINALIZE: the taps that the flags ask for become valid (rule R209). -/
def finishEncode (s : State) : State :=
  { s with
    freqTap := s.freqTap || diagFreq s
    codeTap := s.codeTap || diagCode s
    phase := .done }

/-- E_FIN (rule R209). -/
def execEFin (s : State) : Host.Outcome State Fault Refusal :=
  ((finalizeOp s).bind fun _ s => .ok () (finishEncode s)).outcome

end Sys2Proof.Machine
end

