-- ==== Sys2Proof/Machine/Wire.lean ====
section
/-! DEFINITION. Sys2Proof/Machine/Wire.lean: the `WIRE` family, what one token of the stream does (rules R95 to R97;
log 11). In the phase that writes it, it is appended to the output stream. In the phase that reads it, it is the token
at `RPOS`, which moves past it, and it has the effect that D_HDR and D_TREE give it. In every other phase nothing
writes or reads it. -/

namespace Sys2Proof.Machine

/-- LENHDR: "Written by E_HDR, read by D_HDR" (rules R95, R204, R222). -/
def execLenhdr (n : Nat) (s : State) : Host.Outcome State Fault Refusal :=
  match s.phase with
  | .eHdr => (writeHeader (BitVec.ofNat 32 n) s).outcome
  | .dHdr => (headerRead (BitVec.ofNat 32 n) { s with rpos := s.rpos + 32 }).outcome
  | _ => .refused .tokenOutOfPhase

/-- After a token of the tree: when the tree is whole, D_TREE ends (rule R189). -/
def treeTokenEnd (whole : Bool) (s : State) : State := if whole then { s with phase := .dWalk } else s

/-- TNODE_INT (rules R96, R185, R190). -/
def execTnodeInt (s : State) : Host.Outcome State Fault Refusal :=
  match s.phase with
  | .eTree => (writeInt s).outcome
  | .dTree =>
    ((desRoom s).bind fun _ s =>
      (desInt { s with rpos := s.rpos + 1 }).bind fun whole s => .ok () (treeTokenEnd whole s)).outcome
  | _ => .refused .tokenOutOfPhase

/-- TNODE_LEAF (rules R97, R185, R190). -/
def execTnodeLeaf (sym : Nat) (s : State) : Host.Outcome State Fault Refusal :=
  match s.phase with
  | .eTree => (writeLeaf (BitVec.ofNat 8 sym) s).outcome
  | .dTree =>
    ((desRoom s).bind fun _ s =>
      (desLeaf (BitVec.ofNat 8 sym) { s with rpos := s.rpos + 9 }).bind fun whole s =>
        .ok () (treeTokenEnd whole s)).outcome
  | _ => .refused .tokenOutOfPhase

end Sys2Proof.Machine
end

