-- ==== Sys2Proof/Machine/Dispatch.lean ====
section
/-! DEFINITION. Sys2Proof/Machine/Dispatch.lean: one arm per operation of the opcode table. -/

namespace Sys2Proof.Machine

def exec (i : Instr) (s : State) : Host.Outcome State Fault Refusal :=
  match i with
  | .encode f c b => Sys2Proof.Machine.execEncode f c b s
  | .decode f c b => Sys2Proof.Machine.execDecode f c b s
  | .eCount => Sys2Proof.Machine.execECount s
  | .eBuild => Sys2Proof.Machine.execEBuild s
  | .eGen => Sys2Proof.Machine.execEGen s
  | .eHdr => Sys2Proof.Machine.execEHdr s
  | .eTree => Sys2Proof.Machine.execETree s
  | .ePack => Sys2Proof.Machine.execEPack s
  | .eFin => Sys2Proof.Machine.execEFin s
  | .dHdr => Sys2Proof.Machine.execDHdr s
  | .dTree => Sys2Proof.Machine.execDTree s
  | .dWalk => Sys2Proof.Machine.execDWalk s
  | .rdbit => Sys2Proof.Machine.execRdbit s
  | .rdbyte => Sys2Proof.Machine.execRdbyte s
  | .rdu32 => Sys2Proof.Machine.execRdu32 s
  | .wrbit b => Sys2Proof.Machine.execWrbit b s
  | .wrbyte v => Sys2Proof.Machine.execWrbyte v s
  | .wru32 v => Sys2Proof.Machine.execWru32 v s
  | .finalize => Sys2Proof.Machine.execFinalize s
  | .lenhdr n => Sys2Proof.Machine.execLenhdr n s
  | .tnodeInt => Sys2Proof.Machine.execTnodeInt s
  | .tnodeLeaf sym => Sys2Proof.Machine.execTnodeLeaf sym s

end Sys2Proof.Machine
end

