-- ==== Sys2Proof/Machine/HostPort.lean ====
section
/-! DEFINITION. Sys2Proof/Machine/HostPort.lean: what the host reads and writes (10_state.md sections 5, 6 and 8,
20_memory.md, 70_reset_and_hazards.md). The write to `CMD`, which starts a command, is in Turn.lean. -/

namespace Sys2Proof.Machine

/-- What a host read returns: a value, or one the spec leaves unspecified (rules R39, R40, R48, R283). -/
inductive ReadValue where
  | value (v : Word)
  | unspecified
deriving DecidableEq, Repr

/-- A read whose value is true only outside `BUSY` (rules R35, R76, R283). DESIGN CHOICE (log 23): outside `BUSY` it is true
at once, also before a read of `STATUS` has returned `DONE` or `ERROR`, from when on rules R76 and R281 promise it. -/
def whenIdle (s : State) (v : Word) : ReadValue := if busy s then .unspecified else .value v

/-- Word `w` of the bits of a code: code bit `j` is bit `31 - (j mod 32)` of word `1 + (j div 32)`, and bits beyond
the code read 0 (rule R40). -/
def codeWord (code : List Bool) (w : Nat) : Word :=
  BitVec.ofNat 32 (bitsValue ((List.range 32).map fun j => (code[32 * (w - 1) + j]?).getD false))

/-- The `FREQ` tap of symbol `sym` (rule R39). -/
def readFreqTap (s : State) (sym : Nat) : ReadValue :=
  if s.freqTap then whenIdle s (freqAt s (BitVec.ofNat 8 sym)) else .unspecified

/-- Word `w` of the `CODE` tap of symbol `sym` (rule R40). -/
def readCodeTap (s : State) (sym w : Nat) : ReadValue :=
  if s.codeTap then
    whenIdle s
      (if w = 0 then BitVec.ofNat 32 (codeAt s (BitVec.ofNat 8 sym)).length
       else if w ≤ 8 then codeWord (codeAt s (BitVec.ofNat 8 sym)) w
       else 0)
  else .unspecified

/-- A read of an aligned word of `REG` (rules R30 to R40, R283). -/
def readAligned (s : State) (off : Nat) : ReadValue :=
  if 0x4000 ≤ off then readCodeTap s ((off - 0x4000) / 64) ((off - 0x4000) % 64 / 4)
  else if 0x400 ≤ off ∧ off < 0x800 then readFreqTap s ((off - 0x400) / 4)
  else
    match off with
    | 0x00 => .value s.cmd
    | 0x04 => .value (statusWord s)
    | 0x08 => whenIdle s s.err
    | 0x0C => .value s.ilen
    | 0x10 => whenIdle s s.olen
    | 0x14 => whenIdle s (s.rpos.extractLsb' 0 32)
    | 0x18 => whenIdle s ((s.rpos.extractLsb' 32 4).setWidth 32)
    | 0x1C => whenIdle s (s.wpos.extractLsb' 0 32)
    | 0x20 => whenIdle s ((s.wpos.extractLsb' 32 4).setWidth 32)
    | 0x24 => .value (flagsWord s)
    | _ => .value 0

/-- A read of one word at an offset of `REG`: an access that is not aligned reads 0 (rule R38). -/
def readReg (s : State) (off : BitVec 15) : ReadValue :=
  if off.toNat % 4 = 0 then readAligned s off.toNat else .value 0

/-- A read of `OBUF`: after `DONE` the bytes below `OLEN` are the result; every other byte is unspecified (rules R48,
R76, R284). They are the result before a read of `STATUS` has returned `DONE`, too (log 23). -/
def readObufByte (s : State) (a : Nat) : ReadValue :=
  if s.phase = .done ∧ a < s.olen.toNat then
    match Table.get? s.obuf a with
    | some v => .value (v.setWidth 32)
    | none => .unspecified
  else .unspecified

/-- The host receives what its read returns; an unspecified value is a free draw on each read (rule R283; log 4). -/
def deliver (r : ReadValue) (s : State) : State :=
  match r with
  | .value v => { s with rdata := v }
  | .unspecified => { s with rdata := Config.freeWord s.draws, draws := s.draws + 1 }

/-- The host receives a byte of a buffer; an unspecified one is a free draw (log 4). -/
def deliverByte (r : ReadValue) (s : State) : State :=
  match r with
  | .value v => { s with rdata := v }
  | .unspecified => { s with rdata := (Config.freeByte s.draws).setWidth 32, draws := s.draws + 1 }

/-- A host write to `ILEN`, ignored while `BUSY` (rules R34, R282). -/
def writeIlen (v : Word) (s : State) : State := if busy s then s else { s with ilen := v }

/-- A host write to a byte of `IBUF`, ignored while `BUSY` (rules R60, R282). -/
def writeIbufByte (a : Nat) (v : Byte) (s : State) : State :=
  if busy s then s else { s with ibuf := Table.set s.ibuf a v }

/-- The accesses of `LOOPBACK` for an output of `n` bytes: each byte of `OBUF` read and written to `IBUF`, then
`ILEN` written with `OLEN` (rule R111). -/
def loopbackAccesses (n : Word) : List Event :=
  ((List.range n.toNat).flatMap fun a => [.host (.readObuf a), .host (.copyToIbuf a)]) ++
    [.host (.read32 0x10), .host (.write32 0x0C n)]

/-- The reset input (rules R50, R270, R271): every register at its reset value, and what `IBUF` holds unspecified
anew (log 6). The parameters, the host's script and the model's counters are no registers (log 7). -/
def resetInput (s : State) : State :=
  { State.reset with cfg := s.cfg, events := s.events, rdata := s.rdata, draws := s.draws, epoch := s.epoch + 1 }

end Sys2Proof.Machine
end

