-- ==== Sys2Proof/Machine/Turn.lean ====
section
/-! DEFINITION. Sys2Proof/Machine/Turn.lean: what one step does: an event from outside the engine, or a turn of the
engine, which performs the operation that its place of rule R90 holds (log 1, log 3). -/

namespace Sys2Proof.Machine

/-- A write of `w` to `CMD`: a legal command word is performed; any other is stored and ends in BAD_CMD (rules R31,
R92, R246). -/
def cmdTurn (w : Word) (s : State) : Host.Outcome State Fault Refusal :=
  match decode (.cmd w) with
  | .ok i => exec i s
  | .error _ => .next (writeCmd w s)

/-- The phase that `PHASE` names is performed; when `PHASE` names none the engine does nothing (rules R24, R261,
R270). -/
def phaseTurn (s : State) : Host.Outcome State Fault Refusal :=
  match decode (.phase s.phase.code) with
  | .ok i => exec i s
  | .error _ => .next s

/-! ### A turn for one operation of the I/O controller -/

/-- The node that SER comes to next, and the nodes that then still wait: the one on top of `STACK`, or the one at
`ROOT` (rule R185). -/
def serNext (s : State) : Option (Node × List Frame) :=
  match s.stack with
  | fr :: rest => (Table.get? s.node fr.node).map fun n => (n, rest)
  | [] => s.root.bind fun r => (Table.get? s.node r).map fun n => (n, [])

/-- The operation that the engine issues next to the I/O controller, with its operand: RDU32 in D_HDR (rule R222); in
D_TREE the marker bit of a token, when `NODE` has room, and after the marker of a leaf its symbol (R190); WRU32 of N in
E_HDR (R204); in E_TREE a marker or a symbol in the same way (R185); FINALIZE in E_FIN (R209). In E_PACK and D_WALK it
issues its operations in a turn for the whole phase only (log 10), in E_COUNT, E_BUILD and E_GEN it issues none, and
outside `BUSY` the engine is stopped (R254, R261). -/
def issues (s : State) : Option Instr :=
  match s.phase with
  | .dHdr => some .rdu32
  | .dTree => if s.marker then some .rdbyte else if nodeFits s.seq s then some .rdbit else none
  | .eHdr => some (.wru32 s.ilen.toNat)
  | .eTree =>
    (serNext s).map fun e =>
      match e.1 with
      | .leaf sym _ _ => if s.marker then .wrbyte sym.toNat else .wrbit true
      | .internal _ _ _ _ => .wrbit false
  | .eFin => some .finalize
  | .idle | .eCount | .eBuild | .eGen | .ePack | .dWalk | .done | .error => none

/-- After a token of the tree that is read: when the tree is whole, D_TREE ends (rule R189). -/
def desEnd (x : Flow Bool) : Flow Unit := x.bind fun whole s => .ok () (treeTokenEnd whole s)

/-- A token of the tree is written: when no node waits any more, E_TREE ends (rule R185). -/
def serEnd (rest : List Frame) (s : State) : State :=
  { s with stack := rest, marker := false, phase := if rest.isEmpty then .ePack else s.phase }

/-- What the phase does with an operation that has ended, up to the next one or to its own end. It takes a result, or
the signal EOB, off the result lines (rule R128). -/
def proceed (s : State) : Flow Unit :=
  match s.phase with
  | .dHdr =>
    match s.bioOut with
    | .value n => headerRead n { s with bioOut := .none }
    | _ => .raised (raise .hdrTrunc { s with bioOut := .none })
  | .dTree =>
    match s.bioOut with
    | .value v =>
      if s.marker then desEnd (desLeaf (v.setWidth 8) { s with bioOut := .none, marker := false })
      else if v = 1 then .ok () { s with bioOut := .none, marker := true }
      else desEnd (desInt { s with bioOut := .none })
    | _ => .raised (raise .treeTrunc { s with bioOut := .none })
  | .eHdr => .ok () { s with nhdr := s.ilen, phase := .eTree }
  | .eTree =>
    match serNext s with
    | none => .ok () s
    | some (.leaf _ _ _, rest) => .ok () (if s.marker then serEnd rest s else { s with marker := true })
    | some (.internal l r _ _, rest) => .ok () (serEnd (Frame.at l :: Frame.at r :: rest) s)
  | .eFin => .ok () (finishEncode s)
  | _ => .ok () s

/-- The engine issues an operation and the phase proceeds, unless the operation itself raised an error. -/
def perform (i : Instr) (s : State) : Host.Outcome State Fault Refusal :=
  match exec i s with
  | .next t => if t.phase = .error then .next t else (proceed t).outcome
  | .fault r => .fault r
  | .refused r => .refused r

/-- A turn of the engine for one operation of the I/O controller, told by its select and its operand lines (rule R94;
log 10). The engine issues its operations in the order of the rules (rule R13): nothing happens where this is not the one
that comes next (log 18). -/
def bioTurn (sel : BitVec 3) (operand : Word) (s : State) : Host.Outcome State Fault Refusal :=
  match decode (.bio sel operand) with
  | .ok i => if issues s = some i then perform i s else .next s
  | .error .bioOperandTooWide => .refused .bioOperandTooWide
  | .error _ => .refused .reservedBioSelect

/-- The second half of a token whose marker has been read or written by itself. -/
def finishToken (s : State) : Host.Outcome State Fault Refusal :=
  match issues s with
  | some i => perform i s
  | none => .next s

/-- A turn of the engine: a token that is half done is finished, and then the phase is performed, or what is left of
it. -/
def engineTurn (s : State) : Host.Outcome State Fault Refusal :=
  if s.marker then
    match finishToken s with
    | .next t => if t.phase = s.phase then phaseTurn t else .next t
    | .fault r => .fault r
    | .refused r => .refused r
  else phaseTurn s

/-! ### A turn for one token of the stream -/

/-- The tree token at `RPOS`, its bits told from the first one (rule R105). -/
def treeTokenBits (s : State) : Flow (List Bool) :=
  (rdBit s).bind fun m s' =>
    (rdBits (treeTokenWidth m - 1) s').bind fun bits s'' => .ok (m :: bits) s''

/-- A token whose bits have been seen is performed in the state before they were consumed; it moves `RPOS` past them
itself. -/
def tokenTurnOf (place : List Bool → Code) (seen : Flow (List Bool)) (s : State) : Host.Outcome State Fault Refusal :=
  match seen with
  | .ok bits _ =>
    match decode (place bits) with
    | .ok i => exec i s
    | .error _ => .refused .tokenOutOfPhase
  | .eob s' => .next s'
  | .raised s' => .next s'
  | .fault r => .fault r
  | .refused r => .refused r

/-- A turn of the engine for one token: LENHDR in D_HDR, a tree token in D_TREE, with the errors of those phases in
their order (rules R190, R222, R253). In any other phase it is the whole phase (log 11). A token that is half done is
finished. -/
def tokenTurn (s : State) : Host.Outcome State Fault Refusal :=
  if s.marker then finishToken s
  else
    match s.phase with
    | .dHdr => tokenTurnOf .header ((rdBits 32 s).onEob .hdrTrunc) s
    | .dTree =>
      tokenTurnOf .tree ((desRoom s).bind fun _ s => (treeTokenBits s).onEob .treeTrunc) s
    | _ => phaseTurn s

/-- A write of one word at an offset of `REG`: `CMD` and `ILEN` are the writable registers; any other write, and one
that is not aligned, is ignored (rules R30, R31, R34, R38). -/
def writeReg (off : BitVec 15) (v : Word) (s : State) : Host.Outcome State Fault Refusal :=
  match off.toNat with
  | 0x00 => cmdTurn v s
  | 0x0C => .next (writeIlen v s)
  | _ => .next s

/-- One host access, already taken off the events (log 3). An address that a buffer does not have is a fault (rule
R60). DEDUCED (log 16): a host write to `OBUF` is ignored, since the space is read only for the host. -/
def hostTurn (a : HostAccess) (s : State) : Host.Outcome State Fault Refusal :=
  match a with
  | .read32 off => .next (deliver (readReg s off) s)
  | .write32 off v => writeReg off v s
  | .readNarrow _ => .next (deliver (.value 0) s)
  | .writeNarrow _ _ => .next s
  | .readIbuf a =>
    if a < s.cfg.ibufCap then .next (deliverByte (.value ((ibufByte s a).setWidth 32)) s)
    else .fault (.noSuchIbufByte a)
  | .writeIbuf a v =>
    if a < s.cfg.ibufCap then .next (writeIbufByte a v s) else .fault (.noSuchIbufByte a)
  | .readObuf a =>
    if a < s.cfg.obufCap then .next (deliverByte (readObufByte s a) s) else .fault (.noSuchObufByte a)
  | .writeObuf a _ => if a < s.cfg.obufCap then .next s else .fault (.noSuchObufByte a)
  | .copyToIbuf a =>
    if a < s.cfg.ibufCap then .next (writeIbufByte a (s.rdata.extractLsb' 0 8) s)
    else .fault (.noSuchIbufByte a)
  | .wait =>
    if busy s then engineTurn { s with events := .host .wait :: s.events }
    else .next (deliver (readReg s 0x04) s)
  | .loopback => .next { s with events := loopbackAccesses s.olen ++ s.events }

/-- One step: the first event, or a turn of the engine when there is none (log 3). -/
def turn (s : State) : Host.Outcome State Fault Refusal :=
  match s.events with
  | [] => engineTurn s
  | .reset :: rest => .next (resetInput { s with events := rest })
  | .engine :: rest => engineTurn { s with events := rest }
  | .host a :: rest => hostTurn a { s with events := rest }
  | .bio sel operand :: rest => bioTurn sel operand { s with events := rest }
  | .token :: rest => tokenTurn { s with events := rest }

/-- The bytes at `IBUF[a]`, `IBUF[a + 1]`, ... (rule R110, `LD`). -/
def putIbuf : Nat → List Byte → State → State
  | _, [], s => s
  | a, v :: vs, s => putIbuf (a + 1) vs { s with ibuf := Table.set s.ibuf a v }

/-- The state in which the engine issues the operation of a select next (log 15): the phase that issues it, and for
the operand of a writing one a tree or a length that asks for it. -/
def placeBio (sel : BitVec 3) (operand : Word) (s : State) : State :=
  let leaf (sym : Byte) : State :=
    { s with phase := .eTree, stack := [], root := some 0, node := [(0, .leaf sym 0 0)], finalized := false }
  match decode (.bio sel operand) with
  | .ok .rdbit => { s with phase := .dTree, stack := [], seq := 0, marker := false }
  | .ok .rdbyte => { s with phase := .dTree, stack := [], seq := 0, marker := true }
  | .ok .rdu32 => { s with phase := .dHdr }
  | .ok (.wrbit true) => { leaf 0 with marker := false }
  | .ok (.wrbit false) =>
    { leaf 0 with
      node := [(0, .leaf 0 0 0), (1, .leaf 1 0 1), (2, .internal 0 1 0 2)], root := some 2, marker := false }
  | .ok (.wrbyte v) => { leaf (BitVec.ofNat 8 v) with marker := true }
  | .ok (.wru32 v) => { s with phase := .eHdr, ilen := BitVec.ofNat 32 v, finalized := false }
  | .ok .finalize => { s with phase := .eFin }
  | _ => s

/-- The state in which the next step performs the operation that a word stands for at its place of rule R90: a
command word as the host's next write; a phase code in `PHASE`; a select as the operation that the engine issues next;
stream bits in `IBUF` where the phase that reads them finds them (log 15). -/
def placeCode (c : Code) (s : State) : State :=
  match c with
  | .cmd w =>
    { s with phase := if busy s then .idle else s.phase, events := .host (.write32 0 w) :: s.events }
  | .phase p => { s with phase := (phaseOfCode p).getD s.phase, marker := false, events := .engine :: s.events }
  | .bio sel operand => { placeBio sel operand s with events := .bio sel operand :: s.events }
  | .header bits =>
    { putIbuf 0 ((List.range 4).map fun k => BitVec.ofNat 8 (bitsValue ((bits.drop (8 * k)).take 8))) s with
      phase := .dHdr, rpos := 0, ilen := 4, marker := false, events := .token :: s.events }
  | .tree bits =>
    let bits := bits ++ List.replicate (16 - bits.length) false
    { putIbuf 4 ((List.range 2).map fun k => BitVec.ofNat 8 (bitsValue ((bits.drop (8 * k)).take 8))) s with
      phase := .dTree, rpos := 32, ilen := 6, marker := false, events := .token :: s.events }

/-- The word of the opcode table is placed where the next step performs it; a word that is no operation changes
nothing (log 9, log 15). -/
def placeTableWord (nbits w : Nat) (s : State) : State :=
  match firstReading (tableReadings nbits w) with
  | some (c, _) => placeCode c s
  | none => s

end Sys2Proof.Machine
end

