-- ==== Sys2Proof/Machine/Step.lean ====
section
/-! DEFINITION. Sys2Proof/Machine/Step.lean: one step of the machine, and where a word is put for the next step. -/

namespace Sys2Proof.Machine

/-- One step (Turn.lean). -/
def step : State → Host.Outcome State Fault Refusal := turn

/-- `s` with the operation of a word of the opcode table placed where the next step performs it (log 15). -/
def State.withFetchWord (s : State) (nbits w : Nat) : State := placeTableWord nbits w s

end Sys2Proof.Machine
end

