-- ==== Sys2Proof/Safety.lean ====
section
/-! DEFINITION. Sys2Proof/Safety.lean: what counts as a safe run, and the terms the claims use: the invariants of the
machine, the bits of the two streams, the tree of rule R17 and what it means that `NODE` holds one. -/

namespace Sys2Proof.Machine

/-! ### The streams -/

/-- The bit of the input stream at position `p` (rules R14, R62). -/
def inBit (s : State) (p : Nat) : Bool := streamBitOf (ibufByte s (p / 8)) p

/-- `n` bits of the input stream from position `p`. -/
def inBits (s : State) : Nat → Nat → List Bool
  | _, 0 => []
  | p, n + 1 => inBit s p :: inBits s (p + 1) n

/-- The byte recorded at an address of `OBUF`. -/
def obufByte (s : State) (a : Nat) : Byte := (Table.get? s.obuf a).getD 0

/-- The bytes `OBUF[0..OLEN-1]`. -/
def outBytes (s : State) : List Byte := (List.range s.olen.toNat).map (obufByte s)

/-- Everything the writer has accepted, in stream order: the stored bytes, then the pending bits in the low
`WPOS mod 8` bits of `WACC` (rules R29, R124). -/
def outBits (s : State) : List Bool :=
  (outBytes s).flatMap byteBits ++ bitsMsb (s.wpos.toNat % 8) s.wacc.toNat

/-- The writer between two operations and before FINALIZE: `OLEN = WPOS div 8`, and `WACC` is 0 but for the pending
bits (the law of rule R124, and rule R29). -/
structure WriterLaw (s : State) : Prop where
  running : s.finalized = false
  olen : s.olen.toNat = s.wpos.toNat / 8
  pending : s.wacc.toNat < 2 ^ (s.wpos.toNat % 8)

/-- The output buffer has room for every byte that `n` more bits complete. -/
def OutRoom (s : State) (n : Nat) : Prop := (s.wpos.toNat + n) / 8 ≤ s.cfg.obufCap

/-- The input has `n` more bits at `RPOS`, all at addresses that `IBUF` has. -/
def InRoom (s : State) (n : Nat) : Prop := s.rpos.toNat + n ≤ 8 * s.ilen.toNat ∧ s.ilen.toNat ≤ s.cfg.ibufCap

/-! ### Trees -/

/-- The HuffmanNode of rule R17 without its counts. -/
inductive HuffTree where
  | leaf (sym : Byte)
  | node (left right : HuffTree)
deriving DecidableEq, Repr

/-- How many nodes a tree has. -/
def HuffTree.size : HuffTree → Nat
  | .leaf _ => 1
  | .node l r => l.size + r.size + 1

/-- The symbols of the leaves, from left to right. -/
def HuffTree.leaves : HuffTree → List Byte
  | .leaf sym => [sym]
  | .node l r => l.leaves ++ r.leaves

/-- The serialization: preorder, `0` for an internal node, `1` and the symbol for a leaf (rules R96 to R98, R186). -/
def HuffTree.ser : HuffTree → List Bool
  | .leaf sym => true :: byteBits sym
  | .node l r => false :: (l.ser ++ r.ser)

/-- The leaves with the path that leads to each: 0 for left, 1 for right (rule R171). -/
def HuffTree.paths : HuffTree → List (Byte × List Bool)
  | .leaf sym => [(sym, [])]
  | .node l r =>
    (l.paths.map fun e => (e.1, false :: e.2)) ++ (r.paths.map fun e => (e.1, true :: e.2))

/-- The codes of a tree: the paths, but for the single leaf, whose code is `0` (rules R171, R172). -/
def HuffTree.codes : HuffTree → List (Byte × List Bool)
  | .leaf sym => [(sym, [false])]
  | .node l r => (HuffTree.node l r).paths

/-- The entry of index `i` is the root of the tree in the node memory: the abstract tree `T(i)` of rule R43. -/
def TreeAt (nodes : List (Nat × Node)) : HuffTree → Nat → Prop
  | .leaf sym, i => ∃ c q, Table.get? nodes i = some (.leaf sym c q)
  | .node l r, i =>
    ∃ a b c q, Table.get? nodes i = some (.internal a b c q) ∧ TreeAt nodes l a ∧ TreeAt nodes r b

/-- `ROOT` is the root of a tree in `NODE`, and the tree has no more nodes than `NODE` has entries, as one in which no
entry is a child twice has (rule R43). -/
def HoldsTree (s : State) (t : HuffTree) : Prop :=
  ∃ r, s.root = some r ∧ TreeAt s.node t r ∧ t.size ≤ s.node.length

/-- The entries of `NODE` that DES writes for a tree whose root has index `i`: the nodes numbered in preorder, every
`COUNT` 0 (rules R190, R191). -/
def HuffTree.preorder : HuffTree → Nat → List (Nat × Node)
  | .leaf sym, i => [(i, .leaf sym 0 i)]
  | .node l r, i =>
    (i, .internal (i + 1) (i + 1 + l.size) 0 i) :: (l.preorder (i + 1) ++ r.preorder (i + 1 + l.size))

/-- The node `i` is the right child of the innermost of the waiting nodes, all of which have their left child: each is
written in its turn and is the right child of the next (rule R190). The result is the last one, and `NODE`. -/
def closeFull : List Frame → Nat → List (Nat × Node) → Nat × List (Nat × Node)
  | [], i, nodes => (i, nodes)
  | fr :: rest, i, nodes =>
    closeFull rest fr.node (Table.set nodes fr.node (.internal (fr.left.getD 0) i 0 fr.node))

/-- Entry `j` is in the collection when entry `i` is made: it was made before, and no internal entry made before has
taken it as a child (rules R152, R154). -/
def Collected (nodes : List (Nat × Node)) (i j : Nat) : Prop :=
  j < i ∧ ∀ m a b c q, m < i → Table.get? nodes m = some (.internal a b c q) → j ≠ a ∧ j ≠ b

/-- The symbols present in `FREQ` (rule R41). -/
def presentSymbols (s : State) : List Byte := allSymbols.filter fun sym => freqAt s sym != 0

/-! ### What every step keeps -/

/-- The phases of an ENCODE (rule R201). -/
def encodePhases : List Phase := [.eCount, .eBuild, .eGen, .eHdr, .eTree, .ePack, .eFin]

/-- The phases of a DECODE (rule R221). -/
def decodePhases : List Phase := [.dHdr, .dTree, .dWalk]

/-- The buffers: the parameters are in the ranges of rule R10; the two buffers are in canonical form and list only
addresses that their spaces have (rule R60); `OLEN` is a number of bytes that `OBUF` holds (rule R35). -/
structure BufferInv (s : State) : Prop where
  params : s.cfg.wf = true
  ibufWf : Memory.wf s.ibuf
  ibufInside : ∀ c ∈ s.ibuf, c.1 < s.cfg.ibufCap
  obufWf : Memory.wf s.obuf
  obufInside : ∀ c ∈ s.obuf, c.1 < s.cfg.obufCap
  olenFits : s.olen.toNat ≤ s.cfg.obufCap

/-- The error channel: `ERR` is 0 or one of the values of rule R240, and it is not 0 exactly in `ERROR` (rule R33);
`FLAGS` is bits 4:2 of the last command word (rule R37); a tap is valid only after an ENCODE with its flag that ended
`DONE` (rules R39, R40). -/
structure ErrorInv (s : State) : Prop where
  errValue : s.err = 0 ∨ ∃ c : Cause, s.err = c.word
  errState : s.err ≠ 0 ↔ s.phase = .error
  flags : s.flags = s.cmd.extractLsb' 2 3
  freqTap : s.freqTap = true → s.phase = .done ∧ diagFreq s = true
  codeTap : s.codeTap = true → s.phase = .done ∧ diagCode s = true

/-- The engine between two steps: `PQ` is empty (rule R44); `STACK` is empty but inside D_TREE and E_TREE (rule R46); an entry of
`NODE` is in canonical place and its `SEQ` is its index (rules R22, R42). While `BUSY`, `ILEN` is in the buffer (rule
R246), and `RPOS` and `IIDX` have not run past the input (rules R25, R27). Outside `ERROR`, `WACC` is 0 but for its
pending bits (rule R29). Once D_HDR has passed, N fits the output (rule R222). During ENCODE `RPOS` stays 0 and during
DECODE `WPOS` does (rules R25, R26), so that one of them is always 0 (rule R129). Where the marker of a leaf has been read
or written by itself, its symbol is what the engine reads or writes next, and nothing waits on the result lines (rules
R13, R185, R190; log 10). -/
structure EngineInv (s : State) : Prop where
  pq : s.pq = []
  stack : s.phase ≠ .dTree → s.phase ≠ .eTree → s.stack = []
  nodeWf : Table.rising s.node
  nodeSeq : ∀ e ∈ s.node, e.2.seq = e.1
  ilen : busy s = true → s.ilen.toNat ≤ s.cfg.ibufCap
  rpos : busy s = true → s.rpos.toNat ≤ 8 * s.ilen.toNat
  iidx : busy s = true → s.iidx.toNat ≤ s.ilen.toNat
  wacc : s.phase ≠ .error → s.wacc.toNat < 2 ^ (s.wpos.toNat % 8)
  header : s.phase = .dTree ∨ s.phase = .dWalk → s.nrem = s.nhdr ∧ s.nhdr.toNat ≤ s.cfg.obufCap
  encodes : s.phase ∈ encodePhases → s.rpos = 0
  decodes : s.phase ∈ decodePhases → s.wpos = 0
  cursors : s.rpos = 0 ∨ s.wpos = 0
  marker : s.marker = true → issues s = some .rdbyte ∨ ∃ v, issues s = some (.wrbyte v)
  lines : s.bioOut = .none

/-- A number fits `PTR_W` bits (rule R11). -/
abbrev PtrFits (s : State) (i : Nat) : Prop := fitsWidth (ptrWidth s.cfg) i = true

/-- The node pointers and the `SEQ` of an entry of `NODE` fit their fields (rule R42). -/
def NodeFields (s : State) (n : Node) : Prop :=
  fitsWidth (seqWidth s.cfg) n.seq = true ∧
    match n with
    | .leaf _ _ _ => True
    | .internal l r _ _ => PtrFits s l ∧ PtrFits s r

/-- What the state holds as numbers and bit strings fits the widths of rule R11, R21, R42 and R45: `SEQ` `PTR_W` + 1
bits, `ROOT`, `CUR`, the members of `PQ` and `STACK` and the pointers in `NODE` `PTR_W` bits, a code 255 bits; and `NODE`
has entries below `NODE_CAP` only. -/
structure WidthInv (s : State) : Prop where
  seq : fitsWidth (seqWidth s.cfg) s.seq = true
  root : ∀ i, s.root = some i → PtrFits s i
  cur : ∀ i, s.cur = some i → PtrFits s i
  pq : ∀ i ∈ s.pq, PtrFits s i
  stack : ∀ fr ∈ s.stack, PtrFits s fr.node ∧ ∀ i, fr.left = some i → PtrFits s i
  node : ∀ e ∈ s.node, nodeFits e.1 s = true ∧ NodeFields s e.2
  code : ∀ sym, (codeAt s sym).length ≤ 255

/-- A safe state: all four together. -/
structure Safe (s : State) : Prop where
  buffers : BufferInv s
  errors : ErrorInv s
  engine : EngineInv s
  widths : WidthInv s

end Sys2Proof.Machine
end

