-- ==== Sys2Proof/WellFormed.lean ====
section
/-! DEFINITION. Sys2Proof/WellFormed.lean: the operand ranges the spec states for the operations. -/

namespace Sys2Proof

/-- Every operand lies in the range the spec gives it: WRBYTE's "a number `v`, 0 to 255" (rule R125), WRU32's
"0 to 2^32 - 1" (rule R126), LENHDR's 32-bit N (rule R95), TNODE_LEAF's symbol 0 to 255 (rule R97). -/
def WellFormed : Instr → Bool
  | .encode _ _ _ => true
  | .decode _ _ _ => true
  | .eCount => true
  | .eBuild => true
  | .eGen => true
  | .eHdr => true
  | .eTree => true
  | .ePack => true
  | .eFin => true
  | .dHdr => true
  | .dTree => true
  | .dWalk => true
  | .rdbit => true
  | .rdbyte => true
  | .rdu32 => true
  | .wrbit _ => true
  | .wrbyte v => decide (v < 2 ^ 8)
  | .wru32 v => decide (v < 2 ^ 32)
  | .finalize => true
  | .lenhdr n => decide (n < 2 ^ 32)
  | .tnodeInt => true
  | .tnodeLeaf s => decide (s < 2 ^ 8)

end Sys2Proof
end

