-- ==== Sys2Proof/Certificates/Slice0/Obligations.lean ====
section
/-! DEFINITION. Sys2Proof/Certificates/Slice0/Obligations.lean: the statements for the provers. Each docstring says which
rule of the spec it states, or which part of the spec it is derived from. -/

open Sys2Proof Sys2Proof.Machine

/-! ### Encodings -/

/-- Derived from 30_encoding.md: decoding the encoding of a well-formed operation gives it back, every operand at
every value its range admits. -/
def Obligations.DecodeOfEncodeIsTheOperation : Prop :=
  ∀ i : Instr, WellFormed i = true → decode (encode i) = .ok i

/-- Derived from 30_encoding.md, and for the `BIO` words from the model's choice of log 10: rule R94 gives a 3-bit select
and no word for the operand, and the model adds 32 operand lines and decodes nothing where a line above the operand is
not 0. A word that decodes is the encoding of the operation it decodes to, which is well-formed, so no two words of a
format stand for one operation. -/
def Obligations.DecodedWordIsTheEncoding : Prop :=
  ∀ (c : Code) (i : Instr), decode c = .ok i → WellFormed i = true ∧ encode i = c

/-- Derived from rules R91, R93, R94, R95, R96 and R97: a word of each format, written out bit by bit. -/
def Obligations.SampleWordsDecode : Prop :=
  decode (.cmd 0b00000000000000000000000000011101#32) = .ok (.encode true true true) ∧
  decode (.cmd 0b00000000000000000000000000010010#32) = .ok (.decode false false true) ∧
  decode (.phase 0b0110#4) = .ok .ePack ∧
  decode (.bio 0b101#3 0x41#32) = .ok (.wrbyte 0x41) ∧
  decode (.header (List.replicate 28 false ++ [true, false, true, false])) = .ok (.lenhdr 10) ∧
  decode (.tree [false]) = .ok .tnodeInt ∧
  decode (.tree [true, false, true, false, false, false, false, false, true]) = .ok (.tnodeLeaf 0x41)

/-- Rule R91: ENCODE is any word with `w & 0xFFFFFFE3 = 1`, DECODE any word with `w & 0xFFFFFFE3 = 2`, and the three
flags are its bits 2, 3 and 4. -/
def Obligations.CommandWordsAreTheMaskedOnes : Prop :=
  ∀ w : Word,
    ((∃ f c b, decode (.cmd w) = .ok (.encode f c b)) ↔ w &&& 0xFFFFFFE3#32 = 1#32) ∧
    ((∃ f c b, decode (.cmd w) = .ok (.decode f c b)) ↔ w &&& 0xFFFFFFE3#32 = 2#32) ∧
    ∀ f c b, decode (.cmd w) = .ok (.encode f c b) ∨ decode (.cmd w) = .ok (.decode f c b) →
      f = w.getLsbD 2 ∧ c = w.getLsbD 3 ∧ b = w.getLsbD 4

/-! ### A step performs the decoded operation -/

/-- Derived from rules R13, R24, R31, R90, R94, R254 and R261: a write to `CMD`, a turn of the engine and a turn of it for
one operation of the I/O controller each perform the operation that the bits at their place of rule R90 decode to; with
no event the engine takes its turn; and in `IDLE`, `DONE` and `ERROR` a turn of the engine changes nothing. The events are
the model's choice (log 3), and so is that a turn may be one operation of the I/O controller (log 10): it is performed
where it is the one that the engine issues next, and then the phase proceeds; any other changes nothing (log 18). A token
whose marker such a turn has dealt with is finished before the phase is performed. -/
def Obligations.StepPerformsTheDecodedOperation : Prop :=
  ∀ (s : State) (rest : List Event) (i : Instr),
    (∀ w, decode (.cmd w) = .ok i → s.events = .host (.write32 0 w) :: rest →
      step s = exec i { s with events := rest }) ∧
    (decode (.phase s.phase.code) = .ok i → s.marker = false → s.events = .engine :: rest →
      step s = exec i { s with events := rest }) ∧
    (decode (.phase s.phase.code) = .ok i → s.marker = false → s.events = [] → step s = exec i s) ∧
    (∀ sel operand, decode (.bio sel operand) = .ok i → s.events = .bio sel operand :: rest →
      (issues { s with events := rest } = some i →
        ∀ t, exec i { s with events := rest } = .next t →
          (t.phase = .error → step s = .next t) ∧ (t.phase ≠ .error → step s = (proceed t).outcome)) ∧
      (issues { s with events := rest } = some i → ∀ r, exec i { s with events := rest } = .refused r → step s = .refused r) ∧
      (issues { s with events := rest } = some i → ∀ r, exec i { s with events := rest } = .fault r → step s = .fault r) ∧
      (issues { s with events := rest } ≠ some i → step s = .next { s with events := rest }) ∧
      (busy s = false → issues { s with events := rest } = none)) ∧
    (decode (.phase s.phase.code) = .ok i → s.marker = true → s.events = .engine :: rest →
      ∀ u, finishToken { s with events := rest } = .next u →
        (u.phase = s.phase → step s = exec i u) ∧ (u.phase ≠ s.phase → step s = .next u)) ∧
    (busy s = false → s.events = .engine :: rest → step s = .next { s with events := rest }) ∧
    (busy s = false → s.events = [] → step s = .next s)

/-- Derived from rules R13, R105, R190 and R222; that a turn may be one token is the model's choice (log 11), and that it
may be one operation of the I/O controller (log 10). When the bits at `RPOS` are those of a token that has its place there,
a token turn performs that token. And the engine keeps the order of the rules whichever way it takes its turns: an
operation of the I/O controller that it issues by itself is the one with which the phase goes on, so that the turn for
what is left of the phase ends where the turn for the whole phase would have, and so does the operation with which the
phase is over. -/
def Obligations.TokenStepPerformsTheTokenAtRpos : Prop :=
  (∀ (s : State) (rest : List Event) (bits : List Bool) (i : Instr), s.events = .token :: rest → s.marker = false →
    InRoom s bits.length → inBits s s.rpos.toNat bits.length = bits →
    (s.phase = .dHdr → decode (.header bits) = .ok i → step s = exec i { s with events := rest }) ∧
    (s.phase = .dTree → decode (.tree bits) = .ok i → nodeFits s.seq s = true →
      step s = exec i { s with events := rest })) ∧
  ∀ (s v : State) (sel : BitVec 3) (operand : Word) (i : Instr), s.cfg.wf = true → s.bioOut = .none →
    (s.marker = true → issues s = some .rdbyte ∨ ∃ n, issues s = some (.wrbyte n)) →
    decode (.bio sel operand) = .ok i → issues s = some i → s.events = [] → step s = .next v →
    ∃ t, step { s with events := [.bio sel operand] } = .next t ∧
      (t.phase = s.phase → step t = .next v) ∧ (t.phase ≠ s.phase → t = v)

/-! ### Command writes -/

/-- Rules R246 and R92, and derived from rule R51: what a write of any word to `CMD` does, and in which order it checks:
while `BUSY` nothing; otherwise the word is stored, everything of rule R51 is initialised, then BAD_CMD, then BAD_ILEN,
then the first phase. That `NODE` lists no entry afterwards is the model's (log 8); so are the bits `finalized` (log 12) and
`marker` (log 10). -/
def Obligations.CommandWriteChecksInOrder : Prop :=
  ∀ (s : State) (w : Word) (rest : List Event), s.events = .host (.write32 0 w) :: rest →
    (busy s = true → step s = .next { s with events := rest }) ∧
    (busy s = false →
      ∃ init : State,
        init = { s with
          events := rest, cmd := w, err := 0, flags := w.extractLsb' 2 3, olen := 0, rpos := 0, wpos := 0, wacc := 0,
          nhdr := 0, nrem := 0, iidx := 0, seq := 0, root := none, cur := none, pq := [], stack := [], node := [],
          freqTap := false, codeTap := false, finalized := false, marker := false } ∧
        step s = .next
          (if w &&& 0xFFFFFFE0#32 ≠ 0 ∨ w.extractLsb' 0 2 = 0 ∨ w.extractLsb' 0 2 = 3 then raise .badCmd init
           else if s.cfg.ibufCap < s.ilen.toNat then raise .badIlen init
           else if w.getLsbD 0 then { init with phase := .eCount }
           else { init with phase := .dHdr }))

/-- Derived from rules R200, R220 and R51: outside `BUSY`, with `ILEN` in the buffer, ENCODE and DECODE complete: the
word is stored, its flags are latched, the results of the last command are gone, and the first phase is entered. -/
def Obligations.CommandsStart : Prop :=
  ∀ (s : State) (f c b : Bool), busy s = false → s.ilen.toNat ≤ s.cfg.ibufCap →
    exec (.encode f c b) s = .next { initCommand { s with cmd := cmdWord 1 f c b } with phase := .eCount } ∧
    exec (.decode f c b) s = .next { initCommand { s with cmd := cmdWord 2 f c b } with phase := .dHdr } ∧
    ((cmdWord 1 f c b).extractLsb' 2 3).toNat = f.toNat + 2 * c.toNat + 4 * b.toNat ∧
    ((cmdWord 2 f c b).extractLsb' 2 3).toNat = f.toNat + 2 * c.toNat + 4 * b.toNat

/-- Rule R282: a write to `CMD`, to `ILEN` or to any byte of `IBUF` made while `BUSY` changes nothing and starts
nothing. -/
def Obligations.WritesWhileBusyAreIgnored : Prop :=
  ∀ (s : State) (rest : List Event), busy s = true →
    (∀ w, s.events = .host (.write32 0 w) :: rest → step s = .next { s with events := rest }) ∧
    (∀ v, s.events = .host (.write32 0x0C v) :: rest → step s = .next { s with events := rest }) ∧
    (∀ a v, a < s.cfg.ibufCap → s.events = .host (.writeIbuf a v) :: rest → step s = .next { s with events := rest }) ∧
    (∀ f c b, exec (.encode f c b) s = .next s ∧ exec (.decode f c b) s = .next s)

/-- Derived from rules R48, R60, R254 and R285: outside `BUSY` nothing but a write to `CMD` or reset changes `PHASE`, `ERR`,
`OLEN` or a byte of `OBUF`, whatever event comes. For two of the events this is the model's and not the spec's: rule R60
lets the host only read `OBUF`, and that a host write there is ignored is log 16 (DEDUCED); that an operation of the I/O
controller that comes by itself changes nothing there is log 18 (DESIGN CHOICE). -/
def Obligations.OnlyCommandOrResetLeavesDoneAndError : Prop :=
  ∀ s t : State, busy s = false → step s = .next t →
    (∀ w rest, s.events ≠ .host (.write32 0 w) :: rest) → (∀ rest, s.events ≠ .reset :: rest) →
    t.phase = s.phase ∧ t.err = s.err ∧ t.olen = s.olen ∧ ∀ a, Table.get? t.obuf a = Table.get? s.obuf a

/-! ### The phases of an ENCODE -/

/-- Rule R141, and derived from rule R142: E_COUNT ends with `FREQ[s]` the number of indices `i < ILEN` with `IBUF[i] = s`, for every
`s`, with `IIDX` = `ILEN`, and in E_BUILD; nothing else changes, and it cannot fail. -/
def Obligations.CountPhaseCountsEverySymbol : Prop :=
  ∀ s : State, s.ilen.toNat ≤ s.cfg.ibufCap →
    ∃ t, exec .eCount s = .next t ∧
      t = { s with freq := t.freq, iidx := s.ilen, phase := .eBuild } ∧
      ∀ sym, (freqAt t sym).toNat = ((List.range s.ilen.toNat).filter fun i => ibufByte s i == sym).length

/-- Rule R155, and derived from rules R152, R153, R154, R156, R157 and R158: E_BUILD, with `SEQ` = 0 and `PQ` empty as rule
R51 leaves them and with no entry of `NODE` allocated, completes in E_GEN; with no symbol present there is no tree; with
`k` present it has made `2k - 1` nodes, the leaves first in increasing symbol order; the children of each internal node
are the two least members of the collection at that moment, the least one on the left, and its count is the sum of
theirs; and the last one is the root of a tree whose leaves are the present symbols. Rule R51 does not clear `NODE`: that
a command start leaves no entry listed, the premise `s.node = []`, is the model's choice (log 8). -/
def Obligations.BuildPhaseMakesTheTree : Prop :=
  ∀ s : State, s.cfg.wf = true → s.seq = 0 → s.pq = [] → s.node = [] →
    ∃ t, exec .eBuild s = .next t ∧
      t = { s with node := t.node, seq := t.seq, root := t.root, phase := .eGen } ∧
      (presentSymbols s = [] → t.root = none ∧ t.seq = 0 ∧ t.node = []) ∧
      (presentSymbols s ≠ [] →
        t.seq = 2 * (presentSymbols s).length - 1 ∧
        t.root = some (2 * (presentSymbols s).length - 2) ∧
        t.node.length = 2 * (presentSymbols s).length - 1 ∧
        (∀ (i : Nat) (sym : Byte), (presentSymbols s)[i]? = some sym →
          Table.get? t.node i = some (.leaf sym (freqAt s sym) i)) ∧
        (∀ i, (presentSymbols s).length ≤ i → i < t.seq →
          ∃ l r nl nr, Table.get? t.node i = some (.internal l r (nl.count + nr.count) i) ∧
            Table.get? t.node l = some nl ∧ Table.get? t.node r = some nr ∧ l ≠ r ∧ nodeBefore nl nr = true ∧
            Collected t.node i l ∧ Collected t.node i r ∧
            ∀ j nj, Collected t.node i j → Table.get? t.node j = some nj → j ≠ l → j ≠ r →
              nodeBefore nr nj = true) ∧
        ∃ tree, TreeAt t.node tree (2 * (presentSymbols s).length - 2) ∧
          tree.leaves.Perm (presentSymbols s))

/-- Rule R159: on nodes with different sequence numbers whose leaves are numbered in symbol order, the order
is the pair (`COUNT`, `SEQ`), and it is a strict total order. -/
def Obligations.MergeOrderIsCountThenSequence : Prop :=
  ∀ P : Node → Prop,
    (∀ a b, P a → P b → a ≠ b → a.seq ≠ b.seq) →
    (∀ x y cx cy qx qy, P (.leaf x cx qx) → P (.leaf y cy qy) → (x < y ↔ qx < qy)) →
    (∀ a b, P a → P b →
      (nodeBefore a b = true ↔ a.count < b.count ∨ (a.count = b.count ∧ a.seq < b.seq))) ∧
    (∀ a, P a → nodeBefore a a = false) ∧
    (∀ a b, P a → P b → a ≠ b → nodeBefore a b = true ∨ nodeBefore b a = true) ∧
    (∀ a b c, P a → P b → P c → nodeBefore a b = true → nodeBefore b c = true → nodeBefore a c = true)

/-- Derived from rules R153 and R154: the member of `PQ` that a removal takes comes before every other member, and
only `PQ` changes, by losing it. The members are allocated entries with their index as `SEQ`, as rule R22 has it, the
leaves numbered in symbol order. -/
def Obligations.RemovalTakesTheLeastMember : Prop :=
  ∀ s : State, s.pq ≠ [] → s.pq.Nodup →
    (∀ i ∈ s.pq, ∃ n, Table.get? s.node i = some n ∧ n.seq = i) →
    (∀ i ∈ s.pq, ∀ j ∈ s.pq, ∀ x y cx cy, Table.get? s.node i = some (.leaf x cx i) →
      Table.get? s.node j = some (.leaf y cy j) → (x < y ↔ i < j)) →
    ∃ i n, removeLeast s = .ok (i, n) { s with pq := s.pq.erase i } ∧ i ∈ s.pq ∧ Table.get? s.node i = some n ∧
      ∀ j ∈ s.pq, j ≠ i → ∀ m, Table.get? s.node j = some m → nodeBefore n m = true

/-- Rules R170 and R171, and derived from rules R172 and R173: E_GEN, with a tree whose leaves are the present symbols, each once, enters for
each of them the path to its leaf (for the single leaf, `0`) and for no other symbol anything; with no tree and no
symbol present the table is empty. It completes in E_HDR, whether the checks are built or not, and nothing else
changes. -/
def Obligations.CodePhaseEntersThePaths : Prop :=
  ∀ s : State, s.stack = [] →
    (∀ t, HoldsTree s t → t.leaves.Nodup → (∀ sym, freqAt s sym ≠ 0 ↔ sym ∈ t.leaves) →
      ∃ u, exec .eGen s = .next u ∧ u = { s with code := u.code, phase := .eHdr } ∧
        (∀ e ∈ t.codes, codeAt u e.1 = e.2) ∧ ∀ sym, sym ∉ t.leaves → codeAt u sym = []) ∧
    (s.root = none → (∀ sym, freqAt s sym = 0) →
      ∃ u, exec .eGen s = .next u ∧ u = { s with code := u.code, phase := .eHdr } ∧ ∀ sym, codeAt u sym = [])

/-- Derived from rule R174, items (2) and (3): in any tree every code has a bit, that of a single leaf too, and no code is
a prefix of another. -/
def Obligations.CodesOfATreeArePrefixFree : Prop :=
  ∀ t : HuffTree,
    (∀ e ∈ t.codes, 1 ≤ e.2.length) ∧
    ∀ (i j : Nat) (e f : Byte × List Bool), t.codes[i]? = some e → t.codes[j]? = some f → i ≠ j → ¬ e.2 <+: f.2

/-- Rule R204: E_HDR, run at `WPOS` = 0, writes the four bytes of N = `ILEN`, most significant first, and leaves `WPOS` =
32, `OLEN` = 4. -/
def Obligations.HeaderPhaseWritesTheLength : Prop :=
  ∀ s : State, s.cfg.wf = true → WriterLaw s → s.wpos = 0 →
    ∃ t, exec .eHdr s = .next t ∧
      t = { s with nhdr := s.ilen, obuf := t.obuf, olen := 4, wpos := 32, wacc := 0, phase := .eTree } ∧
      WriterLaw t ∧ outBytes t = wordBytes s.ilen ∧
      ∀ a, 4 ≤ a → Table.get? t.obuf a = Table.get? s.obuf a

/-- Rules R185 and R188, and derived from rule R186: E_TREE appends the serialization of the tree at `ROOT`, and nothing
when there is none, and ends in E_PACK; when it does not fit it ends in ENC_OBUF_FULL. Bytes of `OBUF` outside those it
completes are as before. -/
def Obligations.TreePhaseWritesTheSerialization : Prop :=
  ∀ s : State, s.cfg.wf = true → WriterLaw s → s.stack = [] →
    (∀ t, HoldsTree s t → OutRoom s t.ser.length →
      ∃ u, exec .eTree s = .next u ∧
        u = { s with wacc := u.wacc, wpos := u.wpos, olen := u.olen, obuf := u.obuf, phase := .ePack } ∧
        WriterLaw u ∧ outBits u = outBits s ++ t.ser ∧ u.wpos.toNat = s.wpos.toNat + t.ser.length ∧
        ∀ a, a < s.olen.toNat ∨ u.olen.toNat ≤ a → Table.get? u.obuf a = Table.get? s.obuf a) ∧
    (∀ t, HoldsTree s t → OutRoom s 0 → ¬ OutRoom s t.ser.length →
      ∃ u, exec .eTree s = .next u ∧ u.phase = .error ∧ u.err = 0x0105 ∧ u.olen = 0) ∧
    (s.root = none → exec .eTree s = .next { s with phase := .ePack })

/-- Rule R207: E_PACK appends the code of each input byte, in increasing address order, first bit first, with nothing
between them, and ends in E_FIN; when they do not fit it ends in ENC_OBUF_FULL. Bytes of `OBUF` outside those it completes
are as before. -/
def Obligations.PackPhaseWritesTheCodes : Prop :=
  ∀ (s : State) (bits : List Bool), s.cfg.wf = true → WriterLaw s → s.ilen.toNat ≤ s.cfg.ibufCap →
    bits = (List.range s.ilen.toNat).flatMap (fun i => codeAt s (ibufByte s i)) →
    (OutRoom s bits.length →
      ∃ t, exec .ePack s = .next t ∧
        t = { s with
          wacc := t.wacc, wpos := t.wpos, olen := t.olen, obuf := t.obuf, iidx := s.ilen, phase := .eFin } ∧
        WriterLaw t ∧ outBits t = outBits s ++ bits ∧ t.wpos.toNat = s.wpos.toNat + bits.length ∧
        ∀ a, a < s.olen.toNat ∨ t.olen.toNat ≤ a → Table.get? t.obuf a = Table.get? s.obuf a) ∧
    (OutRoom s 0 → ¬ OutRoom s bits.length →
      ∃ t, exec .ePack s = .next t ∧ t.phase = .error ∧ t.err = 0x0105 ∧ t.olen = 0)

/-- Rule R209: E_FIN closes the stream, `OLEN = ceil(WPOS / 8)` with the unused low bits of the last byte 0 and `WACC` = 0, marks the
taps that `FLAGS` asks for, and ends in `DONE`; with pending bits and no room for their byte it ends in ENC_OBUF_FULL. -/
def Obligations.FinishPhaseClosesTheStream : Prop :=
  ∀ s : State, s.cfg.wf = true → WriterLaw s →
    (OutRoom s 7 →
      ∃ t, exec .eFin s = .next t ∧
        t = { s with
          wacc := 0, olen := t.olen, obuf := t.obuf, finalized := true,
          freqTap := s.freqTap || s.flags.getLsbD 0, codeTap := s.codeTap || s.flags.getLsbD 1, phase := .done } ∧
        t.olen.toNat = (s.wpos.toNat + 7) / 8 ∧
        (outBytes t).flatMap byteBits = outBits s ++ List.replicate (8 * t.olen.toNat - s.wpos.toNat) false ∧
        ∀ a, a < s.olen.toNat ∨ t.olen.toNat ≤ a → Table.get? t.obuf a = Table.get? s.obuf a) ∧
    (s.wpos.toNat % 8 ≠ 0 → s.cfg.obufCap ≤ s.olen.toNat →
      exec .eFin s = .next (raise .encObufFull { s with finalized := true }))

/-! ### The phases of a DECODE -/

/-- Rule R222, and derived from rule R223: D_HDR, run at `RPOS` = 0: a buffer shorter than 4 bytes is HDR_TRUNC; an N beyond `OBUF_CAP` is
DEC_N_TOO_LARGE; N = 0 ends the DECODE; any other N goes on to D_TREE. -/
def Obligations.HeaderPhaseReadsTheLength : Prop :=
  ∀ s : State, s.ilen.toNat ≤ s.cfg.ibufCap → s.rpos = 0 →
    (s.ilen.toNat < 4 →
      exec .dHdr s = .next (raise .hdrTrunc { s with rpos := BitVec.ofNat 36 (8 * s.ilen.toNat) })) ∧
    (4 ≤ s.ilen.toNat → ∀ n : Word, n = BitVec.ofNat 32 (bitsValue (inBits s 0 32)) →
      (s.cfg.obufCap < n.toNat →
        exec .dHdr s = .next (raise .decNTooLarge { s with rpos := 32, nhdr := n, nrem := n })) ∧
      (n.toNat ≤ s.cfg.obufCap → n = 0 →
        exec .dHdr s = .next { s with rpos := 32, nhdr := n, nrem := n, phase := .done }) ∧
      (n.toNat ≤ s.cfg.obufCap → n ≠ 0 →
        exec .dHdr s = .next { s with rpos := 32, nhdr := n, nrem := n, phase := .dTree }))

/-- Rule R191, and derived from rules R189 and R190: D_TREE, where the stream holds the serialization of a tree and `NODE` has room for it,
completes in D_WALK: `ROOT` is the first node read, the nodes are numbered in preorder with `COUNT` 0, exactly the bits
of the tree are consumed, and nothing else changes. -/
def Obligations.TreePhaseReadsTheSerialization : Prop :=
  ∀ (s : State) (t : HuffTree), s.stack = [] → InRoom s t.ser.length → inBits s s.rpos.toNat t.ser.length = t.ser →
    (∀ i < s.seq + t.size, nodeFits i s = true) →
    ∃ u, exec .dTree s = .next u ∧
      u = { s with
        node := u.node, seq := s.seq + t.size, root := some s.seq,
        rpos := s.rpos + BitVec.ofNat 36 t.ser.length, phase := .dWalk } ∧
      (∀ e ∈ t.preorder s.seq, Table.get? u.node e.1 = some e.2) ∧
      ∀ j, j < s.seq ∨ s.seq + t.size ≤ j → Table.get? u.node j = Table.get? s.node j

/-- Derived from rules R190, R192 and R251: whatever the stream holds, with `NODE_CAP` finite or not, D_TREE from an empty
stack ends in D_WALK; or in TREE_TRUNC with every bit consumed; or in NODE_OVERFLOW, with `NODE_CAP` finite and `RPOS`
inside the input. It never stops. -/
def Obligations.TreePhaseEndsOrFailsByName : Prop :=
  ∀ s : State, s.stack = [] → s.ilen.toNat ≤ s.cfg.ibufCap → s.rpos.toNat ≤ 8 * s.ilen.toNat →
    ∃ u, exec .dTree s = .next u ∧
      (u.phase = .dWalk ∨
        (u.phase = .error ∧ u.err = 0x0201 ∧ u.rpos.toNat = 8 * s.ilen.toNat) ∨
        (u.phase = .error ∧ u.err = 0x0401 ∧ s.cfg.nodeCap.isSome = true ∧ u.rpos.toNat ≤ 8 * s.ilen.toNat))

/-- Derived from rules R226, R227, R228 and R229: D_WALK, where the stream holds one code of the tree for each symbol still to
decode and `OBUF` has room, completes in `DONE`: the symbols of those codes are in `OBUF` from `OLEN` on, exactly their
bits are consumed, `NREM` is 0, `CUR` is the leaf of the last of them, and nothing else changes. A single leaf takes one
bit 0 for each symbol. -/
def Obligations.WalkPhaseEmitsTheSymbols : Prop :=
  ∀ (s : State) (t : HuffTree) (es : List (Byte × List Bool)), s.cfg.wf = true → HoldsTree s t → (∀ e ∈ es, e ∈ t.codes) →
    s.nrem.toNat = es.length → s.olen.toNat + es.length ≤ s.cfg.obufCap →
    InRoom s (es.flatMap Prod.snd).length →
    inBits s s.rpos.toNat (es.flatMap Prod.snd).length = es.flatMap Prod.snd →
    ∃ u, exec .dWalk s = .next u ∧
      u = { s with
        cur := u.cur, nrem := 0, obuf := u.obuf, olen := s.olen + BitVec.ofNat 32 es.length,
        rpos := s.rpos + BitVec.ofNat 36 (es.flatMap Prod.snd).length, phase := .done } ∧
      (es = [] → u.cur = s.cur) ∧
      (∀ e, es.getLast? = some e → ∃ k c q, u.cur = some k ∧ Table.get? s.node k = some (.leaf e.1 c q)) ∧
      (∀ (j : Nat) (e : Byte × List Bool), es[j]? = some e → Table.get? u.obuf (s.olen.toNat + j) = some e.1) ∧
      ∀ a, a < s.olen.toNat ∨ s.olen.toNat + es.length ≤ a → Table.get? u.obuf a = Table.get? s.obuf a

/-- Rule R228: with a single leaf, D_WALK consumes exactly one bit for each symbol and emits the leaf's symbol, where
the bits are 0 or the policy is `accept`; under the policy `fault`, after `k` bits 0 for `k` symbols, a bit 1 for one
more raises LEAFROOT_BIT1, with `RPOS` one more than the position of that bit. -/
def Obligations.SingleLeafTakesOneBitPerSymbol : Prop :=
  ∀ (s : State) (r : Nat) (sym : Byte) (c : Word) (q : Nat), s.cfg.wf = true → s.root = some r →
    Table.get? s.node r = some (.leaf sym c q) → s.olen.toNat + s.nrem.toNat ≤ s.cfg.obufCap →
    (InRoom s s.nrem.toNat →
      s.cfg.leafrootBit1 = .accept ∨ inBits s s.rpos.toNat s.nrem.toNat = List.replicate s.nrem.toNat false →
      ∃ t, exec .dWalk s = .next t ∧ t.phase = .done ∧ t.olen = s.olen + s.nrem ∧
        t.rpos = s.rpos + BitVec.ofNat 36 s.nrem.toNat ∧
        ∀ j, j < s.nrem.toNat → Table.get? t.obuf (s.olen.toNat + j) = some sym) ∧
    (∀ k, s.cfg.leafrootBit1 = .fault → k < s.nrem.toNat → InRoom s (k + 1) →
      inBits s s.rpos.toNat (k + 1) = List.replicate k false ++ [true] →
      ∃ t, exec .dWalk s = .next t ∧ t.phase = .error ∧ t.err = 0x0501 ∧ t.olen = 0 ∧
        t.rpos = s.rpos + BitVec.ofNat 36 (k + 1))

/-- Derived from rules R226, R227, R228, R234 and R241. Whatever the payload, D_WALK ends in one of three ways: in `DONE`
with every symbol decoded, each from one bit at least; in PAYLOAD_TRUNC with every bit consumed; or in LEAFROOT_BIT1, with
a single leaf and under the policy `fault`. With a tree and room for the symbols it does end, on any bits. It ends in
PAYLOAD_TRUNC where the bits are the codes of fewer symbols than asked for, followed by a part of one more code, be it
empty. On an error there is no output. -/
def Obligations.WalkPhaseNeverEndsShort : Prop :=
  ∀ s : State, s.cfg.wf = true → s.ilen.toNat ≤ s.cfg.ibufCap → s.rpos.toNat ≤ 8 * s.ilen.toNat →
    (∀ t, exec .dWalk s = .next t →
      (t.phase = .done ∧ t.nrem = 0 ∧ t.olen.toNat = s.olen.toNat + s.nrem.toNat ∧
        s.rpos.toNat + s.nrem.toNat ≤ t.rpos.toNat ∧ t.rpos.toNat ≤ 8 * s.ilen.toNat) ∨
      (t.phase = .error ∧ t.olen = 0 ∧
        ((t.err = 0x0301 ∧ t.rpos.toNat = 8 * s.ilen.toNat) ∨
          (t.err = 0x0501 ∧ s.cfg.leafrootBit1 = .fault ∧
            ∃ r sym c q, s.root = some r ∧ Table.get? s.node r = some (.leaf sym c q))))) ∧
    ∀ tree, HoldsTree s tree → s.olen.toNat + s.nrem.toNat ≤ s.cfg.obufCap →
      (∃ t, exec .dWalk s = .next t) ∧
      ∀ (es : List (Byte × List Bool)) (sym : Byte) (part rest bits : List Bool), (∀ e ∈ es, e ∈ tree.codes) →
        es.length < s.nrem.toNat → (sym, part ++ rest) ∈ tree.codes → rest ≠ [] →
        bits = es.flatMap Prod.snd ++ part → s.rpos.toNat + bits.length = 8 * s.ilen.toNat →
        inBits s s.rpos.toNat bits.length = bits →
        ∃ t, exec .dWalk s = .next t ∧ t.phase = .error ∧ t.err = 0x0301 ∧ t.olen = 0 ∧
          t.rpos.toNat = 8 * s.ilen.toNat

/-! ### The I/O controller -/

/-- Rule R120: RDBIT returns the bit at `RPOS`, the most significant bit of a byte first, and moves on by one; with no bit
left it signals EOB and changes nothing. The result lines are the model's (log 10). -/
def Obligations.ReadBitReturnsTheBitAtRpos : Prop :=
  ∀ s : State,
    (InRoom s 1 →
      exec .rdbit s = .next { s with
        rpos := s.rpos + 1,
        bioOut := .value (BitVec.ofNat 32 ((ibufByte s (s.rpos.toNat / 8)).getLsbD (7 - s.rpos.toNat % 8)).toNat) }) ∧
    (8 * s.ilen.toNat ≤ s.rpos.toNat → exec .rdbit s = .next { s with bioOut := .eob })

/-- Rules R121, R122 and R123: RDBYTE and RDU32 return the next 8 and the next 32 bits as a number, the first bit the most
significant, and move past them; with too few bits left they signal EOB and have consumed every bit. -/
def Obligations.ReadByteAndWordAssembleTheirBits : Prop :=
  ∀ s : State,
    (InRoom s 8 →
      exec .rdbyte s = .next { s with
        rpos := s.rpos + 8, bioOut := .value (BitVec.ofNat 32 (bitsValue (inBits s s.rpos.toNat 8))) }) ∧
    (InRoom s 32 →
      exec .rdu32 s = .next { s with
        rpos := s.rpos + 32, bioOut := .value (BitVec.ofNat 32 (bitsValue (inBits s s.rpos.toNat 32))) }) ∧
    (s.ilen.toNat ≤ s.cfg.ibufCap → s.rpos.toNat ≤ 8 * s.ilen.toNat →
      (8 * s.ilen.toNat < s.rpos.toNat + 8 →
        exec .rdbyte s = .next { s with rpos := BitVec.ofNat 36 (8 * s.ilen.toNat), bioOut := .eob }) ∧
      (8 * s.ilen.toNat < s.rpos.toNat + 32 →
        exec .rdu32 s = .next { s with rpos := BitVec.ofNat 36 (8 * s.ilen.toNat), bioOut := .eob }))

/-- Rule R124: WRBIT shifts its bit into `WACC` and counts it; the eighth stores the byte at `OBUF[OLEN]` and no other, or
raises ENC_OBUF_FULL when it has no room; and the law of the rule: before FINALIZE, `OLEN = WPOS div 8` and the stream is
what it was followed by the bit. -/
def Obligations.WriteBitCompletesBytes : Prop :=
  ∀ (s : State) (b : Bool) (acc : Byte), s.cfg.wf = true → s.finalized = false →
    acc.toNat = (2 * s.wacc.toNat + b.toNat) % 256 →
    (s.wpos.toNat % 8 ≠ 7 → exec (.wrbit b) s = .next { s with wacc := acc, wpos := s.wpos + 1 }) ∧
    (s.wpos.toNat % 8 = 7 → s.olen.toNat < s.cfg.obufCap →
      ∃ t, exec (.wrbit b) s = .next t ∧
        t = { s with wacc := 0, wpos := s.wpos + 1, olen := s.olen + 1, obuf := t.obuf } ∧
        Table.get? t.obuf s.olen.toNat = some acc ∧
        ∀ a, a ≠ s.olen.toNat → Table.get? t.obuf a = Table.get? s.obuf a) ∧
    (s.wpos.toNat % 8 = 7 → s.cfg.obufCap ≤ s.olen.toNat →
      exec (.wrbit b) s = .next (raise .encObufFull { s with wacc := acc, wpos := s.wpos + 1 })) ∧
    (WriterLaw s → OutRoom s 1 →
      ∃ t, exec (.wrbit b) s = .next t ∧ WriterLaw t ∧ outBits t = outBits s ++ [b])

/-- Derived from rules R124, R125 and R126: on a writer that obeys its law and has room, WRBIT, WRBYTE and WRU32 append
their bits to the stream, most significant first; `OLEN` stays `WPOS div 8`; the bytes of `OBUF` outside those completed
are as before, and nothing else changes. -/
def Obligations.WritesAppendTheirBits : Prop :=
  ∀ (s : State) (i : Instr) (bits : List Bool), s.cfg.wf = true → WriterLaw s → OutRoom s bits.length →
    ((∃ b, i = .wrbit b ∧ bits = [b]) ∨ (∃ v, v < 2 ^ 8 ∧ i = .wrbyte v ∧ bits = bitsMsb 8 v) ∨
      (∃ v, v < 2 ^ 32 ∧ i = .wru32 v ∧ bits = bitsMsb 32 v)) →
    ∃ t, exec i s = .next t ∧
      t = { s with wacc := t.wacc, wpos := s.wpos + BitVec.ofNat 36 bits.length, olen := t.olen, obuf := t.obuf } ∧
      WriterLaw t ∧ outBits t = outBits s ++ bits ∧
      ∀ a, a < s.olen.toNat ∨ t.olen.toNat ≤ a → Table.get? t.obuf a = Table.get? s.obuf a

/-- Rule R127: FINALIZE completes the pending bits with zeros on the right to a byte, does nothing on a byte boundary,
raises ENC_OBUF_FULL when the byte has no room, and leaves `WPOS`. That `finalized` records it is the model's (log 12). -/
def Obligations.FinalizePadsTheLastByte : Prop :=
  ∀ s : State, s.cfg.wf = true →
    (s.wpos.toNat % 8 = 0 → exec .finalize s = .next { s with finalized := true }) ∧
    (s.wpos.toNat % 8 ≠ 0 → s.cfg.obufCap ≤ s.olen.toNat →
      exec .finalize s = .next (raise .encObufFull { s with finalized := true })) ∧
    (s.wpos.toNat % 8 ≠ 0 → s.olen.toNat < s.cfg.obufCap →
      ∃ t, exec .finalize s = .next t ∧
        t = { s with wacc := 0, olen := s.olen + 1, obuf := t.obuf, finalized := true } ∧
        Table.get? t.obuf s.olen.toNat =
          some (BitVec.ofNat 8 (s.wacc.toNat * 2 ^ (8 - s.wpos.toNat % 8) % 256)) ∧
        ∀ a, a ≠ s.olen.toNat → Table.get? t.obuf a = Table.get? s.obuf a) ∧
    (WriterLaw s → OutRoom s 7 → ∃ t, exec .finalize s = .next t ∧ t.olen.toNat = (s.wpos.toNat + 7) / 8)

/-- Derived from rules R124, R127, R245 and R251: with `OBUF` full, the WRBIT that completes a byte raises ENC_OBUF_FULL
with `WPOS` = `8 * (OBUF_CAP + 1)`, and a FINALIZE with pending bits raises it with `WPOS` as it was, so that `WPOS div 8`
is `OBUF_CAP`. -/
def Obligations.FullOutputRaisesOverflow : Prop :=
  ∀ s : State, s.cfg.wf = true → WriterLaw s → s.olen.toNat = s.cfg.obufCap →
    (∀ b, s.wpos.toNat % 8 = 7 →
      ∃ t, exec (.wrbit b) s = .next t ∧ t.phase = .error ∧ t.err = 0x0105 ∧ t.olen = 0 ∧
        t.wpos.toNat = 8 * (s.cfg.obufCap + 1)) ∧
    (s.wpos.toNat % 8 ≠ 0 →
      ∃ t, exec .finalize s = .next t ∧ t.phase = .error ∧ t.err = 0x0105 ∧ t.olen = 0 ∧ t.wpos = s.wpos ∧
        t.wpos.toNat / 8 = s.cfg.obufCap)

/-- Derived from rule R127 and 93_implementation_defined.md U6; the refusal is the model's choice (log 12): a write after
FINALIZE within one command is refused. -/
def Obligations.WriteAfterFinalizeIsRefused : Prop :=
  ∀ s : State, s.finalized = true →
    (∀ b, exec (.wrbit b) s = .refused .writeAfterFinalize) ∧
    (∀ v, exec (.wrbyte v) s = .refused .writeAfterFinalize) ∧
    (∀ v, exec (.wru32 v) s = .refused .writeAfterFinalize)

/-- Derived from rule R130: bits written from `WPOS` = 0 and finalized, the bytes placed in `IBUF` with their number in
`ILEN`, are read back as they were, and the rest of the last byte reads as 0. -/
def Obligations.WrittenBitsReadBack : Prop :=
  ∀ (s : State) (bits : List Bool), s.cfg.wf = true → WriterLaw s → s.wpos = 0 → OutRoom s (bits.length + 7) →
    ∃ t, (wrBits bits s).bind (fun _ s => finalizeOp s) = .ok () t ∧
      ∀ u : State, u.ibuf = t.obuf → u.ilen = t.olen → u.rpos = 0 → u.ilen.toNat ≤ u.cfg.ibufCap →
        rdBits bits.length u = .ok bits { u with rpos := BitVec.ofNat 36 bits.length } ∧
        inBits u bits.length (8 * u.ilen.toNat - bits.length) =
          List.replicate (8 * u.ilen.toNat - bits.length) false ∧
        8 * u.ilen.toNat - bits.length ≤ 7

/-! ### Tokens of the stream -/

/-- Derived from rules R95, R204 and R222; that a token is performed by itself is the model's choice (log 11): LENHDR in
D_HDR moves past its 32 bits and has the effect of D_HDR, and in E_HDR it is written and E_TREE entered. -/
def Obligations.HeaderTokenIsReadAndWritten : Prop :=
  ∀ (s : State) (n : Nat), n < 2 ^ 32 →
    (s.phase = .dHdr → n ≤ s.cfg.obufCap →
      exec (.lenhdr n) s = .next { s with
        rpos := s.rpos + 32, nhdr := BitVec.ofNat 32 n, nrem := BitVec.ofNat 32 n,
        phase := if n = 0 then .done else .dTree }) ∧
    (s.phase = .dHdr → s.cfg.obufCap < n →
      ∃ t, exec (.lenhdr n) s = .next t ∧ t.phase = .error ∧ t.err = 0x0205 ∧ t.olen = 0 ∧
        t.rpos = s.rpos + 32) ∧
    (s.phase = .eHdr → s.cfg.wf = true → WriterLaw s → OutRoom s 32 →
      ∃ t, exec (.lenhdr n) s = .next t ∧
        t = { s with
          nhdr := BitVec.ofNat 32 n, wacc := t.wacc, wpos := s.wpos + 32, olen := t.olen, obuf := t.obuf,
          phase := .eTree } ∧
        WriterLaw t ∧ outBits t = outBits s ++ bitsMsb 32 n ∧
        ∀ a, a < s.olen.toNat ∨ t.olen.toNat ≤ a → Table.get? t.obuf a = Table.get? s.obuf a)

/-- Derived from rules R96, R97, R185 and R186 (log 11): in E_TREE the tokens of the tree are written: `0`, or `1` and the
symbol. -/
def Obligations.TreeTokensAreWritten : Prop :=
  ∀ (s : State) (i : Instr) (bits : List Bool), s.phase = .eTree → s.cfg.wf = true → WriterLaw s →
    OutRoom s bits.length →
    ((i = .tnodeInt ∧ bits = [false]) ∨ (∃ v, v < 2 ^ 8 ∧ i = .tnodeLeaf v ∧ bits = true :: bitsMsb 8 v)) →
    ∃ t, exec i s = .next t ∧
      t = { s with wacc := t.wacc, wpos := s.wpos + BitVec.ofNat 36 bits.length, olen := t.olen, obuf := t.obuf } ∧
      WriterLaw t ∧ outBits t = outBits s ++ bits ∧
      ∀ a, a < s.olen.toNat ∨ t.olen.toNat ≤ a → Table.get? t.obuf a = Table.get? s.obuf a

/-- Derived from rules R96, R97 and R190 (log 11): in D_TREE a token of the tree moves past its bits and takes the node
of index `SEQ`; an internal node waits on `STACK` for its children; a leaf goes to the node that waits for it, or is the
root. Where it is a right child, the nodes that wait for their right child only (`full`, the innermost first, each made
before this leaf) are written and go in their turn to the next one; when none is left the last is the root and D_WALK is
entered. With `NODE` full both raise NODE_OVERFLOW and consume nothing. -/
def Obligations.TreeTokensAreRead : Prop :=
  ∀ s : State, s.phase = .dTree →
    (nodeFits s.seq s = true →
      exec .tnodeInt s = .next { s with
        rpos := s.rpos + 1, seq := s.seq + 1, stack := Frame.at s.seq :: s.stack }) ∧
    (nodeFits s.seq s = true → s.stack = [] → ∀ v,
      exec (.tnodeLeaf v) s = .next { s with
        rpos := s.rpos + 9, seq := s.seq + 1, root := some s.seq, phase := .dWalk,
        node := Table.set s.node s.seq (.leaf (BitVec.ofNat 8 v) 0 s.seq) }) ∧
    (nodeFits s.seq s = true → ∀ j p rest, s.stack = { node := j, left := none, path := p } :: rest → ∀ v,
      exec (.tnodeLeaf v) s = .next { s with
        rpos := s.rpos + 9, seq := s.seq + 1, stack := { node := j, left := some s.seq, path := [] } :: rest,
        node := Table.set s.node s.seq (.leaf (BitVec.ofNat 8 v) 0 s.seq) }) ∧
    (nodeFits s.seq s = true → ∀ (v : Nat) (full rest : List Frame) (done : Nat) (nodes : List (Nat × Node)),
      s.stack = full ++ rest → (∀ fr ∈ full, fr.left.isSome = true ∧ fr.node < s.seq) →
      (done, nodes) =
        closeFull full s.seq (Table.set s.node s.seq (.leaf (BitVec.ofNat 8 v) 0 s.seq)) →
      (rest = [] →
        exec (.tnodeLeaf v) s = .next { s with
          rpos := s.rpos + 9, seq := s.seq + 1, stack := [], root := some done, phase := .dWalk, node := nodes }) ∧
      ∀ j p rest', rest = { node := j, left := none, path := p } :: rest' →
        exec (.tnodeLeaf v) s = .next { s with
          rpos := s.rpos + 9, seq := s.seq + 1, stack := { node := j, left := some done, path := [] } :: rest',
          node := nodes }) ∧
    (nodeFits s.seq s = false → ∀ v,
      exec .tnodeInt s = .next (raise .nodeOverflow s) ∧ exec (.tnodeLeaf v) s = .next (raise .nodeOverflow s))

/-- Derived from rules R95, R96 and R97; the refusal is the model's choice (log 11): in a phase that neither writes nor
reads a token, the token is refused. -/
def Obligations.TokenOutOfPhaseIsRefused : Prop :=
  ∀ (s : State) (n : Nat),
    (s.phase ≠ .eHdr → s.phase ≠ .dHdr → exec (.lenhdr n) s = .refused .tokenOutOfPhase) ∧
    (s.phase ≠ .eTree → s.phase ≠ .dTree →
      exec .tnodeInt s = .refused .tokenOutOfPhase ∧ exec (.tnodeLeaf n) s = .refused .tokenOutOfPhase)

/-! ### Frames and the whole machine -/

/-- Derived from rules R34, R60 and R69, with the parameters in the ranges of rule R10: no operation writes `ILEN`, any byte of `IBUF`, or the parameters, and none
touches the host's script or what it read last. -/
def Obligations.NoOperationWritesTheInput : Prop :=
  ∀ (i : Instr) (s t : State), s.cfg.wf = true → exec i s = .next t →
    t.ilen = s.ilen ∧ t.cfg = s.cfg ∧ t.epoch = s.epoch ∧ t.events = s.events ∧ t.rdata = s.rdata ∧
      t.ibuf = s.ibuf ∧ ∀ a, ibufByte t a = ibufByte s a

/-- Derived from rules R25, R26 and R129, with the parameters in the ranges of rule R10: no operation but a command write and the reading ones moves `RPOS`; no
operation but a command write and the writing ones moves `WPOS`; and only a command write changes `CMD` and `FLAGS`. -/
def Obligations.CursorsMoveOnlyWithTheirUnit : Prop :=
  ∀ (i : Instr) (s t : State), s.cfg.wf = true → exec i s = .next t → (∀ f c b, i ≠ .encode f c b ∧ i ≠ .decode f c b) →
    t.cmd = s.cmd ∧ t.flags = s.flags ∧
    (i ∈ [.eCount, .eBuild, .eGen, .eHdr, .eTree, .ePack, .eFin, .finalize] ∨
        (∃ b, i = .wrbit b) ∨ (∃ v, i = .wrbyte v) ∨ (∃ v, i = .wru32 v) → t.rpos = s.rpos) ∧
    (i ∈ [.eCount, .eBuild, .eGen, .dHdr, .dTree, .dWalk, .rdbit, .rdbyte, .rdu32, .finalize, .eFin] →
      t.wpos = s.wpos)

/-- Derived from rules R120 to R122: the reading operations change nothing but `RPOS`, which they never move past the
input, and the result lines; every byte of both buffers is as before. -/
def Obligations.ReadsChangeOnlyRpos : Prop :=
  ∀ (i : Instr) (s t : State), i ∈ [.rdbit, .rdbyte, .rdu32] → exec i s = .next t →
    t = { s with rpos := t.rpos, bioOut := t.bioOut } ∧ s.rpos.toNat ≤ t.rpos.toNat ∧
      (s.rpos.toNat ≤ 8 * s.ilen.toNat → t.rpos.toNat ≤ 8 * s.ilen.toNat) ∧
      ∀ a, Table.get? t.obuf a = Table.get? s.obuf a ∧ ibufByte t a = ibufByte s a

/-- Derived from rules R124 to R127, R185, R204, R207 and R229: where a writing operation or a phase that writes `OBUF`,
D_WALK among them whatever the payload, does not end in an error, the bytes it stores are those from the old `OLEN` up to the new one, and every other byte of `OBUF` is as before;
a WRBIT or FINALIZE stores one byte at most. E_COUNT, E_BUILD, E_GEN, D_HDR and D_TREE store nothing. That a token is
performed by itself is the model's choice (log 11). -/
def Obligations.WritesStoreOnlyFromOlenOn : Prop :=
  ∀ (i : Instr) (s t : State), s.cfg.wf = true → s.phase ≠ .error → exec i s = .next t → t.phase ≠ .error →
    (i ∈ [.eHdr, .eTree, .ePack, .eFin, .dWalk, .finalize, .tnodeInt] ∨ (∃ b, i = .wrbit b) ∨ (∃ v, i = .wrbyte v) ∨
        (∃ v, i = .wru32 v) ∨ (∃ n, i = .lenhdr n) ∨ (∃ v, i = .tnodeLeaf v) →
      s.olen.toNat ≤ t.olen.toNat ∧
      ∀ a, a < s.olen.toNat ∨ t.olen.toNat ≤ a → Table.get? t.obuf a = Table.get? s.obuf a) ∧
    (i ∈ [.eFin, .finalize] ∨ (∃ b, i = .wrbit b) → t.olen.toNat ≤ s.olen.toNat + 1) ∧
    (i ∈ [.eCount, .eBuild, .eGen, .dHdr, .dTree] →
      t.olen = s.olen ∧ ∀ a, Table.get? t.obuf a = Table.get? s.obuf a)

/-- Derived from rules R247 and R250, with the parameters in the ranges of rule R10: an operation other than a command
write that ends in `ERROR` has performed the error entry, with a cause that the table of rule R247 gives it: `ERR` is
that cause's value, `OLEN` is 0, `PQ` and `STACK` are empty, both taps are not valid, and `CMD`, `FLAGS` and `ILEN` are
kept. The table has no row for LENHDR, TNODE_INT and TNODE_LEAF: what a token performed by itself can raise, an error of
the phases that write or read it, is the model's choice (log 11). -/
def Obligations.OperationsRaiseOnlyTheirErrors : Prop :=
  ∀ (i : Instr) (s t : State), s.cfg.wf = true → s.phase ≠ .error → (∀ f c b, i ≠ .encode f c b ∧ i ≠ .decode f c b) →
    exec i s = .next t → t.phase = .error →
    (t.olen = 0 ∧ t.pq = [] ∧ t.stack = [] ∧ t.freqTap = false ∧ t.codeTap = false ∧
      t.cmd = s.cmd ∧ t.flags = s.flags ∧ t.ilen = s.ilen) ∧
    match i with
    | .eBuild => t.err = 0x0103
    | .eGen => t.err = 0x0203 ∨ t.err = 0x0303
    | .eHdr | .eTree | .ePack | .eFin | .wrbit _ | .wrbyte _ | .wru32 _ | .finalize => t.err = 0x0105
    | .dHdr => t.err = 0x0101 ∨ t.err = 0x0205
    | .dTree => t.err = 0x0201 ∨ t.err = 0x0401
    | .dWalk => t.err = 0x0301 ∨ t.err = 0x0501
    | .lenhdr _ => t.err = 0x0105 ∨ t.err = 0x0205
    | .tnodeInt | .tnodeLeaf _ => t.err = 0x0105 ∨ t.err = 0x0401
    | .eCount | .rdbit | .rdbyte | .rdu32 | .encode _ _ _ | .decode _ _ _ => False

/-- Rule R240, and derived from rule R250: the error entry, cause by cause: `ERR` is `256 * SUB + KIND`, `OLEN` is 0, `PQ` and `STACK`
are empty, the block is in `ERROR`, both taps are not valid, and `RPOS`, `WPOS`, `CMD`, `FLAGS` and `ILEN` keep their
values. -/
def Obligations.ErrorEntryRecordsTheCause : Prop :=
  ∀ (c : Cause) (s : State),
    (raise c s).olen = 0 ∧ (raise c s).pq = [] ∧ (raise c s).stack = [] ∧ (raise c s).phase = .error ∧
    (raise c s).freqTap = false ∧ (raise c s).codeTap = false ∧ (raise c s).rpos = s.rpos ∧
    (raise c s).wpos = s.wpos ∧ (raise c s).cmd = s.cmd ∧ (raise c s).flags = s.flags ∧
    (raise c s).ilen = s.ilen ∧
    (raise c s).err =
      match c with
      | .hdrTrunc => 0x0101
      | .treeTrunc => 0x0201
      | .payloadTrunc => 0x0301
      | .nodeOverflow => 0x0401
      | .leafrootBit1 => 0x0501
      | .countSum => 0x0103
      | .codePrefix => 0x0203
      | .codeMissing => 0x0303
      | .badCmd => 0x0104
      | .badIlen => 0x0204
      | .encObufFull => 0x0105
      | .decNTooLarge => 0x0205

/-! ### Invariants -/

/-- Derived from rules R10, R35 and R60; the canonical form is the model's (log 6): every step keeps the buffers in
canonical form, inside their spaces, and `OLEN` within `OBUF`. -/
def Obligations.StepKeepsBuffers : Prop :=
  ∀ s t : State, BufferInv s → step s = .next t → BufferInv t

/-- Derived from rules R33, R37, R39, R40 and R240: with the parameters in the ranges of rule R10 every
step keeps the error channel, the flags and the validity of the taps lawful. -/
def Obligations.StepKeepsErrorChannel : Prop :=
  ∀ s t : State, s.cfg.wf = true → ErrorInv s → step s = .next t → ErrorInv t

/-- Derived from rules R13, R22, R25, R26, R27, R29, R42, R44, R46, R129, R222 and R246: every step keeps the engine's
registers lawful, whatever the host does and whichever way the engine takes its turns. The two clauses about the model's own
fields `marker` and `bioOut` are the model's (log 10), derived from rules R128, R185 and R190. -/
def Obligations.StepKeepsEngineRegisters : Prop :=
  ∀ s t : State, s.cfg.wf = true → EngineInv s → step s = .next t → EngineInv t

/-- Derived from rule R50: the state after reset is safe. -/
def Obligations.ResetStateIsSafe : Prop := Safe State.reset

/-! ### Reset and the host's view -/

/-- Rule R270: the reset input, in any state, puts every register that has a reset value into it, and no
tap is valid. -/
def Obligations.ResetInputResetsEveryRegister : Prop :=
  ∀ (s : State) (rest : List Event), s.events = .reset :: rest →
    ∃ t, step s = .next t ∧ t.cmd = 0 ∧ t.phase = .idle ∧ statusWord t = 0 ∧ t.err = 0 ∧ t.flags = 0 ∧ t.ilen = 0 ∧
      t.olen = 0 ∧ t.rpos = 0 ∧ t.wpos = 0 ∧ t.wacc = 0 ∧ t.nhdr = 0 ∧ t.nrem = 0 ∧ t.iidx = 0 ∧ t.seq = 0 ∧
      t.root = none ∧ t.cur = none ∧ t.pq = [] ∧ t.stack = [] ∧ t.freqTap = false ∧ t.codeTap = false ∧
      t.events = rest ∧ t.cfg = s.cfg

/-- Rule R32: a read of `STATUS`, at any time, gives `STATE` in bits 1:0, `PHASE` in bits 7:4 and 0 elsewhere, and `STATE`
is the function of `PHASE` stated there. -/
def Obligations.StatusReadsStateAndPhase : Prop :=
  ∀ (s : State) (rest : List Event), s.events = .host (.read32 0x04) :: rest →
    ∃ v : Word, step s = .next { s with events := rest, rdata := v } ∧
      v.extractLsb' 4 4 = s.phase.code ∧ v.extractLsb' 2 2 = 0 ∧ v.extractLsb' 8 24 = 0 ∧
      (v.extractLsb' 0 2 = 0 ↔ s.phase.code = 0) ∧
      (v.extractLsb' 0 2 = 1 ↔ 1 ≤ s.phase.code.toNat ∧ s.phase.code.toNat ≤ 10) ∧
      (v.extractLsb' 0 2 = 2 ↔ s.phase.code = 14) ∧ (v.extractLsb' 0 2 = 3 ↔ s.phase.code = 15)

/-- Derived from rules R30, R31, R33, R34, R35, R36 and R37: outside `BUSY` the registers read their values, the positions in
two halves; a read changes no state but the data the host holds. That `ERR`, `OLEN` and the positions read so before a read
of `STATUS` has returned `DONE` or `ERROR`, too, is the model's choice (log 23): rules R76 and R281 promise it only then. -/
def Obligations.RegistersReadTheirValues : Prop :=
  ∀ (s : State) (rest : List Event) (off : BitVec 15) (v : Word), busy s = false →
    s.events = .host (.read32 off) :: rest →
    ((off = 0x00 ∧ v = s.cmd) ∨ (off = 0x08 ∧ v = s.err) ∨ (off = 0x0C ∧ v = s.ilen) ∨ (off = 0x10 ∧ v = s.olen) ∨
      (off = 0x14 ∧ v.toNat = s.rpos.toNat % 2 ^ 32) ∨ (off = 0x18 ∧ v.toNat = s.rpos.toNat / 2 ^ 32) ∨
      (off = 0x1C ∧ v.toNat = s.wpos.toNat % 2 ^ 32) ∨ (off = 0x20 ∧ v.toNat = s.wpos.toNat / 2 ^ 32) ∨
      (off = 0x24 ∧ v.toNat = s.flags.toNat)) →
    step s = .next { s with events := rest, rdata := v }

/-- Rule R283 (the reads of rule R38 are not among those it calls unspecified, log 20): while `BUSY`, `CMD`, `STATUS`, `ILEN` and `FLAGS` and the bytes of `IBUF` read their stored values, and
`OLEN`, `ERR`, the positions, the taps and the bytes of `OBUF` read a free value, whatever it is; no read disturbs the
command. -/
def Obligations.ReadsWhileBusyAreFree : Prop :=
  ∀ (s : State) (rest : List Event), busy s = true →
    (∀ off : BitVec 15, s.events = .host (.read32 off) :: rest →
      (off.toNat ∈ [0x08, 0x10, 0x14, 0x18, 0x1C, 0x20] ∨
          (off.toNat % 4 = 0 ∧ (0x400 ≤ off.toNat ∧ off.toNat < 0x800 ∨ 0x4000 ≤ off.toNat)) →
        step s = .next { s with events := rest, rdata := Config.freeWord s.draws, draws := s.draws + 1 }) ∧
      (off = 0x00 → step s = .next { s with events := rest, rdata := s.cmd }) ∧
      (off = 0x04 → step s = .next { s with events := rest, rdata := statusWord s }) ∧
      (off = 0x0C → step s = .next { s with events := rest, rdata := s.ilen }) ∧
      (off = 0x24 → step s = .next { s with events := rest, rdata := s.flags.setWidth 32 })) ∧
    (∀ a, a < s.cfg.ibufCap → s.events = .host (.readIbuf a) :: rest →
      step s = .next { s with events := rest, rdata := (ibufByte s a).setWidth 32 }) ∧
    (∀ a, a < s.cfg.obufCap → s.events = .host (.readObuf a) :: rest →
      step s = .next { s with
        events := rest, rdata := (Config.freeByte s.draws).setWidth 32, draws := s.draws + 1 })

/-- Derived from rule R38: a reserved offset reads 0 and ignores writes; so does an offset that is not a multiple of 4, and an
access that is not a word; a write to a read-only register is ignored. That such reads give 0 while `BUSY` too, where rule
R283 calls every other read unspecified, is the model's reading (log 20, DEDUCED). -/
def Obligations.ReservedOffsetsReadZero : Prop :=
  ∀ (s : State) (rest : List Event) (off : BitVec 15) (v : Word),
    (s.events = .host (.read32 off) :: rest →
      off.toNat % 4 ≠ 0 ∨ (0x28 ≤ off.toNat ∧ off.toNat < 0x400) ∨ (0x800 ≤ off.toNat ∧ off.toNat < 0x4000) →
      step s = .next { s with events := rest, rdata := 0 }) ∧
    (s.events = .host (.write32 off v) :: rest → off ≠ 0 → off ≠ 0x0C → step s = .next { s with events := rest }) ∧
    (s.events = .host (.readNarrow off) :: rest → step s = .next { s with events := rest, rdata := 0 }) ∧
    (s.events = .host (.writeNarrow off v) :: rest → step s = .next { s with events := rest })

/-- Derived from rules R39 and R40: outside `BUSY` a valid `FREQ` tap reads the count of its symbol; a valid `CODE` tap reads the
length in word 0, the bits of the code in words 1 to 8, code bit `j` at bit `31 - (j mod 32)` of word `1 + (j div 32)`, and
0 in words 9 to 15; a tap that is not valid reads a free value. That a valid tap reads so before a read of `STATUS` has
returned `DONE`, too, is the model's choice (log 23). -/
def Obligations.TapsReadTheTables : Prop :=
  ∀ (s : State) (rest : List Event) (sym : Byte) (w : Nat) (off : BitVec 15), busy s = false → w < 16 →
    s.events = .host (.read32 off) :: rest →
    (off.toNat = 0x400 + 4 * sym.toNat → s.freqTap = true →
      step s = .next { s with events := rest, rdata := freqAt s sym }) ∧
    (off.toNat = 0x400 + 4 * sym.toNat → s.freqTap = false →
      step s = .next { s with events := rest, rdata := Config.freeWord s.draws, draws := s.draws + 1 }) ∧
    (off.toNat = 0x4000 + 64 * sym.toNat + 4 * w → s.codeTap = true → (codeAt s sym).length ≤ 255 →
      ∃ v : Word, step s = .next { s with events := rest, rdata := v } ∧
        (w = 0 → v.toNat = (codeAt s sym).length) ∧
        (∀ j, w = 1 + j / 32 → j < 256 → v.getLsbD (31 - j % 32) = ((codeAt s sym)[j]?).getD false) ∧
        (9 ≤ w → v = 0)) ∧
    (off.toNat = 0x4000 + 64 * sym.toNat + 4 * w → s.codeTap = false →
      step s = .next { s with events := rest, rdata := Config.freeWord s.draws, draws := s.draws + 1 })

/-- Derived from rules R34, R47, R48, R60 and R284: outside `BUSY` a write to `ILEN` stores any value and a write to `IBUF` stores its byte and no
other; a read of `IBUF` gives the stored byte; a read of `OBUF` gives the result after `DONE` below `OLEN`, and a free byte
otherwise. That it gives the result before a read of `STATUS` has returned `DONE`, too, is the model's choice (log 23). -/
def Obligations.HostReachesTheBuffers : Prop :=
  ∀ (s : State) (rest : List Event),
    (∀ v, busy s = false → s.events = .host (.write32 0x0C v) :: rest →
      step s = .next { s with events := rest, ilen := v }) ∧
    (∀ a v, busy s = false → a < s.cfg.ibufCap → s.events = .host (.writeIbuf a v) :: rest →
      ∃ t, step s = .next t ∧ t = { s with events := rest, ibuf := t.ibuf } ∧ ibufByte t a = v ∧
        ∀ b, b ≠ a → ibufByte t b = ibufByte s b) ∧
    (∀ a, a < s.cfg.ibufCap → s.events = .host (.readIbuf a) :: rest →
      step s = .next { s with events := rest, rdata := (ibufByte s a).setWidth 32 }) ∧
    (∀ a v, a < s.cfg.obufCap → s.phase = .done → a < s.olen.toNat → Table.get? s.obuf a = some v →
      s.events = .host (.readObuf a) :: rest → step s = .next { s with events := rest, rdata := v.setWidth 32 }) ∧
    (∀ a, a < s.cfg.obufCap → s.phase ≠ .done ∨ s.olen.toNat ≤ a → s.events = .host (.readObuf a) :: rest →
      step s = .next { s with
        events := rest, rdata := (Config.freeByte s.draws).setWidth 32, draws := s.draws + 1 })

/-! ### The codec -/

/-- Derived from rule R195: a tree that E_TREE writes, read back by D_TREE from the bits it wrote, has the same shape and
the same leaf symbols, and exactly those bits are consumed. -/
def Obligations.WrittenTreeReadsBack : Prop :=
  ∀ (s u d : State) (t : HuffTree), s.cfg.wf = true → WriterLaw s → s.stack = [] → HoldsTree s t →
    OutRoom s t.ser.length → exec .eTree s = .next u →
    d.stack = [] → d.seq = 0 → d.cfg.wf = true → t.size ≤ 511 → InRoom d t.ser.length →
    inBits d d.rpos.toNat t.ser.length = (outBits u).drop (outBits s).length →
    ∃ e, exec .dTree d = .next e ∧ HoldsTree e t ∧ e.rpos.toNat = d.rpos.toNat + t.ser.length

/-- Derived from rule R214: whatever the input, an ENCODE that ends `DONE` and a DECODE of what it left in `OBUF`, given
room, end `DONE` with the input in `OBUF` again. The host's copy is put into `IBUF` and `ILEN` here. Each command is run
by turns of the engine (log 1). -/
def Obligations.DecodeOfEncodeIsTheInput : Prop :=
  ∀ (s t u : State) (f c b f' c' b' : Bool), busy s = false → s.events = [] → s.cfg.wf = true →
    s.ilen.toNat ≤ s.cfg.ibufCap → s.ilen.toNat ≤ s.cfg.obufCap →
    Host.Core.run Sys2Proof.core 7 (acceptCmd (cmdWord 1 f c b) s) = .next t → t.phase = .done →
    t.olen.toNat ≤ t.cfg.ibufCap → u = { t with ibuf := t.obuf, ilen := t.olen } →
    ∃ v, Host.Core.run Sys2Proof.core 3 (acceptCmd (cmdWord 2 f' c' b') u) = .next v ∧ v.phase = .done ∧
      v.olen = s.ilen ∧ ∀ a, a < s.ilen.toNat → obufByte v a = ibufByte s a

/-! ### The code table and the widths -/

/-- Derived from rules R45, R174 and R175: after E_GEN, with a tree whose leaves are the present symbols, each once, exactly
the present symbols have a code, no code in `CODE` is a prefix of another, and none has more than 255 bits. -/
def Obligations.CodeTableIsPrefixFree : Prop :=
  ∀ (s : State) (t : HuffTree), s.stack = [] → HoldsTree s t → t.leaves.Nodup →
    (∀ sym, freqAt s sym ≠ 0 ↔ sym ∈ t.leaves) →
    ∃ u, exec .eGen s = .next u ∧
      (∀ x y, x ≠ y → codeAt u x ≠ [] → codeAt u y ≠ [] → ¬ codeAt u x <+: codeAt u y) ∧
      ∀ sym, (1 ≤ (codeAt u sym).length ↔ freqAt s sym ≠ 0) ∧ (codeAt u sym).length ≤ 255

/-- Derived from rule R11: `PTR_W` is the least width that holds `NODE_CAP` - 1, 9 bits when `NODE_CAP` = 511, and `SEQ` has one
bit more. An infinite `NODE_CAP` has no last index and gets no width (log 17). -/
def Obligations.PointerWidthIsLeast : Prop :=
  (∀ (p : Params) (n : Nat), p.wf = true → p.nodeCap = some n →
    ∃ w, ptrWidth p = some w ∧ seqWidth p = some (w + 1) ∧ n - 1 < 2 ^ w ∧ (∀ v, n - 1 < 2 ^ v → w ≤ v) ∧
      (n = 511 → w = 9)) ∧
  ∀ p : Params, p.nodeCap = none → ptrWidth p = none ∧ seqWidth p = none

/-- Derived from rules R11, R21, R42 and R45: in every step, the error entry included, `SEQ`, `ROOT`, `CUR` and the node
pointers in `PQ`, `STACK` and `NODE` stay within their widths, `NODE` within `NODE_CAP` and the codes within 255 bits.
That an infinite `NODE_CAP` sets no width is the model's choice (log 17). -/
def Obligations.StepKeepsWidths : Prop :=
  ∀ s t : State, WidthInv s → step s = .next t → WidthInv t
end

