-- ==== Sys2Proof/Laws/Bits.lean ====
section
/-! SUPPORT. Sys2Proof/Laws/Bits.lean: numbers and their stream bits. -/

namespace Sys2Proof.Machine

@[simp] theorem length_bitsMsb (n v : Nat) : (bitsMsb n v).length = n := by
  induction n with
  | zero => rfl
  | succ n ih => simp [bitsMsb, ih]

theorem foldl_pushBit (bits : List Bool) (a : Nat) :
    bits.foldl pushBit a = a * 2 ^ bits.length + bitsValue bits := by
  induction bits generalizing a with
  | nil => simp [bitsValue]
  | cons b bits ih =>
    simp only [List.foldl_cons, List.length_cons, bitsValue]
    rw [ih, ih (pushBit 0 b)]
    simp only [pushBit]
    ring

@[simp] theorem bitsValue_nil : bitsValue [] = 0 := rfl

theorem bitsValue_cons (b : Bool) (bits : List Bool) :
    bitsValue (b :: bits) = b.toNat * 2 ^ bits.length + bitsValue bits := by
  rw [bitsValue, List.foldl_cons, foldl_pushBit]; simp [pushBit]

theorem bitsValue_append (xs ys : List Bool) :
    bitsValue (xs ++ ys) = bitsValue xs * 2 ^ ys.length + bitsValue ys := by
  rw [bitsValue, List.foldl_append, foldl_pushBit]; rfl

theorem bitsValue_lt (bits : List Bool) : bitsValue bits < 2 ^ bits.length := by
  induction bits with
  | nil => simp
  | cons b bits ih =>
    rw [bitsValue_cons, List.length_cons, pow_succ]
    cases b <;> simp <;> omega

theorem bitsValue_bitsMsb (n v : Nat) : bitsValue (bitsMsb n v) = v % 2 ^ n := by
  induction n with
  | zero => simp [bitsMsb, Nat.mod_one]
  | succ n ih =>
    rw [bitsMsb, bitsValue_cons, length_bitsMsb, ih, Nat.mod_pow_succ, Nat.toNat_testBit]
    ring

theorem bitsValue_bitsMsb_of_lt {n v : Nat} (h : v < 2 ^ n) : bitsValue (bitsMsb n v) = v := by
  rw [bitsValue_bitsMsb, Nat.mod_eq_of_lt h]

/-- Only the low bits matter. -/
theorem bitsMsb_add_mul (n v k : Nat) : bitsMsb n (v + k * 2 ^ n) = bitsMsb n v := by
  suffices ∀ m ≤ n, bitsMsb m (v + k * 2 ^ n) = bitsMsb m v from this n le_rfl
  intro m hm
  induction m with
  | zero => rfl
  | succ m ih =>
    rw [bitsMsb, bitsMsb, ih (by omega)]
    congr 1
    have low : ∀ x : Nat, x.testBit m = (x % 2 ^ n).testBit m := fun x => by
      rw [Nat.testBit_mod_two_pow, decide_eq_true (show m < n by omega), Bool.true_and]
    rw [low, low v, Nat.add_mul_mod_self_right]

theorem bitsMsb_bitsValue (bits : List Bool) : bitsMsb bits.length (bitsValue bits) = bits := by
  induction bits with
  | nil => rfl
  | cons b bits ih =>
    rw [List.length_cons, bitsMsb, bitsValue_cons]
    congr 1
    · rw [Nat.testBit_eq_decide_div_mod_eq]
      have := bitsValue_lt bits
      have h2 : 0 < 2 ^ bits.length := by positivity
      rw [mul_comm, Nat.mul_add_div h2, Nat.div_eq_of_lt this]
      cases b <;> simp
    · rw [add_comm, bitsMsb_add_mul, ih]

theorem bitsMsb_bitsValue' {n : Nat} {bits : List Bool} (h : bits.length = n) : bitsMsb n (bitsValue bits) = bits := by
  subst h; exact bitsMsb_bitsValue bits

/-- The bits of a number split where its value splits. -/
theorem bitsMsb_append (m n v w : Nat) (h : w < 2 ^ n) :
    bitsMsb (m + n) (v * 2 ^ n + w) = bitsMsb m v ++ bitsMsb n w := by
  induction m with
  | zero =>
    rw [Nat.zero_add, Nat.add_comm, bitsMsb_add_mul]; rfl
  | succ m ih =>
    rw [show m + 1 + n = (m + n) + 1 by omega, bitsMsb, bitsMsb, ih, List.cons_append]
    congr 1
    rw [Nat.testBit_eq_decide_div_mod_eq, Nat.testBit_eq_decide_div_mod_eq, Nat.add_comm m n, pow_add,
      ← Nat.div_div_eq_div_mul]
    congr 2
    rw [Nat.mul_comm v, Nat.mul_add_div (by positivity), Nat.div_eq_of_lt h, Nat.add_zero]

theorem bitsMsb_add (m n v : Nat) : bitsMsb (m + n) v = bitsMsb m (v / 2 ^ n) ++ bitsMsb n v := by
  conv_lhs => rw [← Nat.div_add_mod v (2 ^ n), Nat.mul_comm]
  rw [bitsMsb_append _ _ _ _ (Nat.mod_lt _ (by positivity))]
  congr 1
  conv_rhs => rw [← Nat.div_add_mod v (2 ^ n), Nat.add_comm, Nat.mul_comm, bitsMsb_add_mul]

/-- The four bytes of a word, in order, are its 32 bits. -/
theorem flatMap_byteBits_wordBytes (v : Word) : (wordBytes v).flatMap byteBits = bitsMsb 32 v.toNat := by
  have e : ∀ k, byteBits (v.extractLsb' k 8) = bitsMsb 8 (v.toNat / 2 ^ k) := by
    intro k
    have : (v.extractLsb' k 8).toNat = v.toNat / 2 ^ k % 2 ^ 8 := by
      simp [BitVec.extractLsb', Nat.shiftRight_eq_div_pow]
    rw [byteBits, this]
    conv_rhs => rw [← Nat.div_add_mod (v.toNat / 2 ^ k) (2 ^ 8), Nat.add_comm, Nat.mul_comm, bitsMsb_add_mul]
  have h1 := bitsMsb_add 24 8 v.toNat
  have h2 := bitsMsb_add 16 8 (v.toNat / 2 ^ 8)
  have h3 := bitsMsb_add 8 8 (v.toNat / 2 ^ 8 / 2 ^ 8)
  rw [h1, h2, h3]
  simp only [wordBytes, List.flatMap_cons, List.flatMap_nil, e, Nat.div_div_eq_div_mul, List.append_assoc,
    List.append_nil]
  norm_num

@[simp] theorem length_byteBits (v : Byte) : (byteBits v).length = 8 := length_bitsMsb 8 _

@[simp] theorem ofNat_bitsValue_byteBits (v : Byte) : BitVec.ofNat 8 (bitsValue (byteBits v)) = v := by
  rw [byteBits, bitsValue_bitsMsb_of_lt v.isLt]; simp

theorem byteBits_inj {v w : Byte} (h : byteBits v = byteBits w) : v = w := by
  simpa using congrArg (fun b => BitVec.ofNat 8 (bitsValue b)) h

/-- Byte strings with the same bits are the same. -/
theorem flatMap_byteBits_inj {xs ys : List Byte} (h : xs.flatMap byteBits = ys.flatMap byteBits) : xs = ys := by
  induction xs generalizing ys with
  | nil =>
    cases ys with
    | nil => rfl
    | cons y ys => have := congrArg List.length h; simp at this; omega
  | cons x xs ih =>
    cases ys with
    | nil => have := congrArg List.length h; simp at this
    | cons y ys =>
      simp only [List.flatMap_cons] at h
      obtain ⟨h1, h2⟩ := List.append_inj h (by simp)
      rw [ih h2, byteBits_inj h1]

/-- The bits of a byte are the stream bits of its address (rule R62). -/
theorem byteBits_eq_streamBits (v : Byte) : byteBits v = (List.range 8).map (streamBitOf v) := by
  simp only [byteBits, bitsMsb, streamBitOf, List.range, List.range.loop, List.map, BitVec.testBit_toNat]

end Sys2Proof.Machine
end

