-- ==== Sys2Proof/Laws/State.lean ====
section
/-! SUPPORT. Sys2Proof/Laws/State.lean: for each named update of the state, one lemma per field. -/

namespace Sys2Proof.Machine

/-! ### `raise` -/

@[simp] theorem raise_cfg (c : Cause) (s : State) : (raise c s).cfg = s.cfg := rfl
@[simp] theorem raise_cmd (c : Cause) (s : State) : (raise c s).cmd = s.cmd := rfl
@[simp] theorem raise_phase (c : Cause) (s : State) : (raise c s).phase = .error := rfl
@[simp] theorem raise_err (c : Cause) (s : State) : (raise c s).err = c.word := rfl
@[simp] theorem raise_flags (c : Cause) (s : State) : (raise c s).flags = s.flags := rfl
@[simp] theorem raise_ilen (c : Cause) (s : State) : (raise c s).ilen = s.ilen := rfl
@[simp] theorem raise_olen (c : Cause) (s : State) : (raise c s).olen = 0 := rfl
@[simp] theorem raise_nhdr (c : Cause) (s : State) : (raise c s).nhdr = Config.freeWord s.draws := rfl
@[simp] theorem raise_nrem (c : Cause) (s : State) : (raise c s).nrem = Config.freeWord (s.draws + 1) := rfl
@[simp] theorem raise_iidx (c : Cause) (s : State) : (raise c s).iidx = Config.freeWord (s.draws + 2) := rfl
@[simp] theorem raise_root (c : Cause) (s : State) : (raise c s).root = (Config.freePtr s.draws).map (cutWidth (ptrWidth s.cfg)) := rfl
@[simp] theorem raise_cur (c : Cause) (s : State) : (raise c s).cur = (Config.freePtr (s.draws + 1)).map (cutWidth (ptrWidth s.cfg)) := rfl
@[simp] theorem raise_seq (c : Cause) (s : State) : (raise c s).seq = cutWidth (seqWidth s.cfg) (Config.freeSeq s.draws) := rfl
@[simp] theorem raise_rpos (c : Cause) (s : State) : (raise c s).rpos = s.rpos := rfl
@[simp] theorem raise_wpos (c : Cause) (s : State) : (raise c s).wpos = s.wpos := rfl
@[simp] theorem raise_wacc (c : Cause) (s : State) : (raise c s).wacc = Config.freeByte s.draws := rfl
@[simp] theorem raise_freq (c : Cause) (s : State) : (raise c s).freq = Config.freeCounts s.draws := rfl
@[simp] theorem raise_node (c : Cause) (s : State) : (raise c s).node = [] := rfl
@[simp] theorem raise_pq (c : Cause) (s : State) : (raise c s).pq = [] := rfl
@[simp] theorem raise_code (c : Cause) (s : State) : (raise c s).code = (Config.freeCodes s.draws).map cutCode := rfl
@[simp] theorem raise_stack (c : Cause) (s : State) : (raise c s).stack = [] := rfl
@[simp] theorem raise_ibuf (c : Cause) (s : State) : (raise c s).ibuf = s.ibuf := rfl
@[simp] theorem raise_obuf (c : Cause) (s : State) : (raise c s).obuf = s.obuf := rfl
@[simp] theorem raise_freqTap (c : Cause) (s : State) : (raise c s).freqTap = false := rfl
@[simp] theorem raise_codeTap (c : Cause) (s : State) : (raise c s).codeTap = false := rfl
@[simp] theorem raise_finalized (c : Cause) (s : State) : (raise c s).finalized = s.finalized := rfl
@[simp] theorem raise_bioOut (c : Cause) (s : State) : (raise c s).bioOut = s.bioOut := rfl
@[simp] theorem raise_marker (c : Cause) (s : State) : (raise c s).marker = false := rfl
@[simp] theorem raise_rdata (c : Cause) (s : State) : (raise c s).rdata = s.rdata := rfl
@[simp] theorem raise_draws (c : Cause) (s : State) : (raise c s).draws = s.draws + 3 := rfl
@[simp] theorem raise_epoch (c : Cause) (s : State) : (raise c s).epoch = s.epoch := rfl
@[simp] theorem raise_events (c : Cause) (s : State) : (raise c s).events = s.events := rfl

/-! ### `initCommand` -/

@[simp] theorem initCommand_cfg (s : State) : (initCommand s).cfg = s.cfg := rfl
@[simp] theorem initCommand_cmd (s : State) : (initCommand s).cmd = s.cmd := rfl
@[simp] theorem initCommand_phase (s : State) : (initCommand s).phase = s.phase := rfl
@[simp] theorem initCommand_err (s : State) : (initCommand s).err = 0 := rfl
@[simp] theorem initCommand_flags (s : State) : (initCommand s).flags = s.cmd.extractLsb' 2 3 := rfl
@[simp] theorem initCommand_ilen (s : State) : (initCommand s).ilen = s.ilen := rfl
@[simp] theorem initCommand_olen (s : State) : (initCommand s).olen = 0 := rfl
@[simp] theorem initCommand_nhdr (s : State) : (initCommand s).nhdr = 0 := rfl
@[simp] theorem initCommand_nrem (s : State) : (initCommand s).nrem = 0 := rfl
@[simp] theorem initCommand_iidx (s : State) : (initCommand s).iidx = 0 := rfl
@[simp] theorem initCommand_root (s : State) : (initCommand s).root = none := rfl
@[simp] theorem initCommand_cur (s : State) : (initCommand s).cur = none := rfl
@[simp] theorem initCommand_seq (s : State) : (initCommand s).seq = 0 := rfl
@[simp] theorem initCommand_rpos (s : State) : (initCommand s).rpos = 0 := rfl
@[simp] theorem initCommand_wpos (s : State) : (initCommand s).wpos = 0 := rfl
@[simp] theorem initCommand_wacc (s : State) : (initCommand s).wacc = 0 := rfl
@[simp] theorem initCommand_freq (s : State) : (initCommand s).freq = s.freq := rfl
@[simp] theorem initCommand_node (s : State) : (initCommand s).node = [] := rfl
@[simp] theorem initCommand_pq (s : State) : (initCommand s).pq = [] := rfl
@[simp] theorem initCommand_code (s : State) : (initCommand s).code = s.code := rfl
@[simp] theorem initCommand_stack (s : State) : (initCommand s).stack = [] := rfl
@[simp] theorem initCommand_ibuf (s : State) : (initCommand s).ibuf = s.ibuf := rfl
@[simp] theorem initCommand_obuf (s : State) : (initCommand s).obuf = s.obuf := rfl
@[simp] theorem initCommand_freqTap (s : State) : (initCommand s).freqTap = false := rfl
@[simp] theorem initCommand_codeTap (s : State) : (initCommand s).codeTap = false := rfl
@[simp] theorem initCommand_finalized (s : State) : (initCommand s).finalized = false := rfl
@[simp] theorem initCommand_bioOut (s : State) : (initCommand s).bioOut = s.bioOut := rfl
@[simp] theorem initCommand_marker (s : State) : (initCommand s).marker = false := rfl
@[simp] theorem initCommand_rdata (s : State) : (initCommand s).rdata = s.rdata := rfl
@[simp] theorem initCommand_draws (s : State) : (initCommand s).draws = s.draws := rfl
@[simp] theorem initCommand_epoch (s : State) : (initCommand s).epoch = s.epoch := rfl
@[simp] theorem initCommand_events (s : State) : (initCommand s).events = s.events := rfl

/-! ### `setFreq` -/

@[simp] theorem setFreq_cfg (sym : Byte) (v : Word) (s : State) : (setFreq sym v s).cfg = s.cfg := rfl
@[simp] theorem setFreq_cmd (sym : Byte) (v : Word) (s : State) : (setFreq sym v s).cmd = s.cmd := rfl
@[simp] theorem setFreq_phase (sym : Byte) (v : Word) (s : State) : (setFreq sym v s).phase = s.phase := rfl
@[simp] theorem setFreq_err (sym : Byte) (v : Word) (s : State) : (setFreq sym v s).err = s.err := rfl
@[simp] theorem setFreq_flags (sym : Byte) (v : Word) (s : State) : (setFreq sym v s).flags = s.flags := rfl
@[simp] theorem setFreq_ilen (sym : Byte) (v : Word) (s : State) : (setFreq sym v s).ilen = s.ilen := rfl
@[simp] theorem setFreq_olen (sym : Byte) (v : Word) (s : State) : (setFreq sym v s).olen = s.olen := rfl
@[simp] theorem setFreq_nhdr (sym : Byte) (v : Word) (s : State) : (setFreq sym v s).nhdr = s.nhdr := rfl
@[simp] theorem setFreq_nrem (sym : Byte) (v : Word) (s : State) : (setFreq sym v s).nrem = s.nrem := rfl
@[simp] theorem setFreq_iidx (sym : Byte) (v : Word) (s : State) : (setFreq sym v s).iidx = s.iidx := rfl
@[simp] theorem setFreq_root (sym : Byte) (v : Word) (s : State) : (setFreq sym v s).root = s.root := rfl
@[simp] theorem setFreq_cur (sym : Byte) (v : Word) (s : State) : (setFreq sym v s).cur = s.cur := rfl
@[simp] theorem setFreq_seq (sym : Byte) (v : Word) (s : State) : (setFreq sym v s).seq = s.seq := rfl
@[simp] theorem setFreq_rpos (sym : Byte) (v : Word) (s : State) : (setFreq sym v s).rpos = s.rpos := rfl
@[simp] theorem setFreq_wpos (sym : Byte) (v : Word) (s : State) : (setFreq sym v s).wpos = s.wpos := rfl
@[simp] theorem setFreq_wacc (sym : Byte) (v : Word) (s : State) : (setFreq sym v s).wacc = s.wacc := rfl
@[simp] theorem setFreq_freq (sym : Byte) (v : Word) (s : State) : (setFreq sym v s).freq = s.freq.set sym.toNat v sym.isLt := rfl
@[simp] theorem setFreq_node (sym : Byte) (v : Word) (s : State) : (setFreq sym v s).node = s.node := rfl
@[simp] theorem setFreq_pq (sym : Byte) (v : Word) (s : State) : (setFreq sym v s).pq = s.pq := rfl
@[simp] theorem setFreq_code (sym : Byte) (v : Word) (s : State) : (setFreq sym v s).code = s.code := rfl
@[simp] theorem setFreq_stack (sym : Byte) (v : Word) (s : State) : (setFreq sym v s).stack = s.stack := rfl
@[simp] theorem setFreq_ibuf (sym : Byte) (v : Word) (s : State) : (setFreq sym v s).ibuf = s.ibuf := rfl
@[simp] theorem setFreq_obuf (sym : Byte) (v : Word) (s : State) : (setFreq sym v s).obuf = s.obuf := rfl
@[simp] theorem setFreq_freqTap (sym : Byte) (v : Word) (s : State) : (setFreq sym v s).freqTap = s.freqTap := rfl
@[simp] theorem setFreq_codeTap (sym : Byte) (v : Word) (s : State) : (setFreq sym v s).codeTap = s.codeTap := rfl
@[simp] theorem setFreq_finalized (sym : Byte) (v : Word) (s : State) : (setFreq sym v s).finalized = s.finalized := rfl
@[simp] theorem setFreq_bioOut (sym : Byte) (v : Word) (s : State) : (setFreq sym v s).bioOut = s.bioOut := rfl
@[simp] theorem setFreq_marker (sym : Byte) (v : Word) (s : State) : (setFreq sym v s).marker = s.marker := rfl
@[simp] theorem setFreq_rdata (sym : Byte) (v : Word) (s : State) : (setFreq sym v s).rdata = s.rdata := rfl
@[simp] theorem setFreq_draws (sym : Byte) (v : Word) (s : State) : (setFreq sym v s).draws = s.draws := rfl
@[simp] theorem setFreq_epoch (sym : Byte) (v : Word) (s : State) : (setFreq sym v s).epoch = s.epoch := rfl
@[simp] theorem setFreq_events (sym : Byte) (v : Word) (s : State) : (setFreq sym v s).events = s.events := rfl

/-! ### `setCode` -/

@[simp] theorem setCode_cfg (sym : Byte) (path : List Bool) (s : State) : (setCode sym path s).cfg = s.cfg := rfl
@[simp] theorem setCode_cmd (sym : Byte) (path : List Bool) (s : State) : (setCode sym path s).cmd = s.cmd := rfl
@[simp] theorem setCode_phase (sym : Byte) (path : List Bool) (s : State) : (setCode sym path s).phase = s.phase := rfl
@[simp] theorem setCode_err (sym : Byte) (path : List Bool) (s : State) : (setCode sym path s).err = s.err := rfl
@[simp] theorem setCode_flags (sym : Byte) (path : List Bool) (s : State) : (setCode sym path s).flags = s.flags := rfl
@[simp] theorem setCode_ilen (sym : Byte) (path : List Bool) (s : State) : (setCode sym path s).ilen = s.ilen := rfl
@[simp] theorem setCode_olen (sym : Byte) (path : List Bool) (s : State) : (setCode sym path s).olen = s.olen := rfl
@[simp] theorem setCode_nhdr (sym : Byte) (path : List Bool) (s : State) : (setCode sym path s).nhdr = s.nhdr := rfl
@[simp] theorem setCode_nrem (sym : Byte) (path : List Bool) (s : State) : (setCode sym path s).nrem = s.nrem := rfl
@[simp] theorem setCode_iidx (sym : Byte) (path : List Bool) (s : State) : (setCode sym path s).iidx = s.iidx := rfl
@[simp] theorem setCode_root (sym : Byte) (path : List Bool) (s : State) : (setCode sym path s).root = s.root := rfl
@[simp] theorem setCode_cur (sym : Byte) (path : List Bool) (s : State) : (setCode sym path s).cur = s.cur := rfl
@[simp] theorem setCode_seq (sym : Byte) (path : List Bool) (s : State) : (setCode sym path s).seq = s.seq := rfl
@[simp] theorem setCode_rpos (sym : Byte) (path : List Bool) (s : State) : (setCode sym path s).rpos = s.rpos := rfl
@[simp] theorem setCode_wpos (sym : Byte) (path : List Bool) (s : State) : (setCode sym path s).wpos = s.wpos := rfl
@[simp] theorem setCode_wacc (sym : Byte) (path : List Bool) (s : State) : (setCode sym path s).wacc = s.wacc := rfl
@[simp] theorem setCode_freq (sym : Byte) (path : List Bool) (s : State) : (setCode sym path s).freq = s.freq := rfl
@[simp] theorem setCode_node (sym : Byte) (path : List Bool) (s : State) : (setCode sym path s).node = s.node := rfl
@[simp] theorem setCode_pq (sym : Byte) (path : List Bool) (s : State) : (setCode sym path s).pq = s.pq := rfl
@[simp] theorem setCode_code (sym : Byte) (path : List Bool) (s : State) : (setCode sym path s).code = s.code.set sym.toNat (cutCode path) sym.isLt := rfl
@[simp] theorem setCode_stack (sym : Byte) (path : List Bool) (s : State) : (setCode sym path s).stack = s.stack := rfl
@[simp] theorem setCode_ibuf (sym : Byte) (path : List Bool) (s : State) : (setCode sym path s).ibuf = s.ibuf := rfl
@[simp] theorem setCode_obuf (sym : Byte) (path : List Bool) (s : State) : (setCode sym path s).obuf = s.obuf := rfl
@[simp] theorem setCode_freqTap (sym : Byte) (path : List Bool) (s : State) : (setCode sym path s).freqTap = s.freqTap := rfl
@[simp] theorem setCode_codeTap (sym : Byte) (path : List Bool) (s : State) : (setCode sym path s).codeTap = s.codeTap := rfl
@[simp] theorem setCode_finalized (sym : Byte) (path : List Bool) (s : State) : (setCode sym path s).finalized = s.finalized := rfl
@[simp] theorem setCode_bioOut (sym : Byte) (path : List Bool) (s : State) : (setCode sym path s).bioOut = s.bioOut := rfl
@[simp] theorem setCode_marker (sym : Byte) (path : List Bool) (s : State) : (setCode sym path s).marker = s.marker := rfl
@[simp] theorem setCode_rdata (sym : Byte) (path : List Bool) (s : State) : (setCode sym path s).rdata = s.rdata := rfl
@[simp] theorem setCode_draws (sym : Byte) (path : List Bool) (s : State) : (setCode sym path s).draws = s.draws := rfl
@[simp] theorem setCode_epoch (sym : Byte) (path : List Bool) (s : State) : (setCode sym path s).epoch = s.epoch := rfl
@[simp] theorem setCode_events (sym : Byte) (path : List Bool) (s : State) : (setCode sym path s).events = s.events := rfl

/-! ### `finishEncode` -/

@[simp] theorem finishEncode_cfg (s : State) : (finishEncode s).cfg = s.cfg := rfl
@[simp] theorem finishEncode_cmd (s : State) : (finishEncode s).cmd = s.cmd := rfl
@[simp] theorem finishEncode_phase (s : State) : (finishEncode s).phase = .done := rfl
@[simp] theorem finishEncode_err (s : State) : (finishEncode s).err = s.err := rfl
@[simp] theorem finishEncode_flags (s : State) : (finishEncode s).flags = s.flags := rfl
@[simp] theorem finishEncode_ilen (s : State) : (finishEncode s).ilen = s.ilen := rfl
@[simp] theorem finishEncode_olen (s : State) : (finishEncode s).olen = s.olen := rfl
@[simp] theorem finishEncode_nhdr (s : State) : (finishEncode s).nhdr = s.nhdr := rfl
@[simp] theorem finishEncode_nrem (s : State) : (finishEncode s).nrem = s.nrem := rfl
@[simp] theorem finishEncode_iidx (s : State) : (finishEncode s).iidx = s.iidx := rfl
@[simp] theorem finishEncode_root (s : State) : (finishEncode s).root = s.root := rfl
@[simp] theorem finishEncode_cur (s : State) : (finishEncode s).cur = s.cur := rfl
@[simp] theorem finishEncode_seq (s : State) : (finishEncode s).seq = s.seq := rfl
@[simp] theorem finishEncode_rpos (s : State) : (finishEncode s).rpos = s.rpos := rfl
@[simp] theorem finishEncode_wpos (s : State) : (finishEncode s).wpos = s.wpos := rfl
@[simp] theorem finishEncode_wacc (s : State) : (finishEncode s).wacc = s.wacc := rfl
@[simp] theorem finishEncode_freq (s : State) : (finishEncode s).freq = s.freq := rfl
@[simp] theorem finishEncode_node (s : State) : (finishEncode s).node = s.node := rfl
@[simp] theorem finishEncode_pq (s : State) : (finishEncode s).pq = s.pq := rfl
@[simp] theorem finishEncode_code (s : State) : (finishEncode s).code = s.code := rfl
@[simp] theorem finishEncode_stack (s : State) : (finishEncode s).stack = s.stack := rfl
@[simp] theorem finishEncode_ibuf (s : State) : (finishEncode s).ibuf = s.ibuf := rfl
@[simp] theorem finishEncode_obuf (s : State) : (finishEncode s).obuf = s.obuf := rfl
@[simp] theorem finishEncode_freqTap (s : State) : (finishEncode s).freqTap = (s.freqTap || diagFreq s) := rfl
@[simp] theorem finishEncode_codeTap (s : State) : (finishEncode s).codeTap = (s.codeTap || diagCode s) := rfl
@[simp] theorem finishEncode_finalized (s : State) : (finishEncode s).finalized = s.finalized := rfl
@[simp] theorem finishEncode_bioOut (s : State) : (finishEncode s).bioOut = s.bioOut := rfl
@[simp] theorem finishEncode_marker (s : State) : (finishEncode s).marker = s.marker := rfl
@[simp] theorem finishEncode_rdata (s : State) : (finishEncode s).rdata = s.rdata := rfl
@[simp] theorem finishEncode_draws (s : State) : (finishEncode s).draws = s.draws := rfl
@[simp] theorem finishEncode_epoch (s : State) : (finishEncode s).epoch = s.epoch := rfl
@[simp] theorem finishEncode_events (s : State) : (finishEncode s).events = s.events := rfl

/-! ### `resetInput` -/

@[simp] theorem resetInput_cfg (s : State) : (resetInput s).cfg = s.cfg := rfl
@[simp] theorem resetInput_cmd (s : State) : (resetInput s).cmd = State.reset.cmd := rfl
@[simp] theorem resetInput_phase (s : State) : (resetInput s).phase = State.reset.phase := rfl
@[simp] theorem resetInput_err (s : State) : (resetInput s).err = State.reset.err := rfl
@[simp] theorem resetInput_flags (s : State) : (resetInput s).flags = State.reset.flags := rfl
@[simp] theorem resetInput_ilen (s : State) : (resetInput s).ilen = State.reset.ilen := rfl
@[simp] theorem resetInput_olen (s : State) : (resetInput s).olen = State.reset.olen := rfl
@[simp] theorem resetInput_nhdr (s : State) : (resetInput s).nhdr = State.reset.nhdr := rfl
@[simp] theorem resetInput_nrem (s : State) : (resetInput s).nrem = State.reset.nrem := rfl
@[simp] theorem resetInput_iidx (s : State) : (resetInput s).iidx = State.reset.iidx := rfl
@[simp] theorem resetInput_root (s : State) : (resetInput s).root = State.reset.root := rfl
@[simp] theorem resetInput_cur (s : State) : (resetInput s).cur = State.reset.cur := rfl
@[simp] theorem resetInput_seq (s : State) : (resetInput s).seq = State.reset.seq := rfl
@[simp] theorem resetInput_rpos (s : State) : (resetInput s).rpos = State.reset.rpos := rfl
@[simp] theorem resetInput_wpos (s : State) : (resetInput s).wpos = State.reset.wpos := rfl
@[simp] theorem resetInput_wacc (s : State) : (resetInput s).wacc = State.reset.wacc := rfl
@[simp] theorem resetInput_freq (s : State) : (resetInput s).freq = State.reset.freq := rfl
@[simp] theorem resetInput_node (s : State) : (resetInput s).node = State.reset.node := rfl
@[simp] theorem resetInput_pq (s : State) : (resetInput s).pq = State.reset.pq := rfl
@[simp] theorem resetInput_code (s : State) : (resetInput s).code = State.reset.code := rfl
@[simp] theorem resetInput_stack (s : State) : (resetInput s).stack = State.reset.stack := rfl
@[simp] theorem resetInput_ibuf (s : State) : (resetInput s).ibuf = State.reset.ibuf := rfl
@[simp] theorem resetInput_obuf (s : State) : (resetInput s).obuf = State.reset.obuf := rfl
@[simp] theorem resetInput_freqTap (s : State) : (resetInput s).freqTap = State.reset.freqTap := rfl
@[simp] theorem resetInput_codeTap (s : State) : (resetInput s).codeTap = State.reset.codeTap := rfl
@[simp] theorem resetInput_finalized (s : State) : (resetInput s).finalized = State.reset.finalized := rfl
@[simp] theorem resetInput_bioOut (s : State) : (resetInput s).bioOut = State.reset.bioOut := rfl
@[simp] theorem resetInput_marker (s : State) : (resetInput s).marker = State.reset.marker := rfl
@[simp] theorem resetInput_rdata (s : State) : (resetInput s).rdata = s.rdata := rfl
@[simp] theorem resetInput_draws (s : State) : (resetInput s).draws = s.draws := rfl
@[simp] theorem resetInput_epoch (s : State) : (resetInput s).epoch = s.epoch + 1 := rfl
@[simp] theorem resetInput_events (s : State) : (resetInput s).events = s.events := rfl

/-! ### The engine's outcomes -/

@[simp] theorem Flow.bind_ok {α β : Type} (a : α) (s : State) (f : α → State → Flow β) :
    (Flow.ok a s).bind f = f a s := rfl
@[simp] theorem Flow.bind_eob {α β : Type} (s : State) (f : α → State → Flow β) :
    (Flow.eob s : Flow α).bind f = .eob s := rfl
@[simp] theorem Flow.bind_raised {α β : Type} (s : State) (f : α → State → Flow β) :
    (Flow.raised s : Flow α).bind f = .raised s := rfl
@[simp] theorem Flow.bind_fault {α β : Type} (r : Fault) (f : α → State → Flow β) :
    (Flow.fault r : Flow α).bind f = .fault r := rfl
@[simp] theorem Flow.bind_refused {α β : Type} (r : Refusal) (f : α → State → Flow β) :
    (Flow.refused r : Flow α).bind f = .refused r := rfl
@[simp] theorem Flow.onEob_ok {α : Type} (a : α) (s : State) (c : Cause) : (Flow.ok a s).onEob c = .ok a s := rfl
@[simp] theorem Flow.onEob_eob {α : Type} (s : State) (c : Cause) :
    (Flow.eob s : Flow α).onEob c = .raised (raise c s) := rfl
@[simp] theorem Flow.onEob_raised {α : Type} (s : State) (c : Cause) :
    (Flow.raised s : Flow α).onEob c = .raised s := rfl
@[simp] theorem Flow.onEob_fault {α : Type} (r : Fault) (c : Cause) :
    (Flow.fault r : Flow α).onEob c = .fault r := rfl
@[simp] theorem Flow.onEob_refused {α : Type} (r : Refusal) (c : Cause) :
    (Flow.refused r : Flow α).onEob c = .refused r := rfl
@[simp] theorem Flow.outcome_ok (u : Unit) (s : State) : (Flow.ok u s).outcome = .next s := rfl
@[simp] theorem Flow.outcome_eob (s : State) : (Flow.eob s).outcome = .next s := rfl
@[simp] theorem Flow.outcome_raised (s : State) : (Flow.raised s).outcome = .next s := rfl
@[simp] theorem Flow.outcome_fault (r : Fault) : (Flow.fault r).outcome = .fault r := rfl
@[simp] theorem Flow.outcome_refused (r : Refusal) : (Flow.refused r).outcome = .refused r := rfl

theorem Flow.bind_assoc {α β γ : Type} (x : Flow α) (f : α → State → Flow β) (g : β → State → Flow γ) :
    (x.bind f).bind g = x.bind fun a s => (f a s).bind g := by cases x <;> rfl

/-- A composition ends normally exactly when its parts do, one after the other. -/
theorem Flow.bind_eq_ok {α β : Type} {x : Flow α} {f : α → State → Flow β} {b : β} {t : State} :
    x.bind f = .ok b t ↔ ∃ a u, x = .ok a u ∧ f a u = .ok b t := by
  cases x <;> simp [Flow.bind]

/-! ### What every result of an operation satisfies -/

/-- The predicate of an end that does not happen. -/
def Never : State → Prop := fun _ => False

/-- Every result that the operation ends with satisfies `P`, every state in which it signals EOB satisfies `E`, and every
state that an error entry leaves satisfies `R`. -/
def Flow.Post {α : Type} (P : α → State → Prop) (E R : State → Prop) : Flow α → Prop
  | .ok a s => P a s
  | .eob s => E s
  | .raised s => R s
  | .fault _ => True
  | .refused _ => True

theorem Flow.Post.bind {α β : Type} {P : α → State → Prop} {Q : β → State → Prop} {E R : State → Prop} {x : Flow α}
    {f : α → State → Flow β} (hx : x.Post P E R) (hf : ∀ a s, P a s → (f a s).Post Q E R) : (x.bind f).Post Q E R := by
  cases x with
  | ok a s => exact hf a s hx
  | eob s => exact hx
  | raised s => exact hx
  | fault r => trivial
  | refused r => trivial

theorem Flow.Post.mono {α : Type} {P Q : α → State → Prop} {E F R S : State → Prop} {x : Flow α} (hx : x.Post P E R)
    (hP : ∀ a s, P a s → Q a s) (hE : ∀ s, E s → F s) (hR : ∀ s, R s → S s) : x.Post Q F S := by
  cases x <;> first | exact hP _ _ hx | exact hE _ hx | exact hR _ hx | trivial

/-- For an operation that never signals EOB. -/
theorem Flow.Post.imp {α : Type} {P Q : α → State → Prop} {R S : State → Prop} {x : Flow α} (hx : x.Post P Never R)
    (hP : ∀ a s, P a s → Q a s) (hR : ∀ s, R s → S s) : x.Post Q Never S := hx.mono hP (fun _ h => h) hR

theorem Flow.Post.and {α : Type} {P Q : α → State → Prop} {E F R S : State → Prop} {x : Flow α} (h : x.Post P E R)
    (h' : x.Post Q F S) : x.Post (fun a s => P a s ∧ Q a s) (fun s => E s ∧ F s) (fun s => R s ∧ S s) := by
  cases x <;> first | exact ⟨h, h'⟩ | trivial

/-- The phase that asked for a read turns EOB into its error (rule R128). -/
theorem Flow.Post.onEob {α : Type} {P : α → State → Prop} {E R : State → Prop} {x : Flow α} {c : Cause}
    (hx : x.Post P E R) (hr : ∀ s, E s → R (raise c s)) : (x.onEob c).Post P Never R := by
  cases x <;> first | exact hr _ hx | exact hx

/-- What holds of every end of an operation holds of the next state of its instruction. -/
theorem Flow.Post.of_outcome {P : Unit → State → Prop} {R : State → Prop} {x : Flow Unit} {t : State}
    (hx : x.Post P Never R) (h : x.outcome = .next t) : P () t ∨ R t := by
  cases x <;> simp_all [Flow.outcome, Flow.Post, Never]

/-- The operation ends with a result or in an error entry: it neither stops nor signals EOB. -/
def Flow.Ends {α : Type} : Flow α → Prop
  | .ok _ _ | .raised _ => True
  | .eob _ | .fault _ | .refused _ => False

theorem Flow.Ends.bind {α β : Type} {P : α → State → Prop} {E R : State → Prop} {x : Flow α} {f : α → State → Flow β}
    (hx : x.Ends) (hp : x.Post P E R) (hf : ∀ a s, P a s → (f a s).Ends) : (x.bind f).Ends := by
  cases x with
  | ok a s => exact hf a s hp
  | raised s => trivial
  | eob s => exact hx.elim
  | fault r => exact hx.elim
  | refused r => exact hx.elim

theorem Flow.Ends.outcome {x : Flow Unit} (hx : x.Ends) : ∃ t, x.outcome = .next t := by
  cases x with
  | ok a s => exact ⟨s, rfl⟩
  | raised s => exact ⟨s, rfl⟩
  | eob s => exact hx.elim
  | fault r => exact hx.elim
  | refused r => exact hx.elim

end Sys2Proof.Machine
end

