-- ==== Sys2Proof/Laws/Reader.lean ====
section
/-! SUPPORT. Sys2Proof/Laws/Reader.lean: everything the bit reader can do. -/

namespace Sys2Proof.Machine

/-- The reader `n` bits further on. -/
def movePast (n : Nat) (s : State) : State := { s with rpos := s.rpos + BitVec.ofNat 36 n }

/-- The reader at the end of the input. -/
def atEnd (s : State) : State := { s with rpos := BitVec.ofNat 36 (8 * s.ilen.toNat) }

theorem movePast_rpos (n : Nat) (s : State) : (movePast n s).rpos = s.rpos + BitVec.ofNat 36 n := rfl
theorem atEnd_rpos (s : State) : (atEnd s).rpos = BitVec.ofNat 36 (8 * s.ilen.toNat) := rfl

@[simp] theorem movePast_zero (s : State) : movePast 0 s = s := by simp [movePast]

@[simp] theorem movePast_movePast (m n : Nat) (s : State) : movePast m (movePast n s) = movePast (n + m) s := by
  simp [movePast, BitVec.ofNat_add, BitVec.add_assoc]

@[simp] theorem atEnd_movePast (n : Nat) (s : State) : atEnd (movePast n s) = atEnd s := rfl

theorem atEnd_rpos_toNat (s : State) : (atEnd s).rpos.toNat = 8 * s.ilen.toNat := by
  have := s.ilen.isLt
  simp only [atEnd, BitVec.toNat_ofNat]
  omega

theorem movePast_rpos_toNat {n : Nat} {s : State} (h : InRoom s n) :
    (movePast n s).rpos.toNat = s.rpos.toNat + n := by
  have := s.ilen.isLt
  have := h.1
  simp only [movePast, BitVec.toNat_add, BitVec.toNat_ofNat]
  omega

theorem InRoom.mono {m n : Nat} {s : State} (h : InRoom s n) (hm : m ≤ n) : InRoom s m :=
  ⟨by have := h.1; omega, h.2⟩

theorem InRoom.movePast {m n : Nat} {s : State} (h : InRoom s (m + n)) : InRoom (movePast m s) n :=
  ⟨by rw [movePast_rpos_toNat (h.mono (by omega))]; have := h.1; show _ ≤ 8 * s.ilen.toNat; omega, h.2⟩

/-! ### The bits of the input -/

/-- The input stream depends on what `IBUF` holds and on nothing else. -/
theorem inBit_congr {s t : State} (hi : t.ibuf = s.ibuf) (he : t.epoch = s.epoch) (p : Nat) :
    inBit t p = inBit s p := by
  simp [inBit, ibufByte, hi, he]

theorem inBits_congr {s t : State} (hi : t.ibuf = s.ibuf) (he : t.epoch = s.epoch) (p n : Nat) :
    inBits t p n = inBits s p n := by
  induction n generalizing p with
  | zero => rfl
  | succ n ih => simp [inBits, inBit_congr hi he, ih]

@[simp] theorem inBits_movePast (k p n : Nat) (s : State) : inBits (movePast k s) p n = inBits s p n :=
  inBits_congr (s := s) (t := movePast k s) rfl rfl p n

@[simp] theorem inBit_movePast (k p : Nat) (s : State) : inBit (movePast k s) p = inBit s p :=
  inBit_congr (s := s) (t := movePast k s) rfl rfl p

@[simp] theorem length_inBits (s : State) (p n : Nat) : (inBits s p n).length = n := by
  induction n generalizing p with
  | zero => rfl
  | succ n ih => simp [inBits, ih]

theorem inBits_add (s : State) (p m n : Nat) : inBits s p (m + n) = inBits s p m ++ inBits s (p + m) n := by
  induction m generalizing p with
  | zero => simp [inBits]
  | succ m ih =>
    rw [show m + 1 + n = (m + n) + 1 by omega, inBits, inBits, ih, List.cons_append]
    congr 3; omega

/-! ### RDBIT and its repetitions -/

theorem rdBit_ok {s : State} (h : InRoom s 1) : rdBit s = .ok (inBit s s.rpos.toNat) (movePast 1 s) := by
  have h1 := h.1
  have h2 := h.2
  rw [rdBit, if_neg (by omega), memReadIbuf, if_pos (by omega)]
  rfl

theorem rdBit_eob {s : State} (h : 8 * s.ilen.toNat ≤ s.rpos.toNat) : rdBit s = .eob s := by
  rw [rdBit, if_pos h]

theorem rdBits_ok {n : Nat} {s : State} (h : InRoom s n) :
    rdBits n s = .ok (inBits s s.rpos.toNat n) (movePast n s) := by
  induction n generalizing s with
  | zero => simp [rdBits, inBits]
  | succ n ih =>
    have h1 : InRoom s (1 + n) := h.mono (by omega)
    rw [rdBits, rdBit_ok (h.mono (by omega)), Flow.bind_ok, ih h1.movePast]
    simp only [Flow.bind_ok, movePast_movePast, inBits_movePast, movePast_rpos_toNat (h.mono (by omega : 1 ≤ n + 1)),
      inBits, Nat.add_comm 1 n]

/-- A read that runs out part of the way has consumed every bit (rule R123). -/
theorem rdBits_eob {n : Nat} {s : State} (hc : s.ilen.toNat ≤ s.cfg.ibufCap) (hr : s.rpos.toNat ≤ 8 * s.ilen.toNat)
    (h : 8 * s.ilen.toNat < s.rpos.toNat + n) : rdBits n s = .eob (atEnd s) := by
  induction n generalizing s with
  | zero => omega
  | succ n ih =>
    rw [rdBits]
    by_cases he : 8 * s.ilen.toNat ≤ s.rpos.toNat
    · rw [rdBit_eob he, Flow.bind_eob]
      have : s.rpos = BitVec.ofNat 36 (8 * s.ilen.toNat) := by
        apply BitVec.eq_of_toNat_eq
        have := s.ilen.isLt
        simp only [BitVec.toNat_ofNat]; omega
      simp only [atEnd, ← this]
    · have h1 : InRoom s 1 := ⟨by omega, hc⟩
      have e := movePast_rpos_toNat h1
      rw [rdBit_ok h1, Flow.bind_ok, ih (s := movePast 1 s) hc (by rw [e]; show _ ≤ 8 * s.ilen.toNat; omega)
        (by rw [e]; show 8 * s.ilen.toNat < _; omega)]
      rfl

theorem rdByte_ok {s : State} (h : InRoom s 8) :
    rdByte s = .ok (BitVec.ofNat 8 (bitsValue (inBits s s.rpos.toNat 8))) (movePast 8 s) := by
  rw [rdByte, rdBits_ok h]; rfl

theorem rdByte_eob {s : State} (hc : s.ilen.toNat ≤ s.cfg.ibufCap) (hr : s.rpos.toNat ≤ 8 * s.ilen.toNat)
    (h : 8 * s.ilen.toNat < s.rpos.toNat + 8) : rdByte s = .eob (atEnd s) := by
  rw [rdByte, rdBits_eob hc hr h]; rfl

theorem rdBytesBe_ok {n v : Nat} {s : State} (h : InRoom s (8 * n)) :
    rdBytesBe n v s = .ok (v * 2 ^ (8 * n) + bitsValue (inBits s s.rpos.toNat (8 * n))) (movePast (8 * n) s) := by
  induction n generalizing v s with
  | zero => simp [rdBytesBe, inBits]
  | succ n ih =>
    have h8 : InRoom s (8 + 8 * n) := h.mono (by omega)
    have hlt := bitsValue_lt (inBits s s.rpos.toNat 8)
    rw [length_inBits] at hlt
    rw [rdBytesBe, rdByte_ok (h.mono (by omega)), Flow.bind_ok, ih h8.movePast]
    simp only [movePast_movePast, inBits_movePast, movePast_rpos_toNat (h.mono (by omega : 8 ≤ 8 * (n + 1))),
      show 8 * (n + 1) = 8 + 8 * n by omega, inBits_add, bitsValue_append, length_inBits, BitVec.toNat_ofNat,
      Nat.mod_eq_of_lt hlt, Flow.ok.injEq, and_true, pow_add]
    ring

theorem rdBytesBe_eob {n v : Nat} {s : State} (hc : s.ilen.toNat ≤ s.cfg.ibufCap)
    (hr : s.rpos.toNat ≤ 8 * s.ilen.toNat) (h : 8 * s.ilen.toNat < s.rpos.toNat + 8 * n) :
    rdBytesBe n v s = .eob (atEnd s) := by
  induction n generalizing v s with
  | zero => omega
  | succ n ih =>
    rw [rdBytesBe]
    by_cases he : 8 * s.ilen.toNat < s.rpos.toNat + 8
    · rw [rdByte_eob hc hr he]; rfl
    · have h8 : InRoom s 8 := ⟨by omega, hc⟩
      have e := movePast_rpos_toNat h8
      rw [rdByte_ok h8, Flow.bind_ok, ih (s := movePast 8 s) hc (by rw [e]; show _ ≤ 8 * s.ilen.toNat; omega)
        (by rw [e]; show 8 * s.ilen.toNat < _; omega)]
      rfl

theorem rdU32_ok {s : State} (h : InRoom s 32) :
    rdU32 s = .ok (BitVec.ofNat 32 (bitsValue (inBits s s.rpos.toNat 32))) (movePast 32 s) := by
  rw [rdU32, rdBytesBe_ok (n := 4) h]; simp

theorem rdU32_eob {s : State} (hc : s.ilen.toNat ≤ s.cfg.ibufCap) (hr : s.rpos.toNat ≤ 8 * s.ilen.toNat)
    (h : 8 * s.ilen.toNat < s.rpos.toNat + 32) : rdU32 s = .eob (atEnd s) := by
  rw [rdU32, rdBytesBe_eob (n := 4) hc hr h]; rfl

/-! ### What every read keeps -/

/-- Nothing but `RPOS` differs, and it has not gone back or run past the input. -/
structure OnlyRpos (s t : State) : Prop where
  same : t = { s with rpos := t.rpos }
  forward : s.rpos.toNat ≤ t.rpos.toNat
  inside : s.rpos.toNat ≤ 8 * s.ilen.toNat → t.rpos.toNat ≤ 8 * s.ilen.toNat

theorem OnlyRpos.refl (s : State) : OnlyRpos s s := ⟨rfl, le_rfl, id⟩

theorem OnlyRpos.trans {s t u : State} (h : OnlyRpos s t) (h' : OnlyRpos t u) : OnlyRpos s u := by
  have e : t.ilen = s.ilen := by rw [h.same]
  refine ⟨?_, h.forward.trans h'.forward, fun hi => ?_⟩
  · rw [h'.same, h.same]
  · have := h'.inside
    rw [e] at this
    exact this (h.inside hi)

/-- EOB: every bit is consumed, and nothing else has happened (rules R120, R123). -/
def EobAfter (s t : State) : Prop := OnlyRpos s t ∧ 8 * s.ilen.toNat ≤ t.rpos.toNat

theorem EobAfter.of_onlyRpos {s t u : State} (h : OnlyRpos s t) (h' : EobAfter t u) : EobAfter s u := by
  have e : t.ilen = s.ilen := by rw [h.same]
  have := h'.2
  rw [e] at this
  exact ⟨h.trans h'.1, this⟩

theorem rdBit_post (s : State) : (rdBit s).Post (fun _ => OnlyRpos s) (EobAfter s) Never := by
  rw [rdBit]
  split_ifs with h
  · exact ⟨OnlyRpos.refl s, h⟩
  · rw [memReadIbuf]
    split_ifs with h'
    · have := s.ilen.isLt
      have e : (s.rpos + 1).toNat = s.rpos.toNat + 1 := by
        rw [BitVec.toNat_add]; simp; omega
      refine ⟨rfl, ?_, ?_⟩ <;> simp only [e] <;> omega
    · trivial

/-- A bit that is read is consumed (rule R120). -/
theorem rdBit_consumes (s : State) :
    (rdBit s).Post (fun _ t => s.rpos.toNat < t.rpos.toNat) (fun _ => True) fun _ => True := by
  rw [rdBit]
  split_ifs with h
  · trivial
  · rw [memReadIbuf]
    split_ifs
    · have := s.ilen.isLt
      show s.rpos.toNat < (s.rpos + 1).toNat
      rw [BitVec.toNat_add, show (1 : Pos).toNat = 1 from rfl]
      omega
    · trivial

theorem rdBits_post (n : Nat) (s : State) : (rdBits n s).Post (fun _ => OnlyRpos s) (EobAfter s) Never := by
  induction n generalizing s with
  | zero => exact OnlyRpos.refl s
  | succ n ih =>
    refine (rdBit_post s).bind fun b t ht => ?_
    exact ((ih t).mono (fun _ _ h => ht.trans h) (fun _ h => EobAfter.of_onlyRpos ht h) fun _ h => h).bind fun _ _ h => h

theorem rdByte_post (s : State) : (rdByte s).Post (fun _ => OnlyRpos s) (EobAfter s) Never :=
  (rdBits_post 8 s).bind fun _ _ h => h

theorem rdBytesBe_post (n v : Nat) (s : State) :
    (rdBytesBe n v s).Post (fun _ => OnlyRpos s) (EobAfter s) Never := by
  induction n generalizing v s with
  | zero => exact OnlyRpos.refl s
  | succ n ih =>
    exact (rdByte_post s).bind fun b t ht =>
      (ih _ t).mono (fun _ _ h => ht.trans h) (fun _ h => EobAfter.of_onlyRpos ht h) fun _ h => h

theorem rdU32_post (s : State) : (rdU32 s).Post (fun _ => OnlyRpos s) (EobAfter s) Never :=
  (rdBytesBe_post 4 0 s).bind fun _ _ h => h

end Sys2Proof.Machine
end

