-- ==== Sys2Proof/Laws/Table.lean ====
section
/-! SUPPORT. Sys2Proof/Laws/Table.lean: the laws of the sparse tables: a read after a write, and the canonical form. -/

namespace Sys2Proof.Machine

variable {α : Type}

@[simp] theorem Table.get?_nil (i : Nat) : Table.get? ([] : List (Nat × α)) i = none := rfl

theorem Table.get?_set (t : List (Nat × α)) (i j : Nat) (v : α) :
    Table.get? (Table.set t i v) j = if i = j then some v else Table.get? t j := by
  induction t with
  | nil => simp [Table.set, Table.get?]
  | cons c t ih =>
    obtain ⟨k, w⟩ := c
    simp only [Table.set]
    split_ifs <;> simp_all [Table.get?]
    intro h; omega

@[simp] theorem Table.get?_set_self (t : List (Nat × α)) (i : Nat) (v : α) :
    Table.get? (Table.set t i v) i = some v := by simp [Table.get?_set]

theorem Table.get?_set_of_ne (t : List (Nat × α)) {i j : Nat} (v : α) (h : i ≠ j) :
    Table.get? (Table.set t i v) j = Table.get? t j := by simp [Table.get?_set, h]

theorem Table.mem_set {t : List (Nat × α)} {i : Nat} {v : α} {e : Nat × α} (h : e ∈ Table.set t i v) :
    e = (i, v) ∨ e ∈ t := by
  induction t with
  | nil => simpa [Table.set] using h
  | cons c t ih =>
    obtain ⟨k, w⟩ := c
    simp only [Table.set] at h
    split_ifs at h <;> simp at h ⊢ <;> tauto

theorem Table.rising_set {t : List (Nat × α)} (i : Nat) (v : α) (h : Table.rising t) :
    Table.rising (Table.set t i v) := by
  induction t with
  | nil => simp [Table.set]
  | cons c t ih =>
    obtain ⟨k, w⟩ := c
    have hc := List.pairwise_cons.mp h
    simp only [Table.set]
    split_ifs with h1 h2
    · exact List.pairwise_cons.mpr ⟨fun e he => by
        rcases List.mem_cons.mp he with rfl | he
        · exact h1
        · exact h1.trans (hc.1 e he), h⟩
    · subst h2; exact List.pairwise_cons.mpr ⟨hc.1, hc.2⟩
    · refine List.pairwise_cons.mpr ⟨fun e he => ?_, ih hc.2⟩
      rcases Table.mem_set he with rfl | he
      · show k < i; omega
      · exact hc.1 e he

theorem Table.mem_of_get? {t : List (Nat × α)} {i : Nat} {v : α} (h : Table.get? t i = some v) : (i, v) ∈ t := by
  induction t with
  | nil => simp at h
  | cons c t ih =>
    obtain ⟨k, w⟩ := c
    simp only [Table.get?] at h
    split_ifs at h with hk
    · simp_all
    · exact List.mem_cons_of_mem _ (ih h)

/-- Writing a key that the table does not list adds one entry. -/
theorem Table.length_set_of_none {t : List (Nat × α)} {i : Nat} (v : α) (h : Table.get? t i = none) :
    (Table.set t i v).length = t.length + 1 := by
  induction t with
  | nil => rfl
  | cons c t ih =>
    obtain ⟨k, w⟩ := c
    simp only [Table.get?] at h
    split_ifs at h with hk
    simp only [Table.set]
    split_ifs with h1 h2
    · simp
    · exact absurd h2.symm hk
    · simp [ih h]

/-- Writing a key never makes the table shorter. -/
theorem Table.length_le_set (t : List (Nat × α)) (i : Nat) (v : α) : t.length ≤ (Table.set t i v).length := by
  induction t with
  | nil => simp
  | cons c t ih =>
    obtain ⟨k, w⟩ := c
    simp only [Table.set]
    split_ifs <;> simp [ih]

/-- In canonical form a key is listed once, so membership is what a read gives. -/
theorem Table.get?_of_mem {t : List (Nat × α)} (h : Table.rising t) {e : Nat × α} (he : e ∈ t) :
    Table.get? t e.1 = some e.2 := by
  induction t with
  | nil => simp at he
  | cons c t ih =>
    have hc := List.pairwise_cons.mp h
    rcases List.mem_cons.mp he with rfl | he
    · simp [Table.get?]
    · have := hc.1 e he
      simp only [Table.get?]
      rw [if_neg (by omega)]
      exact ih hc.2 he

end Sys2Proof.Machine
end

