-- ==== Sys2Proof/Laws/Writer.lean ====
section
/-! SUPPORT. Sys2Proof/Laws/Writer.lean: everything the bit writer can do. -/

namespace Sys2Proof.Machine

theorem Params.obufCap_lt {p : Params} (h : p.wf = true) : p.obufCap < 2 ^ 32 := by
  simp [Params.wf] at h; omega

theorem Params.ibufCap_lt {p : Params} (h : p.wf = true) : p.ibufCap < 2 ^ 32 := by
  simp [Params.wf] at h; omega

/-! ### What every write keeps -/

/-- Nothing but the writer's registers and `OBUF` differs, `OLEN` has not gone back or run past the buffer, `OBUF` keeps
its form, and every byte of it outside the addresses from the old `OLEN` up to the new one is as before. -/
structure OutMoved (s t : State) : Prop where
  same : t = { s with wacc := t.wacc, wpos := t.wpos, olen := t.olen, obuf := t.obuf, finalized := t.finalized }
  forward : s.olen.toNat ≤ t.olen.toNat
  outside : ∀ a, a < s.olen.toNat ∨ t.olen.toNat ≤ a → Table.get? t.obuf a = Table.get? s.obuf a
  fits : s.olen.toNat ≤ s.cfg.obufCap → t.olen.toNat ≤ s.cfg.obufCap
  rising : Table.rising s.obuf → Table.rising t.obuf
  inCap : (∀ c ∈ s.obuf, c.1 < s.cfg.obufCap) → ∀ c ∈ t.obuf, c.1 < s.cfg.obufCap

theorem OutMoved.refl (s : State) : OutMoved s s := ⟨rfl, le_rfl, fun _ _ => rfl, id, id, id⟩

theorem OutMoved.cfg {s t : State} (h : OutMoved s t) : t.cfg = s.cfg := by rw [h.same]

theorem OutMoved.trans {s t u : State} (h : OutMoved s t) (h' : OutMoved t u) : OutMoved s u := by
  have h1 := h.forward
  have h2 := h'.forward
  have hf := h'.fits
  have hc := h'.inCap
  rw [h.cfg] at hf hc
  exact ⟨by rw [h'.same, h.same], h1.trans h2, fun a ha => by rw [h'.outside a (by omega), h.outside a (by omega)],
    fun x => hf (h.fits x), fun x => h'.rising (h.rising x), fun x => hc (h.inCap x)⟩

/-- The writer has moved from one place between two bits to another, and `WACC` is 0 but for its pending bits (rule
R29). -/
structure OnlyOut (s t : State) : Prop extends OutMoved s t where
  pending : s.wacc.toNat < 2 ^ (s.wpos.toNat % 8) → t.wacc.toNat < 2 ^ (t.wpos.toNat % 8)

theorem OnlyOut.refl (s : State) : OnlyOut s s := ⟨OutMoved.refl s, id⟩

theorem OnlyOut.trans {s t u : State} (h : OnlyOut s t) (h' : OnlyOut t u) : OnlyOut s u :=
  ⟨h.toOutMoved.trans h'.toOutMoved, fun x => h'.pending (h.pending x)⟩

theorem OnlyOut.cfg {s t : State} (h : OnlyOut s t) : t.cfg = s.cfg := by rw [h.same]

/-- A byte is stored at `OBUF[OLEN]`. -/
def stored (v : Byte) (s : State) : State :=
  { s with obuf := Table.set s.obuf s.olen.toNat v, olen := s.olen + 1, wacc := 0 }

theorem storeByte_ok {v : Byte} {s : State} (h : s.olen.toNat < s.cfg.obufCap) : storeByte v s = .ok () (stored v s) := by
  rw [storeByte, if_neg (by omega)]; rfl

theorem storeByte_full {v : Byte} {s : State} (h : s.cfg.obufCap ≤ s.olen.toNat) :
    storeByte v s = .raised (raise .encObufFull s) := by rw [storeByte, if_pos h]

theorem succ_olen {s : State} (hp : s.cfg.wf = true) (h : s.olen.toNat < s.cfg.obufCap) :
    (s.olen + 1).toNat = s.olen.toNat + 1 := by
  have := Params.obufCap_lt hp
  rw [BitVec.toNat_add]; simp; omega

theorem stored_moved {v : Byte} {s : State} (hp : s.cfg.wf = true) (h : s.olen.toNat < s.cfg.obufCap) :
    OutMoved s (stored v s) := by
  have e : (stored v s).olen.toNat = s.olen.toNat + 1 := succ_olen hp h
  refine ⟨rfl, by omega, fun a ha => Table.get?_set_of_ne _ _ (by omega), fun _ => by omega, Table.rising_set _ _,
    fun hc c hm => ?_⟩
  rcases Table.mem_set hm with rfl | hm
  · exact h
  · exact hc c hm

theorem stored_pending (v : Byte) (s : State) : (stored v s).wacc.toNat < 2 ^ ((stored v s).wpos.toNat % 8) := by
  simp [stored]

/-- What an error entry of the writer leaves: the entry, from a state in which only the writer had moved. -/
def FullAfter (s t : State) : Prop :=
  ∃ u, OutMoved s u ∧ u.cfg.obufCap ≤ u.olen.toNat ∧ t = raise .encObufFull u

theorem FullAfter.of_moved {s t u : State} (h : OutMoved s t) (h' : FullAfter t u) : FullAfter s u := by
  obtain ⟨w, hw, hc, rfl⟩ := h'
  exact ⟨w, h.trans hw, hc, rfl⟩

theorem FullAfter.of_onlyOut {s t u : State} (h : OnlyOut s t) (h' : FullAfter t u) : FullAfter s u :=
  FullAfter.of_moved h.toOutMoved h'

theorem storeByte_post {v : Byte} {s : State} (hp : s.cfg.wf = true) :
    (storeByte v s).Post (fun _ => OnlyOut s) Never (FullAfter s) := by
  by_cases h : s.olen.toNat < s.cfg.obufCap
  · rw [storeByte_ok h]; exact ⟨stored_moved hp h, fun _ => stored_pending v s⟩
  · rw [storeByte_full (by omega)]
    exact ⟨s, OutMoved.refl s, by omega, rfl⟩

/-- `s'` is where the writer stands before it stores a byte. -/
theorem storeByte_post_of_moved {v : Byte} {s s' : State} (hp : s.cfg.wf = true) (hm : OutMoved s s') :
    (storeByte v s').Post (fun _ => OnlyOut s) Never (FullAfter s) := by
  by_cases h : s'.olen.toNat < s'.cfg.obufCap
  · rw [storeByte_ok h]
    exact ⟨hm.trans (stored_moved (hm.cfg.symm ▸ hp) h), fun _ => stored_pending v s'⟩
  · rw [storeByte_full (by omega)]
    exact ⟨s', hm, by omega, rfl⟩

/-- The writer with one more bit pending. -/
def pended (b : Bool) (s : State) : State :=
  { s with wacc := 2 * s.wacc + BitVec.ofNat 8 b.toNat, wpos := s.wpos + 1 }

theorem pended_moved (b : Bool) (s : State) : OutMoved s (pended b s) := ⟨rfl, le_rfl, fun _ _ => rfl, id, id, id⟩

theorem wpos_succ_mod (s : State) : (s.wpos + 1).toNat % 8 = (s.wpos.toNat + 1) % 8 := by
  rw [BitVec.toNat_add]; simp

/-- A bit that completes no byte. -/
theorem pended_onlyOut {b : Bool} {s : State} (h : (pended b s).wpos.toNat % 8 ≠ 0) : OnlyOut s (pended b s) := by
  refine ⟨pended_moved b s, fun hlt => ?_⟩
  have hm : (pended b s).wpos.toNat % 8 = (s.wpos.toNat + 1) % 8 := wpos_succ_mod s
  have hb : b.toNat < 2 := Bool.toNat_lt b
  have h7 : s.wacc.toNat < 2 ^ 7 := hlt.trans_le (Nat.pow_le_pow_right (by norm_num) (by omega))
  have e : (pended b s).wacc.toNat = 2 * s.wacc.toNat + b.toNat := by
    show (2 * s.wacc + BitVec.ofNat 8 b.toNat).toNat = _
    rw [BitVec.toNat_add, BitVec.toNat_mul]; simp; omega
  rw [e, show (pended b s).wpos.toNat % 8 = s.wpos.toNat % 8 + 1 by omega, pow_succ]
  omega

theorem wrBit_running {b : Bool} {s : State} (h : s.finalized = false) :
    wrBit b s =
      if (pended b s).wpos.toNat % 8 = 0 then storeByte (pended b s).wacc (pended b s) else .ok () (pended b s) := by
  rw [wrBit, if_neg (by simp [h])]; rfl

theorem wrBit_finalized {b : Bool} {s : State} (h : s.finalized = true) :
    wrBit b s = .refused .writeAfterFinalize := by simp [wrBit, h]

theorem wrBit_post {b : Bool} {s : State} (hp : s.cfg.wf = true) : (wrBit b s).Post (fun _ => OnlyOut s) Never (FullAfter s) := by
  rcases Bool.eq_false_or_eq_true s.finalized with h | h
  · rw [wrBit_finalized h]; trivial
  · rw [wrBit_running h]
    split_ifs with h8
    · exact storeByte_post_of_moved hp (pended_moved b s)
    · exact pended_onlyOut h8

theorem wrBits_post {bs : List Bool} {s : State} (hp : s.cfg.wf = true) :
    (wrBits bs s).Post (fun _ => OnlyOut s) Never (FullAfter s) := by
  induction bs generalizing s with
  | nil => exact OnlyOut.refl s
  | cons b bs ih =>
    refine (wrBit_post hp).bind fun _ t ht => ?_
    exact (ih (by rw [ht.cfg]; exact hp)).imp (fun _ _ h => ht.trans h) fun _ h => FullAfter.of_onlyOut ht h

theorem wrByte_post {v : Byte} {s : State} (hp : s.cfg.wf = true) : (wrByte v s).Post (fun _ => OnlyOut s) Never (FullAfter s) :=
  wrBits_post hp

theorem wrBytes_eq (vs : List Byte) (s : State) : wrBytes vs s = wrBits (vs.flatMap byteBits) s := by
  have app : ∀ (xs ys : List Bool) (s : State), wrBits (xs ++ ys) s = (wrBits xs s).bind fun _ s => wrBits ys s := by
    intro xs ys
    induction xs with
    | nil => intro s; rfl
    | cons x xs ih => intro s; simp only [List.cons_append, wrBits, Flow.bind_assoc, ih]
  induction vs generalizing s with
  | nil => rfl
  | cons v vs ih =>
    rw [List.flatMap_cons, app, wrBytes, wrByte]
    congr 1; funext _ s; exact ih s

/-- WRU32 writes the 32 bits of its operand, bit 31 first (rule R103). -/
theorem wrU32_eq (v : Word) (s : State) : wrU32 v s = wrBits (bitsMsb 32 v.toNat) s := by
  rw [wrU32, wrBytes_eq, flatMap_byteBits_wordBytes]

theorem wrU32_post {v : Word} {s : State} (hp : s.cfg.wf = true) : (wrU32 v s).Post (fun _ => OnlyOut s) Never (FullAfter s) := by
  rw [wrU32_eq]; exact wrBits_post hp

theorem finalizeOp_post {s : State} (hp : s.cfg.wf = true) : (finalizeOp s).Post (fun _ => OnlyOut s) Never (FullAfter s) := by
  have h1 : OutMoved s { s with finalized := true } := ⟨rfl, le_rfl, fun _ _ => rfl, id, id, id⟩
  rw [finalizeOp]
  split_ifs
  · exact ⟨h1, id⟩
  · exact storeByte_post_of_moved hp h1

/-! ### What a write adds to the stream -/

theorem outBytes_stored {v : Byte} {s : State} (hp : s.cfg.wf = true) (h : s.olen.toNat < s.cfg.obufCap) :
    outBytes (stored v s) = outBytes s ++ [v] := by
  have e : (stored v s).olen.toNat = s.olen.toNat + 1 := succ_olen hp h
  rw [outBytes, e, List.range_succ, List.map_append, outBytes]
  congr 1
  · refine List.map_congr_left fun a ha => ?_
    have := List.mem_range.mp ha
    simp only [obufByte, stored]
    rw [Table.get?_set_of_ne _ _ (by omega)]
  · simp [obufByte, stored]

/-- WRBIT on a writer that obeys its law, with room: the bit joins the stream and the law stays (rule R124). -/
theorem wrBit_ok {b : Bool} {s : State} (hp : s.cfg.wf = true) (hl : WriterLaw s) (hr : OutRoom s 1) :
    ∃ t, wrBit b s = .ok () t ∧ WriterLaw t ∧ OnlyOut s t ∧ outBits t = outBits s ++ [b] ∧
      t.wpos.toNat = s.wpos.toNat + 1 := by
  have hcap := Params.obufCap_lt hp
  have hw : (pended b s).wpos.toNat = s.wpos.toNat + 1 := by
    have := hr
    simp only [OutRoom] at this
    show (s.wpos + 1).toNat = _
    rw [BitVec.toNat_add]; simp; omega
  have hacc : (pended b s).wacc.toNat = 2 * s.wacc.toNat + b.toNat := by
    have h7 : s.wacc.toNat < 2 ^ 7 :=
      hl.pending.trans_le (Nat.pow_le_pow_right (by norm_num) (by omega))
    have hb : b.toNat < 2 := Bool.toNat_lt b
    show (2 * s.wacc + BitVec.ofNat 8 b.toNat).toNat = _
    rw [BitVec.toNat_add, BitVec.toNat_mul]; simp; omega
  have hbits : bitsMsb (s.wpos.toNat % 8 + 1) (2 * s.wacc.toNat + b.toNat) =
      bitsMsb (s.wpos.toNat % 8) s.wacc.toNat ++ [b] := by
    have := bitsMsb_append (s.wpos.toNat % 8) 1 s.wacc.toNat b.toNat (by simpa using Bool.toNat_lt b)
    rw [pow_one, Nat.mul_comm] at this
    rw [this]; cases b <;> rfl
  rw [wrBit_running hl.running, hw]
  by_cases h8 : (s.wpos.toNat + 1) % 8 = 0
  · have h7 : s.wpos.toNat % 8 = 7 := by omega
    have hroom : (pended b s).olen.toNat < (pended b s).cfg.obufCap := by
      show s.olen.toNat < s.cfg.obufCap
      have := hr
      simp only [OutRoom] at this
      rw [hl.olen]; omega
    have holen : (stored (pended b s).wacc (pended b s)).olen.toNat = s.olen.toNat + 1 := succ_olen hp hroom
    refine ⟨stored (pended b s).wacc (pended b s), by rw [if_pos h8, storeByte_ok hroom], ⟨hl.running, ?_, ?_⟩,
      ⟨(pended_moved b s).trans (stored_moved (s := pended b s) hp hroom), fun _ => stored_pending _ _⟩, ?_, hw⟩
    · rw [holen, hl.olen]
      show _ = (pended b s).wpos.toNat / 8
      rw [hw]; omega
    · simp [stored]
    · rw [outBits, outBytes_stored (s := pended b s) hp hroom]
      have e0 : (stored (pended b s).wacc (pended b s)).wpos.toNat % 8 = 0 := by
        show (pended b s).wpos.toNat % 8 = 0
        rw [hw]; exact h8
      rw [e0, List.flatMap_append, outBits, bitsMsb, List.append_nil, List.append_assoc, ← hbits, h7]
      simp only [List.flatMap_cons, List.flatMap_nil, List.append_nil, byteBits, hacc]
      rfl
  · refine ⟨pended b s, by rw [if_neg h8], ⟨hl.running, ?_, ?_⟩, pended_onlyOut (by rw [hw]; exact h8), ?_, hw⟩
    · show s.olen.toNat = _
      rw [hl.olen, hw]; omega
    · rw [hacc, hw]
      have e : (s.wpos.toNat + 1) % 8 = s.wpos.toNat % 8 + 1 := by omega
      have := hl.pending
      have hb : b.toNat < 2 := Bool.toNat_lt b
      rw [e, pow_succ]; omega
    · have e : (s.wpos.toNat + 1) % 8 = s.wpos.toNat % 8 + 1 := by omega
      rw [outBits, hw, hacc, e, hbits, outBits, List.append_assoc]
      rfl

theorem OutRoom.mono {m n : Nat} {s : State} (h : OutRoom s n) (hm : m ≤ n) : OutRoom s m :=
  (Nat.div_le_div_right (by omega : s.wpos.toNat + m ≤ s.wpos.toNat + n)).trans h

/-- WRBITs on a writer that obeys its law, with room: the bits join the stream (rule R124). -/
theorem wrBits_ok {bs : List Bool} {s : State} (hp : s.cfg.wf = true) (hl : WriterLaw s)
    (hr : OutRoom s bs.length) :
    ∃ t, wrBits bs s = .ok () t ∧ WriterLaw t ∧ OnlyOut s t ∧ outBits t = outBits s ++ bs ∧
      t.wpos.toNat = s.wpos.toNat + bs.length := by
  induction bs generalizing s with
  | nil => exact ⟨s, rfl, hl, OnlyOut.refl s, by simp, rfl⟩
  | cons b bs ih =>
    obtain ⟨t, ht, hlt, hot, hbt, hwt⟩ := wrBit_ok (b := b) hp hl (hr.mono (by simp))
    have hrt : OutRoom t bs.length := by
      have := hr
      simp only [OutRoom, List.length_cons, hwt, hot.cfg] at this ⊢
      rwa [show s.wpos.toNat + 1 + bs.length = s.wpos.toNat + (bs.length + 1) by omega]
    obtain ⟨u, hu, hlu, hou, hbu, hwu⟩ := ih (by rw [hot.cfg]; exact hp) hlt hrt
    refine ⟨u, by rw [wrBits, ht, Flow.bind_ok, hu], hlu, hot.trans hou, ?_, ?_⟩
    · rw [hbu, hbt]; simp
    · rw [hwu, hwt, List.length_cons]; omega

/-- A byte that completes on a full output: WRBIT enters the error (rules R124, R251). -/
theorem wrBit_full {b : Bool} {s : State} (hp : s.cfg.wf = true) (hl : WriterLaw s) (h0 : OutRoom s 0)
    (hr : ¬ OutRoom s 1) : wrBit b s = .raised (raise .encObufFull (pended b s)) ∧
      (pended b s).wpos.toNat = 8 * (s.cfg.obufCap + 1) := by
  have hcap := Params.obufCap_lt hp
  simp only [OutRoom] at h0 hr
  have hw : (pended b s).wpos.toNat = s.wpos.toNat + 1 := by
    show (s.wpos + 1).toNat = _
    rw [BitVec.toNat_add]; simp; omega
  have hm : (s.wpos.toNat + 1) % 8 = 0 := by omega
  refine ⟨?_, by omega⟩
  rw [wrBit_running hl.running, hw, if_pos hm, storeByte_full]
  show s.cfg.obufCap ≤ s.olen.toNat
  rw [hl.olen]; omega

/-- WRBITs that do not fit: after those that do, the error entry (rules R124, R251). -/
theorem wrBits_full {bs : List Bool} {s : State} (hp : s.cfg.wf = true) (hl : WriterLaw s) (h0 : OutRoom s 0)
    (hr : ¬ OutRoom s bs.length) :
    ∃ u, wrBits bs s = .raised (raise .encObufFull u) ∧ OutMoved s u ∧ u.wpos.toNat = 8 * (s.cfg.obufCap + 1) := by
  induction bs generalizing s with
  | nil => exact absurd h0 hr
  | cons b bs ih =>
    by_cases h1 : OutRoom s 1
    · obtain ⟨t, ht, hlt, hot, -, hwt⟩ := wrBit_ok (b := b) hp hl h1
      simp only [OutRoom, List.length_cons] at hr h1
      obtain ⟨u, hu, hou, hwu⟩ := ih (s := t) (by rw [hot.cfg]; exact hp) hlt
        (by simp only [OutRoom, hot.cfg, hwt]; exact h1)
        (by simp only [OutRoom, hot.cfg, hwt]; rwa [show s.wpos.toNat + 1 + bs.length = s.wpos.toNat + (bs.length + 1) by omega])
      exact ⟨u, by rw [wrBits, ht, Flow.bind_ok, hu], hot.toOutMoved.trans hou, by rw [hwu, hot.cfg]⟩
    · obtain ⟨e, hw⟩ := wrBit_full (b := b) hp hl h0 h1
      exact ⟨_, by rw [wrBits, e, Flow.bind_raised], pended_moved b s, hw⟩

/-- FINALIZE on a byte boundary stores nothing (rule R127). -/
theorem finalizeOp_aligned {s : State} (h : s.wpos.toNat % 8 = 0) : finalizeOp s = .ok () { s with finalized := true } := by
  simp [finalizeOp, h]

/-- FINALIZE with pending bits stores their byte (rule R127). -/
theorem finalizeOp_pending {s : State} (h : s.wpos.toNat % 8 ≠ 0) :
    finalizeOp s = storeByte (s.wacc <<< (8 - s.wpos.toNat % 8)) { s with finalized := true } := by
  simp [finalizeOp, h]

/-- FINALIZE leaves `WACC` = 0: with nothing pending it was 0 (rules R29, R127). -/
theorem finalizeOp_wacc {s t : State} (hl : s.wacc.toNat < 2 ^ (s.wpos.toNat % 8)) (h : finalizeOp s = .ok () t) :
    t.wacc = 0 := by
  by_cases h0 : s.wpos.toNat % 8 = 0
  · rw [finalizeOp_aligned h0] at h
    cases h
    rw [h0] at hl
    exact BitVec.eq_of_toNat_eq (by show s.wacc.toNat = 0; omega)
  · rw [finalizeOp_pending h0, storeByte] at h
    split_ifs at h
    cases h
    rfl

/-- FINALIZE: the pending bits become a byte, padded on the right with zeros (rule R127). -/
theorem finalizeOp_ok {s : State} (hp : s.cfg.wf = true) (hl : WriterLaw s) (hr : OutRoom s 7) :
    ∃ t, finalizeOp s = .ok () t ∧ t.finalized = true ∧ OnlyOut s t ∧ t.wpos = s.wpos ∧
      t.olen.toNat = (s.wpos.toNat + 7) / 8 ∧
      (outBytes t).flatMap byteBits = outBits s ++ List.replicate (8 * t.olen.toNat - s.wpos.toNat) false := by
  have h1 : OutMoved s { s with finalized := true } := ⟨rfl, le_rfl, fun _ _ => rfl, id, id, id⟩
  have hr' : (s.wpos.toNat + 7) / 8 ≤ s.cfg.obufCap := hr
  by_cases h0 : s.wpos.toNat % 8 = 0
  · have ho : s.olen.toNat = (s.wpos.toNat + 7) / 8 := by rw [hl.olen]; omega
    refine ⟨{ s with finalized := true }, by simp [finalizeOp, h0], rfl, ⟨h1, id⟩, rfl, ho, ?_⟩
    have : 8 * s.olen.toNat - s.wpos.toNat = 0 := by rw [ho]; omega
    show (outBytes s).flatMap byteBits = _
    rw [this, outBits, h0, bitsMsb]; simp
  · let f : State := { s with finalized := true }
    have hroom : f.olen.toNat < f.cfg.obufCap := by
      show s.olen.toNat < s.cfg.obufCap
      rw [hl.olen]; omega
    have ho : (stored (s.wacc <<< (8 - s.wpos.toNat % 8)) f).olen.toNat = s.olen.toNat + 1 := succ_olen hp hroom
    refine ⟨stored (s.wacc <<< (8 - s.wpos.toNat % 8)) f, ?_, rfl,
      ⟨h1.trans (stored_moved (s := f) hp hroom), fun _ => stored_pending _ _⟩, rfl, ?_,
      ?_⟩
    · rw [finalizeOp, if_neg h0, storeByte_ok hroom]
    · rw [ho, hl.olen]; omega
    · rw [outBytes_stored (s := f) hp hroom, List.flatMap_append, outBits, List.append_assoc, ho, hl.olen]
      congr 1
      have hlt := hl.pending
      generalize hk : s.wpos.toNat % 8 = r at *
      have hr8 : r < 8 := by omega
      have hval : (s.wacc <<< (8 - r)).toNat = s.wacc.toNat * 2 ^ (8 - r) := by
        rw [BitVec.toNat_shiftLeft, Nat.shiftLeft_eq, Nat.mod_eq_of_lt]
        calc s.wacc.toNat * 2 ^ (8 - r) < 2 ^ r * 2 ^ (8 - r) := by
              exact Nat.mul_lt_mul_of_pos_right hlt (by positivity)
          _ = 2 ^ 8 := by rw [← pow_add]; congr 1; omega
      have hz : ∀ n, bitsMsb n 0 = List.replicate n false := by
        intro n; induction n with
        | zero => rfl
        | succ n ih => simp [bitsMsb, ih, List.replicate_succ]
      have key := bitsMsb_append r (8 - r) s.wacc.toNat 0 (by positivity)
      rw [Nat.add_zero, show r + (8 - r) = 8 by omega, hz] at key
      have hrep : 8 * (s.wpos.toNat / 8 + 1) - s.wpos.toNat = 8 - r := by omega
      rw [hrep]
      simp only [List.flatMap_cons, List.flatMap_nil, List.append_nil, byteBits, hval, key]

end Sys2Proof.Machine
end

