-- ==== Sys2Proof/Laws/Tree.lean ====
section
/-! SUPPORT. Sys2Proof/Laws.Tree.lean: the traversals of a tree that `NODE` holds: serialization, code generation,
deserialization and the walk. Each law says what the loop has done once it has left the tree behind. -/

namespace Sys2Proof.Machine

/-! ### Trees -/

theorem HuffTree.size_pos (t : HuffTree) : 0 < t.size := by cases t <;> simp [HuffTree.size]

/-- A tree with `k` leaves has `2k - 1` nodes (rule R193). -/
theorem HuffTree.size_eq_leaves (t : HuffTree) : t.size + 1 = 2 * t.leaves.length := by
  induction t with
  | leaf sym => rfl
  | node l r ihl ihr => simp only [HuffTree.size, HuffTree.leaves, List.length_append]; omega

/-- A tree with `k` leaves serializes to `10k - 1` bits (rules R72, R186). -/
theorem HuffTree.length_ser (t : HuffTree) : t.ser.length + 1 = 10 * t.leaves.length := by
  induction t with
  | leaf sym => simp [HuffTree.ser, HuffTree.leaves]
  | node l r ihl ihr => simp only [HuffTree.ser, HuffTree.leaves, List.length_cons, List.length_append]; omega

theorem HuffTree.paths_map_fst (t : HuffTree) : t.paths.map Prod.fst = t.leaves := by
  induction t with
  | leaf sym => rfl
  | node l r ihl ihr => simp [HuffTree.paths, HuffTree.leaves, List.map_append, ← ihl, ← ihr, Function.comp_def]

theorem HuffTree.mem_preorder {t : HuffTree} {i : Nat} {e : Nat × Node} (h : e ∈ t.preorder i) :
    i ≤ e.1 ∧ e.1 < i + t.size := by
  induction t generalizing i with
  | leaf sym => simp [HuffTree.preorder] at h; subst h; simp [HuffTree.size]
  | node l r ihl ihr =>
    simp only [HuffTree.preorder, List.mem_cons, List.mem_append] at h
    simp only [HuffTree.size]
    rcases h with rfl | h | h
    · simp
    · have := ihl h; omega
    · have := ihr h; omega

/-- Entries in preorder form the tree. -/
theorem TreeAt.of_preorder {nodes : List (Nat × Node)} {t : HuffTree} {i : Nat}
    (h : ∀ e ∈ t.preorder i, Table.get? nodes e.1 = some e.2) : TreeAt nodes t i := by
  induction t generalizing i with
  | leaf sym => exact ⟨0, i, h (i, _) (by simp [HuffTree.preorder])⟩
  | node l r ihl ihr =>
    refine ⟨i + 1, i + 1 + l.size, 0, i, h (i, _) (by simp [HuffTree.preorder]), ihl fun e he => ?_, ihr fun e he => ?_⟩
    · exact h e (by simp [HuffTree.preorder, he])
    · exact h e (by simp [HuffTree.preorder, he])

theorem nodeAt_some {s : State} {i : Nat} {n : Node} (h : Table.get? s.node i = some n) :
    nodeAt (some i) s = .ok n s := by simp [nodeAt, h]

/-- Reading a node changes nothing: either the entry is there, or it is a fault. -/
theorem nodeAt_bind_post {α : Type} {p : Option Nat} {s : State} {f : Node → State → Flow α}
    {P : α → State → Prop} {E R : State → Prop}
    (h : ∀ i n, p = some i → Table.get? s.node i = some n → (f n s).Post P E R) : ((nodeAt p s).bind f).Post P E R := by
  cases p with
  | none => trivial
  | some i =>
    cases hn : Table.get? s.node i with
    | none => simp only [nodeAt, hn]; trivial
    | some n => rw [nodeAt_some hn]; exact h i n rfl hn

/-- The state with another stack. -/
def withStack (fs : List Frame) (s : State) : State := { s with stack := fs }

theorem withStack_withStack (fs gs : List Frame) (s : State) : withStack fs (withStack gs s) = withStack fs s := rfl

theorem withStack_self {fs : List Frame} {s : State} (h : s.stack = fs) : withStack fs s = s := by subst h; rfl

/-! ### SER -/

theorem writeLeaf_eq (sym : Byte) (s : State) : writeLeaf sym s = wrBits (true :: byteBits sym) s := rfl

theorem wrBits_singleton (b : Bool) (s : State) : wrBits [b] s = wrBit b s := by
  simp only [wrBits]; cases wrBit b s <;> rfl

/-- SER of the tree on top of the stack (rules R185, R186). -/
theorem serLoop_tree (t : HuffTree) {fr : Frame} {rest : List Frame} {n : Nat} {s : State}
    (hs : s.stack = fr :: rest) (ht : TreeAt s.node t fr.node) (hp : s.cfg.wf = true) (hl : WriterLaw s)
    (hr : OutRoom s t.ser.length) :
    ∃ u, serLoop (t.size + n) s = serLoop n u ∧ WriterLaw u ∧ OnlyOut { s with stack := rest } u ∧
      outBits u = outBits s ++ t.ser ∧ u.wpos.toNat = s.wpos.toNat + t.ser.length := by
  induction t generalizing fr rest n s with
  | leaf sym =>
    obtain ⟨c, q, hn⟩ := ht
    obtain ⟨u, hu, hlu, hou, hbu, hwu⟩ :=
      wrBits_ok (bs := true :: byteBits sym) (s := { s with stack := rest }) hp ⟨hl.running, hl.olen, hl.pending⟩ hr
    refine ⟨u, ?_, hlu, hou, hbu, hwu⟩
    rw [HuffTree.size, Nat.add_comm, serLoop, hs]
    simp only [nodeAt_some hn, Flow.bind_ok, writeLeaf_eq, hu]
  | node l r ihl ihr =>
    obtain ⟨a, b, c, q, hn, hta, htb⟩ := ht
    let s1 : State := { s with stack := Frame.at a :: Frame.at b :: rest }
    obtain ⟨u, hu, hlu, hou, hbu, hwu⟩ := wrBit_ok (b := false) (s := s1) hp ⟨hl.running, hl.olen, hl.pending⟩
      (OutRoom.mono (s := s) hr (by simp [HuffTree.ser]))
    have hpu : u.cfg = s.cfg := by rw [hou.same]
    have hnu : u.node = s.node := by rw [hou.same]
    have hwu' : u.wpos.toNat = s.wpos.toNat + 1 := hwu
    have hbu' : outBits u = outBits s ++ [false] := hbu
    have hr' : (s.wpos.toNat + (l.ser.length + r.ser.length + 1)) / 8 ≤ s.cfg.obufCap := by
      simpa [OutRoom, HuffTree.ser] using hr
    obtain ⟨v, hv, hlv, hov, hbv, hwv⟩ := ihl (n := r.size + n) (s := u) (fr := Frame.at a) (rest := Frame.at b :: rest)
      (by rw [hou.same]) (by rw [hnu]; exact hta) (by rw [hpu]; exact hp) hlu (by
        simp only [OutRoom, hpu, hwu']
        exact (Nat.div_le_div_right (by omega)).trans hr')
    have hpv : v.cfg = s.cfg := by rw [hov.same]; exact hpu
    have hnv : v.node = s.node := by rw [hov.same]; exact hnu
    obtain ⟨w, hw, hlw, how, hbw, hww⟩ := ihr (n := n) (s := v) (fr := Frame.at b) (rest := rest)
      (by rw [hov.same]) (by rw [hnv]; exact htb) (by rw [hpv]; exact hp) hlv (by
        simp only [OutRoom, hpv, hwv, hwu']
        exact (Nat.div_le_div_right (by omega)).trans hr')
    refine ⟨w, ?_, hlw, ?_, ?_, ?_⟩
    · rw [HuffTree.size, show l.size + r.size + 1 + n = (l.size + (r.size + n)) + 1 by omega, serLoop, hs]
      simp only [nodeAt_some hn, Flow.bind_ok, writeInt]
      show (wrBit false s1).bind _ = _
      rw [hu, Flow.bind_ok, hv, hw]
    · have h1 : OnlyOut { s with stack := rest } { u with stack := rest } :=
        ⟨⟨by rw [hou.same], hou.forward, hou.outside, hou.fits, hou.rising, hou.inCap⟩, hou.pending⟩
      have h2 : OnlyOut { u with stack := rest } { v with stack := rest } :=
        ⟨⟨by rw [hov.same], hov.forward, hov.outside, hov.fits, hov.rising, hov.inCap⟩, hov.pending⟩
      exact h1.trans (h2.trans how)
    · rw [hbw, hbv, hbu']; simp [HuffTree.ser]
    · rw [hww, hwv, hwu']; simp only [HuffTree.ser, List.length_cons, List.length_append]; omega

/-! ### GEN -/

/-- The codes of a list are entered in the table, one after the other. -/
def assignCodes (es : List (Byte × List Bool)) (s : State) : State := es.foldl (fun s e => setCode e.1 e.2 s) s

theorem assignCodes_append (es fs : List (Byte × List Bool)) (s : State) :
    assignCodes (es ++ fs) s = assignCodes fs (assignCodes es s) := by simp [assignCodes]

theorem assignCodes_eq (es : List (Byte × List Bool)) (s : State) :
    assignCodes es s = { s with code := (assignCodes es s).code } := by
  induction es generalizing s with
  | nil => rfl
  | cons e es ih =>
    show assignCodes es (setCode e.1 e.2 s) = _
    rw [ih]; rfl

theorem assignCodes_withStack (es : List (Byte × List Bool)) (fs : List Frame) (s : State) :
    assignCodes es (withStack fs s) = withStack fs (assignCodes es s) := by
  induction es generalizing s with
  | nil => rfl
  | cons e es ih => exact ih (setCode e.1 e.2 s)

theorem assignCodes_node (es : List (Byte × List Bool)) (s : State) : (assignCodes es s).node = s.node := by
  rw [assignCodes_eq]

theorem serTree_none {s : State} (hs : s.stack = []) (h : s.root = none) : serTree s = .ok () s := by simp [serTree, hs, h]

theorem serTree_some {s : State} {r : Nat} (hs : s.stack = []) (h : s.root = some r) :
    serTree s = serLoop s.node.length (withStack [Frame.at r] s) := by
  simp only [serTree, hs, h, withStack]

/-- With nodes that wait, E_TREE goes on (log 10). -/
theorem serTree_more {s : State} (hs : s.stack ≠ []) : serTree s = serLoop s.node.length s := by
  rw [serTree]
  cases h : s.stack with
  | nil => exact absurd h hs
  | cons fr rest => rfl

theorem genCodes_none {s : State} (h : s.root = none) : genCodes s = .ok () s := by simp [genCodes, h]

theorem genCodes_leaf {s : State} {r : Nat} {sym : Byte} {c : Word} {q : Nat} (h : s.root = some r)
    (hn : Table.get? s.node r = some (.leaf sym c q)) : genCodes s = .ok () (setCode sym [false] s) := by
  simp [genCodes, h, nodeAt_some hn]

theorem genCodes_internal {s : State} {r a b : Nat} {c : Word} {q : Nat} (h : s.root = some r)
    (hn : Table.get? s.node r = some (.internal a b c q)) :
    genCodes s = genLoop s.node.length (withStack [Frame.at r] s) := by
  simp only [genCodes, h, nodeAt_some hn, Flow.bind_ok, withStack]

theorem serLoop_done {n : Nat} {s : State} (h : s.stack = []) : serLoop n s = .ok () s := by
  cases n <;> simp [serLoop, h]

theorem genLoop_done {n : Nat} {s : State} (h : s.stack = []) : genLoop n s = .ok () s := by
  cases n <;> simp [genLoop, h]

/-- GEN of the tree on top of the stack: each leaf's code is the path so far and the path to it (rule R171). -/
theorem genLoop_tree (t : HuffTree) {fr : Frame} {rest : List Frame} {n : Nat} {s : State}
    (hs : s.stack = fr :: rest) (ht : TreeAt s.node t fr.node) :
    genLoop (t.size + n) s =
      genLoop n (assignCodes (t.paths.map fun e => (e.1, fr.path ++ e.2)) (withStack rest s)) := by
  induction t generalizing fr rest n s with
  | leaf sym =>
    obtain ⟨c, q, hn⟩ := ht
    rw [HuffTree.size, Nat.add_comm, genLoop, hs]
    simp [nodeAt_some hn, HuffTree.paths, assignCodes, withStack]
  | node l r ihl ihr =>
    obtain ⟨a, b, c, q, hn, hta, htb⟩ := ht
    let fa : Frame := { node := a, left := none, path := fr.path ++ [false] }
    let fb : Frame := { node := b, left := none, path := fr.path ++ [true] }
    have step : genLoop (l.size + (r.size + n) + 1) s = genLoop (l.size + (r.size + n)) (withStack (fa :: fb :: rest) s) := by
      rw [genLoop, hs]
      simp only [nodeAt_some hn, Flow.bind_ok]
      rfl
    rw [HuffTree.size, show l.size + r.size + 1 + n = l.size + (r.size + n) + 1 by omega, step,
      ihl (fr := fa) (rest := fb :: rest) (s := withStack (fa :: fb :: rest) s) rfl hta, assignCodes_withStack,
      ihr (fr := fb) (rest := rest) rfl (by
        show TreeAt (assignCodes _ _).node r b
        rw [assignCodes_node]; exact htb)]
    simp only [assignCodes_withStack, withStack_withStack]
    simp only [← assignCodes_withStack, ← assignCodes_append, HuffTree.paths, List.map_append, List.map_map,
      Function.comp_def, fa, fb, List.append_assoc, List.cons_append, List.nil_append]

/-! ### DES -/

theorem desToken_int {s : State} (hf : nodeFits s.seq s = true) (hr : InRoom s 1)
    (hb : inBit s s.rpos.toNat = false) : desToken s = desInt (movePast 1 s) := by
  simp [desToken, desRoom, hf, rdBit_ok hr, hb]

theorem desToken_leaf {s : State} {sym : Byte} (hf : nodeFits s.seq s = true) (hr : InRoom s 9)
    (hb : inBits s s.rpos.toNat 9 = true :: byteBits sym) : desToken s = desLeaf sym (movePast 9 s) := by
  have hb' := hb
  rw [inBits, List.cons.injEq] at hb'
  have h9 : InRoom s (1 + 8) := hr
  simp [desToken, desRoom, hf, rdBit_ok (hr.mono (by omega)), hb'.1, rdByte_ok h9.movePast,
    movePast_rpos_toNat (hr.mono (by omega : 1 ≤ 9)), hb'.2]

/-- Nothing but `RPOS`, `NODE`, `SEQ` and `STACK` differs. -/
def OnlyDes (s t : State) : Prop := t = { s with rpos := t.rpos, node := t.node, seq := t.seq, stack := t.stack }

theorem OnlyDes.trans {s t u : State} (h : OnlyDes s t) (h' : OnlyDes t u) : OnlyDes s u := by
  unfold OnlyDes at *; rw [h', h]

/-- DES of a tree whose tokens are next in the stream, with any nodes waiting for it (rules R190, R191). -/
theorem desLoop_tree (t : HuffTree) {n : Nat} {s : State} (hr : InRoom s t.ser.length)
    (hb : inBits s s.rpos.toNat t.ser.length = t.ser) (hf : ∀ i < s.seq + t.size, nodeFits i s = true) :
    ∃ u, desLoop (t.size + n) s =
        (desReturn s.stack s.seq u).bind (fun whole v => if whole then .ok () v else desLoop n v) ∧
      OnlyDes s u ∧ u.rpos = s.rpos + BitVec.ofNat 36 t.ser.length ∧ u.seq = s.seq + t.size ∧
      (∀ e ∈ t.preorder s.seq, Table.get? u.node e.1 = some e.2) ∧
      (∀ j, j < s.seq ∨ s.seq + t.size ≤ j → Table.get? u.node j = Table.get? s.node j) := by
  induction t generalizing n s with
  | leaf sym =>
    have h9 : InRoom s 9 := by simpa [HuffTree.ser] using hr
    refine ⟨{ movePast 9 s with node := Table.set s.node s.seq (.leaf sym 0 s.seq), seq := s.seq + 1 }, ?_, rfl,
      by simp [movePast, HuffTree.ser], rfl, ?_, ?_⟩
    · rw [HuffTree.size, Nat.add_comm, desLoop, desToken_leaf (hf _ (by simp [HuffTree.size])) h9 (by simpa [HuffTree.ser] using hb)]
      have hf' : nodeFits (movePast 9 s).seq (movePast 9 s) = true := hf s.seq (by simp [HuffTree.size])
      rw [desLeaf, setNode, if_pos hf']
      rfl
    · simp [HuffTree.preorder]
    · intro j hj
      simp only [HuffTree.size] at hj
      exact Table.get?_set_of_ne _ _ (by omega)
  | node l r ihl ihr =>
    have hlen : (HuffTree.node l r).ser.length = 1 + (l.ser.length + r.ser.length) := by
      simp [HuffTree.ser]; omega
    rw [hlen] at hr hb ⊢
    have hb' : inBits s s.rpos.toNat (1 + (l.ser.length + r.ser.length)) = false :: (l.ser ++ r.ser) := hb
    rw [inBits_add, inBits_add] at hb'
    simp only [inBits, List.cons_append, List.nil_append, List.cons.injEq] at hb'
    obtain ⟨hb0, hb12⟩ := hb'
    obtain ⟨hbl, hbr⟩ := List.append_inj hb12 (by simp)
    let s1 : State := { movePast 1 s with stack := Frame.at s.seq :: s.stack, seq := s.seq + 1 }
    have o1 : OnlyDes s s1 := rfl
    have hp1 : s1.rpos.toNat = s.rpos.toNat + 1 := movePast_rpos_toNat (hr.mono (by omega))
    have hr1 : InRoom s1 (l.ser.length + r.ser.length) := hr.movePast
    obtain ⟨u1, hu1, ou1, hru1, hqu1, hpre1, hout1⟩ := ihl (n := r.size + n) (s := s1) (hr1.mono (by omega))
      (by rw [hp1]; exact (inBits_congr (s := s) (t := s1) rfl rfl _ _).trans hbl)
      (fun i hi => hf i (by simp only [HuffTree.size]; change i < s.seq + 1 + l.size at hi; omega))
    have o2 := o1.trans ou1
    let s2 : State := withStack ({ node := s.seq, left := some (s.seq + 1), path := [] } :: s.stack) u1
    have o3 : OnlyDes s s2 := o2.trans rfl
    have hs2 : s2.seq = s.seq + 1 + l.size := hqu1
    have hp2 : s2.rpos.toNat = s.rpos.toNat + 1 + l.ser.length := by
      show u1.rpos.toNat = _
      rw [hru1, ← hp1]
      exact movePast_rpos_toNat (s := s1) (hr1.mono (by omega))
    have hr2 : InRoom s2 r.ser.length := by
      have h := hr1.1
      have e1 : s2.ilen = s.ilen := by rw [o3]
      have e2 : s2.cfg = s.cfg := by rw [o3]
      refine ⟨?_, by rw [e1, e2]; exact hr.2⟩
      rw [hp2, e1]
      change _ ≤ 8 * s.ilen.toNat at h
      omega
    obtain ⟨u2, hu2, ou2, hru2, hqu2, hpre2, hout2⟩ := ihr (n := n) (s := s2) hr2
      (by rw [hp2, inBits_congr (s := s) (by rw [o3]) (by rw [o3])]; exact hbr)
      (fun i hi => by
        rw [hs2] at hi
        have := hf i (by simp only [HuffTree.size]; omega)
        have e : s2.cfg = s.cfg := by rw [o3]
        simpa [nodeFits, e] using this)
    have o4 := o3.trans ou2
    have hfit : nodeFits s.seq u2 = true := by
      have e : u2.cfg = s.cfg := by rw [o4]
      simpa [nodeFits, e] using hf s.seq (by simp only [HuffTree.size]; omega)
    refine ⟨{ u2 with node := Table.set u2.node s.seq (.internal (s.seq + 1) (s.seq + 1 + l.size) 0 s.seq) },
      ?_, o4.trans rfl, ?_, ?_, ?_, ?_⟩
    · rw [HuffTree.size, show l.size + r.size + 1 + n = (l.size + (r.size + n)) + 1 by omega, desLoop,
        desToken_int (hf _ (by simp only [HuffTree.size]; omega)) (hr.mono (by omega)) hb0]
      show (Flow.ok false s1).bind _ = _
      simp only [Flow.bind_ok, Bool.false_eq_true, if_false]
      rw [hu1]
      show desLoop (r.size + n) s2 = _
      rw [hu2, hs2]
      simp only [s2, withStack, desReturn, setNode, hfit, if_true, Flow.bind_ok]
    · show u2.rpos = _
      rw [hru2]
      show u1.rpos + _ = _
      rw [hru1]
      simp [s1, movePast, BitVec.ofNat_add, BitVec.add_assoc]
    · show u2.seq = _
      rw [hqu2, hs2]; simp only [HuffTree.size]; omega
    · intro e he
      simp only [HuffTree.preorder, List.mem_cons, List.mem_append] at he
      rcases he with rfl | he | he
      · simp
      · have hm := HuffTree.mem_preorder he
        show Table.get? (Table.set u2.node _ _) _ = _
        rw [Table.get?_set_of_ne _ _ (by omega), hout2 _ (by rw [hs2]; omega)]
        exact hpre1 e he
      · have hm := HuffTree.mem_preorder he
        show Table.get? (Table.set u2.node _ _) _ = _
        rw [Table.get?_set_of_ne _ _ (by omega)]
        exact hpre2 e (by rw [hs2]; exact he)
    · intro j hj
      simp only [HuffTree.size] at hj
      show Table.get? (Table.set u2.node _ _) _ = _
      rw [Table.get?_set_of_ne _ _ (by omega), hout2 _ (by rw [hs2]; omega)]
      exact hout1 j (by show j < s.seq + 1 ∨ s.seq + 1 + l.size ≤ j; omega)

/-! ### The walk -/

theorem HuffTree.node_of_path {t : HuffTree} {sym : Byte} {b : Bool} {p : List Bool} (h : (sym, b :: p) ∈ t.paths) :
    ∃ l r, t = .node l r ∧ (sym, p) ∈ (if b then r else l).paths := by
  cases t with
  | leaf sym' => simp [HuffTree.paths] at h
  | node l r =>
    refine ⟨l, r, rfl, ?_⟩
    simp only [HuffTree.paths, List.mem_append, List.mem_map] at h
    rcases h with ⟨e, he, h⟩ | ⟨e, he, h⟩ <;> simp only [Prod.mk.injEq, List.cons.injEq] at h <;>
      obtain ⟨rfl, rfl, rfl⟩ := h <;> exact he

theorem HuffTree.leaf_of_nil_path {t : HuffTree} {sym : Byte} (h : (sym, []) ∈ t.paths) : t = .leaf sym := by
  cases t with
  | leaf sym' => simp only [HuffTree.paths, List.mem_singleton, Prod.mk.injEq, and_true] at h; rw [h]
  | node l r => simp [HuffTree.paths] at h

/-- From an internal node down a path to its leaf (rules R226, R227). -/
theorem descend_path {p : List Bool} {b : Bool} {sym : Byte} {l r : HuffTree} {i j n : Nat} {s : State}
    (hl : TreeAt s.node l i) (hr : TreeAt s.node r j) (hp : (sym, p) ∈ (if b then r else l).paths)
    (hn : p.length < n) (hroom : InRoom s (p.length + 1)) (hb : inBits s s.rpos.toNat (p.length + 1) = b :: p) :
    ∃ k, descend n i j s = .ok sym { movePast (p.length + 1) s with cur := some k } ∧
      ∃ c q, Table.get? s.node k = some (.leaf sym c q) := by
  induction p generalizing b l r i j n s with
  | nil =>
    obtain ⟨m, rfl⟩ : ∃ m, n = m + 1 := ⟨n - 1, by simp at hn; omega⟩
    have hbit : inBit s s.rpos.toNat = b := by simpa [inBits] using hb
    have hleaf := HuffTree.leaf_of_nil_path hp
    have hget : ∃ c q, Table.get? s.node (if b then j else i) = some (.leaf sym c q) := by
      cases b <;> simp only [Bool.false_eq_true, if_false, if_true] at hleaf ⊢
      · rw [hleaf] at hl; exact hl
      · rw [hleaf] at hr; exact hr
    refine ⟨if b then j else i, ?_, hget⟩
    obtain ⟨c, q, hget⟩ := hget
    rw [descend, rdBit_ok hroom, hbit]
    simp only [Flow.onEob_ok, Flow.bind_ok]
    rw [nodeAt_some (s := { movePast 1 s with cur := some (if b then j else i) }) hget]
    rfl
  | cons b' p ih =>
    obtain ⟨m, rfl⟩ : ∃ m, n = m + 1 := ⟨n - 1, by simp at hn; omega⟩
    have hbits := hb
    rw [List.length_cons, inBits, List.cons.injEq] at hbits
    obtain ⟨hbit, hrest⟩ := hbits
    obtain ⟨l', r', ht, hp'⟩ := HuffTree.node_of_path hp
    have htree : TreeAt s.node (if b then r else l) (if b then j else i) := by cases b <;> assumption
    rw [ht] at htree
    obtain ⟨a, d, c, q, hget, hta, htd⟩ := htree
    have h1 : InRoom s 1 := hroom.mono (by omega)
    let u : State := { movePast 1 s with cur := some (if b then j else i) }
    have hu : InRoom u (p.length + 1) := by
      have : InRoom s (1 + (p.length + 1)) := hroom.mono (by simp; omega)
      exact this.movePast
    obtain ⟨k, hk, hleaf⟩ := ih (b := b') (l := l') (r := r') (i := a) (j := d) (n := m) (s := u) hta htd hp'
      (by simp at hn; omega) hu (by
        have e : u.rpos.toNat = s.rpos.toNat + 1 := movePast_rpos_toNat h1
        rw [e, inBits_congr (s := s) (t := u) rfl rfl]; exact hrest)
    refine ⟨k, ?_, hleaf⟩
    rw [descend, rdBit_ok h1, hbit]
    simp only [Flow.onEob_ok, Flow.bind_ok]
    rw [nodeAt_some (s := { movePast 1 s with cur := some (if b then j else i) }) hget]
    simp only [Flow.bind_ok]
    rw [hk]
    simp only [u, movePast, List.length_cons, BitVec.ofNat_add, BitVec.add_assoc, Flow.ok.injEq, true_and]
    congr 1
    rw [BitVec.add_comm (BitVec.ofNat 36 1) _, BitVec.add_assoc]

/-- From an internal node down a path that the bits end before: PAYLOAD_TRUNC with every bit consumed (rule R226). -/
theorem descend_short {p rest : List Bool} {sym : Byte} {l r : HuffTree} {i j n : Nat} {s : State}
    (hl : TreeAt s.node l i) (hr : TreeAt s.node r j) (hp : (sym, p ++ rest) ∈ (HuffTree.node l r).paths)
    (hne : rest ≠ []) (hn : p.length < n) (hc : s.ilen.toNat ≤ s.cfg.ibufCap)
    (hroom : s.rpos.toNat + p.length = 8 * s.ilen.toNat) (hb : inBits s s.rpos.toNat p.length = p) :
    ∃ u, descend n i j s = .raised (raise .payloadTrunc u) ∧ u.rpos.toNat = 8 * s.ilen.toNat := by
  induction p generalizing l r i j n s with
  | nil =>
    obtain ⟨m, rfl⟩ : ∃ m, n = m + 1 := ⟨n - 1, by simp at hn; omega⟩
    simp only [List.length_nil, Nat.add_zero] at hroom
    exact ⟨s, by rw [descend, rdBit_eob (by omega), Flow.onEob_eob, Flow.bind_raised], hroom⟩
  | cons b p ih =>
    rw [List.length_cons] at hroom hn hb
    obtain ⟨m, rfl⟩ : ∃ m, n = m + 1 := ⟨n - 1, by omega⟩
    rw [inBits, List.cons.injEq] at hb
    obtain ⟨hbit, hrest⟩ := hb
    rw [List.cons_append] at hp
    obtain ⟨l0, r0, e0, hp'⟩ := HuffTree.node_of_path hp
    cases e0
    have htree : TreeAt s.node (if b then r else l) (if b then j else i) := by cases b <;> assumption
    obtain ⟨c0, p0, hcons⟩ : ∃ c0 p0, p ++ rest = c0 :: p0 :=
      List.exists_cons_of_ne_nil (by simp [hne])
    rw [hcons] at hp'
    obtain ⟨l', r', ht, -⟩ := HuffTree.node_of_path hp'
    rw [← hcons, ht] at hp'
    rw [ht] at htree
    obtain ⟨a, d, c, q, hget, hta, htd⟩ := htree
    have h1 : InRoom s 1 := ⟨by omega, hc⟩
    have e := movePast_rpos_toNat h1
    obtain ⟨u, hu, hur⟩ := ih (l := l') (r := r') (i := a) (j := d) (n := m)
      (s := { movePast 1 s with cur := some (if b then j else i) }) hta htd hp' (by omega) hc
      (by show (movePast 1 s).rpos.toNat + _ = 8 * s.ilen.toNat; omega)
      (by
        show inBits _ (movePast 1 s).rpos.toNat p.length = p
        rw [e]
        exact (inBits_congr (s := s) (t := { movePast 1 s with cur := some (if b then j else i) }) rfl rfl _ _).trans hrest)
    refine ⟨u, ?_, hur⟩
    rw [descend, rdBit_ok h1, hbit]
    simp only [Flow.onEob_ok, Flow.bind_ok]
    rw [nodeAt_some (s := { movePast 1 s with cur := some (if b then j else i) }) hget]
    exact hu

/-- From an internal node the walk reaches a leaf or the end of the bits (rules R226, R227, R234). -/
theorem descend_ends {l r : HuffTree} {i j n : Nat} {s : State} (hl : TreeAt s.node l i) (hr : TreeAt s.node r j)
    (hc : s.ilen.toNat ≤ s.cfg.ibufCap) (hn : 8 * s.ilen.toNat < s.rpos.toNat + n)
    (hp : s.rpos.toNat ≤ 8 * s.ilen.toNat) : (descend n i j s).Ends := by
  induction n generalizing l r i j s with
  | zero => omega
  | succ n ih =>
    rw [descend]
    by_cases h1 : s.rpos.toNat + 1 ≤ 8 * s.ilen.toNat
    · have hin : InRoom s 1 := ⟨h1, hc⟩
      have e := movePast_rpos_toNat hin
      rw [rdBit_ok hin, Flow.onEob_ok, Flow.bind_ok]
      have htree : TreeAt s.node (if inBit s s.rpos.toNat then r else l) (if inBit s s.rpos.toNat then j else i) := by
        cases inBit s s.rpos.toNat <;> assumption
      cases ht : (if inBit s s.rpos.toNat then r else l) with
      | leaf sym =>
        rw [ht] at htree
        obtain ⟨c, q, hget⟩ := htree
        simp only
        rw [nodeAt_some (s := { movePast 1 s with cur := some (if inBit s s.rpos.toNat then j else i) }) hget]
        trivial
      | node l' r' =>
        rw [ht] at htree
        obtain ⟨a, d, c, q, hget, hta, htd⟩ := htree
        simp only
        rw [nodeAt_some (s := { movePast 1 s with cur := some (if inBit s s.rpos.toNat then j else i) }) hget]
        refine ih (s := { movePast 1 s with cur := some (if inBit s s.rpos.toNat then j else i) }) hta htd hc ?_ ?_
        · show 8 * s.ilen.toNat < (movePast 1 s).rpos.toNat + n; omega
        · show (movePast 1 s).rpos.toNat ≤ 8 * s.ilen.toNat; omega
    · rw [rdBit_eob (by omega)]
      trivial

end Sys2Proof.Machine
end

