-- ==== Sys2Proof/Laws/Builder.lean ====
section
/-! SUPPORT. Sys2Proof/Laws/Builder.lean: the order of the merge, what a removal takes, and the forest that E_BUILD grows:
`PQ` always holds the roots of trees whose leaves are, together, the seeded symbols. -/

namespace Sys2Proof.Machine

/-! ### The order -/

/-- `COUNT`, and where it is equal `SEQ` (rule R159). -/
def Before (a b : Node) : Prop := a.count < b.count ∨ (a.count = b.count ∧ a.seq < b.seq)

/-- The leaves of the two nodes are numbered in symbol order (rule R152). -/
def LeafOrder (a b : Node) : Prop :=
  ∀ x y cx cy qx qy, a = .leaf x cx qx → b = .leaf y cy qy → (x < y ↔ qx < qy)

theorem nodeBefore_iff {a b : Node} (h : LeafOrder a b) : nodeBefore a b = true ↔ Before a b := by
  unfold nodeBefore Before
  by_cases hc : a.count = b.count
  · rw [if_neg (not_not.mpr hc)]
    cases a with
    | leaf x cx qx =>
      cases b with
      | leaf y cy qy =>
        have hc' : cx = cy := hc
        have := h x y cx cy qx qy rfl rfl
        simp only [decide_eq_true_eq, this, hc, true_and]
        exact ⟨.inr, fun h => h.resolve_left (BitVec.lt_irrefl _)⟩
      | internal l r c q => simp [hc]
    | internal l r c q => simp [hc]
  · rw [if_pos hc]
    simp [hc]

theorem Before.trans {a b c : Node} (h : Before a b) (h' : Before b c) : Before a c := by
  unfold Before at *
  rcases h with h | ⟨h, h2⟩ <;> rcases h' with h' | ⟨h', h2'⟩
  · exact .inl (BitVec.lt_trans h h')
  · exact .inl (h' ▸ h)
  · exact .inl (h ▸ h')
  · exact .inr ⟨h.trans h', h2.trans h2'⟩

theorem Before.total {a b : Node} (h : a.seq ≠ b.seq) : Before a b ∨ Before b a := by
  unfold Before
  by_cases hc : a.count = b.count
  · rcases Nat.lt_or_gt_of_ne h with h | h
    · exact .inl (.inr ⟨hc, h⟩)
    · exact .inr (.inr ⟨hc.symm, h⟩)
  · have : a.count.toNat ≠ b.count.toNat := fun e => hc (BitVec.eq_of_toNat_eq e)
    rcases Nat.lt_or_gt_of_ne this with h | h
    · exact .inl (.inl h)
    · exact .inr (.inl h)

/-! ### A removal -/

/-- The indices name allocated entries, each with its index as `SEQ` (rule R22), the leaves among them numbered in symbol
order. -/
structure Ordered (nodes : List (Nat × Node)) (is : List Nat) : Prop where
  entry : ∀ i ∈ is, ∃ n, Table.get? nodes i = some n ∧ n.seq = i
  leaves : ∀ i ∈ is, ∀ j ∈ is, ∀ n m, Table.get? nodes i = some n → Table.get? nodes j = some m → LeafOrder n m

theorem Ordered.mono {nodes : List (Nat × Node)} {is js : List Nat} (h : Ordered nodes is) (hs : ∀ i ∈ js, i ∈ is) :
    Ordered nodes js :=
  ⟨fun i hi => h.entry i (hs i hi), fun i hi j hj => h.leaves i (hs i hi) j (hs j hj)⟩

theorem leastLoop_ok {js : List Nat} {i : Nat} {n : Node} {s : State} (ho : Ordered s.node (i :: js))
    (hn : Table.get? s.node i = some n) :
    ∃ i' n', leastLoop js i n s = .ok (i', n') s ∧ i' ∈ i :: js ∧ Table.get? s.node i' = some n' ∧
      ∀ j ∈ i :: js, j ≠ i' → ∀ m, Table.get? s.node j = some m → Before n' m := by
  induction js generalizing i n with
  | nil =>
    refine ⟨i, n, rfl, by simp, hn, fun j hj hne => ?_⟩
    simp at hj; exact absurd hj hne
  | cons k js ih =>
    obtain ⟨m, hm, hq⟩ := ho.entry k (by simp)
    have lo : LeafOrder m n := ho.leaves k (by simp) i (by simp) m n hm hn
    obtain ⟨n₀, hn₀, hqi⟩ := ho.entry i (by simp)
    rw [hn] at hn₀; cases hn₀
    rw [leastLoop, nodeAt_some hm, Flow.bind_ok]
    by_cases hb : nodeBefore m n = true
    · rw [if_pos hb]
      have hb' := (nodeBefore_iff lo).mp hb
      obtain ⟨i', n', he, hi, hn', hmin⟩ := ih (ho.mono (by simp; tauto)) hm
      refine ⟨i', n', he, List.mem_cons_of_mem _ hi, hn', fun j hj hne m' hm' => ?_⟩
      rcases List.mem_cons.mp hj with rfl | hj
      · rw [hn] at hm'; cases hm'
        by_cases hk : k = i'
        · subst hk; rw [hm] at hn'; cases hn'; exact hb'
        · exact (hmin k (by simp) hk m hm).trans hb'
      · exact hmin j hj hne m' hm'
    · rw [if_neg hb]
      obtain ⟨i', n', he, hi, hn', hmin⟩ := ih (i := i) (n := n) (ho.mono (by simp; tauto)) hn
      refine ⟨i', n', he, by simp at hi ⊢; tauto, hn', fun j hj hne m' hm' => ?_⟩
      by_cases hjk : j = k
      · subst hjk
        rw [hm] at hm'; cases hm'
        by_cases hji : j = i
        · exact hmin j (by simp [hji]) hne m hm
        · have hnm : Before n m := (Before.total (a := n) (b := m) (by omega)).resolve_right
            fun h => hb ((nodeBefore_iff lo).mpr h)
          by_cases hii : i = i'
          · subst hii; rw [hn] at hn'; cases hn'; exact hnm
          · exact (hmin i (by simp) hii n hn).trans hnm
      · exact hmin j (by simp at hj ⊢; tauto) hne m' hm'

/-- A removal takes the member that comes before every other, and only `PQ` changes (rules R153, R154). -/
theorem removeLeast_ok {s : State} (hne : s.pq ≠ []) (ho : Ordered s.node s.pq) :
    ∃ i n, removeLeast s = .ok (i, n) { s with pq := s.pq.erase i } ∧ i ∈ s.pq ∧ Table.get? s.node i = some n ∧
      ∀ j ∈ s.pq, j ≠ i → ∀ m, Table.get? s.node j = some m → Before n m := by
  rw [removeLeast]
  split
  · next h => exact absurd h hne
  · next i is h =>
    rw [h] at ho
    obtain ⟨n, hn, -⟩ := ho.entry i (by simp)
    obtain ⟨i', n', he, hi, hn', hmin⟩ := leastLoop_ok ho hn
    exact ⟨i', n', by rw [nodeAt_some hn, Flow.bind_ok, he, Flow.bind_ok], by rw [h]; exact hi, hn', by rw [h]; exact hmin⟩

/-! ### The forest -/

/-- A tree stays where it is when an index that holds nothing is written. -/
theorem TreeAt.set {nodes : List (Nat × Node)} {t : HuffTree} {i j : Nat} {n : Node} (h : TreeAt nodes t i)
    (hj : Table.get? nodes j = none) : TreeAt (Table.set nodes j n) t i := by
  induction t generalizing i with
  | leaf sym =>
    obtain ⟨c, q, h⟩ := h
    exact ⟨c, q, by rw [Table.get?_set_of_ne _ _ (fun e => by subst e; rw [hj] at h; cases h)]; exact h⟩
  | node l r ihl ihr =>
    obtain ⟨a, b, c, q, h, ha, hb⟩ := h
    exact ⟨a, b, c, q, by rw [Table.get?_set_of_ne _ _ (fun e => by subst e; rw [hj] at h; cases h)]; exact h,
      ihl ha, ihr hb⟩

/-- What an internal node of index `i` is: its children are the two least members of the collection when it is made, the
left one before the right one in the order, and its count is their sum (rule R154). -/
def InternalOk (nodes : List (Nat × Node)) (i : Nat) : Prop :=
  ∃ l r nl nr, Table.get? nodes i = some (.internal l r (nl.count + nr.count) i) ∧
    Table.get? nodes l = some nl ∧ Table.get? nodes r = some nr ∧ l ≠ r ∧ nodeBefore nl nr = true ∧
    Collected nodes i l ∧ Collected nodes i r ∧
    ∀ j nj, Collected nodes i j → Table.get? nodes j = some nj → j ≠ l → j ≠ r → nodeBefore nr nj = true

/-- Which entries are in the collection when `i` is made is settled by the entries before `i`. -/
theorem Collected.set_iff {nodes : List (Nat × Node)} {i j k : Nat} {n : Node} (hk : i ≤ k) :
    Collected (Table.set nodes k n) i j ↔ Collected nodes i j := by
  have e : ∀ m, m < i → Table.get? (Table.set nodes k n) m = Table.get? nodes m := fun m hm =>
    Table.get?_set_of_ne _ _ (by omega)
  constructor
  · exact fun h => ⟨h.1, fun m a b c q hm hg => h.2 m a b c q hm (by rw [e m hm]; exact hg)⟩
  · exact fun h => ⟨h.1, fun m a b c q hm hg => h.2 m a b c q hm (by rw [← e m hm]; exact hg)⟩

/-- The forest over the seeded symbols `syms`, grown from `s₀`. -/
structure Forest (s₀ : State) (syms : List Byte) (s : State) : Prop where
  same : s = { s₀ with node := s.node, pq := s.pq, seq := s.seq }
  rising : Table.rising s.node
  unused : ∀ i, s.seq ≤ i → Table.get? s.node i = none
  length : s.node.length = s.seq
  nodup : s.pq.Nodup
  bound : ∀ i ∈ s.pq, i < s.seq
  size : s.seq + s.pq.length = 2 * syms.length
  leaf : ∀ (i : Nat) (sym : Byte), syms[i]? = some sym → Table.get? s.node i = some (.leaf sym (freqAt s₀ sym) i)
  inner : ∀ i, syms.length ≤ i → i < s.seq → InternalOk s.node i
  last : syms.length < s.seq → s.seq - 1 ∈ s.pq
  collected : ∀ j, j ∈ s.pq ↔ Collected s.node s.seq j
  trees : ∃ f : Nat → HuffTree, (∀ i ∈ s.pq, TreeAt s.node (f i) i) ∧ (s.pq.flatMap fun i => (f i).leaves).Perm syms

theorem Forest.seqPos {s₀ s : State} {syms : List Byte} (h : Forest s₀ syms s) {i : Nat} (hi : i < s.seq) :
    (∃ sym, syms[i]? = some sym) ∨ InternalOk s.node i := by
  by_cases hk : i < syms.length
  · exact .inl ⟨syms[i], List.getElem?_eq_getElem hk⟩
  · exact .inr (h.inner i (by omega) hi)

/-- The children of an internal entry were made before it. -/
theorem Forest.child_lt {s₀ s : State} {syms : List Byte} (h : Forest s₀ syms s) {m a b q : Nat} {c : Word}
    (hm : m < s.seq) (hg : Table.get? s.node m = some (.internal a b c q)) : a < m ∧ b < m := by
  rcases h.seqPos hm with ⟨sym, hsym⟩ | ⟨l, r, nl, nr, hi, -, -, -, -, hl, hr, -⟩
  · rw [h.leaf m sym hsym] at hg; cases hg
  · rw [hi] at hg; cases hg; exact ⟨hl.1, hr.1⟩

/-- The new entry joins the collection, and its children leave it. -/
theorem Forest.collected_set {s₀ s : State} {syms : List Byte} (h : Forest s₀ syms s) {n : Node} (j : Nat) :
    Collected (Table.set s.node s.seq n) (s.seq + 1) j ↔
      (j ∈ s.pq ∨ j = s.seq) ∧ ∀ a b c q, n = .internal a b c q → j ≠ a ∧ j ≠ b := by
  constructor
  · rintro ⟨hj, hc⟩
    refine ⟨?_, fun a b c q e => hc s.seq a b c q (by omega) (by rw [Table.get?_set_self, e])⟩
    by_cases e : j = s.seq
    · exact .inr e
    · refine .inl ((h.collected j).mpr ⟨by omega, fun m a b c q hm hg => hc m a b c q (by omega) ?_⟩)
      rw [Table.get?_set_of_ne _ _ (by omega)]; exact hg
  · rintro ⟨hj, hc⟩
    have hlt : j < s.seq + 1 := by
      rcases hj with hj | hj
      · have := h.bound j hj; omega
      · omega
    refine ⟨hlt, fun m a b c q hm hg => ?_⟩
    by_cases e : m = s.seq
    · subst e
      rw [Table.get?_set_self] at hg
      exact hc a b c q (Option.some.inj hg)
    · rw [Table.get?_set_of_ne _ _ (fun e' => e e'.symm)] at hg
      rcases hj with hj | hj
      · exact ((h.collected j).mp hj).2 m a b c q (by omega) hg
      · have := h.child_lt (by omega) hg
        omega

/-- Every allocated entry is a leaf of the seeding or an internal node, with its index as `SEQ`. -/
theorem Forest.ordered {s₀ s : State} {syms : List Byte} (h : Forest s₀ syms s) (hs : syms.Pairwise (· < ·))
    {is : List Nat} (hb : ∀ i ∈ is, i < s.seq) : Ordered s.node is := by
  have known : ∀ i, i < s.seq → ∀ n, Table.get? s.node i = some n →
      (∃ sym, syms[i]? = some sym ∧ n = .leaf sym (freqAt s₀ sym) i) ∨ ∃ l r c, n = .internal l r c i := by
    intro i hi n hn
    rcases h.seqPos hi with ⟨sym, hsym⟩ | ⟨l, r, nl, nr, hg, -⟩
    · rw [h.leaf i sym hsym] at hn; cases hn; exact .inl ⟨sym, hsym, rfl⟩
    · rw [hg] at hn; cases hn; exact .inr ⟨l, r, _, rfl⟩
  refine ⟨fun i hi => ?_, fun i hi j hj n m hn hm => ?_⟩
  · rcases h.seqPos (hb i hi) with ⟨sym, hsym⟩ | ⟨l, r, nl, nr, hg, -⟩
    · exact ⟨_, h.leaf i sym hsym, rfl⟩
    · exact ⟨_, hg, rfl⟩
  · intro x y cx cy qx qy ea eb
    subst ea eb
    rcases known i (hb i hi) _ hn with ⟨sym, hsym, e⟩ | ⟨l, r, c, e⟩ <;> cases e
    rcases known j (hb j hj) _ hm with ⟨sym', hsym', e⟩ | ⟨l, r, c, e⟩ <;> cases e
    obtain ⟨hi', rfl⟩ := List.getElem?_eq_some_iff.mp hsym
    obtain ⟨hj', rfl⟩ := List.getElem?_eq_some_iff.mp hsym'
    have hp := List.pairwise_iff_getElem.mp hs
    constructor
    · intro hlt
      rcases Nat.lt_trichotomy i j with h | h | h
      · exact h
      · subst h; exact absurd hlt (BitVec.lt_irrefl _)
      · exact absurd (BitVec.lt_trans hlt (hp j i hj' hi' h)) (BitVec.lt_irrefl _)
    · exact hp i j hi' hj'

theorem nodeFits_of_lt {s : State} {i : Nat} (hp : s.cfg.wf = true) (h : i < 511) : nodeFits i s = true := by
  rw [nodeFits]
  split
  · rfl
  · next n hn => simp [Params.wf, hn] at hp; simp; omega

theorem addNode_ok {n : Nat → Node} {s : State} (h : nodeFits s.seq s = true) :
    addNode n s = .ok ()
      { s with node := Table.set s.node s.seq (n s.seq), pq := s.pq ++ [s.seq], seq := s.seq + 1 } := by
  rw [addNode, setNode, if_pos h]; rfl

/-- A leaf joins the forest (rule R152). -/
theorem Forest.seed {s₀ s : State} {syms : List Byte} (h : Forest s₀ syms s) (hq : s.pq.length = syms.length)
    (hfit : nodeFits s.seq s = true) (sym : Byte) :
    ∃ t, addNode (fun i => .leaf sym (freqAt s sym) i) s = .ok () t ∧ Forest s₀ (syms ++ [sym]) t ∧
      t.pq.length = (syms ++ [sym]).length := by
  have hseq : s.seq = syms.length := by have := h.size; omega
  have hfr : freqAt s sym = freqAt s₀ sym := by rw [h.same]; rfl
  refine ⟨_, addNode_ok hfit, ⟨?_, ?_, ?_, ?_, ?_, ?_, ?_, ?_, ?_, ?_, ?_, ?_⟩, ?_⟩
  · show { s with node := _, pq := _, seq := _ } = _
    rw [h.same]
  · exact Table.rising_set _ _ h.rising
  · intro i hi
    show Table.get? (Table.set _ _ _) i = none
    have hi' : s.seq + 1 ≤ i := hi
    rw [Table.get?_set_of_ne _ _ (by omega)]
    exact h.unused i (by omega)
  · show (Table.set _ _ _).length = s.seq + 1
    rw [Table.length_set_of_none _ (h.unused _ le_rfl), h.length]
  · show (s.pq ++ [s.seq]).Nodup
    rw [List.nodup_append]
    exact ⟨h.nodup, by simp, fun a ha b hb => by simp at hb; have := h.bound a ha; omega⟩
  · intro i hi
    show i < s.seq + 1
    rcases List.mem_append.mp hi with hi | hi
    · have := h.bound i hi; omega
    · simp at hi; omega
  · show s.seq + 1 + (s.pq ++ [s.seq]).length = _
    simp; omega
  · intro i x hx
    show Table.get? (Table.set _ _ _) i = _
    by_cases hi : i < syms.length
    · rw [List.getElem?_append_left hi] at hx
      rw [Table.get?_set_of_ne _ _ (by omega)]
      exact h.leaf i x hx
    · rw [List.getElem?_append_right (by omega)] at hx
      have hi' : i = syms.length := by
        by_contra hne
        rw [List.getElem?_eq_none (by simp; omega)] at hx
        cases hx
      subst hi'
      simp at hx
      subst hx
      rw [← hseq, Table.get?_set_self, hfr]
  · intro i hi hi'
    have : i < s.seq + 1 := hi'
    simp at hi; omega
  · intro hlt
    have : (syms ++ [sym]).length < s.seq + 1 := hlt
    simp at this; omega
  · intro j
    show j ∈ s.pq ++ [s.seq] ↔ Collected (Table.set _ _ _) (s.seq + 1) j
    rw [h.collected_set]
    simp
  · obtain ⟨f, hf, hperm⟩ := h.trees
    refine ⟨fun i => if i = s.seq then .leaf sym else f i, fun i hi => ?_, ?_⟩
    · show TreeAt (Table.set _ _ _) _ i
      dsimp only
      split_ifs with e
      · subst e; exact ⟨_, _, Table.get?_set_self _ _ _⟩
      · rcases List.mem_append.mp hi with hi | hi
        · exact (hf i hi).set (h.unused _ le_rfl)
        · simp at hi; exact absurd hi e
    · show ((s.pq ++ [s.seq]).flatMap _).Perm _
      rw [List.flatMap_append]
      refine List.Perm.append ?_ (by simp [HuffTree.leaves])
      have : s.pq.flatMap (fun i => (if i = s.seq then HuffTree.leaf sym else f i).leaves) =
          s.pq.flatMap fun i => (f i).leaves := by
        refine List.flatMap_congr fun i hi => ?_
        have := h.bound i hi
        rw [if_neg (by omega)]
      rw [this]; exact hperm
  · show (s.pq ++ [s.seq]).length = _
    simp [hq]

theorem InternalOk.set {nodes : List (Nat × Node)} {i j : Nat} {n : Node} (h : InternalOk nodes i)
    (hj : Table.get? nodes j = none) (hij : i ≤ j) : InternalOk (Table.set nodes j n) i := by
  obtain ⟨l, r, nl, nr, hg, hl, hr, hne, hb, cl, cr, hmin⟩ := h
  have keep : ∀ {k m}, Table.get? nodes k = some m → Table.get? (Table.set nodes j n) k = some m := by
    intro k m hk
    rw [Table.get?_set_of_ne _ _ (fun e => by subst e; rw [hj] at hk; cases hk)]; exact hk
  refine ⟨l, r, nl, nr, keep hg, keep hl, keep hr, hne, hb, (Collected.set_iff hij).mpr cl, (Collected.set_iff hij).mpr cr,
    fun k nk hc hk => ?_⟩
  have hc' := (Collected.set_iff hij).mp hc
  rw [Table.get?_set_of_ne _ _ (by have := hc'.1; omega)] at hk
  exact hmin k nk hc' hk

/-- One merge (rule R154). -/
theorem Forest.merge {s₀ s : State} {syms : List Byte} (h : Forest s₀ syms s) (hs : syms.Pairwise (· < ·))
    (h2 : 2 ≤ s.pq.length) (hfit : nodeFits s.seq s = true) :
    ∃ t, ((removeLeast s).bind fun a s => (removeLeast s).bind fun b s =>
        addNode (fun i => .internal a.1 b.1 (a.2.count + b.2.count) i) s) = .ok () t ∧ Forest s₀ syms t ∧
      t.pq.length + 1 = s.pq.length := by
  obtain ⟨a, na, ha, hap, hna, hmin⟩ := removeLeast_ok (s := s) (by intro e; simp [e] at h2) (h.ordered hs h.bound)
  have hlen : (s.pq.erase a).length + 1 = s.pq.length := by rw [List.length_erase_of_mem hap]; omega
  have hsub : ∀ i ∈ s.pq.erase a, i ∈ s.pq := fun i hi => List.mem_of_mem_erase hi
  obtain ⟨b, nb, hb, hbp, hnb, hmin'⟩ := removeLeast_ok (s := { s with pq := s.pq.erase a })
    (by intro e; have e' : s.pq.erase a = [] := e; rw [e', List.length_nil] at hlen; omega)
    (h.ordered hs fun i hi => h.bound i (hsub i hi))
  have hbp' : b ∈ s.pq := hsub b hbp
  have hab : b ≠ a := (h.nodup.mem_erase_iff.mp hbp).1
  have hlen2 : ((s.pq.erase a).erase b).length + 2 = s.pq.length := by
    have e : ((s.pq.erase a).erase b).length = (s.pq.erase a).length - 1 := List.length_erase_of_mem hbp
    omega
  have hsub2 : ∀ i ∈ (s.pq.erase a).erase b, i ∈ s.pq := fun i hi => hsub i (List.mem_of_mem_erase hi)
  have hnd : ((s.pq.erase a).erase b).Nodup := (h.nodup.erase a).erase b
  have hnone := h.unused s.seq le_rfl
  have hbefore : nodeBefore na nb = true := by
    rw [nodeBefore_iff]
    · exact hmin b hbp' hab nb hnb
    · exact (h.ordered hs h.bound).leaves a hap b hbp' na nb hna hnb
  have keep : ∀ {k m n}, Table.get? s.node k = some m → Table.get? (Table.set s.node s.seq n) k = some m := by
    intro k m n hk
    rw [Table.get?_set_of_ne _ _ (fun e => by subst e; rw [hnone] at hk; cases hk)]; exact hk
  refine ⟨_, by
    rw [ha, Flow.bind_ok, hb, Flow.bind_ok]
    exact addNode_ok hfit, ⟨?_, ?_, ?_, ?_, ?_, ?_, ?_, ?_, ?_, ?_, ?_, ?_⟩, ?_⟩
  · show { s with node := _, pq := _, seq := _ } = _
    rw [h.same]
  · exact Table.rising_set _ _ h.rising
  · intro i hi
    show Table.get? (Table.set _ _ _) i = none
    have hi' : s.seq + 1 ≤ i := hi
    rw [Table.get?_set_of_ne _ _ (by show s.seq ≠ i; omega)]
    exact h.unused i (by omega)
  · show (Table.set s.node s.seq _).length = s.seq + 1
    rw [Table.length_set_of_none _ hnone, h.length]
  · show ((s.pq.erase a).erase b ++ [s.seq]).Nodup
    rw [List.nodup_append]
    exact ⟨hnd, by simp, fun i hi j hj => by simp at hj; have := h.bound i (hsub2 i hi); omega⟩
  · intro i hi
    show i < s.seq + 1
    rcases List.mem_append.mp hi with hi | hi
    · have := h.bound i (hsub2 i hi); omega
    · have : i = s.seq := by simpa using hi
      omega
  · show s.seq + 1 + ((s.pq.erase a).erase b ++ [s.seq]).length = _
    have := h.size
    rw [List.length_append]; simp only [List.length_singleton]; omega
  · intro i x hx
    exact keep (h.leaf i x hx)
  · intro i hi hi'
    have hi'' : i < s.seq + 1 := hi'
    by_cases e : i = s.seq
    · subst e
      refine ⟨a, b, na, nb, Table.get?_set_self _ _ _, keep hna, keep hnb, hab.symm, hbefore,
        (Collected.set_iff le_rfl).mpr ((h.collected a).mp hap), (Collected.set_iff le_rfl).mpr ((h.collected b).mp hbp'),
        fun j nj hc hj hja hjb => ?_⟩
      have hc' := (Collected.set_iff le_rfl).mp hc
      have hj' : j ∈ s.pq := (h.collected j).mpr hc'
      have hjs : j < s.seq := hc'.1
      have hne : s.seq ≠ j := by omega
      rw [Table.get?_set_of_ne _ _ hne] at hj
      exact (nodeBefore_iff ((h.ordered hs h.bound).leaves b hbp' j hj' nb nj hnb hj)).mpr
        (hmin' j (h.nodup.mem_erase_iff.mpr ⟨hja, hj'⟩) hjb nj hj)
    · exact (h.inner i hi (by omega)).set hnone (by show i ≤ s.seq; omega)
  · intro _
    exact List.mem_append_right _ (List.mem_singleton.mpr rfl)
  · intro j
    show j ∈ (s.pq.erase a).erase b ++ [s.seq] ↔ Collected (Table.set _ _ _) (s.seq + 1) j
    rw [h.collected_set, List.mem_append, List.mem_singleton, (h.nodup.erase a).mem_erase_iff, h.nodup.mem_erase_iff]
    have h1 := h.bound a hap
    have h2 := h.bound b hbp'
    constructor
    · rintro (⟨h3, h4, h5⟩ | rfl)
      · exact ⟨.inl h5, fun x y c q e => by cases e; exact ⟨h4, h3⟩⟩
      · exact ⟨.inr rfl, fun x y c q e => by cases e; exact ⟨by omega, by omega⟩⟩
    · rintro ⟨h3 | h3, h4⟩
      · obtain ⟨h5, h6⟩ := h4 _ _ _ _ rfl
        exact .inl ⟨h6, h5, h3⟩
      · exact .inr h3
  · obtain ⟨f, hf, hperm⟩ := h.trees
    refine ⟨fun i => if i = s.seq then .node (f a) (f b) else f i, fun i hi => ?_, ?_⟩
    · show TreeAt (Table.set _ _ _) _ i
      dsimp only
      split_ifs with e
      · subst e
        exact ⟨a, b, _, _, Table.get?_set_self _ _ _, (hf a hap).set hnone, (hf b hbp').set hnone⟩
      · rcases List.mem_append.mp hi with hi | hi
        · exact (hf i (hsub2 i hi)).set hnone
        · exact absurd (by simpa using hi) e
    · show (((s.pq.erase a).erase b ++ [s.seq]).flatMap _).Perm _
      have e1 : ((s.pq.erase a).erase b).flatMap (fun i => (if i = s.seq then (HuffTree.node (f a) (f b)) else f i).leaves) =
          ((s.pq.erase a).erase b).flatMap fun i => (f i).leaves := by
        refine List.flatMap_congr fun i hi => ?_
        have := h.bound i (hsub2 i hi)
        rw [if_neg (by omega)]
      rw [List.flatMap_append, e1]
      simp only [List.flatMap_cons, List.flatMap_nil, List.append_nil, if_pos, HuffTree.leaves]
      have p1 : s.pq.Perm (a :: b :: (s.pq.erase a).erase b) :=
        (List.perm_cons_erase hap).trans ((List.perm_cons_erase hbp).cons a)
      have p2 := (p1.flatMap_right fun i => (f i).leaves)
      simp only [List.flatMap_cons] at p2
      refine List.Perm.trans ?_ (p2.symm.trans hperm)
      rw [← List.append_assoc (f a).leaves]
      exact List.perm_append_comm
  · show ((s.pq.erase a).erase b ++ [s.seq]).length + 1 = _
    rw [List.length_append]; simp only [List.length_singleton]; omega

/-- All the merges: one member is left, or none (rules R154, R155). -/
theorem mergeLoop_ok {s₀ s : State} {syms : List Byte} {n : Nat} (h : Forest s₀ syms s) (hp : s₀.cfg.wf = true)
    (hs : syms.Pairwise (· < ·)) (hk : syms.length ≤ 256) (hn : s.pq.length ≤ n + 1) :
    ∃ t, mergeLoop n s = .ok () t ∧ Forest s₀ syms t ∧ t.pq.length ≤ 1 ∧ (s.pq ≠ [] → t.pq ≠ []) := by
  induction n generalizing s with
  | zero => exact ⟨s, rfl, h, by omega, id⟩
  | succ n ih =>
    rw [mergeLoop]
    split_ifs with h2
    · have hc : s.cfg = s₀.cfg := by rw [h.same]
      have := h.size
      obtain ⟨t, ht, hft, hlen⟩ := h.merge hs h2 (nodeFits_of_lt (hc ▸ hp) (by omega))
      obtain ⟨u, hu, hfu, hul, hune⟩ := ih hft (by omega)
      refine ⟨u, ?_, hfu, hul, fun _ => hune fun e => by simp [e] at hlen; omega⟩
      simp only [Flow.bind_eq_ok] at ht
      obtain ⟨a, v, ha, b, w, hb, hadd⟩ := ht
      rw [ha, Flow.bind_ok, hb, Flow.bind_ok, hadd, Flow.bind_ok, hu]
    · exact ⟨s, rfl, h, by omega, id⟩

/-- The seeding of a list of symbols (rule R152). -/
theorem seedLoop_ok {s₀ s : State} {syms new : List Byte} (h : Forest s₀ syms s) (hp : s₀.cfg.wf = true)
    (hq : s.pq.length = syms.length) (hk : syms.length + new.length ≤ 256) :
    ∃ t, seedLoop new s = .ok () t ∧ Forest s₀ (syms ++ new.filter fun x => freqAt s₀ x != 0) t ∧
      t.pq.length = (syms ++ new.filter fun x => freqAt s₀ x != 0).length := by
  induction new generalizing syms s with
  | nil => exact ⟨s, rfl, by simpa using h, by simpa using hq⟩
  | cons x new ih =>
    have hfr : freqAt s x = freqAt s₀ x := by rw [h.same]; rfl
    simp only [List.length_cons] at hk
    rw [seedLoop]
    by_cases h0 : freqAt s₀ x = 0
    · rw [if_pos (hfr.trans h0)]
      obtain ⟨t, ht, hft, hlt⟩ := ih h hq (by omega)
      rw [List.filter_cons_of_neg (by simp [h0])]
      exact ⟨t, ht, hft, hlt⟩
    · rw [if_neg (by rw [hfr]; exact h0)]
      have hc : s.cfg = s₀.cfg := by rw [h.same]
      have := h.size
      obtain ⟨u, hu, hfu, hlu⟩ := h.seed hq (nodeFits_of_lt (hc ▸ hp) (by omega)) x
      obtain ⟨t, ht, hft, hlt⟩ := ih hfu hlu (by simp; omega)
      rw [List.filter_cons_of_pos (by simpa using h0)]
      rw [List.append_assoc] at hft hlt
      exact ⟨t, by rw [hu, Flow.bind_ok, ht], hft, hlt⟩

theorem allSymbols_sorted : allSymbols.Pairwise (· < ·) := by
  rw [allSymbols, List.pairwise_map, List.pairwise_iff_getElem]
  intro i j hi hj hij
  simp only [List.length_range] at hi hj
  simp only [List.getElem_range]
  show (BitVec.ofNat 8 i).toNat < (BitVec.ofNat 8 j).toNat
  simp only [BitVec.toNat_ofNat]
  omega

theorem length_allSymbols : allSymbols.length = 256 := by simp [allSymbols]

theorem mem_allSymbols (x : Byte) : x ∈ allSymbols :=
  List.mem_map.mpr ⟨x.toNat, List.mem_range.mpr x.isLt, by simp⟩

theorem presentSymbols_sorted (s : State) : (presentSymbols s).Pairwise (· < ·) := allSymbols_sorted.filter _

theorem length_presentSymbols_le (s : State) : (presentSymbols s).length ≤ 256 :=
  (List.length_filter_le _ _).trans length_allSymbols.le

/-- The check of rule R160 passes on a forest (rule R160). -/
theorem Forest.checkCounts {s₀ s : State} {syms : List Byte} (h : Forest s₀ syms s) (r : Option Nat) (pq : List Nat) :
    checkCounts { s with root := r, pq := pq } = .ok () { s with root := r, pq := pq, phase := .eGen } := by
  have : (s.node.all fun e => countSumHolds { s with root := r, pq := pq } e.1 e.2) = true := by
    rw [List.all_eq_true]
    intro e he
    have hg := Table.get?_of_mem h.rising he
    have hlt : e.1 < s.seq := by
      by_contra hne
      rw [h.unused _ (by omega)] at hg; cases hg
    rcases h.seqPos hlt with ⟨sym, hsym⟩ | ⟨a, b, na, nb, hi, ha, hb, -⟩
    · rw [h.leaf _ _ hsym] at hg
      cases hg' : e.2 <;> rw [hg'] at hg <;> cases hg
      simp [countSumHolds]
    · rw [hi] at hg
      cases hg' : e.2 <;> rw [hg'] at hg <;> cases hg
      simp [countSumHolds, ha, hb]
  simp [Machine.checkCounts, this]

/-- The forest before anything is seeded. -/
theorem Forest.empty {s : State} (hq : s.seq = 0) (hp : s.pq = []) (hn : s.node = []) : Forest s [] s :=
  ⟨rfl, by rw [hn]; simp, fun i _ => by rw [hn]; rfl, by rw [hn, hq]; rfl, by rw [hp]; simp, by rw [hp]; simp,
    by rw [hq, hp]; rfl, by simp, by rw [hq]; omega, by rw [hq]; simp,
    fun j => by rw [hp, hq]; simp [Collected], ⟨fun _ => .leaf 0, by rw [hp]; simp, by rw [hp]; simp⟩⟩

/-- E_BUILD up to the root: the forest over the present symbols, with one member at most (rules R151 to R156). -/
theorem build_ok {s : State} (hp : s.cfg.wf = true) (hq : s.seq = 0) (hpq : s.pq = []) (hn : s.node = []) :
    ∃ t, ((seedLoop allSymbols s).bind fun _ s => mergeLoop s.pq.length s) = .ok () t ∧
      Forest s (presentSymbols s) t ∧ t.pq.length ≤ 1 ∧ (presentSymbols s ≠ [] → t.pq ≠ []) := by
  obtain ⟨u, hu, hfu, hlu⟩ := seedLoop_ok (Forest.empty hq hpq hn) hp (by rw [hpq]; rfl)
    (new := allSymbols) (by rw [length_allSymbols]; simp)
  rw [List.nil_append] at hfu hlu
  obtain ⟨t, ht, hft, hlt, hne⟩ := mergeLoop_ok (n := u.pq.length) hfu hp (presentSymbols_sorted s)
    (length_presentSymbols_le s) (by omega)
  refine ⟨t, by rw [hu, Flow.bind_ok, ht], hft, hlt, fun h => hne fun e => h ?_⟩
  rw [e] at hlu
  exact List.length_eq_zero_iff.mp hlu.symm

end Sys2Proof.Machine
end

