-- ==== Sys2Proof/Laws/Encoder.lean ====
section
/-! SUPPORT. Sys2Proof/Laws/Encoder.lean: everything the loops of E_COUNT and E_PACK can do, and the traversal of E_TREE
when the output is full. -/

namespace Sys2Proof.Machine

theorem byte_eq_iff (a b : Byte) : a.toNat = b.toNat ↔ a = b := BitVec.toNat_inj

theorem freqAt_setFreq (sym x : Byte) (v : Word) (s : State) :
    freqAt (setFreq sym v s) x = if x = sym then v else freqAt s x := by
  simp only [freqAt, setFreq, Vector.getElem_set, byte_eq_iff, eq_comm (a := sym)]

theorem codeAt_setCode (sym x : Byte) (c : List Bool) (s : State) :
    codeAt (setCode sym c s) x = if x = sym then cutCode c else codeAt s x := by
  simp only [codeAt, setCode, Vector.getElem_set, byte_eq_iff, eq_comm (a := sym)]

/-- The state with another `IIDX`. -/
def withIidx (i : Word) (s : State) : State := { s with iidx := i }

theorem withIidx_self {i : Word} {s : State} (h : s.iidx = i) : withIidx i s = s := by subst h; rfl

theorem OnlyOut.withIidx {s t : State} (i : Word) (h : OnlyOut s t) : OnlyOut (withIidx i s) (withIidx i t) :=
  ⟨⟨by show Machine.withIidx i t = _; rw [h.same]; rfl, h.forward, h.outside, h.fits, h.rising, h.inCap⟩, h.pending⟩

/-! ### E_COUNT -/

/-- One iteration of E_COUNT. -/
def counted (s : State) : State :=
  { setFreq (ibufByte s s.iidx.toNat) (freqAt s (ibufByte s s.iidx.toNat) + 1) s with iidx := s.iidx + 1 }

theorem succ_iidx {s : State} (h : s.iidx < s.ilen) : (s.iidx + 1).toNat = s.iidx.toNat + 1 := by
  have := s.ilen.isLt
  have : s.iidx.toNat < s.ilen.toNat := h
  rw [BitVec.toNat_add]; simp; omega

theorem countLoop_succ {n : Nat} {s : State} (h : s.iidx < s.ilen) (hc : s.ilen.toNat ≤ s.cfg.ibufCap) :
    countLoop (n + 1) s = countLoop n (counted s) := by
  have : s.iidx.toNat < s.ilen.toNat := h
  rw [countLoop, if_pos h, memReadIbuf, if_pos (by omega)]
  rfl

/-- The rest of E_COUNT's loop adds to each count the occurrences that are left (rule R142). -/
theorem countLoop_ok {n : Nat} {s : State} (hc : s.ilen.toNat ≤ s.cfg.ibufCap) (hn : s.iidx.toNat + n = s.ilen.toNat)
    (hf : ∀ sym, (freqAt s sym).toNat ≤ s.iidx.toNat) :
    ∃ t, countLoop n s = .ok () t ∧ t = { s with freq := t.freq, iidx := s.ilen } ∧
      ∀ sym, (freqAt t sym).toNat =
        (freqAt s sym).toNat + ((List.range' s.iidx.toNat n).filter fun i => ibufByte s i == sym).length := by
  induction n generalizing s with
  | zero =>
    have e : s.iidx = s.ilen := BitVec.eq_of_toNat_eq (by omega)
    exact ⟨s, rfl, (withIidx_self e).symm, fun sym => by simp⟩
  | succ n ih =>
    have hlt : s.iidx < s.ilen := by show s.iidx.toNat < s.ilen.toNat; omega
    have hi := succ_iidx hlt
    have hil := s.ilen.isLt
    have hfc : ∀ sym, (freqAt (counted s) sym).toNat =
        (freqAt s sym).toNat + if ibufByte s s.iidx.toNat = sym then 1 else 0 := by
      intro sym
      show (freqAt (setFreq _ _ s) sym).toNat = _
      rw [freqAt_setFreq]
      by_cases h : sym = ibufByte s s.iidx.toNat
      · subst h
        have := hf (ibufByte s s.iidx.toNat)
        rw [if_pos rfl, if_pos rfl, BitVec.toNat_add]; simp; omega
      · rw [if_neg h, if_neg (fun e => h e.symm)]; rfl
    obtain ⟨t, ht, hst, hft⟩ := ih (s := counted s) hc (by show (s.iidx + 1).toNat + n = _; rw [hi]; show _ = s.ilen.toNat; omega)
      (fun sym => by
        show _ ≤ (s.iidx + 1).toNat
        have := hf sym
        rw [hfc, hi]; split_ifs <;> omega)
    refine ⟨t, by rw [countLoop_succ hlt hc, ht], by rw [hst]; rfl, fun sym => ?_⟩
    have e : (counted s).iidx.toNat = s.iidx.toNat + 1 := hi
    rw [hft, hfc, e, List.range'_succ, List.filter_cons]
    simp only [beq_iff_eq]
    show _ + _ + ((List.range' (s.iidx.toNat + 1) n).filter fun i => ibufByte s i == sym).length = _
    split_ifs
    · simp; omega
    · simp

/-- The loop of E_COUNT, whatever state it runs in: only `FREQ` and `IIDX` change. -/
theorem countLoop_post (n : Nat) (s : State) :
    (countLoop n s).Post
      (fun _ t => t = { s with freq := t.freq, iidx := t.iidx } ∧ (s.iidx ≤ s.ilen → t.iidx ≤ s.ilen))
      Never Never := by
  induction n generalizing s with
  | zero => exact ⟨rfl, id⟩
  | succ n ih =>
    rw [countLoop]
    split_ifs with h
    · rw [memReadIbuf]
      split_ifs
      · have hi := succ_iidx h
        refine (ih (counted s)).imp (fun _ t ht => ⟨by rw [ht.1]; rfl, fun _ => ht.2 ?_⟩) fun _ h => h
        show (s.iidx + 1).toNat ≤ s.ilen.toNat
        have : s.iidx.toNat < s.ilen.toNat := h
        omega
      · trivial
    · exact ⟨rfl, id⟩

/-! ### E_PACK -/

/-- The code bits of the `n` input bytes from address `a` on. -/
def payloadBits (s : State) (a n : Nat) : List Bool := (List.range' a n).flatMap fun i => codeAt s (ibufByte s i)

theorem payloadBits_congr {s t : State} (hc : t.code = s.code) (hi : t.ibuf = s.ibuf) (he : t.epoch = s.epoch) (a n : Nat) :
    payloadBits t a n = payloadBits s a n := by
  simp [payloadBits, codeAt, ibufByte, hc, hi, he]

theorem payloadBits_succ (s : State) (a n : Nat) :
    payloadBits s a (n + 1) = codeAt s (ibufByte s a) ++ payloadBits s (a + 1) n := by
  simp [payloadBits, List.range'_succ]

theorem packLoop_succ {n : Nat} {s : State} (h : s.iidx < s.ilen) (hc : s.ilen.toNat ≤ s.cfg.ibufCap) :
    packLoop (n + 1) s =
      (wrBits (codeAt s (ibufByte s s.iidx.toNat)) s).bind fun _ t => packLoop n { t with iidx := t.iidx + 1 } := by
  have : s.iidx.toNat < s.ilen.toNat := h
  rw [packLoop, if_pos h, memReadIbuf, if_pos (by omega)]
  rfl

/-- The rest of E_PACK's loop appends the codes of the input bytes that are left (rule R207). -/
theorem packLoop_ok {n : Nat} {s : State} (hp : s.cfg.wf = true) (hl : WriterLaw s) (hc : s.ilen.toNat ≤ s.cfg.ibufCap)
    (hn : s.iidx.toNat + n = s.ilen.toNat) (hr : OutRoom s (payloadBits s s.iidx.toNat n).length) :
    ∃ t, packLoop n s = .ok () t ∧ WriterLaw t ∧ OnlyOut (withIidx s.ilen s) t ∧
      outBits t = outBits s ++ payloadBits s s.iidx.toNat n ∧
      t.wpos.toNat = s.wpos.toNat + (payloadBits s s.iidx.toNat n).length := by
  induction n generalizing s with
  | zero =>
    have e : s.iidx = s.ilen := BitVec.eq_of_toNat_eq (by omega)
    refine ⟨s, rfl, hl, ?_, by simp [payloadBits], by simp [payloadBits]⟩
    rw [withIidx_self e]; exact OnlyOut.refl s
  | succ n ih =>
    have hlt : s.iidx < s.ilen := by show s.iidx.toNat < s.ilen.toNat; omega
    have hi := succ_iidx hlt
    rw [payloadBits_succ] at hr ⊢
    rw [List.length_append] at hr ⊢
    obtain ⟨u, hu, hlu, hou, hbu, hwu⟩ := wrBits_ok (bs := codeAt s (ibufByte s s.iidx.toNat)) hp hl (hr.mono (by omega))
    let v : State := { u with iidx := u.iidx + 1 }
    have ei : u.iidx = s.iidx := by rw [hou.same]
    have ev : v.iidx.toNat = s.iidx.toNat + 1 := by show (u.iidx + 1).toNat = _; rw [ei, hi]
    have ep : ∀ a n, payloadBits v a n = payloadBits s a n :=
      payloadBits_congr (by show u.code = _; rw [hou.same]) (by show u.ibuf = _; rw [hou.same]) (by show u.epoch = _; rw [hou.same])
    have ec : v.cfg = s.cfg := hou.cfg
    have el : v.ilen = s.ilen := by show u.ilen = _; rw [hou.same]
    have ew : v.wpos.toNat = s.wpos.toNat + (codeAt s (ibufByte s s.iidx.toNat)).length := hwu
    obtain ⟨t, ht, hlt', hot, hbt, hwt⟩ := ih (s := v) (by rw [ec]; exact hp) ⟨hlu.running, hlu.olen, hlu.pending⟩
      (by rw [el, ec]; exact hc) (by rw [ev, el]; omega) (by
        simp only [OutRoom, ep, ev, ec, ew] at hr ⊢
        rwa [Nat.add_assoc])
    refine ⟨t, by rw [packLoop_succ hlt hc, hu, Flow.bind_ok, ht], hlt', ?_, ?_, ?_⟩
    · rw [el] at hot
      exact (hou.withIidx s.ilen).trans hot
    · rw [hbt, ep, ev]; show outBits u ++ _ = _; rw [hbu, List.append_assoc]
    · rw [hwt, ep, ev, ew]; omega

/-- Codes that do not fit: E_PACK's loop enters the error (rule R207). -/
theorem packLoop_full {n : Nat} {s : State} (hp : s.cfg.wf = true) (hl : WriterLaw s) (hc : s.ilen.toNat ≤ s.cfg.ibufCap)
    (hn : s.iidx.toNat + n = s.ilen.toNat) (h0 : OutRoom s 0) (hr : ¬ OutRoom s (payloadBits s s.iidx.toNat n).length) :
    ∃ u, packLoop n s = .raised (raise .encObufFull u) := by
  induction n generalizing s with
  | zero => exact absurd h0 hr
  | succ n ih =>
    have hlt : s.iidx < s.ilen := by show s.iidx.toNat < s.ilen.toNat; omega
    have hi := succ_iidx hlt
    rw [packLoop_succ hlt hc]
    by_cases h1 : OutRoom s (codeAt s (ibufByte s s.iidx.toNat)).length
    · obtain ⟨u, hu, hlu, hou, hbu, hwu⟩ := wrBits_ok hp hl h1
      let v : State := { u with iidx := u.iidx + 1 }
      have ei : u.iidx = s.iidx := by rw [hou.same]
      have ev : v.iidx.toNat = s.iidx.toNat + 1 := by show (u.iidx + 1).toNat = _; rw [ei, hi]
      have ep : ∀ a n, payloadBits v a n = payloadBits s a n :=
        payloadBits_congr (by show u.code = _; rw [hou.same]) (by show u.ibuf = _; rw [hou.same]) (by show u.epoch = _; rw [hou.same])
      have ec : v.cfg = s.cfg := hou.cfg
      have el : v.ilen = s.ilen := by show u.ilen = _; rw [hou.same]
      have ew : v.wpos.toNat = s.wpos.toNat + (codeAt s (ibufByte s s.iidx.toNat)).length := hwu
      obtain ⟨w, hw⟩ := ih (s := v) (by rw [ec]; exact hp) ⟨hlu.running, hlu.olen, hlu.pending⟩
        (by rw [el, ec]; exact hc) (by rw [ev, el]; omega) (by simp only [OutRoom, ec, ew] at h1 ⊢; exact h1) (by
          rw [payloadBits_succ, List.length_append] at hr
          simp only [OutRoom, ep, ev, ec, ew] at hr ⊢
          rwa [Nat.add_assoc])
      exact ⟨w, by rw [hu, Flow.bind_ok, hw]⟩
    · obtain ⟨u, hu, -, -⟩ := wrBits_full hp hl h0 h1
      exact ⟨u, by rw [hu, Flow.bind_raised]⟩

/-- The loop of E_PACK, whatever state it runs in: only the writer, its bytes and `IIDX` change. -/
theorem packLoop_post (n : Nat) {s : State} (hp : s.cfg.wf = true) :
    (packLoop n s).Post
      (fun _ t => OnlyOut (withIidx t.iidx s) t ∧ (s.iidx ≤ s.ilen → t.iidx ≤ s.ilen)) Never
      (fun t => ∃ i, FullAfter (withIidx i s) t) := by
  have self : ∀ t : State, OnlyOut s t → OnlyOut (withIidx t.iidx s) t := fun t h => by
    have e : t.iidx = s.iidx := by rw [h.same]
    rw [e, withIidx_self rfl]; exact h
  induction n generalizing s with
  | zero => exact ⟨self s (OnlyOut.refl s), id⟩
  | succ n ih =>
    rw [packLoop]
    split_ifs with h
    · rw [memReadIbuf]
      split_ifs
      · have hw := (wrBits_post (bs := codeAt s (ibufByte s s.iidx.toNat)) hp).imp (fun _ _ h => h)
          fun t (ht : FullAfter s t) => (⟨s.iidx, by rw [withIidx_self rfl]; exact ht⟩ : ∃ i, FullAfter (withIidx i s) t)
        refine hw.bind fun _ t ht => ?_
        have e : t.iidx = s.iidx := by rw [ht.same]
        have el : t.ilen = s.ilen := by rw [ht.same]
        refine (ih (s := withIidx (t.iidx + 1) t) (ht.cfg.symm ▸ hp) (fun u hu => ?_)).imp
          (fun _ u hu => ⟨(ht.withIidx u.iidx).trans hu.1, fun _ => ?_⟩)
          (fun u ⟨i, hu⟩ => ⟨i, FullAfter.of_onlyOut (ht.withIidx i) hu⟩)
        · have e' : u.iidx = t.iidx + 1 := by rw [hu.same]; rfl
          rw [e']; exact hu
        · have := hu.2
          show u.iidx ≤ s.ilen
          rw [← el]
          refine this ?_
          show (t.iidx + 1).toNat ≤ t.ilen.toNat
          rw [e, el, succ_iidx h]
          exact h
      · trivial
    · exact ⟨self s (OnlyOut.refl s), id⟩

/-! ### E_TREE on a full output -/

/-- SER of a tree that does not fit enters the error (rule R185). -/
theorem serLoop_full (t : HuffTree) {fr : Frame} {rest : List Frame} {n : Nat} {s : State}
    (hs : s.stack = fr :: rest) (ht : TreeAt s.node t fr.node) (hp : s.cfg.wf = true) (hl : WriterLaw s)
    (h0 : OutRoom s 0) (hr : ¬ OutRoom s t.ser.length) :
    ∃ u, serLoop (t.size + n) s = .raised (raise .encObufFull u) := by
  induction t generalizing fr rest n s with
  | leaf sym =>
    obtain ⟨c, q, hn⟩ := ht
    obtain ⟨u, hu, -, -⟩ := wrBits_full (bs := true :: byteBits sym) (s := { s with stack := rest }) hp
      ⟨hl.running, hl.olen, hl.pending⟩ h0 hr
    refine ⟨u, ?_⟩
    rw [HuffTree.size, Nat.add_comm, serLoop, hs]
    simp only [nodeAt_some hn, Flow.bind_ok, writeLeaf_eq, hu, Flow.bind_raised]
  | node l r ihl ihr =>
    obtain ⟨a, b, c, q, hn, hta, htb⟩ := ht
    let s1 : State := { s with stack := Frame.at a :: Frame.at b :: rest }
    have hl1 : WriterLaw s1 := ⟨hl.running, hl.olen, hl.pending⟩
    have start : serLoop ((HuffTree.node l r).size + n) s =
        (wrBit false s1).bind fun _ s => serLoop (l.size + (r.size + n)) s := by
      rw [HuffTree.size, show l.size + r.size + 1 + n = (l.size + (r.size + n)) + 1 by omega, serLoop, hs]
      simp only [nodeAt_some hn, Flow.bind_ok, writeInt]
      rfl
    rw [start]
    by_cases h1 : OutRoom s1 1
    · obtain ⟨u, hu, hlu, hou, -, hwu⟩ := wrBit_ok (b := false) (s := s1) hp hl1 h1
      have hpu : u.cfg = s.cfg := by rw [hou.same]
      have hnu : u.node = s.node := by rw [hou.same]
      have hwu' : u.wpos.toNat = s.wpos.toNat + 1 := hwu
      have h1' : (s.wpos.toNat + 1) / 8 ≤ s.cfg.obufCap := h1
      rw [hu, Flow.bind_ok]
      by_cases h2 : OutRoom u l.ser.length
      · obtain ⟨v, hv, hlv, hov, -, hwv⟩ := serLoop_tree l (n := r.size + n) (s := u) (fr := Frame.at a)
          (rest := Frame.at b :: rest) (by rw [hou.same]) (by rw [hnu]; exact hta) (by rw [hpu]; exact hp) hlu h2
        have hpv : v.cfg = s.cfg := by rw [hov.same]; exact hpu
        have hnv : v.node = s.node := by rw [hov.same]; exact hnu
        rw [hv]
        refine ihr (n := n) (s := v) (fr := Frame.at b) (rest := rest) (by rw [hov.same]) (by rw [hnv]; exact htb)
          (by rw [hpv]; exact hp) hlv ?_ ?_
        · simp only [OutRoom, hpu, hpv, hwv] at h2 ⊢; exact h2
        · simp only [OutRoom, HuffTree.ser, List.length_cons, List.length_append, hpv, hwv, hwu'] at hr ⊢
          rwa [show s.wpos.toNat + 1 + l.ser.length + r.ser.length = s.wpos.toNat + (l.ser.length + r.ser.length + 1) by omega]
      · exact ihl (n := r.size + n) (s := u) (fr := Frame.at a) (rest := Frame.at b :: rest) (by rw [hou.same])
          (by rw [hnu]; exact hta) (by rw [hpu]; exact hp) hlu (by simp only [OutRoom, hpu, hwu']; exact h1') h2
    · obtain ⟨e, -⟩ := wrBit_full (b := false) (s := s1) hp hl1 h0 h1
      exact ⟨_, by rw [e, Flow.bind_raised]⟩

end Sys2Proof.Machine
end

