-- ==== Sys2Proof/Laws/Width.lean ====
section
/-! SUPPORT. Sys2Proof/Laws/Width.lean: the widths of rule R11, and that the updates of the state keep to them. -/

namespace Sys2Proof.Machine

/-! ### Numbers and codes -/

@[simp] theorem fitsWidth_cutWidth (w : Option Nat) (i : Nat) : fitsWidth w (cutWidth w i) = true := by
  cases w with
  | none => rfl
  | some w => exact decide_eq_true (Nat.mod_lt _ (Nat.two_pow_pos w))

/-- Where the number fits, nothing is cut. -/
theorem cutWidth_of_fits {w : Option Nat} {i : Nat} (h : fitsWidth w i = true) : cutWidth w i = i := by
  cases w with
  | none => rfl
  | some w => exact Nat.mod_eq_of_lt (of_decide_eq_true h)

theorem length_cutCode_le (c : List Bool) : (cutCode c).length ≤ 255 := List.length_take_le _ _

theorem cutCode_of_le {c : List Bool} (h : c.length ≤ 255) : cutCode c = c := List.take_of_length_le h

/-- `PTR_W` is the least width that holds `NODE_CAP` - 1 (rule R11). -/
theorem ptrWidth_least {p : Params} {n w : Nat} (hn : p.nodeCap = some n) (h2 : 2 ≤ n) (hw : ptrWidth p = some w) :
    n - 1 < 2 ^ w ∧ ∀ v, n - 1 < 2 ^ v → w ≤ v := by
  rw [ptrWidth, hn] at hw
  cases hw
  refine ⟨Nat.lt_log2_self, fun v hv => ?_⟩
  exact (Nat.log2_lt (by omega)).mpr hv

theorem PtrFits.of_nodeFits {s : State} {i : Nat} (h : nodeFits i s = true) : PtrFits s i := by
  rw [nodeFits] at h
  show fitsWidth (ptrWidth s.cfg) i = true
  rw [ptrWidth]
  cases hn : s.cfg.nodeCap with
  | none => rfl
  | some n =>
    rw [hn] at h
    have h1 : i < n := of_decide_eq_true h
    have h2 : n - 1 < 2 ^ (Nat.log2 (n - 1) + 1) := Nat.lt_log2_self
    exact decide_eq_true (by show i < 2 ^ (Nat.log2 (n - 1) + 1); omega)

/-- The number after one that fits `PTR_W` bits fits `SEQ`. -/
theorem PtrFits.seq_succ {s : State} {i : Nat} (h : PtrFits s i) : fitsWidth (seqWidth s.cfg) (i + 1) = true := by
  have h' : fitsWidth (ptrWidth s.cfg) i = true := h
  rw [seqWidth]
  cases hw : ptrWidth s.cfg with
  | none => rfl
  | some w =>
    rw [hw] at h'
    have h1 : i < 2 ^ w := of_decide_eq_true h'
    have h2 : 2 ^ (w + 1) = 2 * 2 ^ w := by rw [Nat.pow_succ]; omega
    exact decide_eq_true (by rw [h2]; omega)

theorem PtrFits.seq {s : State} {i : Nat} (h : PtrFits s i) : fitsWidth (seqWidth s.cfg) i = true := by
  have h' := h.seq_succ
  rw [seqWidth] at h' ⊢
  cases hw : ptrWidth s.cfg with
  | none => rfl
  | some w =>
    rw [hw] at h'
    have h1 : i + 1 < 2 ^ (w + 1) := of_decide_eq_true h'
    exact decide_eq_true (by show i < 2 ^ (w + 1); omega)

/-! ### States -/

/-- The invariant looks at nothing but these fields. -/
theorem WidthInv.congr {s t : State} (h : WidthInv s) (hcfg : t.cfg = s.cfg) (hseq : t.seq = s.seq)
    (hroot : t.root = s.root) (hcur : t.cur = s.cur) (hpq : t.pq = s.pq) (hstack : t.stack = s.stack)
    (hnode : t.node = s.node) (hcode : t.code = s.code) : WidthInv t where
  seq := by rw [hcfg, hseq]; exact h.seq
  root := by rw [hroot]; simp only [PtrFits, hcfg]; exact h.root
  cur := by rw [hcur]; simp only [PtrFits, hcfg]; exact h.cur
  pq := by rw [hpq]; simp only [PtrFits, hcfg]; exact h.pq
  stack := by rw [hstack]; simp only [PtrFits, hcfg]; exact h.stack
  node := by rw [hnode]; simp only [nodeFits, NodeFields, PtrFits, hcfg]; exact h.node
  code := by simp only [codeAt, hcode]; exact h.code

/-- The error entry draws nothing that a register cannot hold. -/
theorem WidthInv.raise (c : Cause) (s : State) : WidthInv (raise c s) where
  seq := fitsWidth_cutWidth _ _
  root := by
    intro i hi
    obtain ⟨j, -, rfl⟩ := Option.map_eq_some_iff.mp hi
    exact fitsWidth_cutWidth _ _
  cur := by
    intro i hi
    obtain ⟨j, -, rfl⟩ := Option.map_eq_some_iff.mp hi
    exact fitsWidth_cutWidth _ _
  pq := by simp
  stack := by simp
  node := by simp
  code := by
    intro sym
    rw [codeAt]
    simp only [raise_code, Vector.getElem_map]
    exact length_cutCode_le _

/-- An entry of `NODE`: its index, its sequence number and its pointers fit. -/
theorem WidthInv.setNode {s : State} {i : Nat} {n : Node} (h : WidthInv s) (hi : nodeFits i s = true)
    (hn : NodeFields s n) : WidthInv { s with node := Table.set s.node i n } :=
  ⟨h.seq, h.root, h.cur, h.pq, h.stack, fun e he => by
    rcases Table.mem_set he with rfl | he
    · exact ⟨hi, hn⟩
    · exact h.node e he, h.code⟩

theorem WidthInv.setCode {s : State} (h : WidthInv s) (sym : Byte) (path : List Bool) :
    WidthInv (setCode sym path s) :=
  ⟨h.seq, h.root, h.cur, h.pq, h.stack, h.node, fun x => by
    rw [codeAt_setCode]
    split_ifs
    · exact length_cutCode_le _
    · exact h.code x⟩

/-- The children of an allocated node fit. -/
theorem WidthInv.children {s : State} (h : WidthInv s) {i l r : Nat} {c : Word} {q : Nat}
    (hn : Table.get? s.node i = some (.internal l r c q)) : PtrFits s l ∧ PtrFits s r :=
  (h.node _ (Table.mem_of_get? hn)).2.2

/-- A state after a command's start holds nothing that does not fit. -/
theorem WidthInv.initCommand {s : State} (h : WidthInv s) : WidthInv (initCommand s) where
  seq := by
    show fitsWidth (seqWidth s.cfg) 0 = true
    cases seqWidth s.cfg with
    | none => rfl
    | some w => exact decide_eq_true (Nat.two_pow_pos w)
  root := by simp
  cur := by simp
  pq := by simp
  stack := by simp
  node := by simp
  code := h.code

end Sys2Proof.Machine
end

