-- ==== Sys2Proof/Laws/CodeGen.lean ====
section
/-! SUPPORT. Sys2Proof/Laws/CodeGen.lean: the codes of a tree, the table they are entered in, and the checks of E_GEN. -/

namespace Sys2Proof.Machine

/-- Neither string is a prefix of the other. -/
def Apart (c d : List Bool) : Prop := ¬ c <+: d ∧ ¬ d <+: c

theorem Apart.symm {c d : List Bool} (h : Apart c d) : Apart d c := ⟨h.2, h.1⟩

theorem HuffTree.paths_ne_nil (t : HuffTree) : t.paths ≠ [] := by
  induction t with
  | leaf sym => simp [HuffTree.paths]
  | node l r ihl ihr => simp [HuffTree.paths, ihl]

/-- No path to a leaf lies on the path to another (rule R174). -/
theorem HuffTree.paths_apart (t : HuffTree) : t.paths.Pairwise fun e f => Apart e.2 f.2 := by
  induction t with
  | leaf sym => simp [HuffTree.paths]
  | node l r ihl ihr =>
    rw [HuffTree.paths, List.pairwise_append]
    refine ⟨?_, ?_, ?_⟩
    · rw [List.pairwise_map]
      exact ihl.imp fun h => ⟨fun hp => h.1 ((List.cons_prefix_cons.mp hp).2), fun hp => h.2 ((List.cons_prefix_cons.mp hp).2)⟩
    · rw [List.pairwise_map]
      exact ihr.imp fun h => ⟨fun hp => h.1 ((List.cons_prefix_cons.mp hp).2), fun hp => h.2 ((List.cons_prefix_cons.mp hp).2)⟩
    · intro e he f hf
      obtain ⟨e', -, rfl⟩ := List.mem_map.mp he
      obtain ⟨f', -, rfl⟩ := List.mem_map.mp hf
      exact ⟨fun hp => by simpa using (List.cons_prefix_cons.mp hp).1, fun hp => by simpa using (List.cons_prefix_cons.mp hp).1⟩

theorem HuffTree.codes_apart (t : HuffTree) : t.codes.Pairwise fun e f => Apart e.2 f.2 := by
  cases t with
  | leaf sym => simp [HuffTree.codes]
  | node l r => exact HuffTree.paths_apart _

theorem HuffTree.codes_map_fst (t : HuffTree) : t.codes.map Prod.fst = t.leaves := by
  cases t with
  | leaf sym => rfl
  | node l r => exact HuffTree.paths_map_fst _

/-- Every code has a bit (rule R174). -/
theorem HuffTree.codes_ne_nil {t : HuffTree} {e : Byte × List Bool} (h : e ∈ t.codes) : e.2 ≠ [] := by
  cases t with
  | leaf sym => simp only [HuffTree.codes, List.mem_singleton] at h; subst h; simp
  | node l r =>
    simp only [HuffTree.codes, HuffTree.paths, List.mem_append, List.mem_map] at h
    rcases h with ⟨e', -, rfl⟩ | ⟨e', -, rfl⟩ <;> simp

/-- A path has fewer bits than the tree has leaves (rule R175). -/
theorem HuffTree.length_path_lt {t : HuffTree} {e : Byte × List Bool} (h : e ∈ t.paths) :
    e.2.length < t.leaves.length := by
  induction t generalizing e with
  | leaf sym => simp only [HuffTree.paths, List.mem_singleton] at h; subst h; simp [HuffTree.leaves]
  | node l r ihl ihr =>
    have hl : 0 < l.leaves.length := by cases hp : l.paths with
      | nil => exact absurd hp l.paths_ne_nil
      | cons e es => exact Nat.zero_lt_of_lt (ihl (e := e) (by rw [hp]; simp))
    have hr : 0 < r.leaves.length := by cases hp : r.paths with
      | nil => exact absurd hp r.paths_ne_nil
      | cons e es => exact Nat.zero_lt_of_lt (ihr (e := e) (by rw [hp]; simp))
    simp only [HuffTree.paths, List.mem_append, List.mem_map] at h
    rw [HuffTree.leaves, List.length_append]
    rcases h with ⟨e', he, rfl⟩ | ⟨e', he, rfl⟩
    · have := ihl he
      rw [List.length_cons]; omega
    · have := ihr he
      rw [List.length_cons]; omega

/-- No list of different symbols is longer than the alphabet. -/
theorem length_le_of_nodup {xs : List Byte} (h : xs.Nodup) : xs.length ≤ 256 := by
  have h1 : (xs.map BitVec.toNat).Nodup := h.map fun a b => BitVec.eq_of_toNat_eq
  have h2 : xs.map BitVec.toNat ⊆ List.range 256 := fun n hn => by
    obtain ⟨x, -, rfl⟩ := List.mem_map.mp hn
    exact List.mem_range.mpr x.isLt
  have h3 := (List.subperm_of_subset h1 h2).length_le
  simpa using h3

/-- The codes of a tree whose leaves are different symbols have at most 255 bits (rule R175). -/
theorem HuffTree.length_code_le {t : HuffTree} (hd : t.leaves.Nodup) {e : Byte × List Bool} (h : e ∈ t.codes) :
    e.2.length ≤ 255 := by
  cases t with
  | leaf sym => simp only [HuffTree.codes, List.mem_singleton] at h; subst h; simp
  | node l r =>
    have h1 := HuffTree.length_path_lt (t := .node l r) h
    have h2 := length_le_of_nodup hd
    omega

/-! ### The table -/

theorem codeAt_assignCodes_of_not_mem {es : List (Byte × List Bool)} {s : State} {x : Byte}
    (h : x ∉ es.map Prod.fst) : codeAt (assignCodes es s) x = codeAt s x := by
  induction es generalizing s with
  | nil => rfl
  | cons e es ih =>
    simp only [List.map_cons, List.mem_cons, not_or] at h
    show codeAt (assignCodes es (setCode e.1 e.2 s)) x = _
    rw [ih h.2, codeAt_setCode, if_neg h.1]

theorem codeAt_assignCodes_of_mem {es : List (Byte × List Bool)} {s : State} {e : Byte × List Bool}
    (hd : (es.map Prod.fst).Nodup) (h : e ∈ es) (hl : e.2.length ≤ 255) : codeAt (assignCodes es s) e.1 = e.2 := by
  induction es generalizing s with
  | nil => simp at h
  | cons f es ih =>
    simp only [List.map_cons, List.nodup_cons] at hd
    show codeAt (assignCodes es (setCode f.1 f.2 s)) e.1 = _
    rcases List.mem_cons.mp h with rfl | h
    · rw [codeAt_assignCodes_of_not_mem hd.1, codeAt_setCode, if_pos rfl, cutCode_of_le hl]
    · exact ih hd.2 h

/-! ### The checks of E_GEN -/

theorem prefixFree_iff (cs : List (List Bool)) : prefixFree cs = true ↔ cs.Pairwise Apart := by
  induction cs with
  | nil => simp [prefixFree]
  | cons c cs ih =>
    have e : ∀ a b : List Bool, a.isPrefixOf b = false ↔ ¬ a <+: b := fun a b => by
      rw [← List.isPrefixOf_iff_prefix, Bool.not_eq_true]
    simp [prefixFree, ih, List.pairwise_cons, Apart, e]

theorem codesPrefixFree_of {s : State}
    (h : ∀ x y, x ≠ y → codeAt s x ≠ [] → codeAt s y ≠ [] → Apart (codeAt s x) (codeAt s y)) :
    codesPrefixFree s = true := by
  rw [codesPrefixFree, prefixFree_iff, List.pairwise_filter, List.pairwise_iff_getElem]
  intro i j hi hj hij h1 h2
  have hi' : i < 256 := by simpa using hi
  have hj' : j < 256 := by simpa using hj
  have ei : s.code.toList[i] = codeAt s (BitVec.ofNat 8 i) := by
    simp [codeAt, Nat.mod_eq_of_lt hi']
  have ej : s.code.toList[j] = codeAt s (BitVec.ofNat 8 j) := by
    simp [codeAt, Nat.mod_eq_of_lt hj']
  rw [ei] at h1 ⊢
  rw [ej] at h2 ⊢
  refine h _ _ (fun e => ?_) (by simpa using h1) (by simpa using h2)
  have := congrArg BitVec.toNat e
  simp only [BitVec.toNat_ofNat] at this
  omega

theorem codesMatchCounts_of {s : State} (h : ∀ x, codeAt s x = [] ↔ freqAt s x = 0) : codesMatchCounts s = true := by
  rw [codesMatchCounts, List.all_eq_true]
  intro x _
  rw [beq_iff_eq, Bool.eq_iff_iff]
  simpa using h x

/-- The checks of E_GEN pass, built or not, where the table is lawful (rule R176). -/
theorem checkCodes_ok {s : State}
    (h : ∀ x y, x ≠ y → codeAt s x ≠ [] → codeAt s y ≠ [] → Apart (codeAt s x) (codeAt s y))
    (h' : ∀ x, codeAt s x = [] ↔ freqAt s x = 0) : checkCodes s = .ok () { s with phase := .eHdr } := by
  simp [checkCodes, codesPrefixFree_of h, codesMatchCounts_of h']

/-- GEN, whatever state it runs in: only `CODE` and `STACK` change, and it ends with an empty stack. -/
theorem genLoop_post (n : Nat) (s : State) :
    (genLoop n s).Post (fun _ t => t = { s with code := t.code, stack := [] }) Never Never := by
  have done : ∀ s : State, s.stack = [] → s = { s with code := s.code, stack := [] } :=
    fun s h => (withStack_self h).symm
  induction n generalizing s with
  | zero =>
    rw [genLoop]
    split_ifs with h
    · exact done s (List.isEmpty_iff.mp h)
    · trivial
  | succ n ih =>
    rw [genLoop]
    split
    · next h => exact done s h
    · refine nodeAt_bind_post fun i nd _ _ => ?_
      cases nd with
      | leaf sym c q => exact (ih _).imp (fun _ t ht => by rw [ht]; rfl) fun _ h => h
      | internal l r c q => exact (ih _).imp (fun _ t ht => by rw [ht]) fun _ h => h

theorem genCodes_post (s : State) :
    (genCodes s).Post (fun _ t => t = { s with code := t.code, stack := t.stack } ∧ (s.stack = [] → t.stack = []))
      Never Never := by
  rw [genCodes]
  split
  · exact ⟨rfl, id⟩
  · refine nodeAt_bind_post fun i nd _ _ => ?_
    cases nd with
    | leaf sym c q => exact ⟨rfl, id⟩
    | internal a b c q => exact (genLoop_post _ _).imp (fun _ t ht => ⟨by rw [ht], fun _ => by rw [ht]⟩) fun _ h => h

end Sys2Proof.Machine
end

