-- ==== Sys2Proof/Laws/Decoder.lean ====
section
/-! SUPPORT. Sys2Proof/Laws/Decoder.lean: everything D_HDR, DES and the walk can do. -/

namespace Sys2Proof.Machine

/-! ### D_HDR -/

/-- A read that the phase asked for: the value, or the phase's error with every bit consumed (rule R128). -/
theorem rdU32_onEob {s : State} {c : Cause} (hc : s.ilen.toNat ≤ s.cfg.ibufCap) (hr : s.rpos.toNat ≤ 8 * s.ilen.toNat) :
    (rdU32 s).onEob c =
      if s.rpos.toNat + 32 ≤ 8 * s.ilen.toNat then
        .ok (BitVec.ofNat 32 (bitsValue (inBits s s.rpos.toNat 32))) (movePast 32 s)
      else .raised (raise c (atEnd s)) := by
  split_ifs with h
  · rw [rdU32_ok ⟨h, hc⟩, Flow.onEob_ok]
  · rw [rdU32_eob hc hr (by omega), Flow.onEob_eob]

/-! ### DES -/

/-- Nothing but what DES works on differs; `RPOS` has not gone back or run past the input, and `NODE` stays in its
place. -/
structure DesStep (s t : State) : Prop where
  same : t = { s with rpos := t.rpos, node := t.node, seq := t.seq, stack := t.stack, root := t.root }
  forward : s.rpos.toNat ≤ t.rpos.toNat
  inside : s.rpos.toNat ≤ 8 * s.ilen.toNat → t.rpos.toNat ≤ 8 * s.ilen.toNat
  rising : Table.rising s.node → Table.rising t.node
  nodeSeq : (∀ e ∈ s.node, e.2.seq = e.1) → ∀ e ∈ t.node, e.2.seq = e.1

theorem DesStep.refl (s : State) : DesStep s s := ⟨rfl, le_rfl, id, id, id⟩

theorem DesStep.trans {s t u : State} (h : DesStep s t) (h' : DesStep t u) : DesStep s u := by
  have e : t.ilen = s.ilen := by rw [h.same]
  refine ⟨by rw [h'.same, h.same], h.forward.trans h'.forward, fun hi => ?_, fun hr => h'.rising (h.rising hr),
    fun hn => h'.nodeSeq (h.nodeSeq hn)⟩
  have := h'.inside
  rw [e] at this
  exact this (h.inside hi)

theorem OnlyRpos.desStep {s t : State} (h : OnlyRpos s t) : DesStep s t := by
  have e : t.node = s.node := by rw [h.same]
  exact ⟨by rw [h.same], h.forward, h.inside, by rw [e]; exact id, by rw [e]; exact id⟩

/-- An error of D_TREE: its cause, entered from a state that DES reached. -/
def DesError (s t : State) : Prop :=
  ∃ u c, DesStep s u ∧ (c = .treeTrunc ∨ c = .nodeOverflow) ∧ t = raise c u

theorem DesError.of_desStep {s t u : State} (h : DesStep s t) (h' : DesError t u) : DesError s u := by
  obtain ⟨v, c, hv, hc, rfl⟩ := h'
  exact ⟨v, c, h.trans hv, hc, rfl⟩

theorem setNode_desStep {i : Nat} {n : Node} {s : State} (hn : n.seq = i) :
    (setNode i n s).Post (fun _ => DesStep s) Never Never := by
  rw [setNode]
  split_ifs
  · refine ⟨rfl, le_rfl, id, Table.rising_set _ _, fun h e he => ?_⟩
    rcases Table.mem_set he with rfl | he
    · exact hn
    · exact h e he
  · trivial

theorem desReturn_post (fs : List Frame) (i : Nat) (s : State) :
    (desReturn fs i s).Post (fun _ => DesStep s) Never Never := by
  induction fs generalizing i s with
  | nil => exact ⟨rfl, le_rfl, id, id, id⟩
  | cons fr rest ih =>
    rw [desReturn]
    split
    · exact ⟨rfl, le_rfl, id, id, id⟩
    · next l hl =>
      refine (setNode_desStep (n := .internal l i 0 fr.node) rfl).bind fun _ t ht => ?_
      exact (ih _ t).imp (fun _ _ h => ht.trans h) fun _ h => h

/-- A leaf and an internal node are taken without error: only the room for them and their bits can fail. -/
theorem desLeaf_post (sym : Byte) (s : State) : (desLeaf sym s).Post (fun _ => DesStep s) Never Never := by
  refine (setNode_desStep (n := .leaf sym 0 s.seq) rfl).bind fun _ t ht => ?_
  have h1 : DesStep t { t with seq := t.seq + 1 } := ⟨rfl, le_rfl, id, id, id⟩
  exact (desReturn_post _ _ _).imp (fun _ _ h => ht.trans (h1.trans h)) fun _ h => h

theorem desInt_post (s : State) : (desInt s).Post (fun _ => DesStep s) Never Never := ⟨rfl, le_rfl, id, id, id⟩

theorem desRoom_post (s : State) : (desRoom s).Post (fun _ => DesStep s) Never (DesError s) := by
  rw [desRoom]
  split_ifs
  · exact DesStep.refl s
  · exact ⟨s, _, DesStep.refl s, .inr rfl, rfl⟩

theorem desToken_post (s : State) : (desToken s).Post (fun _ => DesStep s) Never (DesError s) := by
  have hbit : ∀ s, ((rdBit s).onEob .treeTrunc).Post (fun _ => DesStep s) Never (DesError s) := fun s =>
    ((rdBit_post s).mono (fun _ _ h => h.desStep) (fun _ h => h) fun _ h => h.elim).onEob
      fun t ht => ⟨t, _, ht.1.desStep, .inl rfl, rfl⟩
  have hbyte : ∀ s, ((rdByte s).onEob .treeTrunc).Post (fun _ => DesStep s) Never (DesError s) := fun s =>
    ((rdByte_post s).mono (fun _ _ h => h.desStep) (fun _ h => h) fun _ h => h.elim).onEob
      fun t ht => ⟨t, _, ht.1.desStep, .inl rfl, rfl⟩
  have next : ∀ {α β : Type} {x : Flow α} {f : α → State → Flow β} {s : State},
      x.Post (fun _ => DesStep s) Never (DesError s) → (∀ a t, (f a t).Post (fun _ => DesStep t) Never (DesError t)) →
      (x.bind f).Post (fun _ => DesStep s) Never (DesError s) :=
    fun hx hf => hx.bind fun a t ht => (hf a t).imp (fun _ _ h => ht.trans h) fun _ h => DesError.of_desStep ht h
  refine next (desRoom_post s) fun _ t => next (hbit t) fun m u => ?_
  split_ifs
  · exact next (hbyte u) fun sym v => (desLeaf_post sym v).imp (fun _ _ h => h) fun _ h => h.elim
  · exact (desInt_post u).imp (fun _ _ h => h) fun _ h => h.elim

/-- DES, whatever state it runs in. -/
theorem desLoop_post (n : Nat) (s : State) : (desLoop n s).Post (fun _ => DesStep s) Never (DesError s) := by
  induction n generalizing s with
  | zero => trivial
  | succ n ih =>
    refine (desToken_post s).bind fun whole t ht => ?_
    split_ifs
    · exact ht
    · exact (ih t).imp (fun _ _ h => ht.trans h) fun _ h => DesError.of_desStep ht h

/-- The root has been read only when nothing waits any more. -/
theorem desReturn_whole {fs : List Frame} {i : Nat} {s t : State} (h : desReturn fs i s = .ok true t) : t.stack = [] := by
  induction fs generalizing i s with
  | nil => simp only [desReturn, Flow.ok.injEq, true_and] at h; rw [← h]
  | cons fr rest ih =>
    rw [desReturn] at h
    split at h
    · simp at h
    · obtain ⟨_, u, -, hu⟩ := Flow.bind_eq_ok.mp h
      exact ih hu

theorem desToken_whole {s t : State} (h : desToken s = .ok true t) : t.stack = [] := by
  simp only [desToken, Flow.bind_eq_ok] at h
  obtain ⟨_, u, -, m, v, -, h⟩ := h
  split_ifs at h
  · simp only [Flow.bind_eq_ok, desLeaf] at h
    obtain ⟨_, _, -, _, _, -, h⟩ := h
    exact desReturn_whole h
  · simp [desInt] at h

theorem desLoop_stack {n : Nat} {s t : State} (h : desLoop n s = .ok () t) : t.stack = [] := by
  induction n generalizing s with
  | zero => simp [desLoop] at h
  | succ n ih =>
    obtain ⟨whole, u, hu, h⟩ := Flow.bind_eq_ok.mp h
    split_ifs at h with hw
    · subst hw
      simp only [Flow.ok.injEq, true_and] at h
      subst h; exact desToken_whole hu
    · exact ih h

/-- The nodes that wait for their right child only are written, one after the other, and the last goes on (rule
R190). -/
theorem desReturn_full {full rest : List Frame} {i : Nat} {s : State}
    (hf : ∀ fr ∈ full, fr.left.isSome = true ∧ nodeFits fr.node s = true) :
    desReturn (full ++ rest) i s =
      desReturn rest (closeFull full i s.node).1 { s with node := (closeFull full i s.node).2 } := by
  induction full generalizing i s with
  | nil => rfl
  | cons fr full ih =>
    obtain ⟨h1, h2⟩ := hf fr (by simp)
    obtain ⟨l, hl⟩ := Option.isSome_iff_exists.mp h1
    rw [List.cons_append, desReturn]
    simp only [hl]
    rw [setNode, if_pos h2, Flow.bind_ok, ih]
    · simp [closeFull, hl]
    · exact fun fr' h => hf fr' (List.mem_cons_of_mem _ h)

/-- `NODE` has room for every index below one that it has room for. -/
theorem nodeFits_mono {s : State} {i j : Nat} (h : nodeFits j s = true) (hij : i ≤ j) : nodeFits i s = true := by
  rw [nodeFits] at h ⊢
  cases hn : s.cfg.nodeCap with
  | none => rfl
  | some n =>
    rw [hn] at h
    have : j < n := of_decide_eq_true h
    exact decide_eq_true (by omega)

/-! ### DES ends -/

/-- Every node that waits for a child has its place in `NODE`. -/
def StackFits (s : State) : Prop := ∀ fr ∈ s.stack, nodeFits fr.node s = true

theorem nodeFits_congr {s t : State} (h : t.cfg = s.cfg) (i : Nat) : nodeFits i t = nodeFits i s := by
  simp [nodeFits, h]

theorem desReturn_ends {fs : List Frame} {i : Nat} {s : State} (h : ∀ fr ∈ fs, nodeFits fr.node s = true) :
    ∃ whole t, desReturn fs i s = .ok whole t ∧ (∀ fr ∈ t.stack, nodeFits fr.node s = true) ∧
      t = { s with node := t.node, stack := t.stack, root := t.root } := by
  induction fs generalizing i s with
  | nil => exact ⟨true, _, rfl, by simp, rfl⟩
  | cons fr rest ih =>
    rw [desReturn]
    split
    · refine ⟨false, _, rfl, fun fr' hf => ?_, rfl⟩
      rcases List.mem_cons.mp hf with rfl | hf
      · exact h fr (by simp)
      · exact h fr' (by simp [hf])
    · next l hl =>
      rw [setNode, if_pos (h fr (by simp)), Flow.bind_ok]
      obtain ⟨whole, t, ht, hst, hs⟩ := ih (i := fr.node)
        (s := { s with node := Table.set s.node fr.node (.internal l i 0 fr.node) })
        (fun fr' hf => h fr' (by simp [hf]))
      exact ⟨whole, t, ht, hst, by rw [hs]⟩

/-- One token: read, with at least one bit consumed; or one of the two errors of D_TREE, in the order of rule R253. -/
theorem desToken_ends {s : State} (hc : s.ilen.toNat ≤ s.cfg.ibufCap) (hr : s.rpos.toNat ≤ 8 * s.ilen.toNat)
    (hs : StackFits s) :
    (nodeFits s.seq s = false ∧ desToken s = .raised (raise .nodeOverflow s)) ∨
    (∃ u, desToken s = .raised (raise .treeTrunc u) ∧ u.rpos.toNat = 8 * s.ilen.toNat) ∨
    ∃ whole t, desToken s = .ok whole t ∧ s.rpos.toNat < t.rpos.toNat ∧ t.rpos.toNat ≤ 8 * s.ilen.toNat ∧
      StackFits t ∧ t.ilen = s.ilen ∧ t.cfg = s.cfg := by
  by_cases hf : nodeFits s.seq s = true
  · refine .inr ?_
    have room : desRoom s = .ok () s := by simp [desRoom, hf]
    by_cases h1 : s.rpos.toNat + 1 ≤ 8 * s.ilen.toNat
    · have e1 := movePast_rpos_toNat (s := s) ⟨h1, hc⟩
      rw [desToken, room, Flow.bind_ok, rdBit_ok ⟨h1, hc⟩, Flow.onEob_ok, Flow.bind_ok]
      split_ifs with hb
      · by_cases h9 : s.rpos.toNat + 9 ≤ 8 * s.ilen.toNat
        · have hroom : InRoom s (1 + 8) := ⟨h9, hc⟩
          have e9 := movePast_rpos_toNat hroom.movePast
          rw [rdByte_ok hroom.movePast, Flow.onEob_ok, Flow.bind_ok, desLeaf, setNode, if_pos (by exact hf), Flow.bind_ok]
          obtain ⟨whole, t, ht, hst, hsame⟩ := desReturn_ends (i := s.seq) (fs := s.stack)
            (s := { movePast 8 (movePast 1 s) with
              node := Table.set s.node s.seq (.leaf (BitVec.ofNat 8 (bitsValue (inBits (movePast 1 s) (movePast 1 s).rpos.toNat 8))) 0 s.seq)
              seq := s.seq + 1 }) hs
          have er : t.rpos = (movePast 8 (movePast 1 s)).rpos := by rw [hsame]
          refine .inr ⟨whole, t, ht, by rw [er, e9, e1]; omega, by rw [er, e9, e1]; omega, fun fr hfr => ?_,
            by rw [hsame]; rfl, by rw [hsame]; rfl⟩
          rw [nodeFits_congr (s := s) (by rw [hsame]; rfl)]
          exact hst fr hfr
        · refine .inl ⟨atEnd (movePast 1 s), ?_, atEnd_rpos_toNat _⟩
          rw [rdByte_eob (s := movePast 1 s) hc (by rw [e1]; exact h1) (by rw [e1]; show 8 * s.ilen.toNat < _; omega),
            Flow.onEob_eob, Flow.bind_raised]
      · refine .inr ⟨false, _, rfl, by show _ < (movePast 1 s).rpos.toNat; omega,
          by show (movePast 1 s).rpos.toNat ≤ _; omega, fun fr hfr => ?_, rfl, rfl⟩
        rcases List.mem_cons.mp hfr with rfl | hfr
        · exact hf
        · exact hs fr hfr
    · refine .inl ⟨s, ?_, by omega⟩
      rw [desToken, room, Flow.bind_ok, rdBit_eob (by omega), Flow.onEob_eob, Flow.bind_raised]
  · rw [Bool.not_eq_true] at hf
    refine .inl ⟨hf, ?_⟩
    simp [desToken, desRoom, hf]

/-- DES always ends, in one of the ways that rules R190 and R192 name. -/
theorem desLoop_ends {n : Nat} {s : State} (hc : s.ilen.toNat ≤ s.cfg.ibufCap) (hr : s.rpos.toNat ≤ 8 * s.ilen.toNat)
    (hs : StackFits s) (hn : 8 * s.ilen.toNat < s.rpos.toNat + n) :
    (∃ t, desLoop n s = .ok () t) ∨
    (∃ u, desLoop n s = .raised (raise .nodeOverflow u) ∧ s.cfg.nodeCap.isSome = true ∧
      u.rpos.toNat ≤ 8 * s.ilen.toNat) ∨
    ∃ u, desLoop n s = .raised (raise .treeTrunc u) ∧ u.rpos.toNat = 8 * s.ilen.toNat := by
  induction n generalizing s with
  | zero => omega
  | succ n ih =>
    rw [desLoop]
    rcases desToken_ends hc hr hs with ⟨hf, h⟩ | ⟨u, h, hu⟩ | ⟨whole, t, h, hlt, hle, hst, hi, hcf⟩
    · refine .inr (.inl ⟨s, by rw [h, Flow.bind_raised], ?_, hr⟩)
      rw [nodeFits] at hf
      split at hf
      · cases hf
      · next hcap => rw [hcap]; rfl
    · exact .inr (.inr ⟨u, by rw [h, Flow.bind_raised], hu⟩)
    · rw [h, Flow.bind_ok]
      split_ifs
      · exact .inl ⟨t, rfl⟩
      · have := ih (s := t) (by rw [hi, hcf]; exact hc) (by rw [hi]; exact hle) hst (by rw [hi]; omega)
        rw [hi, hcf] at this
        exact this

/-! ### The walk -/

/-- Nothing but `RPOS` and `CUR` differs; `RPOS` has not gone back or run past the input. -/
structure OnlyWalk (s t : State) : Prop where
  same : t = { s with rpos := t.rpos, cur := t.cur }
  forward : s.rpos.toNat ≤ t.rpos.toNat
  inside : s.rpos.toNat ≤ 8 * s.ilen.toNat → t.rpos.toNat ≤ 8 * s.ilen.toNat

theorem OnlyWalk.refl (s : State) : OnlyWalk s s := ⟨rfl, le_rfl, id⟩

theorem OnlyWalk.trans {s t u : State} (h : OnlyWalk s t) (h' : OnlyWalk t u) : OnlyWalk s u := by
  have e : t.ilen = s.ilen := by rw [h.same]
  refine ⟨by rw [h'.same, h.same], h.forward.trans h'.forward, fun hi => ?_⟩
  have := h'.inside
  rw [e] at this
  exact this (h.inside hi)

/-- `ROOT` is a leaf: the tree of rule R228. -/
def LeafRoot (s : State) : Prop := ∃ r sym c q, s.root = some r ∧ Table.get? s.node r = some (.leaf sym c q)

/-- An error of D_WALK: PAYLOAD_TRUNC with every bit consumed, or LEAFROOT_BIT1 under the policy `fault`, with a single
leaf. -/
def WalkError (s t : State) : Prop :=
  ∃ u, OnlyWalk s u ∧ ((8 * s.ilen.toNat ≤ u.rpos.toNat ∧ t = raise .payloadTrunc u) ∨
    (s.cfg.leafrootBit1 = .fault ∧ LeafRoot s ∧ t = raise .leafrootBit1 u))

theorem WalkError.of_onlyWalk {s t u : State} (h : OnlyWalk s t) (h' : WalkError t u) : WalkError s u := by
  have e : t.ilen = s.ilen := by rw [h.same]
  have e' : t.cfg = s.cfg := by rw [h.same]
  have e2 : LeafRoot t ↔ LeafRoot s := by rw [h.same]; rfl
  obtain ⟨v, hv, h'⟩ := h'
  rw [e, e', e2] at h'
  exact ⟨v, h.trans hv, h'⟩

theorem OnlyRpos.onlyWalk {s t : State} (h : OnlyRpos s t) : OnlyWalk s t := ⟨by rw [h.same], h.forward, h.inside⟩

/-- What the walk does for one symbol: beside `OnlyWalk`, at least one bit is consumed (rules R227, R228). -/
def WalkBits (s t : State) : Prop := OnlyWalk s t ∧ s.rpos.toNat < t.rpos.toNat

theorem WalkBits.trans {s t u : State} (h : OnlyWalk s t) (h' : WalkBits t u) : WalkBits s u :=
  ⟨h.trans h'.1, lt_of_le_of_lt h.forward h'.2⟩

theorem rdBit_walk (s : State) : ((rdBit s).onEob .payloadTrunc).Post (fun _ => WalkBits s) Never (WalkError s) :=
  (((rdBit_post s).and (rdBit_consumes s)).mono (fun _ _ h => ⟨h.1.onlyWalk, h.2⟩) (fun _ h => h.1)
    fun _ h => h.1.elim).onEob fun t ht => ⟨t, ht.1.onlyWalk, .inl ⟨ht.2, rfl⟩⟩

theorem descend_post (n l r : Nat) (s : State) : (descend n l r s).Post (fun _ => WalkBits s) Never (WalkError s) := by
  induction n generalizing l r s with
  | zero => trivial
  | succ n ih =>
    refine (rdBit_walk s).bind fun b t ht => ?_
    have h1 : OnlyWalk t { t with cur := some (if b then r else l) } := ⟨rfl, le_rfl, id⟩
    refine nodeAt_bind_post fun i nd _ _ => ?_
    cases nd with
    | leaf sym c q => exact ⟨ht.1.trans h1, ht.2⟩
    | internal l' r' c q =>
      have h2 := ht.1.trans h1
      exact (ih _ _ _).imp (fun _ _ h => WalkBits.trans h2 h) fun _ h => WalkError.of_onlyWalk h2 h

theorem walkSymbol_post (s : State) : (walkSymbol s).Post (fun _ => WalkBits s) Never (WalkError s) := by
  have h1 : OnlyWalk s { s with cur := s.root } := ⟨rfl, le_rfl, id⟩
  refine nodeAt_bind_post fun i nd hi hnd => ?_
  cases nd with
  | leaf sym c q =>
    refine ((rdBit_walk _).imp (fun _ _ h => WalkBits.trans h1 h) fun _ h => WalkError.of_onlyWalk h1 h).bind fun b t ht => ?_
    split_ifs with h
    · simp only [Bool.and_eq_true, beq_iff_eq] at h
      have e : t.cfg = s.cfg := by rw [ht.1.same]
      exact ⟨t, ht.1, .inr ⟨by rw [← e]; exact h.2, ⟨i, sym, c, q, hi, hnd⟩, rfl⟩⟩
    · exact ht
  | internal l r c q =>
    exact (descend_post _ _ _ _).imp (fun _ _ h => WalkBits.trans h1 h) fun _ h => WalkError.of_onlyWalk h1 h

/-- What the walk has done after some symbols: `OBUF` has grown by as many bytes as `NREM` has shrunk, and each has taken
a bit at least. -/
structure Walked (s t : State) : Prop where
  same : t = { s with rpos := t.rpos, cur := t.cur, nrem := t.nrem, obuf := t.obuf, olen := t.olen }
  inside : s.rpos.toNat ≤ 8 * s.ilen.toNat → t.rpos.toNat ≤ 8 * s.ilen.toNat
  bits : s.rpos.toNat + s.nrem.toNat ≤ t.rpos.toNat + t.nrem.toNat
  grown : t.olen.toNat + t.nrem.toNat = s.olen.toNat + s.nrem.toNat
  forward : s.olen.toNat ≤ t.olen.toNat
  fits : s.olen.toNat ≤ s.cfg.obufCap → t.olen.toNat ≤ s.cfg.obufCap
  outside : ∀ a, a < s.olen.toNat ∨ t.olen.toNat ≤ a → Table.get? t.obuf a = Table.get? s.obuf a
  rising : Table.rising s.obuf → Table.rising t.obuf
  inCap : (∀ c ∈ s.obuf, c.1 < s.cfg.obufCap) → ∀ c ∈ t.obuf, c.1 < s.cfg.obufCap

theorem Walked.refl (s : State) : Walked s s := ⟨rfl, id, le_rfl, rfl, le_rfl, id, fun _ _ => rfl, id, id⟩

theorem Walked.trans {s t u : State} (h : Walked s t) (h' : Walked t u) : Walked s u := by
  have e : t.ilen = s.ilen := by rw [h.same]
  have e' : t.cfg = s.cfg := by rw [h.same]
  have hi := h'.inside
  have hf := h'.fits
  have hc := h'.inCap
  rw [e] at hi
  rw [e'] at hf hc
  have f1 := h.forward
  have f2 := h'.forward
  exact ⟨by rw [h'.same, h.same], fun x => hi (h.inside x), h.bits.trans h'.bits, h'.grown.trans h.grown, f1.trans f2, fun x => hf (h.fits x),
    fun a ha => by rw [h'.outside a (by omega), h.outside a (by omega)], fun x => h'.rising (h.rising x),
    fun x => hc (h.inCap x)⟩

/-- An error of D_WALK after some symbols. -/
def WalkedError (s t : State) : Prop := ∃ u, Walked s u ∧ WalkError u t

/-- One symbol emitted (rule R229). -/
def emitted (sym : Byte) (s : State) : State :=
  { s with obuf := Table.set s.obuf s.olen.toNat sym, olen := s.olen + 1, nrem := s.nrem - 1 }

theorem emit_ok {sym : Byte} {s : State} (h : s.olen.toNat < s.cfg.obufCap) :
    emit sym s = .ok () { s with obuf := Table.set s.obuf s.olen.toNat sym, olen := s.olen + 1 } := by
  rw [emit, if_pos h]

theorem emitted_walked {sym : Byte} {s t : State} (hp : s.cfg.wf = true) (hb : WalkBits s t) (hn : s.nrem ≠ 0)
    (hr : s.olen.toNat < s.cfg.obufCap) : Walked s (emitted sym t) := by
  obtain ⟨h, hlt⟩ := hb
  have eo : t.olen = s.olen := by rw [h.same]
  have eb : t.obuf = s.obuf := by rw [h.same]
  have en : t.nrem = s.nrem := by rw [h.same]
  have e1 := succ_olen hp hr
  have e2 : (emitted sym t).olen.toNat = s.olen.toNat + 1 := by show (t.olen + 1).toNat = _; rw [eo, e1]
  have e3 : (emitted sym t).nrem.toNat = s.nrem.toNat - 1 := by
    show (t.nrem - 1).toNat = _
    rw [en, BitVec.toNat_sub]
    have : s.nrem.toNat ≠ 0 := fun e => hn (BitVec.eq_of_toNat_eq (by simpa using e))
    have := s.nrem.isLt
    simp; omega
  have e4 : (emitted sym t).obuf = Table.set s.obuf s.olen.toNat sym := by
    show Table.set t.obuf t.olen.toNat sym = _; rw [eb, eo]
  have : s.nrem.toNat ≠ 0 := fun e => hn (BitVec.eq_of_toNat_eq (by simpa using e))
  refine ⟨?_, h.inside, by rw [e3]; show _ ≤ t.rpos.toNat + _; omega, by omega, by omega, fun _ => by omega, fun a ha => ?_, ?_, ?_⟩
  · show { t with obuf := _, olen := _, nrem := _ } = _
    rw [h.same]; rfl
  · rw [e4, Table.get?_set_of_ne _ _ (by omega)]
  · rw [e4]; exact Table.rising_set _ _
  · rw [e4]
    intro hc c hm
    rcases Table.mem_set hm with rfl | hm
    · exact hr
    · exact hc c hm

/-- The loop of D_WALK, whatever state it runs in: it ends with `NREM` = 0 or in an error of D_WALK. -/
theorem walkLoop_post {n : Nat} {s : State} (hp : s.cfg.wf = true) (hn : s.nrem.toNat ≤ n) :
    (walkLoop n s).Post (fun _ t => Walked s t ∧ t.nrem = 0) Never (WalkedError s) := by
  induction n generalizing s with
  | zero => exact ⟨Walked.refl s, BitVec.eq_of_toNat_eq (by simpa using hn)⟩
  | succ n ih =>
    rw [walkLoop]
    split_ifs with h0
    · exact ⟨Walked.refl s, h0⟩
    · refine ((walkSymbol_post s).imp (fun _ _ h => h) fun t h => (⟨s, Walked.refl s, h⟩ : WalkedError s t)).bind
        fun sym t ht => ?_
      have ec : t.cfg = s.cfg := by rw [ht.1.same]
      have eo : t.olen = s.olen := by rw [ht.1.same]
      by_cases hr : s.olen.toNat < s.cfg.obufCap
      · rw [emit_ok (by rw [eo, ec]; exact hr), Flow.bind_ok]
        have hw := emitted_walked (sym := sym) hp ht h0 hr
        have en : (emitted sym t).nrem.toNat ≤ n := by
          have h1 := hw.grown
          have h2 : (emitted sym t).olen.toNat = s.olen.toNat + 1 := by
            show (t.olen + 1).toNat = _; rw [eo, succ_olen hp hr]
          omega
        exact (ih (s := emitted sym t) (by show t.cfg.wf = true; rw [ec]; exact hp) en).imp
          (fun _ u hu => ⟨hw.trans hu.1, hu.2⟩) fun u ⟨v, hv, he⟩ => ⟨v, hw.trans hv, he⟩
      · rw [emit, if_neg (by rw [eo, ec]; exact hr)]; trivial

/-! ### The walk of a payload -/

/-- The state with another `CUR`. -/
def withCur (p : Option Nat) (s : State) : State := { s with cur := p }

theorem walkSymbol_leaf {s : State} {r : Nat} {sym : Byte} {c : Word} {q : Nat} (h : s.root = some r)
    (hn : Table.get? s.node r = some (.leaf sym c q)) : walkSymbol s = walkLeafRoot sym (withCur s.root s) := by
  have e : nodeAt s.root (withCur s.root s) = .ok (.leaf sym c q) (withCur s.root s) := by
    rw [h]; exact nodeAt_some (s := withCur (some r) s) hn
  show (nodeAt s.root (withCur s.root s)).bind _ = _
  rw [e, Flow.bind_ok]

theorem walkSymbol_internal {s : State} {r a b : Nat} {c : Word} {q : Nat} (h : s.root = some r)
    (hn : Table.get? s.node r = some (.internal a b c q)) :
    walkSymbol s = descend (bitsLeft s) a b (withCur s.root s) := by
  have e : nodeAt s.root (withCur s.root s) = .ok (.internal a b c q) (withCur s.root s) := by
    rw [h]; exact nodeAt_some (s := withCur (some r) s) hn
  show (nodeAt s.root (withCur s.root s)).bind _ = _
  rw [e, Flow.bind_ok]
  rfl

/-- A single leaf takes one bit and gives its symbol, or LEAFROOT_BIT1 for a 1 under the policy `fault` (rule R228). -/
theorem walkLeafRoot_ok {s : State} {sym : Byte} (h : InRoom s 1) :
    walkLeafRoot sym s =
      if inBit s s.rpos.toNat = true ∧ s.cfg.leafrootBit1 = .fault then .raised (raise .leafrootBit1 (movePast 1 s))
      else .ok sym (movePast 1 s) := by
  rw [walkLeafRoot, rdBit_ok h, Flow.onEob_ok, Flow.bind_ok]
  simp only [Bool.and_eq_true, beq_iff_eq]
  rfl

/-- One symbol of the payload: the bits of its code are consumed (rules R226, R227, R228). -/
theorem walkSymbol_code {t : HuffTree} {e : Byte × List Bool} {s : State} (hh : HoldsTree s t) (he : e ∈ t.codes)
    (hr : InRoom s e.2.length) (hb : inBits s s.rpos.toNat e.2.length = e.2) :
    ∃ k, walkSymbol s = .ok e.1 (withCur (some k) (movePast e.2.length s)) ∧
      ∃ c q, Table.get? s.node k = some (.leaf e.1 c q) := by
  obtain ⟨r, hroot, ht, -⟩ := hh
  cases t with
  | leaf sym =>
    obtain ⟨c, q, hn⟩ := ht
    simp only [HuffTree.codes, List.mem_singleton] at he
    subst he
    have hbit : inBit s s.rpos.toNat = false := by simpa [inBits] using hb
    have hbit' : inBit (withCur s.root s) (withCur s.root s).rpos.toNat = false := hbit
    refine ⟨r, ?_, c, q, hn⟩
    rw [walkSymbol_leaf hroot hn, walkLeafRoot_ok (by exact hr), hbit', if_neg (by simp), ← hroot]
    rfl
  | node a b =>
    obtain ⟨i, j, c, q, hn, ha, hb'⟩ := ht
    obtain ⟨sym, p⟩ := e
    have hne : p ≠ [] := by
      rintro rfl
      simp [HuffTree.codes, HuffTree.paths] at he
    obtain ⟨b0, p', rfl⟩ := List.exists_cons_of_ne_nil hne
    obtain ⟨l, r', htr, hp⟩ := HuffTree.node_of_path he
    cases htr
    have hlen : p'.length < bitsLeft s := by
      have := hr.1
      simp only [bitsLeft, List.length_cons] at *
      omega
    obtain ⟨k, hk, hleaf⟩ := descend_path (b := b0) (s := withCur s.root s) ha hb' hp hlen hr
      ((inBits_congr (s := s) (t := withCur s.root s) rfl rfl _ _).trans hb)
    exact ⟨k, by rw [walkSymbol_internal hroot hn, hk]; rfl, hleaf⟩

/-- What D_WALK has done when it has emitted the given symbols and moved past `m` bits. -/
structure WalkedOver (syms : List Byte) (m : Nat) (s t : State) : Prop where
  same : t = { s with
    rpos := s.rpos + BitVec.ofNat 36 m, cur := t.cur, nrem := t.nrem, obuf := t.obuf,
    olen := s.olen + BitVec.ofNat 32 syms.length }
  written : ∀ (j : Nat) (x : Byte), syms[j]? = some x → Table.get? t.obuf (s.olen.toNat + j) = some x
  outside : ∀ a, a < s.olen.toNat ∨ s.olen.toNat + syms.length ≤ a → Table.get? t.obuf a = Table.get? s.obuf a

theorem WalkedOver.nil (s : State) : WalkedOver [] 0 s s := ⟨by simp, by simp, fun _ _ => rfl⟩

theorem WalkedOver.cons {x : Byte} {xs : List Byte} {m n : Nat} {s t : State} {k : Option Nat} (hp : s.cfg.wf = true)
    (hr : s.olen.toNat < s.cfg.obufCap) (h : WalkedOver xs n (emitted x (withCur k (movePast m s))) t) :
    WalkedOver (x :: xs) (m + n) s t := by
  have e1 : (emitted x (withCur k (movePast m s))).olen.toNat = s.olen.toNat + 1 := succ_olen hp hr
  refine ⟨?_, fun j y hy => ?_, fun a ha => ?_⟩
  · rw [h.same]
    simp only [emitted, withCur, movePast, List.length_cons, BitVec.ofNat_add, BitVec.add_assoc]
    congr 1
    rw [BitVec.add_comm (BitVec.ofNat 32 xs.length)]
    rfl
  · cases j with
    | zero =>
      simp only [List.getElem?_cons_zero, Option.some.injEq] at hy
      subst hy
      rw [h.outside _ (by omega)]
      exact Table.get?_set_self _ _ _
    | succ j =>
      have := h.written j y (by simpa using hy)
      rw [e1] at this
      rwa [show s.olen.toNat + (j + 1) = s.olen.toNat + 1 + j by omega]
  · simp only [List.length_cons] at ha
    rw [h.outside a (by omega)]
    exact Table.get?_set_of_ne _ _ (by show s.olen.toNat ≠ a; omega)

theorem nrem_sub_one {s : State} {n : Nat} (h : s.nrem.toNat = n + 1) : (s.nrem - 1).toNat = n := by
  have := s.nrem.isLt
  rw [BitVec.toNat_sub]; simp; omega

theorem walkLoop_succ {n : Nat} {sym : Byte} {s t : State} (hn : s.nrem.toNat = n + 1) (ht : walkSymbol s = .ok sym t)
    (hr : t.olen.toNat < t.cfg.obufCap) : walkLoop (n + 1) s = walkLoop n (emitted sym t) := by
  have h0 : s.nrem ≠ 0 := fun e => by rw [e] at hn; simp at hn
  rw [walkLoop, if_neg h0, ht, Flow.bind_ok, emit_ok hr, Flow.bind_ok]
  rfl

/-- The payload of the given codes (rules R226, R227, R228, R229). -/
theorem walkLoop_codes {t : HuffTree} {es : List (Byte × List Bool)} {s : State} (hp : s.cfg.wf = true)
    (hh : HoldsTree s t) (hes : ∀ e ∈ es, e ∈ t.codes) (hn : s.nrem.toNat = es.length)
    (ho : s.olen.toNat + es.length ≤ s.cfg.obufCap) (hr : InRoom s (es.flatMap Prod.snd).length)
    (hb : inBits s s.rpos.toNat (es.flatMap Prod.snd).length = es.flatMap Prod.snd) :
    ∃ u, walkLoop es.length s = .ok () u ∧ WalkedOver (es.map Prod.fst) (es.flatMap Prod.snd).length s u ∧ u.nrem = 0 ∧
      (es = [] → u.cur = s.cur) ∧
      ∀ e, es.getLast? = some e → ∃ k c q, u.cur = some k ∧ Table.get? s.node k = some (.leaf e.1 c q) := by
  induction es generalizing s with
  | nil => exact ⟨s, rfl, WalkedOver.nil s, BitVec.eq_of_toNat_eq (by simpa using hn), fun _ => rfl, by simp⟩
  | cons e es ih =>
    simp only [List.flatMap_cons, List.length_append, List.length_cons] at hr hb hn ho
    rw [inBits_add] at hb
    obtain ⟨hb1, hb2⟩ := List.append_inj hb (by simp)
    have hr1 : InRoom s e.2.length := hr.mono (by omega)
    obtain ⟨k, hk, c, q, hleaf⟩ := walkSymbol_code hh (hes e (by simp)) hr1 hb1
    let v := emitted e.1 (withCur (some k) (movePast e.2.length s))
    have er : v.rpos.toNat = s.rpos.toNat + e.2.length := movePast_rpos_toNat hr1
    have hlt : s.olen.toNat < s.cfg.obufCap := by omega
    have eo : v.olen.toNat = s.olen.toNat + 1 := succ_olen hp hlt
    obtain ⟨u, hu, hw, h0, hcur, hlast⟩ := ih (s := v) hp hh (fun f hf => hes f (by simp [hf])) (nrem_sub_one hn)
      (by rw [eo]; show _ ≤ s.cfg.obufCap; omega) hr.movePast
      (by rw [er, inBits_congr (s := s) (t := v) rfl rfl]; exact hb2)
    refine ⟨u, ?_, ?_, h0, by simp, fun f hf => ?_⟩
    · rw [List.length_cons, walkLoop_succ hn hk (by show s.olen.toNat < s.cfg.obufCap; omega), hu]
    · rw [List.map_cons, List.flatMap_cons, List.length_append]
      exact WalkedOver.cons hp (by omega) hw
    · rw [List.getLast?_cons] at hf
      cases hl : es.getLast? with
      | none =>
        rw [hl] at hf
        cases hf
        exact ⟨k, c, q, hcur (List.getLast?_eq_none_iff.mp hl), hleaf⟩
      | some g =>
        rw [hl] at hf
        cases hf
        exact hlast _ hl

/-! ### The walk ends -/

/-- With a tree, one symbol is found or the bits run out, or a bit 1 is met at a leaf (rules R226, R234). -/
theorem walkSymbol_ends {t : HuffTree} {s : State} (hh : HoldsTree s t) (hc : s.ilen.toNat ≤ s.cfg.ibufCap)
    (hp : s.rpos.toNat ≤ 8 * s.ilen.toNat) : (walkSymbol s).Ends := by
  obtain ⟨r, hroot, ht, -⟩ := hh
  cases t with
  | leaf sym =>
    obtain ⟨c, q, hn⟩ := ht
    rw [walkSymbol_leaf hroot hn]
    by_cases h1 : s.rpos.toNat + 1 ≤ 8 * s.ilen.toNat
    · rw [walkLeafRoot_ok (s := withCur s.root s) ⟨h1, hc⟩]
      split_ifs <;> trivial
    · rw [walkLeafRoot, rdBit_eob (s := withCur s.root s) (by show 8 * s.ilen.toNat ≤ s.rpos.toNat; omega)]
      trivial
  | node l r' =>
    obtain ⟨a, b, c, q, hn, ha, hb⟩ := ht
    rw [walkSymbol_internal hroot hn]
    exact descend_ends (s := withCur s.root s) ha hb hc
      (by show 8 * s.ilen.toNat < s.rpos.toNat + bitsLeft s; rw [bitsLeft]; omega) hp

/-- With a tree and room for the symbols, the loop of D_WALK never stops. -/
theorem walkLoop_ends {t : HuffTree} {n : Nat} {s : State} (hw : s.cfg.wf = true) (hh : HoldsTree s t)
    (hc : s.ilen.toNat ≤ s.cfg.ibufCap) (hp : s.rpos.toNat ≤ 8 * s.ilen.toNat)
    (ho : s.olen.toNat + s.nrem.toNat ≤ s.cfg.obufCap) : (walkLoop n s).Ends := by
  induction n generalizing s with
  | zero => trivial
  | succ n ih =>
    rw [walkLoop]
    split_ifs with h0
    · trivial
    · refine (walkSymbol_ends hh hc hp).bind (walkSymbol_post s) fun sym u hu => ?_
      have hn : s.nrem.toNat ≠ 0 := fun e => h0 (BitVec.eq_of_toNat_eq (by simpa using e))
      have eo : u.olen = s.olen := by rw [hu.1.same]
      have ec : u.cfg = s.cfg := by rw [hu.1.same]
      rw [emit_ok (by rw [eo, ec]; omega), Flow.bind_ok]
      have hv := emitted_walked (sym := sym) hw hu h0 (by omega)
      have e1 : (emitted sym u).ilen = s.ilen := by rw [hv.same]
      have e2 : (emitted sym u).cfg = s.cfg := by rw [hv.same]
      have hin := hv.inside hp
      have hg := hv.grown
      refine ih (s := emitted sym u) (by rw [e2]; exact hw) ?_ (by rw [e1, e2]; exact hc) (by rw [e1]; exact hin)
        (by rw [e2, hg]; exact ho)
      rw [hv.same]; exact hh

/-- Where the bits end within a code, or where one would begin: PAYLOAD_TRUNC with every bit consumed (rule R226). -/
theorem walkSymbol_short {t : HuffTree} {p rest : List Bool} {sym : Byte} {s : State} (hh : HoldsTree s t)
    (hp : (sym, p ++ rest) ∈ t.codes) (hne : rest ≠ []) (hc : s.ilen.toNat ≤ s.cfg.ibufCap)
    (hroom : s.rpos.toNat + p.length = 8 * s.ilen.toNat) (hb : inBits s s.rpos.toNat p.length = p) :
    ∃ u, walkSymbol s = .raised (raise .payloadTrunc u) ∧ u.rpos.toNat = 8 * s.ilen.toNat := by
  obtain ⟨r, hroot, ht, -⟩ := hh
  cases t with
  | leaf sym' =>
    obtain ⟨c, q, hn⟩ := ht
    simp only [HuffTree.codes, List.mem_singleton, Prod.mk.injEq] at hp
    have hl := congrArg List.length hp.2
    have := List.length_pos_iff.mpr hne
    rw [List.length_append, List.length_singleton] at hl
    refine ⟨withCur s.root s, ?_, by show s.rpos.toNat = _; omega⟩
    rw [walkSymbol_leaf hroot hn, walkLeafRoot,
      rdBit_eob (s := withCur s.root s) (by show 8 * s.ilen.toNat ≤ s.rpos.toNat; omega), Flow.onEob_eob, Flow.bind_raised]
  | node l r' =>
    obtain ⟨a, b, c, q, hn, ha, hb'⟩ := ht
    rw [walkSymbol_internal hroot hn]
    exact descend_short (s := withCur s.root s) ha hb' hp hne (by rw [bitsLeft]; omega) hc hroom
      ((inBits_congr (s := s) (t := withCur s.root s) rfl rfl _ _).trans hb)

/-- The payload ends after the codes of too few symbols and a part of one more code (rules R226, R241). -/
theorem walkLoop_short {t : HuffTree} {es : List (Byte × List Bool)} {p rest : List Bool} {sym : Byte} {n : Nat} {s : State}
    (hw : s.cfg.wf = true) (hh : HoldsTree s t) (hes : ∀ e ∈ es, e ∈ t.codes) (hn : s.nrem.toNat = n)
    (hlt : es.length < n) (hp : (sym, p ++ rest) ∈ t.codes) (hne : rest ≠ [])
    (ho : s.olen.toNat + s.nrem.toNat ≤ s.cfg.obufCap) (hc : s.ilen.toNat ≤ s.cfg.ibufCap)
    (hr : s.rpos.toNat + (es.flatMap Prod.snd ++ p).length = 8 * s.ilen.toNat)
    (hb : inBits s s.rpos.toNat (es.flatMap Prod.snd ++ p).length = es.flatMap Prod.snd ++ p) :
    ∃ u, walkLoop n s = .raised (raise .payloadTrunc u) ∧ u.rpos.toNat = 8 * s.ilen.toNat := by
  induction es generalizing n s with
  | nil =>
    obtain ⟨m, rfl⟩ : ∃ m, n = m + 1 := ⟨n - 1, by simp at hlt; omega⟩
    obtain ⟨u, hu, hur⟩ := walkSymbol_short hh hp hne hc hr hb
    have h0 : s.nrem ≠ 0 := fun e => by rw [e] at hn; simp at hn
    exact ⟨u, by rw [walkLoop, if_neg h0, hu, Flow.bind_raised], hur⟩
  | cons e es ih =>
    rw [List.length_cons] at hlt
    obtain ⟨m, rfl⟩ : ∃ m, n = m + 1 := ⟨n - 1, by omega⟩
    simp only [List.flatMap_cons, List.append_assoc] at hr hb
    rw [List.length_append] at hr hb
    rw [inBits_add] at hb
    obtain ⟨hb1, hb2⟩ := List.append_inj hb (by simp)
    have hr1 : InRoom s e.2.length := ⟨by omega, hc⟩
    obtain ⟨k, hk, -⟩ := walkSymbol_code hh (hes e (by simp)) hr1 hb1
    let v := emitted e.1 (withCur (some k) (movePast e.2.length s))
    have er : v.rpos.toNat = s.rpos.toNat + e.2.length := movePast_rpos_toNat hr1
    have hlt' : s.olen.toNat < s.cfg.obufCap := by omega
    have eo : v.olen.toNat = s.olen.toNat + 1 := succ_olen hw hlt'
    have en : v.nrem.toNat = m := nrem_sub_one hn
    obtain ⟨u, hu, hur⟩ := ih (s := v) (n := m) hw hh (fun f hf => hes f (by simp [hf])) en (by omega)
      (by rw [eo, en]; show _ ≤ s.cfg.obufCap; omega) hc (by rw [er]; show _ = 8 * s.ilen.toNat; omega)
      (by rw [er]; exact (inBits_congr (s := s) (t := v) rfl rfl _ _).trans hb2)
    exact ⟨u, by rw [walkLoop_succ hn hk (by exact hlt'), hu], hur⟩

end Sys2Proof.Machine
end

