-- ==== Sys2Proof/Laws/Phases.lean ====
section
/-! SUPPORT. Sys2Proof/Laws/Phases.lean: for each operation, everything its next state can be: what it has changed, or
the error it has entered and from which state. -/

namespace Sys2Proof.Machine

/-! ### E_BUILD, whatever state it runs in -/

/-- Nothing but what the tree builder works on differs, and `NODE` stays in its place. -/
structure BuildStep (s t : State) : Prop where
  same : t = { s with node := t.node, pq := t.pq, seq := t.seq }
  rising : Table.rising s.node → Table.rising t.node
  nodeSeq : (∀ e ∈ s.node, e.2.seq = e.1) → ∀ e ∈ t.node, e.2.seq = e.1

theorem BuildStep.refl (s : State) : BuildStep s s := ⟨rfl, id, id⟩

theorem BuildStep.trans {s t u : State} (h : BuildStep s t) (h' : BuildStep t u) : BuildStep s u :=
  ⟨by rw [h'.same, h.same], fun x => h'.rising (h.rising x), fun x => h'.nodeSeq (h.nodeSeq x)⟩

theorem addNode_post {n : Nat → Node} {s : State} (hn : ∀ i, (n i).seq = i) :
    (addNode n s).Post (fun _ t => BuildStep s t ∧ t.pq.length = s.pq.length + 1) Never Never := by
  rw [addNode, setNode]
  split_ifs
  · refine ⟨⟨rfl, Table.rising_set _ _, fun h e he => ?_⟩, by simp⟩
    rcases Table.mem_set he with rfl | he
    · exact hn _
    · exact h e he
  · trivial

theorem seedLoop_post (syms : List Byte) (s : State) :
    (seedLoop syms s).Post (fun _ => BuildStep s) Never Never := by
  induction syms generalizing s with
  | nil => exact BuildStep.refl s
  | cons x syms ih =>
    rw [seedLoop]
    split_ifs
    · exact ih s
    · exact (addNode_post fun _ => rfl).bind fun _ t ht => (ih t).imp (fun _ _ h => ht.1.trans h) fun _ h => h

theorem leastLoop_post (js : List Nat) (i : Nat) (n : Node) (s : State) :
    (leastLoop js i n s).Post (fun a t => t = s ∧ a.1 ∈ i :: js) Never Never := by
  induction js generalizing i n with
  | nil => exact ⟨rfl, by simp⟩
  | cons j js ih =>
    rw [leastLoop]
    refine nodeAt_bind_post fun _ m _ _ => ?_
    split_ifs
    · exact (ih j m).imp (fun a t h => ⟨h.1, List.mem_cons_of_mem _ h.2⟩) fun _ h => h
    · refine (ih i n).imp (fun a t h => ⟨h.1, ?_⟩) fun _ h => h
      have := h.2
      simp only [List.mem_cons] at this ⊢
      tauto

theorem removeLeast_post (s : State) :
    (removeLeast s).Post (fun _ t => BuildStep s t ∧ t.pq.length + 1 = s.pq.length) Never Never := by
  rw [removeLeast]
  split
  · trivial
  · next i is h =>
    refine nodeAt_bind_post fun _ n _ _ => ?_
    refine (leastLoop_post is i n s).bind fun a t ht => ?_
    obtain ⟨rfl, ha⟩ := ht
    rw [← h] at ha
    refine ⟨⟨rfl, id, id⟩, ?_⟩
    show (t.pq.erase a.1).length + 1 = t.pq.length
    have := List.length_pos_of_mem ha
    rw [List.length_erase_of_mem ha]; omega

theorem mergeLoop_post {n : Nat} {s : State} (hn : s.pq.length ≤ n + 1) :
    (mergeLoop n s).Post (fun _ t => BuildStep s t ∧ t.pq.length ≤ 1) Never Never := by
  induction n generalizing s with
  | zero => exact ⟨BuildStep.refl s, hn⟩
  | succ n ih =>
    rw [mergeLoop]
    split_ifs with h2
    · refine (removeLeast_post s).bind fun a t ht => ?_
      refine (removeLeast_post t).bind fun b u hu => ?_
      refine (addNode_post fun _ => rfl).bind fun _ v hv => ?_
      have l1 := ht.2
      have l2 := hu.2
      have l3 := hv.2
      exact (ih (s := v) (by omega)).imp (fun _ w hw => ⟨(ht.1.trans (hu.1.trans hv.1)).trans hw.1, hw.2⟩) fun _ h => h
    · exact ⟨BuildStep.refl s, by omega⟩

/-- What E_BUILD leaves before its check: its root, and no member in `PQ`. -/
structure Built (s t : State) : Prop where
  same : t = { s with node := t.node, pq := [], seq := t.seq, root := t.root }
  rising : Table.rising s.node → Table.rising t.node
  nodeSeq : (∀ e ∈ s.node, e.2.seq = e.1) → ∀ e ∈ t.node, e.2.seq = e.1

theorem takeRoot_built {s t : State} (h : BuildStep s t) (hl : t.pq.length ≤ 1) : Built s (takeRoot t) := by
  rw [takeRoot]
  split
  · exact ⟨by rw [h.same], h.rising, h.nodeSeq⟩
  · next hne =>
    have e : t.pq = [] := by
      match hq : t.pq with
      | [] => rfl
      | [r] => exact absurd hq (hne r)
      | _ :: _ :: _ => rw [hq] at hl; simp at hl
    refine ⟨?_, h.rising, h.nodeSeq⟩
    show { t with root := none } = { s with node := t.node, pq := [], seq := t.seq, root := none }
    rw [← e, h.same]

/-! ### The next state of each operation -/

theorem execECount_next {s t : State} (h : exec .eCount s = .next t) :
    t = { s with freq := t.freq, iidx := t.iidx, phase := .eBuild } ∧ t.iidx ≤ s.ilen := by
  have post : ((countLoop s.ilen.toNat { s with freq := Vector.replicate 256 0, iidx := 0 }).bind
      fun _ s => Flow.ok () { s with phase := .eBuild }).Post
      (fun _ t => t = { s with freq := t.freq, iidx := t.iidx, phase := .eBuild } ∧ t.iidx ≤ s.ilen) Never Never :=
    (countLoop_post _ _).bind fun _ u hu => ⟨by
      have := hu.1
      show { u with phase := .eBuild } = _
      rw [this], hu.2 (show (0 : Word).toNat ≤ s.ilen.toNat from Nat.zero_le _)⟩
  exact (post.of_outcome h).resolve_right id

theorem execEBuild_next {s t : State} (h : exec .eBuild s = .next t) :
    ∃ u, Built s u ∧ (t = { u with phase := .eGen } ∨ t = raise .countSum u) := by
  have post : ((seedLoop allSymbols s).bind fun _ s =>
      (mergeLoop s.pq.length s).bind fun _ s => checkCounts (takeRoot s)).Post
      (fun _ t => ∃ u, Built s u ∧ t = { u with phase := .eGen }) Never (fun t => ∃ u, Built s u ∧ t = raise .countSum u) := by
    refine ((seedLoop_post _ s).imp (fun _ _ h => h) fun _ h => h.elim).bind fun _ u hu => ?_
    refine ((mergeLoop_post (by omega)).imp (fun _ _ h => h) fun _ h => h.elim).bind fun _ v hv => ?_
    have hb := takeRoot_built (hu.trans hv.1) hv.2
    rw [checkCounts]
    split_ifs
    · exact ⟨_, hb, rfl⟩
    · exact ⟨_, hb, rfl⟩
  rcases post.of_outcome h with ⟨u, hu, rfl⟩ | ⟨u, hu, rfl⟩
  · exact ⟨u, hu, .inl rfl⟩
  · exact ⟨u, hu, .inr rfl⟩

theorem execEGen_next {s t : State} (h : exec .eGen s = .next t) :
    ∃ u : State, u = { s with code := u.code, stack := u.stack } ∧ (s.stack = [] → u.stack = []) ∧
      (t = { u with phase := .eHdr } ∨ t = raise .codePrefix u ∨ t = raise .codeMissing u) := by
  have post : ((genCodes { s with code := Vector.replicate 256 [] }).bind fun _ s => checkCodes s).Post
      (fun _ t => ∃ u : State, u = { s with code := u.code, stack := u.stack } ∧ (s.stack = [] → u.stack = []) ∧
        t = { u with phase := .eHdr }) Never
      (fun t => ∃ u : State, u = { s with code := u.code, stack := u.stack } ∧ (s.stack = [] → u.stack = []) ∧
        (t = raise .codePrefix u ∨ t = raise .codeMissing u)) := by
    refine ((genCodes_post _).imp (fun _ _ h => h) fun _ h => h.elim).bind fun _ u hu => ?_
    have e : u = { s with code := u.code, stack := u.stack } := hu.1
    rw [checkCodes]
    split_ifs
    · exact ⟨u, e, hu.2, .inl rfl⟩
    · exact ⟨u, e, hu.2, .inr rfl⟩
    · exact ⟨u, e, hu.2, rfl⟩
  rcases post.of_outcome h with ⟨u, h1, h2, h3⟩ | ⟨u, h1, h2, h3⟩
  · exact ⟨u, h1, h2, .inl h3⟩
  · exact ⟨u, h1, h2, .inr h3⟩

/-- The write of a header, in E_HDR or for the token. -/
theorem writeHeader_next {n : Word} {s t : State} (hp : s.cfg.wf = true) (h : (writeHeader n s).outcome = .next t) :
    (∃ u, OnlyOut { s with nhdr := n } u ∧ t = { u with phase := .eTree }) ∨ FullAfter { s with nhdr := n } t := by
  have post : (writeHeader n s).Post (fun _ t => ∃ u, OnlyOut { s with nhdr := n } u ∧ t = { u with phase := .eTree })
      Never (FullAfter { s with nhdr := n }) :=
    (wrU32_post (s := { s with nhdr := n }) hp).bind fun _ u hu => ⟨u, hu, rfl⟩
  exact post.of_outcome h

theorem execEHdr_next {s t : State} (hp : s.cfg.wf = true) (h : exec .eHdr s = .next t) :
    (∃ u, OnlyOut { s with nhdr := s.ilen } u ∧ t = { u with phase := .eTree }) ∨
      FullAfter { s with nhdr := s.ilen } t := writeHeader_next hp h

theorem OnlyOut.withStack {s t : State} (fs : List Frame) (h : OnlyOut s t) : OnlyOut (withStack fs s) (withStack fs t) :=
  ⟨⟨by show Machine.withStack fs t = _; rw [h.same]; rfl, h.forward, h.outside, h.fits, h.rising, h.inCap⟩, h.pending⟩

/-- SER, whatever state it runs in: only the writer, its bytes and `STACK` change, and it ends with an empty stack. -/
theorem serLoop_post (n : Nat) {s : State} (hp : s.cfg.wf = true) :
    (serLoop n s).Post (fun _ => OnlyOut (withStack [] s)) Never (fun t => ∃ fs, FullAfter (withStack fs s) t) := by
  have done : ∀ s : State, s.stack = [] → OnlyOut (withStack [] s) s := fun s h => by
    rw [withStack_self h]; exact OnlyOut.refl s
  have next : ∀ (n : Nat) {x : Flow Unit} {s u : State}, (∀ {s : State}, s.cfg.wf = true → (serLoop n s).Post
      (fun _ => OnlyOut (withStack [] s)) Never (fun t => ∃ fs, FullAfter (withStack fs s) t)) → s.cfg.wf = true →
      u = withStack u.stack s → x.Post (fun _ => OnlyOut u) Never (FullAfter u) →
      (x.bind fun _ s => serLoop n s).Post (fun _ => OnlyOut (withStack [] s)) Never
        (fun t => ∃ fs, FullAfter (withStack fs s) t) := by
    intro n x s u ih hp hu hx
    refine (hx.imp (fun _ _ h => h) fun v hv => (⟨u.stack, by rw [← hu]; exact hv⟩ : ∃ fs, FullAfter (withStack fs s) v)).bind
      fun _ v hv => ?_
    have hc : v.cfg = s.cfg := by rw [hv.same, hu]; rfl
    have e : ∀ fs, withStack fs u = withStack fs s := fun fs => by rw [hu]; rfl
    exact (ih (s := v) (hc ▸ hp)).imp
      (fun _ w hw => by rw [← e]; exact (hv.withStack []).trans hw)
      fun w ⟨fs, hw⟩ => ⟨fs, by rw [← e]; exact FullAfter.of_onlyOut (hv.withStack fs) hw⟩
  induction n generalizing s with
  | zero =>
    rw [serLoop]
    split_ifs with h
    · exact done s (List.isEmpty_iff.mp h)
    · trivial
  | succ n ih =>
    rw [serLoop]
    split
    · next h => exact done s h
    · refine nodeAt_bind_post fun i nd _ _ => ?_
      cases nd with
      | leaf sym c q => exact next n ih hp rfl (by rw [writeLeaf_eq]; exact wrBits_post hp)
      | internal l r c q => exact next n ih hp rfl (wrBit_post hp)

theorem serTree_post {s : State} (hp : s.cfg.wf = true) :
    (serTree s).Post (fun _ => OnlyOut (withStack [] s)) Never (fun t => ∃ fs, FullAfter (withStack fs s) t) := by
  by_cases hs : s.stack = []
  · cases hr : s.root with
    | none => rw [serTree_none hs hr, withStack_self hs]; exact OnlyOut.refl s
    | some r => rw [serTree_some hs hr]; exact serLoop_post _ (s := withStack [Frame.at r] s) hp
  · rw [serTree_more hs]; exact serLoop_post _ hp

theorem execETree_next {s t : State} (hp : s.cfg.wf = true) (h : exec .eTree s = .next t) :
    (∃ u, OnlyOut (withStack [] s) u ∧ t = { u with phase := .ePack }) ∨ ∃ fs, FullAfter (withStack fs s) t := by
  have post : ((serTree s).bind fun _ s => Flow.ok () { s with phase := .ePack }).Post
      (fun _ t => ∃ u, OnlyOut (withStack [] s) u ∧ t = { u with phase := .ePack }) Never
      (fun t => ∃ fs, FullAfter (withStack fs s) t) := (serTree_post hp).bind fun _ u hu => ⟨u, hu, rfl⟩
  exact post.of_outcome h

theorem execEPack_next {s t : State} (hp : s.cfg.wf = true) (h : exec .ePack s = .next t) :
    (∃ u, OnlyOut (withIidx u.iidx s) u ∧ u.iidx ≤ s.ilen ∧ t = { u with phase := .eFin }) ∨
      ∃ i, FullAfter (withIidx i s) t := by
  have post : ((packLoop s.ilen.toNat (withIidx 0 s)).bind fun _ s => Flow.ok () { s with phase := .eFin }).Post
      (fun _ t => ∃ u, OnlyOut (withIidx u.iidx s) u ∧ u.iidx ≤ s.ilen ∧ t = { u with phase := .eFin }) Never
      (fun t => ∃ i, FullAfter (withIidx i s) t) :=
    (packLoop_post _ (s := withIidx 0 s) hp).bind fun _ u hu => ⟨u, hu.1, hu.2 (show (0 : Word).toNat ≤ s.ilen.toNat from Nat.zero_le _), rfl⟩
  exact post.of_outcome h

theorem execEFin_next {s t : State} (hp : s.cfg.wf = true) (h : exec .eFin s = .next t) :
    (∃ u, OnlyOut s u ∧ t = finishEncode u) ∨ FullAfter s t := by
  have post : ((finalizeOp s).bind fun _ s => Flow.ok () (finishEncode s)).Post
      (fun _ t => ∃ u, OnlyOut s u ∧ t = finishEncode u) Never (FullAfter s) :=
    (finalizeOp_post hp).bind fun _ u hu => ⟨u, hu, rfl⟩
  exact post.of_outcome h

/-- What D_HDR makes of the N it has read (rules R222, R223). -/
theorem headerRead_cases (n : Word) (s : State) :
    (s.cfg.obufCap < n.toNat ∧ headerRead n s = .raised (raise .decNTooLarge { s with nhdr := n, nrem := n })) ∨
    (n.toNat ≤ s.cfg.obufCap ∧ n = 0 ∧ headerRead n s = .ok () { s with nhdr := n, nrem := n, phase := .done }) ∨
    (n.toNat ≤ s.cfg.obufCap ∧ n ≠ 0 ∧ headerRead n s = .ok () { s with nhdr := n, nrem := n, phase := .dTree }) := by
  simp only [headerRead]
  split_ifs with h1 h2
  · exact .inl ⟨h1, rfl⟩
  · exact .inr (.inl ⟨by omega, h2, rfl⟩)
  · exact .inr (.inr ⟨by omega, h2, rfl⟩)

theorem headerRead_next {n : Word} {s t : State} (h : (headerRead n s).outcome = .next t) :
    (s.cfg.obufCap < n.toNat ∧ t = raise .decNTooLarge { s with nhdr := n, nrem := n }) ∨
    (n.toNat ≤ s.cfg.obufCap ∧ n = 0 ∧ t = { s with nhdr := n, nrem := n, phase := .done }) ∨
    (n.toNat ≤ s.cfg.obufCap ∧ n ≠ 0 ∧ t = { s with nhdr := n, nrem := n, phase := .dTree }) := by
  rcases headerRead_cases n s with ⟨h1, e⟩ | ⟨h1, h2, e⟩ | ⟨h1, h2, e⟩ <;> rw [e] at h <;> cases h
  · exact .inl ⟨h1, rfl⟩
  · exact .inr (.inl ⟨h1, h2, rfl⟩)
  · exact .inr (.inr ⟨h1, h2, rfl⟩)

theorem execDHdr_next {s t : State} (h : exec .dHdr s = .next t) :
    (∃ u, OnlyRpos s u ∧ t = raise .hdrTrunc u) ∨
    ∃ u n, OnlyRpos s u ∧ (headerRead n u).outcome = .next t := by
  have h' : (((rdU32 s).onEob .hdrTrunc).bind fun n s => headerRead n s).outcome = .next t := h
  have hp := (rdU32_post s)
  cases hr : rdU32 s <;> rw [hr] at h' hp <;> simp only [Flow.onEob_ok, Flow.onEob_eob, Flow.onEob_raised,
    Flow.onEob_fault, Flow.onEob_refused, Flow.bind_ok, Flow.bind_raised, Flow.bind_fault, Flow.bind_refused] at h'
  · exact .inr ⟨_, _, hp, h'⟩
  · cases h'; exact .inl ⟨_, hp.1, rfl⟩
  · exact hp.elim
  · cases h'
  · cases h'

theorem execDTree_next {s t : State} (h : exec .dTree s = .next t) :
    (∃ u, DesStep s u ∧ u.stack = [] ∧ t = { u with phase := .dWalk }) ∨ DesError s t := by
  have post : (desLoop (bitsLeft s) s).Post (fun _ t => DesStep s t ∧ t.stack = []) Never (DesError s) := by
    have hp := desLoop_post (bitsLeft s) s
    cases hd : desLoop (bitsLeft s) s <;> rw [hd] at hp <;> first | exact ⟨hp, desLoop_stack hd⟩ | exact hp
  have post' : ((desLoop (bitsLeft s) s).bind fun _ s => Flow.ok () { s with phase := .dWalk }).Post
      (fun _ t => ∃ u, DesStep s u ∧ u.stack = [] ∧ t = { u with phase := .dWalk }) Never (DesError s) :=
    post.bind fun _ u hu => ⟨u, hu.1, hu.2, rfl⟩
  exact post'.of_outcome h

theorem execDWalk_next {s t : State} (hp : s.cfg.wf = true) (h : exec .dWalk s = .next t) :
    (∃ u, Walked s u ∧ u.nrem = 0 ∧ t = { u with phase := .done }) ∨ WalkedError s t := by
  have post : ((walkLoop s.nrem.toNat s).bind fun _ s => Flow.ok () { s with phase := .done }).Post
      (fun _ t => ∃ u, Walked s u ∧ u.nrem = 0 ∧ t = { u with phase := .done }) Never (WalkedError s) :=
    (walkLoop_post hp le_rfl).bind fun _ u hu => ⟨u, hu.1, hu.2, rfl⟩
  exact post.of_outcome h

/-- The reading operations. -/
theorem readOutcome_next {α : Type} {f : α → Word} {x : Flow α} {s t : State}
    (hx : x.Post (fun _ => OnlyRpos s) (EobAfter s) Never) (h : readOutcome f x = .next t) :
    ∃ u o, OnlyRpos s u ∧ t = { u with bioOut := o } := by
  cases x with
  | ok a u => cases h; exact ⟨u, _, hx, rfl⟩
  | eob u => cases h; exact ⟨u, _, hx.1, rfl⟩
  | raised u => exact hx.elim
  | fault r => cases h
  | refused r => cases h

theorem execRdbit_next {s t : State} (h : exec .rdbit s = .next t) : ∃ u o, OnlyRpos s u ∧ t = { u with bioOut := o } :=
  readOutcome_next (rdBit_post s) h

theorem execRdbyte_next {s t : State} (h : exec .rdbyte s = .next t) : ∃ u o, OnlyRpos s u ∧ t = { u with bioOut := o } :=
  readOutcome_next (rdByte_post s) h

theorem execRdu32_next {s t : State} (h : exec .rdu32 s = .next t) : ∃ u o, OnlyRpos s u ∧ t = { u with bioOut := o } :=
  readOutcome_next (rdU32_post s) h

/-- The writing operations. -/
theorem execWrbit_next {b : Bool} {s t : State} (hp : s.cfg.wf = true) (h : exec (.wrbit b) s = .next t) :
    OnlyOut s t ∨ FullAfter s t := (wrBit_post hp).of_outcome h

theorem execWrbyte_next {v : Nat} {s t : State} (hp : s.cfg.wf = true) (h : exec (.wrbyte v) s = .next t) :
    OnlyOut s t ∨ FullAfter s t := (wrByte_post hp).of_outcome h

theorem execWru32_next {v : Nat} {s t : State} (hp : s.cfg.wf = true) (h : exec (.wru32 v) s = .next t) :
    OnlyOut s t ∨ FullAfter s t := (wrU32_post hp).of_outcome h

theorem execFinalize_next {s t : State} (hp : s.cfg.wf = true) (h : exec .finalize s = .next t) :
    OnlyOut s t ∨ FullAfter s t := (finalizeOp_post hp).of_outcome h

/-- LENHDR. -/
theorem execLenhdr_next {n : Nat} {s t : State} (hp : s.cfg.wf = true) (h : exec (.lenhdr n) s = .next t) :
    (s.phase = .eHdr ∧ ((∃ u, OnlyOut { s with nhdr := BitVec.ofNat 32 n } u ∧ t = { u with phase := .eTree }) ∨
      FullAfter { s with nhdr := BitVec.ofNat 32 n } t)) ∨
    (s.phase = .dHdr ∧ (headerRead (BitVec.ofNat 32 n) (movePast 32 s)).outcome = .next t) := by
  have h' : execLenhdr n s = .next t := h
  rw [execLenhdr] at h'
  split at h'
  · next hph => exact .inl ⟨hph, writeHeader_next hp h'⟩
  · next hph => exact .inr ⟨hph, h'⟩
  · cases h'

/-- A tree token that is read: `RPOS` moves past it, and DES takes it. -/
theorem treeToken_next {f : State → Flow Bool} {n : Nat} {s t : State} (hf : ∀ s, (f s).Post (fun _ => DesStep s) Never Never)
    (hw : ∀ s u, f s = .ok true u → u.stack = [])
    (h : ((desRoom s).bind fun _ s => (f (movePast n s)).bind fun whole s => .ok () (treeTokenEnd whole s)).outcome = .next t) :
    (t = raise .nodeOverflow s) ∨ (∃ u, DesStep (movePast n s) u ∧ t = u) ∨
      (∃ u, DesStep (movePast n s) u ∧ u.stack = [] ∧ t = { u with phase := .dWalk }) := by
  rw [desRoom] at h
  split_ifs at h
  · rw [Flow.bind_ok] at h
    have hp := hf (movePast n s)
    have hs := hw (movePast n s)
    cases hx : f (movePast n s) with
    | ok whole u =>
      rw [hx] at h hp hs
      cases h
      cases whole
      · exact .inr (.inl ⟨u, hp, rfl⟩)
      · exact .inr (.inr ⟨u, hp, hs u rfl, rfl⟩)
    | eob u => rw [hx] at hp; exact hp.elim
    | raised u => rw [hx] at hp; exact hp.elim
    | fault r => rw [hx] at h; cases h
    | refused r => rw [hx] at h; cases h
  · cases h; exact .inl rfl

theorem desInt_whole {s u : State} (h : desInt s = .ok true u) : u.stack = [] := by simp [desInt] at h

theorem desLeaf_whole {sym : Byte} {s u : State} (h : desLeaf sym s = .ok true u) : u.stack = [] := by
  simp only [desLeaf, Flow.bind_eq_ok] at h
  obtain ⟨_, _, -, h⟩ := h
  exact desReturn_whole h

theorem execTnodeInt_next {s t : State} (hp : s.cfg.wf = true) (h : exec .tnodeInt s = .next t) :
    (s.phase = .eTree ∧ (OnlyOut s t ∨ FullAfter s t)) ∨
    (s.phase = .dTree ∧ ((t = raise .nodeOverflow s) ∨ (∃ u, DesStep (movePast 1 s) u ∧ t = u) ∨
      (∃ u, DesStep (movePast 1 s) u ∧ u.stack = [] ∧ t = { u with phase := .dWalk }))) := by
  have h' : execTnodeInt s = .next t := h
  rw [execTnodeInt] at h'
  split at h'
  · next hph => exact .inl ⟨hph, (wrBit_post hp).of_outcome h'⟩
  · next hph => exact .inr ⟨hph, treeToken_next desInt_post (fun _ _ => desInt_whole) h'⟩
  · cases h'

theorem execTnodeLeaf_next {v : Nat} {s t : State} (hp : s.cfg.wf = true) (h : exec (.tnodeLeaf v) s = .next t) :
    (s.phase = .eTree ∧ (OnlyOut s t ∨ FullAfter s t)) ∨
    (s.phase = .dTree ∧ ((t = raise .nodeOverflow s) ∨ (∃ u, DesStep (movePast 9 s) u ∧ t = u) ∨
      (∃ u, DesStep (movePast 9 s) u ∧ u.stack = [] ∧ t = { u with phase := .dWalk }))) := by
  have h' : execTnodeLeaf v s = .next t := h
  rw [execTnodeLeaf] at h'
  split at h'
  · next hph => exact .inl ⟨hph, by rw [writeLeaf_eq] at h'; exact (wrBits_post hp).of_outcome h'⟩
  · next hph => exact .inr ⟨hph, treeToken_next (desLeaf_post _) (fun _ _ => desLeaf_whole) h'⟩
  · cases h'

end Sys2Proof.Machine
end

