-- ==== Sys2Proof/Laws/Step.lean ====
section
/-! SUPPORT. Sys2Proof/Laws/Step.lean: what a step can be: a command write, a turn of the engine, an operation of the
I/O controller, a token; and that the memory operations keep the canonical form. -/

namespace Sys2Proof.Machine

/-! ### A write to `CMD` -/

/-- A legal command word is the word of the command it decodes to. -/
theorem cmdWord_of_bits {w : Word} (hz : w.extractLsb' 5 27 = 0) (m : Nat) (hm : m = 1 ∨ m = 2)
    (h0 : w.getLsbD 0 = (m == 1)) (h1 : w.getLsbD 1 = (m == 2)) :
    cmdWord m (w.getLsbD 2) (w.getLsbD 3) (w.getLsbD 4) = w := by
  apply BitVec.eq_of_getLsbD_eq
  intro k hk
  generalize hf : w.getLsbD 2 = f
  generalize hc : w.getLsbD 3 = c
  generalize hb : w.getLsbD 4 = b
  by_cases h5 : 5 ≤ k
  · have hw : w.getLsbD k = false := by
      have e := congrArg (fun v : BitVec 27 => v.getLsbD (k - 5)) hz
      simp only [BitVec.getLsbD_extractLsb'] at e
      rw [show 5 + (k - 5) = k by omega] at e
      simpa [show k - 5 < 27 by omega] using e
    have hlt : m + 4 * f.toNat + 8 * c.toNat + 16 * b.toNat < 2 ^ k := by
      have := Bool.toNat_lt f
      have := Bool.toNat_lt c
      have := Bool.toNat_lt b
      calc _ < 2 ^ 5 := by omega
        _ ≤ 2 ^ k := Nat.pow_le_pow_right (by norm_num) h5
    rw [hw]
    simp [cmdWord, BitVec.getLsbD_ofNat, Nat.testBit_lt_two_pow hlt]
  · have : k = 0 ∨ k = 1 ∨ k = 2 ∨ k = 3 ∨ k = 4 := by omega
    rcases hm with rfl | rfl <;> rcases this with rfl | rfl | rfl | rfl | rfl <;>
      first | rw [h0] | rw [h1] | rw [hf] | rw [hc] | rw [hb]
    all_goals (clear hf hc hb; revert f c b; decide)

/-- A legal command word, performed, is the write of that word. -/
theorem exec_of_cmd {w : Word} {i : Instr} (s : State) (h : decode (.cmd w) = .ok i) :
    exec i s = .next (writeCmd w s) := by
  simp only [decode, decodeCmd] at h
  split_ifs at h with h0
  have hz := not_not.mp h0
  split at h <;> cases h
  · next a b =>
    show Host.Outcome.next (writeCmd (cmdWord 1 _ _ _) s) = _
    rw [cmdWord_of_bits hz 1 (.inl rfl) (by rw [a]; rfl) (by rw [b]; rfl)]
  · next a b =>
    show Host.Outcome.next (writeCmd (cmdWord 2 _ _ _) s) = _
    rw [cmdWord_of_bits hz 2 (.inr rfl) (by rw [a]; rfl) (by rw [b]; rfl)]

/-- Whatever the word, a write to `CMD` is one thing. -/
theorem cmdTurn_eq (w : Word) (s : State) : cmdTurn w s = .next (writeCmd w s) := by
  rw [cmdTurn]
  split
  · next h => exact exec_of_cmd s h
  · rfl

/-- What an accepted command write leaves: an error, or the first phase. -/
theorem acceptCmd_cases (w : Word) (s : State) :
    acceptCmd w s = raise .badCmd (initCommand { s with cmd := w }) ∨
    acceptCmd w s = raise .badIlen (initCommand { s with cmd := w }) ∨
    (s.ilen.toNat ≤ s.cfg.ibufCap ∧
      (acceptCmd w s = { initCommand { s with cmd := w } with phase := .eCount } ∨
        acceptCmd w s = { initCommand { s with cmd := w } with phase := .dHdr })) := by
  have hi : (initCommand { s with cmd := w }).ilen = s.ilen := rfl
  have hc : (initCommand { s with cmd := w }).cfg = s.cfg := rfl
  simp only [acceptCmd]
  split_ifs with h1 h2 h3
  · exact .inl rfl
  · exact .inr (.inl rfl)
  · rw [hi, hc] at h2; exact .inr (.inr ⟨by omega, .inl rfl⟩)
  · rw [hi, hc] at h2; exact .inr (.inr ⟨by omega, .inr rfl⟩)

/-! ### A turn of the engine for a phase -/

/-- The phase that `PHASE` holds is performed, and nothing outside `BUSY`. -/
theorem phaseTurn_cases (s : State) :
    (busy s = false ∧ phaseTurn s = .next s) ∨
    (busy s = true ∧ ((s.phase = .eCount ∧ phaseTurn s = exec .eCount s) ∨ (s.phase = .eBuild ∧ phaseTurn s = exec .eBuild s) ∨
      (s.phase = .eGen ∧ phaseTurn s = exec .eGen s) ∨ (s.phase = .eHdr ∧ phaseTurn s = exec .eHdr s) ∨
      (s.phase = .eTree ∧ phaseTurn s = exec .eTree s) ∨ (s.phase = .ePack ∧ phaseTurn s = exec .ePack s) ∨
      (s.phase = .eFin ∧ phaseTurn s = exec .eFin s) ∨ (s.phase = .dHdr ∧ phaseTurn s = exec .dHdr s) ∨
      (s.phase = .dTree ∧ phaseTurn s = exec .dTree s) ∨ (s.phase = .dWalk ∧ phaseTurn s = exec .dWalk s))) := by
  cases h : s.phase <;> simp [phaseTurn, busy, h, decode, decodePhase, Phase.code, Phase.stateField]

theorem busy_phase {s : State} (h : busy s = true) : s.phase ≠ .error ∧ s.phase ≠ .done ∧ s.phase ≠ .idle := by
  rw [busy] at h
  cases hp : s.phase <;> rw [hp] at h <;> first | exact absurd h (by decide) | simp

/-! ### A turn of the engine for one operation of the I/O controller -/

/-- Outside `BUSY` the engine issues nothing (rules R254, R261). -/
theorem issues_of_not_busy {s : State} (h : busy s = false) : issues s = none := by
  rw [busy] at h
  rw [issues]
  cases hp : s.phase <;> rw [hp] at h <;> first | rfl | exact absurd h (by decide)

theorem issues_eTree {s : State} (h : s.phase = .eTree) :
    issues s = (serNext s).map fun e =>
      match e.1 with
      | .leaf sym _ _ => if s.marker then .wrbyte sym.toNat else .wrbit true
      | .internal _ _ _ _ => .wrbit false := by
  rw [issues]; split <;> first | rfl | (rename_i e; rw [h] at e; cases e)

theorem finishToken_some {s : State} {i : Instr} (h : issues s = some i) : finishToken s = perform i s := by
  rw [finishToken, h]

theorem finishToken_none {s : State} (h : issues s = none) : finishToken s = .next s := by rw [finishToken, h]

theorem engineTurn_whole {s : State} (h : s.marker = false) : engineTurn s = phaseTurn s := by simp [engineTurn, h]

theorem engineTurn_next {s t : State} (h : engineTurn s = .next t) :
    (s.marker = false ∧ phaseTurn s = .next t) ∨
    (s.marker = true ∧ ∃ u, finishToken s = .next u ∧
      ((u.phase = s.phase ∧ phaseTurn u = .next t) ∨ (u.phase ≠ s.phase ∧ t = u))) := by
  rw [engineTurn] at h
  split_ifs at h with hm
  · cases hf : finishToken s with
    | next u =>
      rw [hf] at h
      dsimp only at h
      split_ifs at h with he
      · exact .inr ⟨hm, u, rfl, .inl ⟨he, h⟩⟩
      · cases h; exact .inr ⟨hm, _, rfl, .inr ⟨he, rfl⟩⟩
    | fault r => rw [hf] at h; cases h
    | refused r => rw [hf] at h; cases h
  · exact .inl ⟨by simpa using hm, h⟩

/-- The state with the result lines taken, and no token half done. -/
def tokenDone (s : State) : State := { s with bioOut := .none, marker := false }

/-- What each phase does with an operation that has ended. -/
theorem proceed_dHdr {s : State} (h : s.phase = .dHdr) :
    proceed s =
      match s.bioOut with
      | .value n => headerRead n { s with bioOut := .none }
      | _ => .raised (raise .hdrTrunc { s with bioOut := .none }) := by
  rw [proceed]; split <;> first | rfl | (rename_i e; rw [h] at e; cases e) | simp_all

theorem proceed_dTree {s : State} (h : s.phase = .dTree) :
    proceed s =
      match s.bioOut with
      | .value v =>
        if s.marker then desEnd (desLeaf (v.setWidth 8) (tokenDone s))
        else if v = 1 then .ok () { s with bioOut := .none, marker := true }
        else desEnd (desInt { s with bioOut := .none })
      | _ => .raised (raise .treeTrunc { s with bioOut := .none }) := by
  rw [proceed]; split <;> first | rfl | (rename_i e; rw [h] at e; cases e) | simp_all

theorem proceed_eHdr {s : State} (h : s.phase = .eHdr) :
    proceed s = .ok () { s with nhdr := s.ilen, phase := .eTree } := by
  rw [proceed]; split <;> first | rfl | (rename_i e; rw [h] at e; cases e) | simp_all

theorem proceed_eTree {s : State} (h : s.phase = .eTree) :
    proceed s =
      match serNext s with
      | none => .ok () s
      | some (.leaf _ _ _, rest) => .ok () (if s.marker then serEnd rest s else { s with marker := true })
      | some (.internal l r _ _, rest) => .ok () (serEnd (Frame.at l :: Frame.at r :: rest) s) := by
  rw [proceed]; split <;> first | rfl | (rename_i e; rw [h] at e; cases e) | simp_all

theorem proceed_eFin {s : State} (h : s.phase = .eFin) : proceed s = .ok () (finishEncode s) := by
  rw [proceed]; split <;> first | rfl | (rename_i e; rw [h] at e; cases e) | simp_all

theorem OnlyRpos.phase {s t : State} (h : OnlyRpos s t) : t.phase = s.phase := by rw [h.same]

theorem OnlyOut.phase {s t : State} (h : OnlyOut s t) : t.phase = s.phase := by rw [h.same]

theorem FullAfter.phase {s t : State} (h : FullAfter s t) : t.phase = .error := by
  obtain ⟨u, -, -, rfl⟩ := h; rfl

/-- After a reading operation the phase proceeds with what stands on the result lines. -/
theorem perform_read {i : Instr} {s t : State} (he : s.phase ≠ .error)
    (hx : ∀ {u}, exec i s = .next u → ∃ v o, OnlyRpos s v ∧ u = { v with bioOut := o }) (h : perform i s = .next t) :
    ∃ v o, OnlyRpos s v ∧ exec i s = .next { v with bioOut := o } ∧ (proceed { v with bioOut := o }).outcome = .next t := by
  rw [perform] at h
  cases hi : exec i s with
  | next u =>
    obtain ⟨v, o, hv, rfl⟩ := hx hi
    rw [hi] at h
    dsimp only at h
    rw [if_neg (by rw [hv.phase]; exact he)] at h
    exact ⟨v, o, hv, rfl, h⟩
  | fault r => rw [hi] at h; cases h
  | refused r => rw [hi] at h; cases h

/-- After a writing operation the phase proceeds, or `OBUF` was full. -/
theorem perform_write {i : Instr} {s t : State} (he : s.phase ≠ .error)
    (hx : ∀ {u}, exec i s = .next u → OnlyOut s u ∨ FullAfter s u) (h : perform i s = .next t) :
    (∃ u, OnlyOut s u ∧ exec i s = .next u ∧ (proceed u).outcome = .next t) ∨ FullAfter s t := by
  rw [perform] at h
  cases hi : exec i s with
  | next u =>
    rw [hi] at h
    dsimp only at h
    rcases hx hi with hu | hu
    · rw [if_neg (by rw [hu.phase]; exact he)] at h
      exact .inl ⟨u, hu, rfl, h⟩
    · rw [if_pos hu.phase] at h
      cases h
      exact .inr hu
  | fault r => rw [hi] at h; cases h
  | refused r => rw [hi] at h; cases h

/-- A token of the tree that has been read. -/
theorem desEnd_next {x : Flow Bool} {s t : State} (hx : x.Post (fun _ => DesStep s) Never Never)
    (hw : ∀ u, x = .ok true u → u.stack = []) (h : (desEnd x).outcome = .next t) :
    ∃ u, DesStep s u ∧ (t = u ∨ (u.stack = [] ∧ t = { u with phase := .dWalk })) := by
  cases x with
  | ok whole u =>
    cases h
    cases whole
    · exact ⟨u, hx, .inl rfl⟩
    · exact ⟨u, hx, .inr ⟨hw u rfl, rfl⟩⟩
  | eob u => exact hx.elim
  | raised u => exact hx.elim
  | fault r => cases h
  | refused r => cases h

/-- Everything that a turn for one operation of the I/O controller can do, phase by phase. -/
theorem perform_next {i : Instr} {s t : State} (hp : s.cfg.wf = true) (hi : issues s = some i) (h : perform i s = .next t) :
    (s.phase = .dHdr ∧ ∃ u, OnlyRpos s u ∧ (t = raise .hdrTrunc { u with bioOut := .none } ∨
      ∃ n, (headerRead n { u with bioOut := .none }).outcome = .next t)) ∨
    (s.phase = .dTree ∧ ∃ u, OnlyRpos s u ∧ (t = raise .treeTrunc { u with bioOut := .none } ∨
      (s.marker = false ∧ t = { u with bioOut := .none, marker := true }) ∨
      ∃ v, DesStep (tokenDone u) v ∧ (t = v ∨ (v.stack = [] ∧ t = { v with phase := .dWalk })))) ∨
    (s.phase = .eHdr ∧ ((∃ u, OnlyOut s u ∧ t = { u with nhdr := s.ilen, phase := .eTree }) ∨ FullAfter s t)) ∨
    (s.phase = .eTree ∧ ((∃ u, OnlyOut s u ∧ (s.marker = false ∧ (∃ v, issues t = some (.wrbyte v)) ∧ t = { u with marker := true } ∨
      ∃ rest, t = serEnd rest u)) ∨ FullAfter s t)) ∨
    (s.phase = .eFin ∧ ((∃ u, OnlyOut s u ∧ t = finishEncode u) ∨ FullAfter s t)) := by
  have hi' := hi
  cases hph : s.phase <;> simp only [issues, hph, reduceCtorEq] at hi
  all_goals have he : s.phase ≠ .error := by rw [hph]; simp
  · -- E_HDR
    cases hi
    refine .inr (.inr (.inl ⟨rfl, ?_⟩))
    rcases perform_write he (fun hx => execWru32_next hp hx) h with ⟨u, hu, -, h⟩ | hf
    · rw [proceed_eHdr (hu.phase.trans hph)] at h
      cases h
      exact .inl ⟨u, hu, by rw [hu.same]⟩
    · exact .inr hf
  · -- E_TREE
    refine .inr (.inr (.inr (.inl ⟨rfl, ?_⟩)))
    have hx : ∀ {u}, exec i s = .next u → OnlyOut s u ∨ FullAfter s u := by
      intro u hx
      cases hn : serNext s with
      | none => rw [hn] at hi; cases hi
      | some e =>
        rw [hn] at hi
        obtain ⟨nd, rest⟩ := e
        cases nd with
        | leaf sym c q =>
          simp only [Option.map_some, Option.some.injEq] at hi
          split_ifs at hi <;> subst hi
          · exact execWrbyte_next hp hx
          · exact execWrbit_next hp hx
        | internal l r c q =>
          simp only [Option.map_some, Option.some.injEq] at hi
          subst hi; exact execWrbit_next hp hx
    rcases perform_write he hx h with ⟨u, hu, -, h⟩ | hf
    · refine .inl ⟨u, hu, ?_⟩
      have en : serNext u = serNext s := by rw [hu.same]; rfl
      have em : u.marker = s.marker := by rw [hu.same]
      rw [proceed_eTree (hu.phase.trans hph), en, em] at h
      cases hn : serNext s with
      | none => rw [hn] at hi; cases hi
      | some e =>
        rw [hn] at h
        obtain ⟨nd, rest⟩ := e
        cases nd with
        | leaf sym c q =>
          dsimp only at h
          split_ifs at h with hm <;> cases h
          · exact .inr ⟨rest, rfl⟩
          · refine .inl ⟨by simpa using hm, ⟨sym.toNat, ?_⟩, rfl⟩
            have e1 : serNext { u with marker := true } = some (.leaf sym c q, rest) := by
              rw [show serNext { u with marker := true } = serNext u from rfl, en, hn]
            rw [issues_eTree (s := { u with marker := true }) (hu.phase.trans hph), e1]; simp
        | internal l r c q => cases h; exact .inr ⟨_, rfl⟩
    · exact .inr hf
  · -- E_FIN
    cases hi
    refine .inr (.inr (.inr (.inr ⟨rfl, ?_⟩)))
    rcases perform_write he (fun hx => execFinalize_next hp hx) h with ⟨u, hu, -, h⟩ | hf
    · rw [proceed_eFin (hu.phase.trans hph)] at h
      cases h
      exact .inl ⟨u, hu, rfl⟩
    · exact .inr hf
  · -- D_HDR
    cases hi
    refine .inl ⟨rfl, ?_⟩
    obtain ⟨u, o, hu, -, h⟩ := perform_read he (fun hx => execRdu32_next hx) h
    refine ⟨u, hu, ?_⟩
    rw [proceed_dHdr (s := { u with bioOut := o }) (hu.phase.trans hph)] at h
    cases o with
    | none => cases h; exact .inl rfl
    | value n => exact .inr ⟨n, h⟩
    | eob => cases h; exact .inl rfl
  · -- D_TREE
    refine .inr (.inl ⟨rfl, ?_⟩)
    have hx : ∀ {u}, exec i s = .next u → ∃ v o, OnlyRpos s v ∧ u = { v with bioOut := o } := by
      intro u hx
      split_ifs at hi <;> cases hi
      · exact execRdbyte_next hx
      · exact execRdbit_next hx
    obtain ⟨u, o, hu, -, h⟩ := perform_read he hx h
    refine ⟨u, hu, ?_⟩
    have em : u.marker = s.marker := by rw [hu.same]
    rw [proceed_dTree (s := { u with bioOut := o }) (hu.phase.trans hph)] at h
    cases o with
    | none => cases h; exact .inl rfl
    | eob => cases h; exact .inl rfl
    | value v =>
      dsimp only at h
      split_ifs at h with hm h1
      · exact .inr (.inr (desEnd_next (s := tokenDone u) (desLeaf_post _ _) (fun _ h => desLeaf_whole h) h))
      · cases h; exact .inr (.inl ⟨by simpa [em] using hm, rfl⟩)
      · have e : ({ u with bioOut := .none } : State) = tokenDone u := by
          rw [tokenDone]; rw [show u.marker = false by simpa using hm]
        rw [e] at h
        exact .inr (.inr (desEnd_next (desInt_post _) (fun _ h => desInt_whole h) h))

/-- An operation of the I/O controller, and what the phase does with it, keep the parameters and the events. -/
theorem perform_keeps {i : Instr} {s t : State} (hp : s.cfg.wf = true) (hi : issues s = some i) (h : perform i s = .next t) :
    t.cfg = s.cfg ∧ t.events = s.events := by
  have read : ∀ {u}, OnlyRpos s u → u.cfg = s.cfg ∧ u.events = s.events := fun hu => by rw [hu.same]; exact ⟨rfl, rfl⟩
  have write : ∀ {u}, OutMoved s u → u.cfg = s.cfg ∧ u.events = s.events := fun hu => by rw [hu.same]; exact ⟨rfl, rfl⟩
  have full : FullAfter s t → t.cfg = s.cfg ∧ t.events = s.events := fun ⟨u, hu, _, e⟩ => by
    rw [e]; exact (show u.cfg = s.cfg ∧ u.events = s.events from write hu)
  rcases perform_next hp hi h with ⟨-, u, hu, rfl | ⟨n, hh⟩⟩ | ⟨-, u, hu, rfl | ⟨-, rfl⟩ | ⟨v, hv, rfl | ⟨-, rfl⟩⟩⟩ |
    ⟨-, ⟨u, hu, rfl⟩ | hf⟩ | ⟨-, ⟨u, hu, ⟨-, -, rfl⟩ | ⟨_, rfl⟩⟩ | hf⟩ | ⟨-, ⟨u, hu, rfl⟩ | hf⟩
  · exact (show u.cfg = s.cfg ∧ u.events = s.events from read hu)
  · rcases headerRead_next hh with ⟨-, rfl⟩ | ⟨-, -, rfl⟩ | ⟨-, -, rfl⟩ <;>
      exact (show u.cfg = s.cfg ∧ u.events = s.events from read hu)
  · exact (show u.cfg = s.cfg ∧ u.events = s.events from read hu)
  · exact (show u.cfg = s.cfg ∧ u.events = s.events from read hu)
  · rw [hv.same]; exact (show u.cfg = s.cfg ∧ u.events = s.events from read hu)
  · rw [hv.same]; exact (show u.cfg = s.cfg ∧ u.events = s.events from read hu)
  · exact (show u.cfg = s.cfg ∧ u.events = s.events from write hu.toOutMoved)
  · exact full hf
  · exact (show u.cfg = s.cfg ∧ u.events = s.events from write hu.toOutMoved)
  · exact (show u.cfg = s.cfg ∧ u.events = s.events from write hu.toOutMoved)
  · exact full hf
  · exact (show u.cfg = s.cfg ∧ u.events = s.events from write hu.toOutMoved)
  · exact full hf

/-- An event for an operation of the I/O controller performs the one that comes next, and nothing else (rule R13). -/
theorem bioTurn_next {s t : State} {sel : BitVec 3} {op : Word} (h : bioTurn sel op s = .next t) :
    (∃ i, decode (.bio sel op) = .ok i ∧ issues s = some i ∧ perform i s = .next t) ∨ t = s := by
  rw [bioTurn] at h
  split at h
  · next i hd =>
    split_ifs at h with hi
    · exact .inl ⟨i, hd, hi, h⟩
    · cases h; exact .inr rfl
  · cases h
  · cases h

/-! ### A token -/

/-- RDBITs that succeed stay inside the input. -/
theorem rdBits_room {n : Nat} {s t : State} {bits : List Bool} (h : rdBits n s = .ok bits t) :
    bits.length = n ∧ (s.rpos.toNat ≤ 8 * s.ilen.toNat → s.rpos.toNat + n ≤ 8 * s.ilen.toNat) ∧ t = movePast n s := by
  induction n generalizing s bits with
  | zero => cases h; exact ⟨rfl, id, by simp⟩
  | succ n ih =>
    simp only [rdBits, Flow.bind_eq_ok] at h
    obtain ⟨b, u, hb, bs, v, hbs, h⟩ := h
    cases h
    rw [rdBit] at hb
    split_ifs at hb with hr
    simp only [Flow.bind_eq_ok] at hb
    obtain ⟨byte, w, hw, hb⟩ := hb
    rw [memReadIbuf] at hw
    split_ifs at hw
    cases hw
    cases hb
    have := s.ilen.isLt
    have e : (s.rpos + 1).toNat = s.rpos.toNat + 1 := by rw [BitVec.toNat_add]; simp; omega
    obtain ⟨h1, h2, h3⟩ := ih hbs
    have h2' : s.rpos.toNat + 1 ≤ 8 * s.ilen.toNat → s.rpos.toNat + 1 + n ≤ 8 * s.ilen.toNat := by rw [← e]; exact h2
    refine ⟨by simp [h1], fun _ => by omega, ?_⟩
    rw [h3]
    show movePast n (movePast 1 s) = _
    rw [movePast_movePast, Nat.add_comm]

/-- A turn for one token: an error, the header with its 32 bits in the input, a tree token with its bits in the
input, or the whole phase; no token being half done. -/
theorem tokenTurn_next {s t : State} (hp : s.cfg.wf = true) (hm : s.marker = false) (h : tokenTurn s = .next t) :
    (s.phase = .dHdr ∧ ((∃ u, OnlyRpos s u ∧ t = raise .hdrTrunc u) ∨
      ∃ n, (s.rpos.toNat ≤ 8 * s.ilen.toNat → s.rpos.toNat + 32 ≤ 8 * s.ilen.toNat) ∧
        (headerRead n (movePast 32 s)).outcome = .next t)) ∨
    (s.phase = .dTree ∧ (DesError s t ∨
      ∃ n, (s.rpos.toNat ≤ 8 * s.ilen.toNat → s.rpos.toNat + n ≤ 8 * s.ilen.toNat) ∧
        ((∃ u, DesStep (movePast n s) u ∧ t = u) ∨
          ∃ u, DesStep (movePast n s) u ∧ u.stack = [] ∧ t = { u with phase := .dWalk }))) ∨
    (s.phase ≠ .dHdr ∧ s.phase ≠ .dTree ∧ phaseTurn s = .next t) := by
  rw [tokenTurn, hm] at h
  simp only [Bool.false_eq_true, if_false] at h
  split at h
  · next hph =>
    refine .inl ⟨hph, ?_⟩
    have hpost := rdBits_post 32 s
    cases hr : rdBits 32 s with
    | ok bits u =>
      rw [hr] at h
      obtain ⟨hl, hroom, -⟩ := rdBits_room hr
      simp only [Flow.onEob_ok, tokenTurnOf, decode, decodeHeader, hl, if_true] at h
      rcases execLenhdr_next hp h with ⟨he, -⟩ | ⟨-, hh⟩
      · rw [hph] at he; cases he
      · exact .inr ⟨_, hroom, hh⟩
    | eob u => rw [hr] at h hpost; cases h; exact .inl ⟨u, hpost.1, rfl⟩
    | raised u => rw [hr] at hpost; exact hpost.elim
    | fault r => rw [hr] at h; cases h
    | refused r => rw [hr] at h; cases h
  · next hph =>
    refine .inr (.inl ⟨hph, ?_⟩)
    rw [desRoom] at h
    split_ifs at h
    · rw [Flow.bind_ok] at h
      have hpost : (treeTokenBits s).Post (fun _ => OnlyRpos s) (EobAfter s) Never := by
        rw [treeTokenBits]
        refine (rdBit_post s).bind fun m u hu => ?_
        exact ((rdBits_post _ u).mono (fun _ _ h => hu.trans h) (fun _ h => EobAfter.of_onlyRpos hu h) fun _ h => h).bind
          fun _ _ h => h
      cases hr : treeTokenBits s with
      | ok bits u =>
        rw [hr] at h
        have hr' : ∃ m bs, rdBits (1 + (treeTokenWidth m - 1)) s = .ok bits u ∧ bits = m :: bs := by
          simp only [treeTokenBits, Flow.bind_eq_ok] at hr
          obtain ⟨m, v, hm, bs, w, hb, e⟩ := hr
          cases e
          refine ⟨m, bs, ?_, rfl⟩
          rw [Nat.add_comm, rdBits]
          simp only [hm, Flow.bind_ok, hb]
        obtain ⟨m, bs, hb, rfl⟩ := hr'
        obtain ⟨hl, hroom, -⟩ := rdBits_room hb
        simp only [Flow.onEob_ok, tokenTurnOf] at h
        cases m
        · simp only [treeTokenWidth, List.length_cons] at hl hroom
          have : bs = [] := List.length_eq_zero_iff.mp (by simpa using hl)
          subst this
          have h' : exec .tnodeInt s = .next t := h
          rcases execTnodeInt_next hp h' with ⟨he, -⟩ | ⟨-, hh⟩
          · rw [hph] at he; cases he
          · rcases hh with rfl | hh
            · exact .inl ⟨s, _, DesStep.refl s, .inr rfl, rfl⟩
            · exact .inr ⟨1, hroom, hh⟩
        · simp only [treeTokenWidth, List.length_cons] at hl hroom
          have hl8 : bs.length = 8 := by simpa using hl
          have h' : exec (.tnodeLeaf (bitsValue bs)) s = .next t := by
            simpa [decode, decodeTree, hl8] using h
          rcases execTnodeLeaf_next hp h' with ⟨he, -⟩ | ⟨-, hh⟩
          · rw [hph] at he; cases he
          · rcases hh with rfl | hh
            · exact .inl ⟨s, _, DesStep.refl s, .inr rfl, rfl⟩
            · exact .inr ⟨9, hroom, hh⟩
      | eob u =>
        rw [hr] at h hpost
        cases h
        exact .inl ⟨u, _, hpost.1.desStep, .inl rfl, rfl⟩
      | raised u => rw [hr] at hpost; exact hpost.elim
      | fault r => rw [hr] at h; cases h
      | refused r => rw [hr] at h; cases h
    · cases h
      exact .inl ⟨s, _, DesStep.refl s, .inr rfl, rfl⟩
  · next h1 h2 => exact .inr (.inr ⟨h1, h2, h⟩)

/-! ### Memory keeps its canonical form -/

/-- Every write to a buffer is a `Table.set`, which keeps the canonical form. -/
theorem Memory.wf_set {m : List Host.Cell} (a : Nat) (v : Byte) (h : Memory.wf m) : Memory.wf (Table.set m a v) :=
  Table.rising_set a v h

theorem reset_memory_wf : Memory.wf State.reset.ibuf ∧ Memory.wf State.reset.obuf := by decide

theorem storeByte_memory_wf (v : Byte) (s : State) :
    (storeByte v s).Post (fun _ t => Memory.wf s.obuf → Memory.wf t.obuf) Never
      (fun t => Memory.wf s.obuf → Memory.wf t.obuf) := by
  rw [storeByte]
  split_ifs
  · exact id
  · exact Memory.wf_set _ _

theorem emit_memory_wf (sym : Byte) (s : State) :
    (emit sym s).Post (fun _ t => Memory.wf s.obuf → Memory.wf t.obuf) Never Never := by
  rw [emit]
  split_ifs
  · exact Memory.wf_set _ _
  · trivial

theorem writeIbufByte_memory_wf (a : Nat) (v : Byte) (s : State) (h : Memory.wf s.ibuf) :
    Memory.wf (writeIbufByte a v s).ibuf := by
  rw [writeIbufByte]
  split_ifs
  · exact h
  · exact Memory.wf_set a v h

theorem putIbuf_memory_wf (a : Nat) (vs : List Byte) (s : State) (h : Memory.wf s.ibuf) :
    Memory.wf (putIbuf a vs s).ibuf := by
  induction vs generalizing a s with
  | nil => exact h
  | cons v vs ih => exact ih _ _ (Memory.wf_set a v h)

end Sys2Proof.Machine
end

