-- ==== Sys2Proof/Laws/Order.lean ====
section
/-! SUPPORT. Sys2Proof/Laws/Order.lean: an operation of the I/O controller that the engine performs in a turn of its own
is the one with which its phase goes on: what is left of the phase ends as the whole phase would have (rule R13; log 10). -/

namespace Sys2Proof.Machine

/-! ### The writer and the reader leave the rest of a token alone -/

/-- The state with another stack, marker and header, which neither the reader nor the writer looks at. -/
def beside (fs : List Frame) (m : Bool) (n : Word) (s : State) : State := { s with stack := fs, marker := m, nhdr := n }

theorem storeByte_beside (v : Byte) (fs : List Frame) (m : Bool) (n : Word) (s : State) :
    storeByte v (beside fs m n s) = (storeByte v s).bind fun _ u => .ok () (beside fs m n u) := by
  simp only [storeByte]
  by_cases h : s.cfg.obufCap ≤ s.olen.toNat
  · rw [if_pos h, if_pos (by exact h)]; rfl
  · rw [if_neg h, if_neg (by exact h)]; rfl

theorem wrBit_beside (b : Bool) (fs : List Frame) (m : Bool) (n : Word) (s : State) :
    wrBit b (beside fs m n s) = (wrBit b s).bind fun _ u => .ok () (beside fs m n u) := by
  cases h : s.finalized with
  | true => rw [wrBit_finalized h, wrBit_finalized (s := beside fs m n s) h]; rfl
  | false =>
    rw [wrBit_running h, wrBit_running (s := beside fs m n s) h]
    by_cases h8 : (pended b s).wpos.toNat % 8 = 0
    · rw [if_pos h8, if_pos (by exact h8)]; exact storeByte_beside _ fs m n (pended b s)
    · rw [if_neg h8, if_neg (by exact h8)]; rfl

theorem wrBits_beside (bs : List Bool) (fs : List Frame) (m : Bool) (n : Word) (s : State) :
    wrBits bs (beside fs m n s) = (wrBits bs s).bind fun _ u => .ok () (beside fs m n u) := by
  induction bs generalizing s with
  | nil => rfl
  | cons b bs ih =>
    simp only [wrBits, wrBit_beside]
    cases wrBit b s with
    | ok x u => exact ih u
    | _ => rfl

/-- The state with another marker, which the reader does not look at either. -/
def marked (m : Bool) (s : State) : State := { s with marker := m }

/-- The same outcome, in states with that marker. -/
def Flow.marked {α : Type} (m : Bool) (x : Flow α) : Flow α :=
  match x with
  | .ok a u => .ok a (Machine.marked m u)
  | .eob u => .eob (Machine.marked m u)
  | y => y

theorem rdBit_marked (m : Bool) (s : State) : rdBit (marked m s) = (rdBit s).marked m := by
  simp only [rdBit, memReadIbuf]
  by_cases h : 8 * s.ilen.toNat ≤ s.rpos.toNat
  · rw [if_pos h, if_pos (by exact h)]; rfl
  · rw [if_neg h, if_neg (by exact h)]
    by_cases h' : s.rpos.toNat / 8 < s.cfg.ibufCap
    · rw [if_pos h', if_pos (by exact h')]; rfl
    · rw [if_neg h', if_neg (by exact h')]; rfl

theorem rdBits_marked (n : Nat) (m : Bool) (s : State) : rdBits n (marked m s) = (rdBits n s).marked m := by
  induction n generalizing s with
  | zero => rfl
  | succ n ih =>
    simp only [rdBits, rdBit_marked]
    cases rdBit s with
    | ok b u =>
      simp only [Flow.marked, Flow.bind_ok, ih]
      cases rdBits n u <;> rfl
    | _ => rfl

theorem rdByte_marked (m : Bool) (s : State) : rdByte (marked m s) = (rdByte s).marked m := by
  simp only [rdByte, rdBits_marked]
  cases rdBits 8 s <;> rfl

/-! ### A traversal that has ended is the same with more fuel -/

/-- SER that does not run out of nodes does not look at how many it could have written. -/
theorem serLoop_more {n : Nat} {s : State} (h : ∀ r, serLoop n s ≠ .fault r) : serLoop (n + 1) s = serLoop n s := by
  induction n generalizing s with
  | zero =>
    rw [serLoop] at h
    split_ifs at h with he
    · rw [serLoop_done (List.isEmpty_iff.mp he), serLoop_done (List.isEmpty_iff.mp he)]
    · exact absurd rfl (h _)
  | succ n ih =>
    have tail : ∀ (x : Flow Unit), (∀ r, (x.bind fun _ s => serLoop n s) ≠ .fault r) →
        (x.bind fun _ s => serLoop (n + 1) s) = x.bind fun _ s => serLoop n s := by
      intro x hx
      cases x with
      | ok a u => exact ih hx
      | _ => rfl
    rw [serLoop] at h ⊢
    conv_rhs => rw [serLoop]
    cases hs : s.stack with
    | nil => rfl
    | cons fr rest =>
      simp only [hs] at h ⊢
      cases hn : Table.get? s.node fr.node with
      | none => simp only [nodeAt, hn]; rfl
      | some nd =>
        simp only [nodeAt_some hn, Flow.bind_ok] at h ⊢
        cases nd with
        | leaf sym c q => exact tail _ h
        | internal l r c q => exact tail _ h

theorem bitsLeft_le {s t : State} (h : DesStep s t) : bitsLeft t ≤ bitsLeft s := by
  have := h.forward
  rw [bitsLeft, bitsLeft, show t.ilen = s.ilen by rw [h.same]]; omega

/-- A bit that has been read is one less to read. -/
theorem rdBit_bitsLeft {s t : State} {b : Bool} (h : rdBit s = .ok b t) : bitsLeft t < bitsLeft s := by
  have hp := rdBit_post s
  have hc := rdBit_consumes s
  have hl : ¬ 8 * s.ilen.toNat ≤ s.rpos.toNat := fun hl => by rw [rdBit_eob hl] at h; cases h
  rw [h] at hp hc
  have hc : s.rpos.toNat < t.rpos.toNat := hc
  rw [bitsLeft, bitsLeft, show t.ilen = s.ilen by rw [OnlyRpos.same hp]]; omega

theorem desToken_bitsLeft {s t : State} {whole : Bool} (h : desToken s = .ok whole t) : bitsLeft t < bitsLeft s := by
  rw [desToken, desRoom] at h
  split_ifs at h
  · rw [Flow.bind_ok] at h
    cases hb : rdBit s with
    | ok m u =>
      rw [hb, Flow.onEob_ok, Flow.bind_ok] at h
      refine lt_of_le_of_lt ?_ (rdBit_bitsLeft hb)
      split_ifs at h
      · have hy := rdByte_post u
        cases hr : rdByte u with
        | ok sym v =>
          rw [hr] at h hy
          have hd := desLeaf_post sym v
          rw [show desLeaf sym v = .ok whole t from h] at hd
          exact bitsLeft_le ((OnlyRpos.desStep hy).trans hd)
        | eob v => rw [hr] at h; cases h
        | raised v => rw [hr] at h; cases h
        | fault r => rw [hr] at h; cases h
        | refused r => rw [hr] at h; cases h
      · have hd := desInt_post u
        rw [h] at hd
        exact bitsLeft_le hd
    | eob u => rw [hb] at h; cases h
    | raised u => rw [hb] at h; cases h
    | fault r => rw [hb] at h; cases h
    | refused r => rw [hb] at h; cases h
  · cases h

/-- DES ends long before it runs out of bits, so with more it ends in the same way. -/
theorem desLoop_more {n m : Nat} {s : State} (hn : bitsLeft s ≤ n) (hm : bitsLeft s ≤ m) : desLoop n s = desLoop m s := by
  induction n generalizing m s with
  | zero => rw [bitsLeft] at hn; omega
  | succ n ih =>
    obtain ⟨m, rfl⟩ : ∃ k, m = k + 1 := ⟨m - 1, by rw [bitsLeft] at hm; omega⟩
    rw [desLoop, desLoop]
    cases ht : desToken s with
    | ok whole t =>
      have := desToken_bitsLeft ht
      rw [Flow.bind_ok, Flow.bind_ok, ih (s := t) (m := m) (by omega) (by omega)]
    | _ => rfl

/-! ### The two ways to perform a phase -/

/-- The rest of the phase, after an operation that the phase goes on with. -/
def GoesOn (s t v : State) : Prop :=
  (t.phase = s.phase → engineTurn t = .next v) ∧ (t.phase ≠ s.phase → t = v)

/-- The same where no token is half done. -/
def WholeGoesOn (s t v : State) : Prop :=
  (t.phase = s.phase → t.marker = false ∧ phaseTurn t = .next v) ∧ (t.phase ≠ s.phase → t = v)

theorem WholeGoesOn.goesOn {s t v : State} (h : WholeGoesOn s t v) : GoesOn s t v :=
  ⟨fun e => by rw [engineTurn_whole (h.1 e).1, (h.1 e).2], h.2⟩

/-- The second half of a token, and what is left of the phase, are one turn of the engine. -/
theorem WholeGoesOn.after {s t u v : State} {i : Instr} (hm : t.marker = true) (hp : t.phase = s.phase) (hi : issues t = some i)
    (hu : perform i t = .next u) (h : WholeGoesOn s u v) : engineTurn t = .next v := by
  rw [engineTurn, if_pos hm, finishToken_some hi, hu]
  dsimp only
  rw [hp]
  split_ifs with he
  · exact (h.1 he).2
  · rw [h.2 he]

theorem WholeGoesOn.over {s v : State} (h : v.phase ≠ s.phase) : WholeGoesOn s v v := ⟨fun e => absurd e h, fun _ => rfl⟩

theorem GoesOn.over {s v : State} (h : v.phase ≠ s.phase) : GoesOn s v v := ⟨fun e => absurd e h, fun _ => rfl⟩

/-- E_HDR, E_FIN and D_HDR issue one operation, which ends them. -/
theorem perform_eHdr {s v : State} (hp : s.cfg.wf = true) (hph : s.phase = .eHdr) (h : exec .eHdr s = .next v) :
    perform (.wru32 s.ilen.toNat) s = .next v := by
  have h : (writeHeader s.ilen s).outcome = .next v := h
  have e : ({ s with nhdr := s.ilen } : State) = beside s.stack s.marker s.ilen s := rfl
  rw [writeHeader, wrU32_eq, e, wrBits_beside] at h
  have hx : exec (.wru32 s.ilen.toNat) s = (wrBits (bitsMsb 32 s.ilen.toNat) s).outcome := by
    show (wrU32 (BitVec.ofNat 32 s.ilen.toNat) s).outcome = _
    rw [wrU32_eq, BitVec.ofNat_toNat, BitVec.setWidth_eq]
  have hpost := wrBits_post (bs := bitsMsb 32 s.ilen.toNat) hp
  rw [perform, hx]
  cases hw : wrBits (bitsMsb 32 s.ilen.toNat) s with
  | ok a u =>
    rw [hw] at h hpost
    have hu : OnlyOut s u := hpost
    simp only [Flow.outcome]
    rw [if_neg (by rw [hu.phase, hph]; simp), proceed_eHdr (hu.phase.trans hph), ← h]
    rw [hu.same]; rfl
  | eob u => rw [hw] at hpost; exact hpost.elim
  | raised u =>
    rw [hw] at h hpost
    have hu : FullAfter s u := hpost
    simp only [Flow.outcome]
    rw [if_pos hu.phase, ← h]; rfl
  | fault r => rw [hw] at h; cases h
  | refused r => rw [hw] at h; cases h

theorem perform_eFin {s v : State} (hp : s.cfg.wf = true) (hph : s.phase = .eFin) (h : exec .eFin s = .next v) :
    perform .finalize s = .next v := by
  have h : ((finalizeOp s).bind fun _ s => .ok () (finishEncode s)).outcome = .next v := h
  have hpost := finalizeOp_post hp
  rw [perform, show exec .finalize s = (finalizeOp s).outcome from rfl]
  cases hw : finalizeOp s with
  | ok a u =>
    rw [hw] at h hpost
    have hu : OnlyOut s u := hpost
    simp only [Flow.outcome]
    rw [if_neg (by rw [hu.phase, hph]; simp), proceed_eFin (hu.phase.trans hph), ← h]; rfl
  | eob u => rw [hw] at hpost; exact hpost.elim
  | raised u =>
    rw [hw] at h hpost
    have hu : FullAfter s u := hpost
    simp only [Flow.outcome]
    rw [if_pos hu.phase, ← h]; rfl
  | fault r => rw [hw] at h; cases h
  | refused r => rw [hw] at h; cases h

theorem perform_dHdr {s v : State} (ho : s.bioOut = .none) (hph : s.phase = .dHdr) (h : exec .dHdr s = .next v) :
    perform .rdu32 s = .next v := by
  have h : (((rdU32 s).onEob .hdrTrunc).bind fun n s => headerRead n s).outcome = .next v := h
  have hpost := rdU32_post s
  have back : ∀ u, OnlyRpos s u → ∀ o, ({ { u with bioOut := o } with bioOut := .none } : State) = u := by
    intro u hu o
    rw [hu.same]; simp only [ho]
  rw [perform, show exec .rdu32 s = readOutcome (fun v => v) (rdU32 s) from rfl]
  cases hw : rdU32 s with
  | ok n u =>
    rw [hw] at h hpost
    have hu : OnlyRpos s u := hpost
    simp only [readOutcome]
    rw [if_neg (by rw [hu.phase, hph]; simp), proceed_dHdr (s := { u with bioOut := .value n }) (hu.phase.trans hph)]
    simp only [back u hu]
    exact h
  | eob u =>
    rw [hw] at h hpost
    have hu : OnlyRpos s u := hpost.1
    simp only [readOutcome]
    rw [if_neg (by rw [hu.phase, hph]; simp), proceed_dHdr (s := { u with bioOut := .eob }) (hu.phase.trans hph)]
    simp only [back u hu]
    exact h
  | raised u => rw [hw] at hpost; exact hpost.elim
  | fault r => rw [hw] at h; cases h
  | refused r => rw [hw] at h; cases h

/-- The token of a node, and then the rest of SER. -/
def serFrom (n : Nat) (rest : List Frame) (s : State) : Node → Flow Unit
  | .leaf sym _ _ => (writeLeaf sym { s with stack := rest }).bind fun _ s => serLoop n s
  | .internal l r _ _ => (writeInt { s with stack := Frame.at l :: Frame.at r :: rest }).bind fun _ s => serLoop n s

/-- E_TREE goes on with the node that comes next. -/
theorem serTree_next {s : State} {nd : Node} {rest : List Frame} (h : serNext s = some (nd, rest)) :
    ∃ n, s.node.length = n + 1 ∧ serTree s = serFrom n rest s nd := by
  have some_length : ∀ {i}, Table.get? s.node i = some nd → ∃ n, s.node.length = n + 1 := by
    intro i hi
    have := List.length_pos_of_mem (Table.mem_of_get? hi)
    exact ⟨s.node.length - 1, by omega⟩
  have token : ∀ {fr : Frame} {n : Nat} {u : State}, u.stack = fr :: rest → withStack rest u = withStack rest s →
      Table.get? u.node fr.node = some nd → serLoop (n + 1) u = serFrom n rest s nd := by
    intro fr n u hu he hg
    have hw : ∀ fs, withStack fs u = withStack fs s := fun fs => by
      rw [← withStack_withStack fs rest u, he, withStack_withStack]
    rw [serLoop, hu]
    dsimp only
    rw [nodeAt_some hg, Flow.bind_ok]
    cases nd with
    | leaf sym c q => exact congrArg (fun v => (writeLeaf sym v).bind fun _ s => serLoop n s) (hw _)
    | internal l r c q => exact congrArg (fun v => (writeInt v).bind fun _ s => serLoop n s) (hw _)
  rw [serNext] at h
  cases hs : s.stack with
  | cons fr rest' =>
    rw [hs] at h
    obtain ⟨nd', hg, he⟩ := Option.map_eq_some_iff.mp h
    cases he
    obtain ⟨n, hn⟩ := some_length hg
    exact ⟨n, hn, by rw [serTree_more (by rw [hs]; simp), hn]; exact token hs rfl hg⟩
  | nil =>
    rw [hs] at h
    obtain ⟨r, hr, h⟩ := Option.bind_eq_some_iff.mp h
    obtain ⟨nd', hg, he⟩ := Option.map_eq_some_iff.mp h
    cases he
    obtain ⟨n, hn⟩ := some_length hg
    exact ⟨n, hn, by rw [serTree_some hs hr, hn]; exact token (u := withStack [Frame.at r] s) rfl rfl hg⟩

/-- After a token of E_TREE. -/
theorem serEnd_goesOn {n : Nat} {rest : List Frame} {s u v : State} (hs : s.phase = .eTree) (hu : u.phase = .eTree)
    (hn : u.node.length = n + 1)
    (h : ((serLoop n (beside rest false u.nhdr u)).bind fun _ s => .ok () { s with phase := .ePack }).outcome = .next v) :
    WholeGoesOn s (serEnd rest u) v := by
  cases rest with
  | nil =>
    rw [serLoop_done (s := beside [] false u.nhdr u) rfl] at h
    cases h
    exact WholeGoesOn.over (by rw [hs]; exact (by simp : Phase.ePack ≠ .eTree))
  | cons fr rest =>
    have e : serEnd (fr :: rest) u = beside (fr :: rest) false u.nhdr u := rfl
    refine ⟨fun _ => ⟨rfl, ?_⟩, fun hp => absurd (show (serEnd (fr :: rest) u).phase = s.phase from hu.trans hs.symm) hp⟩
    have hx : phaseTurn (serEnd (fr :: rest) u) = exec .eTree (serEnd (fr :: rest) u) := by
      rw [phaseTurn, show (serEnd (fr :: rest) u).phase = .eTree from hu]; rfl
    rw [hx]
    show ((serTree _).bind _).outcome = _
    rw [serTree_more (s := serEnd (fr :: rest) u) (by simp [serEnd]), e,
      show (beside (fr :: rest) false u.nhdr u).node.length = n + 1 from hn, serLoop_more, h]
    intro r hr
    rw [hr] at h; cases h

theorem perform_eTree {s v : State} {i : Instr} (hp : s.cfg.wf = true) (hph : s.phase = .eTree) (hm : s.marker = false)
    (hi : issues s = some i) (h : exec .eTree s = .next v) : ∃ t, perform i s = .next t ∧ GoesOn s t v := by
  rw [issues_eTree hph] at hi
  obtain ⟨⟨nd, rest⟩, hsn, hi⟩ := Option.map_eq_some_iff.mp hi
  obtain ⟨n, hn, hser⟩ := serTree_next hsn
  have h : ((serTree s).bind fun _ s => .ok () { s with phase := .ePack }).outcome = .next v := h
  rw [hser] at h
  have he : s.phase ≠ .error := by rw [hph]; simp
  cases nd with
  | internal l r c q =>
    cases hi
    have e : ({ s with stack := Frame.at l :: Frame.at r :: rest } : State) =
      beside (Frame.at l :: Frame.at r :: rest) false s.nhdr s := by rw [beside, ← hm]
    simp only [serFrom, writeInt, e, wrBit_beside] at h
    have hpost := wrBit_post (b := false) hp
    rw [perform, show exec (.wrbit false) s = (wrBit false s).outcome from rfl]
    cases hw : wrBit false s with
    | ok a u =>
      rw [hw] at h hpost
      have hu : OnlyOut s u := hpost
      have eu : u.nhdr = s.nhdr := by rw [hu.same]
      simp only [Flow.outcome_ok]
      rw [if_neg (by rw [hu.phase]; exact he), proceed_eTree (hu.phase.trans hph),
        show serNext u = serNext s by rw [hu.same]; rfl, hsn]
      refine ⟨_, rfl, (serEnd_goesOn hph (hu.phase.trans hph) (n := n) (by rw [← hn, hu.same]) ?_).goesOn⟩
      rw [eu]; exact h
    | eob u => rw [hw] at hpost; exact hpost.elim
    | raised u =>
      rw [hw] at h hpost
      have hu : FullAfter s u := hpost
      cases h
      exact ⟨_, by simp only [Flow.outcome_raised]; rw [if_pos hu.phase], GoesOn.over (by rw [hu.phase, hph]; simp)⟩
    | fault r => rw [hw] at h; cases h
    | refused r => rw [hw] at h; cases h
  | leaf sym c q =>
    simp only [hm, Bool.false_eq_true, if_false] at hi
    cases hi
    have e : ({ s with stack := rest } : State) = beside rest false s.nhdr s := by rw [beside, ← hm]
    simp only [serFrom, writeLeaf, e, wrBit_beside] at h
    have hpost := wrBit_post (b := true) hp
    rw [perform, show exec (.wrbit true) s = (wrBit true s).outcome from rfl]
    cases hw : wrBit true s with
    | ok a u =>
      rw [hw] at h hpost
      have hu : OnlyOut s u := hpost
      have eu : u.nhdr = s.nhdr := by rw [hu.same]
      have em : u.marker = false := by rw [hu.same]; exact hm
      have esn : serNext u = some (.leaf sym c q, rest) := by rw [← hsn, hu.same]; rfl
      simp only [Flow.outcome_ok]
      rw [if_neg (by rw [hu.phase]; exact he), proceed_eTree (hu.phase.trans hph), esn]
      simp only [em, Bool.false_eq_true, if_false, Flow.outcome_ok]
      refine ⟨_, rfl, fun _ => ?_, fun hp => absurd hu.phase hp⟩
      -- The symbol comes next.
      let t : State := { u with marker := true }
      show engineTurn t = _
      have ht : issues t = some (.wrbyte sym.toNat) := by
        rw [issues_eTree (s := t) (hu.phase.trans hph), show serNext t = some (.leaf sym c q, rest) from esn]; rfl
      have et : t = beside u.stack true u.nhdr u := rfl
      simp only [Flow.bind_ok, wrByte, wrBits_beside] at h
      have hpost' := wrBits_post (bs := byteBits sym) (s := u) (by rw [hu.cfg]; exact hp)
      suffices ∃ x, perform (.wrbyte sym.toNat) t = .next x ∧ WholeGoesOn s x v by
        obtain ⟨x, hx, hgo⟩ := this
        exact hgo.after rfl hu.phase ht hx
      rw [perform, show exec (.wrbyte sym.toNat) t = (wrBits (byteBits sym) t).outcome by
          show (wrByte (BitVec.ofNat 8 sym.toNat) t).outcome = _
          rw [BitVec.ofNat_toNat, BitVec.setWidth_eq]; rfl, et, wrBits_beside]
      cases hy : wrBits (byteBits sym) u with
      | ok a w =>
        rw [hy] at h hpost'
        have hw' : OnlyOut u w := hpost'
        have hwp : w.phase = .eTree := hw'.phase.trans (hu.phase.trans hph)
        have ew : w.nhdr = s.nhdr := by rw [hw'.same]; exact eu
        simp only [Flow.bind_ok, Flow.outcome_ok]
        rw [if_neg (show (beside u.stack true u.nhdr w).phase ≠ .error by rw [show (beside u.stack true u.nhdr w).phase = w.phase from rfl, hwp]; simp),
          proceed_eTree (s := beside u.stack true u.nhdr w) hwp,
          show serNext (beside u.stack true u.nhdr w) = some (.leaf sym c q, rest) by
            rw [← esn, hw'.same]; rfl]
        simp only [show (beside u.stack true u.nhdr w).marker = true from rfl, if_true, Flow.outcome_ok]
        have es : serEnd rest (beside u.stack true u.nhdr w) = serEnd rest w := by
          rw [hw'.same]; rfl
        rw [es]
        exact ⟨_, rfl, serEnd_goesOn (n := n) hph hwp (by rw [← hn, hw'.same, hu.same]) (by rw [ew]; exact h)⟩
      | eob w => rw [hy] at hpost'; exact hpost'.elim
      | raised w =>
        rw [hy] at h hpost'
        have hw' : FullAfter u w := hpost'
        cases h
        exact ⟨_, by simp only [Flow.bind_raised, Flow.outcome_raised]; rw [if_pos hw'.phase],
          WholeGoesOn.over (by rw [hw'.phase, hph]; simp)⟩
      | fault r => rw [hy] at h; cases h
      | refused r => rw [hy] at h; cases h
    | eob u => rw [hw] at hpost; exact hpost.elim
    | raised u =>
      rw [hw] at h hpost
      have hu : FullAfter s u := hpost
      cases h
      exact ⟨_, by simp only [Flow.outcome_raised]; rw [if_pos hu.phase], GoesOn.over (by rw [hu.phase, hph]; simp)⟩
    | fault r => rw [hw] at h; cases h
    | refused r => rw [hw] at h; cases h

/-- After a token of D_TREE that has been read. -/
theorem desEnd_goesOn {n : Nat} {s u v : State} {x : Flow Bool} (hs : s.phase = .dTree) (hu : u.phase = .dTree)
    (hm : u.marker = false) (hn : bitsLeft u ≤ n) (hx : x.Post (fun _ => DesStep u) Never Never)
    (h : ((x.bind fun whole s => if whole then .ok () s else desLoop n s).bind
      fun _ s => .ok () { s with phase := .dWalk }).outcome = .next v) :
    ∃ t, (desEnd x).outcome = .next t ∧ WholeGoesOn s t v := by
  cases x with
  | ok whole w =>
    have hw : DesStep u w := hx
    have hp : w.phase = .dTree := by rw [hw.same]; exact hu
    cases whole with
    | true => cases h; exact ⟨_, rfl, WholeGoesOn.over (by rw [hs]; exact (by simp : Phase.dWalk ≠ .dTree))⟩
    | false =>
      refine ⟨w, rfl, fun _ => ⟨by rw [hw.same]; exact hm, ?_⟩, fun e => absurd (hp.trans hs.symm) e⟩
      have he : phaseTurn w = exec .dTree w := by rw [phaseTurn, hp]; rfl
      rw [he, ← h]
      show ((desLoop (bitsLeft w) w).bind _).outcome = _
      rw [desLoop_more (m := n) le_rfl ((bitsLeft_le hw).trans hn)]; rfl
  | eob w => exact hx.elim
  | raised w => exact hx.elim
  | fault r => cases h
  | refused r => cases h

/-- The symbol of a leaf whose marker has been read. -/
theorem perform_rdbyte {n : Nat} {s u v : State} (hs : s.phase = .dTree) (hu : u.phase = .dTree) (hm : u.marker = false)
    (ho : u.bioOut = .none) (hn : bitsLeft u ≤ n)
    (h : (((((rdByte u).onEob .treeTrunc).bind fun sym s => desLeaf sym s).bind
      fun whole s => if whole then .ok () s else desLoop n s).bind fun _ s => .ok () { s with phase := .dWalk }).outcome =
        .next v) :
    ∃ t, perform .rdbyte (marked true u) = .next t ∧ WholeGoesOn s t v := by
  have hpost := rdByte_post u
  have back : ∀ w, OnlyRpos u w → ∀ o, tokenDone { marked true w with bioOut := o } = w := by
    intro w hw o
    rw [hw.same]; simp only [tokenDone, marked, ← ho, ← hm]
  rw [perform, show exec .rdbyte (marked true u) = readOutcome (fun v => v.setWidth 32) (rdByte (marked true u)) from rfl,
    rdByte_marked]
  cases hr : rdByte u with
  | ok sym w =>
    rw [hr] at h hpost
    have hw : OnlyRpos u w := hpost
    have hwp : w.phase = .dTree := hw.phase.trans hu
    simp only [Flow.marked, readOutcome]
    rw [if_neg (show (marked true w).phase ≠ .error by rw [show (marked true w).phase = w.phase from rfl, hwp]; simp),
      proceed_dTree (s := { marked true w with bioOut := .value (sym.setWidth 32) }) hwp]
    simp only [back w hw]
    rw [if_pos (show ({ marked true w with bioOut := .value (sym.setWidth 32) } : State).marker = true from rfl), show (sym.setWidth 32).setWidth 8 = sym by simp]
    exact desEnd_goesOn hs hwp (by rw [hw.same]; exact hm) ((bitsLeft_le hw.desStep).trans hn) (desLeaf_post sym w) h
  | eob w =>
    rw [hr] at h hpost
    have hw : OnlyRpos u w := hpost.1
    have hwp : w.phase = .dTree := hw.phase.trans hu
    simp only [Flow.marked, readOutcome]
    rw [if_neg (show (marked true w).phase ≠ .error by rw [show (marked true w).phase = w.phase from rfl, hwp]; simp),
      proceed_dTree (s := { marked true w with bioOut := .eob }) hwp]
    cases h
    refine ⟨_, rfl, ?_⟩
    have e : raise .treeTrunc { { marked true w with bioOut := .eob } with bioOut := .none } = raise .treeTrunc w := by
      rw [hw.same]; simp only [raise, marked, ← ho]
    rw [e]
    exact WholeGoesOn.over (by rw [hs]; exact (by simp : Phase.error ≠ .dTree))
  | raised w => rw [hr] at hpost; exact hpost.elim
  | fault r => rw [hr] at h; cases h
  | refused r => rw [hr] at h; cases h

theorem perform_dTree {s v : State} (ho : s.bioOut = .none) (hph : s.phase = .dTree) (hm : s.marker = false)
    (hf : nodeFits s.seq s = true) (h : exec .dTree s = .next v) : ∃ t, perform .rdbit s = .next t ∧ GoesOn s t v := by
  have h : ((desLoop (bitsLeft s) s).bind fun _ s => .ok () { s with phase := .dWalk }).outcome = .next v := h
  obtain ⟨n, hn⟩ : ∃ n, bitsLeft s = n + 1 := ⟨_, rfl⟩
  rw [hn, desLoop, desToken, desRoom, if_pos hf, Flow.bind_ok] at h
  have hpost := rdBit_post s
  have back : ∀ u, OnlyRpos s u → ∀ o, ({ { u with bioOut := o } with bioOut := .none } : State) = u := by
    intro u hu o
    rw [hu.same]; simp only [← ho]
  rw [perform, show exec .rdbit s = readOutcome (fun b => BitVec.ofNat 32 b.toNat) (rdBit s) from rfl]
  cases hr : rdBit s with
  | ok b u =>
    have hlt := rdBit_bitsLeft hr
    rw [hr] at h hpost
    have hu : OnlyRpos s u := hpost
    have hup : u.phase = .dTree := hu.phase.trans hph
    have hum : u.marker = false := by rw [hu.same]; exact hm
    simp only [readOutcome]
    rw [if_neg (by rw [hu.phase, hph]; simp), proceed_dTree (s := { u with bioOut := .value (BitVec.ofNat 32 b.toNat) }) hup]
    dsimp only
    rw [if_neg (by rw [hum]; simp), back u hu]
    rw [Flow.onEob_ok, Flow.bind_ok] at h
    cases b with
    | false =>
      rw [if_neg (by decide)]
      obtain ⟨t, ht, hgo⟩ := desEnd_goesOn hph hup hum (by omega) (desInt_post u) h
      exact ⟨t, ht, hgo.goesOn⟩
    | true =>
      rw [if_pos (by decide)]
      have e : ({ { u with bioOut := .value (BitVec.ofNat 32 true.toNat) } with bioOut := .none, marker := true } : State) =
          marked true u := by
        rw [hu.same]; simp only [marked, ← ho]
      rw [e]
      refine ⟨_, rfl, fun _ => ?_, fun e => absurd (hup.trans hph.symm) e⟩
      obtain ⟨t, ht, hgo⟩ := perform_rdbyte hph hup hum (by rw [hu.same]; exact ho) (n := n) (by omega) h
      have hi : issues (marked true u) = some .rdbyte := by
        rw [issues, show (marked true u).phase = .dTree from hup]; rfl
      exact hgo.after rfl (hup.trans hph.symm) hi ht
  | eob u =>
    rw [hr] at h hpost
    have hu : OnlyRpos s u := hpost.1
    simp only [readOutcome]
    rw [if_neg (by rw [hu.phase, hph]; simp), proceed_dTree (s := { u with bioOut := .eob }) (hu.phase.trans hph)]
    simp only [back u hu]
    cases h
    exact ⟨_, rfl, GoesOn.over (by rw [hph]; exact (by simp : Phase.error ≠ .dTree))⟩
  | raised u => rw [hr] at hpost; exact hpost.elim
  | fault r => rw [hr] at h; cases h
  | refused r => rw [hr] at h; cases h

/-- A token that is half done: its second half, and what is left of the phase. -/
theorem perform_marked {s v : State} {i : Instr} (hp : s.cfg.wf = true) (hm : s.marker = true) (hi : issues s = some i)
    (hl : issues s = some .rdbyte ∨ ∃ n, issues s = some (.wrbyte n)) (h : engineTurn s = .next v) :
    ∃ t, perform i s = .next t ∧ GoesOn s t v := by
  obtain ⟨hm', -⟩ | ⟨-, u, hu, hv⟩ := engineTurn_next h
  · rw [hm] at hm'; cases hm'
  rw [finishToken_some hi] at hu
  refine ⟨u, hu, fun e => ?_, fun e => ?_⟩
  · rcases hv with ⟨-, hv⟩ | ⟨hne, -⟩
    · rw [engineTurn_whole, hv]
      -- The token is done.
      obtain ⟨hph, -⟩ | ⟨hph, w, -, hw⟩ | ⟨hph, -⟩ | ⟨hph, hw⟩ | ⟨hph, -⟩ := perform_next hp hi hu
      · rcases hl with hl | ⟨n, hl⟩ <;> simp [issues, hph] at hl
      · rcases hw with rfl | ⟨hm', -⟩ | ⟨x, hx, rfl | ⟨-, rfl⟩⟩
        · rfl
        · rw [hm] at hm'; cases hm'
        · rw [hx.same]; rfl
        · show x.marker = false; rw [hx.same]; rfl
      · rcases hl with hl | ⟨n, hl⟩ <;> simp [issues, hph] at hl
      · rcases hw with ⟨w, hw, ⟨hm', -⟩ | ⟨rest, rfl⟩⟩ | hw
        · rw [hm] at hm'; cases hm'
        · rfl
        · obtain ⟨_, _, _, rfl⟩ := hw; rfl
      · rcases hl with hl | ⟨n, hl⟩ <;> simp [issues, hph] at hl
    · exact absurd e hne
  · rcases hv with ⟨he, -⟩ | ⟨-, rfl⟩
    · exact absurd he e
    · rfl

/-- The order of rule R13: whether the engine performs its phase in one turn or issues the next operation of the I/O
controller in a turn of its own, it ends in the same state. -/
theorem perform_goesOn {s v : State} {i : Instr} (hp : s.cfg.wf = true) (ho : s.bioOut = .none)
    (hl : s.marker = true → issues s = some .rdbyte ∨ ∃ n, issues s = some (.wrbyte n)) (hi : issues s = some i)
    (h : engineTurn s = .next v) : ∃ t, perform i s = .next t ∧ GoesOn s t v := by
  cases hm : s.marker with
  | true => exact perform_marked hp hm hi (hl hm) h
  | false =>
    rw [engineTurn_whole hm] at h
    have hi' := hi
    have whole : ∀ {j : Instr}, perform j s = .next v → i = j → v.phase ≠ s.phase → ∃ t, perform i s = .next t ∧ GoesOn s t v :=
      fun hx e hv => ⟨v, e ▸ hx, GoesOn.over hv⟩
    cases hph : s.phase <;> simp only [issues, hph, hm, Bool.false_eq_true, if_false, reduceCtorEq] at hi <;>
      rw [phaseTurn, hph] at h
    · cases hi
      refine whole (perform_eHdr hp hph h) rfl ?_
      rcases execEHdr_next hp h with ⟨u, -, rfl⟩ | hf
      · rw [hph]; exact (by simp : Phase.eTree ≠ .eHdr)
      · rw [hf.phase, hph]; simp
    · exact perform_eTree hp hph hm hi' h
    · cases hi
      refine whole (perform_eFin hp hph h) rfl ?_
      rcases execEFin_next hp h with ⟨u, -, rfl⟩ | hf
      · rw [hph]; exact (by simp : Phase.done ≠ .eFin)
      · rw [hf.phase, hph]; simp
    · cases hi
      refine whole (perform_dHdr ho hph h) rfl ?_
      rcases execDHdr_next h with ⟨u, -, rfl⟩ | ⟨u, n, -, h⟩
      · rw [hph]; exact (by simp : Phase.error ≠ .dHdr)
      · rw [hph]
        rcases headerRead_next h with ⟨-, rfl⟩ | ⟨-, -, rfl⟩ | ⟨-, -, rfl⟩
        · exact (by simp : Phase.error ≠ .dHdr)
        · exact (by simp : Phase.done ≠ .dHdr)
        · exact (by simp : Phase.dTree ≠ .dHdr)
    · split_ifs at hi with hf
      cases hi
      exact perform_dTree ho hph hm hf h

end Sys2Proof.Machine
end

