-- ==== Sys2Proof/Laws/PerInstr.lean ====
section
/-! SUPPORT. Sys2Proof/Laws/PerInstr.lean: a law stated for each operation: its encoding has the bits that its row of the
opcode table has. -/

namespace Sys2Proof.Laws

/-- How many bits of the opcode table's numbering a word of each format has. The operand lines of the `BIO` format have
no bits there (rule R94). -/
def codeBits : Code → Nat
  | .cmd _ => 32
  | .phase _ => 4
  | .bio _ _ => 3
  | .header bits => bits.length
  | .tree bits => bits.length

/-- The width of an operation's row (rules R91, R93, R94, R95, R96, R97). -/
def rowBits : Instr → Nat
  | .encode _ _ _ | .decode _ _ _ | .lenhdr _ => 32
  | .eCount | .eBuild | .eGen | .eHdr | .eTree | .ePack | .eFin | .dHdr | .dTree | .dWalk => 4
  | .rdbit | .rdbyte | .rdu32 | .wrbit _ | .wrbyte _ | .wru32 _ | .finalize => 3
  | .tnodeInt => 1
  | .tnodeLeaf _ => 9

/-- The encoding of the operation has the width of its row. -/
def Width.Statement (i : Instr) : Prop := codeBits (Sys2Proof.encode i) = rowBits i

theorem Width.encode (f c b : Bool) : Width.Statement (.encode f c b) := rfl
theorem Width.decode (f c b : Bool) : Width.Statement (.decode f c b) := rfl
theorem Width.eCount : Width.Statement .eCount := rfl
theorem Width.eBuild : Width.Statement .eBuild := rfl
theorem Width.eGen : Width.Statement .eGen := rfl
theorem Width.eHdr : Width.Statement .eHdr := rfl
theorem Width.eTree : Width.Statement .eTree := rfl
theorem Width.ePack : Width.Statement .ePack := rfl
theorem Width.eFin : Width.Statement .eFin := rfl
theorem Width.dHdr : Width.Statement .dHdr := rfl
theorem Width.dTree : Width.Statement .dTree := rfl
theorem Width.dWalk : Width.Statement .dWalk := rfl
theorem Width.rdbit : Width.Statement .rdbit := rfl
theorem Width.rdbyte : Width.Statement .rdbyte := rfl
theorem Width.rdu32 : Width.Statement .rdu32 := rfl
theorem Width.wrbit (b : Bool) : Width.Statement (.wrbit b) := rfl
theorem Width.wrbyte (v : Nat) : Width.Statement (.wrbyte v) := rfl
theorem Width.wru32 (v : Nat) : Width.Statement (.wru32 v) := rfl
theorem Width.finalize : Width.Statement .finalize := rfl
theorem Width.lenhdr (n : Nat) : Width.Statement (.lenhdr n) := Machine.length_bitsMsb 32 n
theorem Width.tnodeInt : Width.Statement .tnodeInt := rfl
theorem Width.tnodeLeaf (s : Nat) : Width.Statement (.tnodeLeaf s) := by
  simp [Width.Statement, Sys2Proof.encode, codeBits, rowBits, Machine.length_bitsMsb]

end Sys2Proof.Laws
end

