-- ==== Sys2Proof/Laws/PhaseWidths.lean ====
section
/-! SUPPORT. Sys2Proof/Laws/PhaseWidths.lean: every operation keeps the widths of rule R11: what each shared operation
makes fits where what it found fits. -/

namespace Sys2Proof.Machine

/-- However an operation ends, what the state then holds fits. -/
abbrev Flow.Fits {α : Type} (x : Flow α) : Prop := x.Post (fun _ => WidthInv) WidthInv WidthInv

theorem Flow.Fits.bind {α β : Type} {x : Flow α} {f : α → State → Flow β} (hx : x.Fits)
    (hf : ∀ a s, WidthInv s → (f a s).Fits) : (x.bind f).Fits := Flow.Post.bind hx hf

/-- A node that was read is allocated. -/
theorem nodeAt_bind_fits {α : Type} {p : Option Nat} {s : State} {f : Node → State → Flow α}
    (h : ∀ i n, p = some i → Table.get? s.node i = some n → (f n s).Fits) : ((nodeAt p s).bind f).Fits :=
  nodeAt_bind_post h

theorem Flow.Fits.next {x : Flow Unit} {t : State} (hx : x.Fits) (h : x.outcome = .next t) : WidthInv t := by
  cases x <;> cases h <;> exact hx

/-- An EOB that becomes an error fits. -/
theorem Flow.Fits.onEob {α : Type} {x : Flow α} {c : Cause} (hx : x.Fits) : (x.onEob c).Fits := by
  cases x <;> first | exact WidthInv.raise c _ | exact hx

/-! ### The reader and the writer -/

theorem OnlyRpos.fits {s t : State} (h : OnlyRpos s t) (hs : WidthInv s) : WidthInv t := by
  rw [h.same]; exact hs.congr rfl rfl rfl rfl rfl rfl rfl rfl

theorem OnlyOut.fitsWidths {s t : State} (h : OnlyOut s t) (hs : WidthInv s) : WidthInv t := by
  rw [h.same]; exact hs.congr rfl rfl rfl rfl rfl rfl rfl rfl

theorem FullAfter.fitsWidths {s t : State} (h : FullAfter s t) : WidthInv t := by
  obtain ⟨u, -, -, rfl⟩ := h
  exact WidthInv.raise _ _

theorem rdBit_fits {s : State} (hs : WidthInv s) : (rdBit s).Fits :=
  (rdBit_post s).mono (fun _ _ h => h.fits hs) (fun _ h => h.1.fits hs) fun _ h => h.elim

theorem rdByte_fits {s : State} (hs : WidthInv s) : (rdByte s).Fits :=
  (rdByte_post s).mono (fun _ _ h => h.fits hs) (fun _ h => h.1.fits hs) fun _ h => h.elim

/-! ### The tree builder -/

theorem addNode_fits {n : Nat → Node} {s : State} (hs : WidthInv s)
    (hn : PtrFits s s.seq → NodeFields s (n s.seq)) : (addNode n s).Fits := by
  rw [addNode, setNode]
  split_ifs with hf
  · have hp := PtrFits.of_nodeFits hf
    have h := hs.setNode hf (hn hp)
    refine ⟨hp.seq_succ, h.root, h.cur, fun i hi => ?_, h.stack, h.node, h.code⟩
    rcases List.mem_append.mp hi with hi | hi
    · exact hs.pq i hi
    · rw [List.mem_singleton.mp hi]; exact hp
  · trivial

theorem seedLoop_fits (syms : List Byte) {s : State} (hs : WidthInv s) : (seedLoop syms s).Fits := by
  induction syms generalizing s with
  | nil => exact hs
  | cons x syms ih =>
    rw [seedLoop]
    split_ifs
    · exact ih hs
    · exact (addNode_fits (n := fun i => .leaf x (freqAt s x) i) hs fun h => ⟨h.seq, trivial⟩).bind fun _ t ht => ih ht

/-- What a removal takes is a member, and what it leaves fits. -/
theorem removeLeast_fits {s : State} (hs : WidthInv s) :
    (removeLeast s).Post (fun a t => WidthInv t ∧ t.cfg = s.cfg ∧ a.1 ∈ s.pq) WidthInv WidthInv := by
  rw [removeLeast]
  split
  · trivial
  · next i is h =>
    refine nodeAt_bind_post fun _ n _ _ => ?_
    refine ((leastLoop_post is i n s).mono (fun _ _ h => h) (fun _ h => h.elim) fun _ h => h.elim).bind fun a t ht => ?_
    obtain ⟨rfl, ha⟩ := ht
    rw [← h] at ha
    exact ⟨⟨hs.seq, hs.root, hs.cur, fun j hj => hs.pq j (List.mem_of_mem_erase hj), hs.stack, hs.node, hs.code⟩, rfl, ha⟩

theorem mergeLoop_fits (n : Nat) {s : State} (hs : WidthInv s) : (mergeLoop n s).Fits := by
  induction n generalizing s with
  | zero => exact hs
  | succ n ih =>
    rw [mergeLoop]
    split_ifs
    · refine (removeLeast_fits hs).bind fun a t ⟨ht, ec, ha⟩ => ?_
      refine (removeLeast_fits ht).bind fun b u ⟨hu, ec', hb⟩ => ?_
      have pa := hs.pq _ ha
      have pb := ht.pq _ hb
      refine (addNode_fits (n := fun i => .internal a.1 b.1 (a.2.count + b.2.count) i) hu
        fun h => ⟨h.seq, ?_, ?_⟩).bind fun _ v hv => ih hv
      · rw [PtrFits, ec', ec]; exact pa
      · rw [PtrFits, ec']; exact pb
    · exact hs

theorem takeRoot_fits {s : State} (hs : WidthInv s) : WidthInv (takeRoot s) := by
  rw [takeRoot]
  split
  · next r h =>
    refine ⟨hs.seq, fun i hi => ?_, hs.cur, by simp, hs.stack, hs.node, hs.code⟩
    cases hi
    exact hs.pq r (by simp [h])
  · exact ⟨hs.seq, by simp, hs.cur, hs.pq, hs.stack, hs.node, hs.code⟩

theorem execEBuild_fits {s t : State} (hs : WidthInv s) (h : exec .eBuild s = .next t) : WidthInv t := by
  have : ((seedLoop allSymbols s).bind fun _ s =>
      (mergeLoop s.pq.length s).bind fun _ s => checkCounts (takeRoot s)).Fits := by
    refine (seedLoop_fits _ hs).bind fun _ u hu => (mergeLoop_fits _ hu).bind fun _ v hv => ?_
    rw [checkCounts]
    split_ifs
    · exact WidthInv.raise _ _
    · exact (takeRoot_fits hv).congr rfl rfl rfl rfl rfl rfl rfl rfl
  exact this.next h

/-! ### The code table generator -/

theorem genLoop_fits (n : Nat) {s : State} (hs : WidthInv s) : (genLoop n s).Fits := by
  induction n generalizing s with
  | zero =>
    rw [genLoop]
    split_ifs
    · exact hs
    · trivial
  | succ n ih =>
    rw [genLoop]
    split
    · exact hs
    · next fr rest h =>
      have hr : ∀ fr ∈ rest, PtrFits s fr.node ∧ ∀ i, fr.left = some i → PtrFits s i := fun fr' hf =>
        hs.stack fr' (by rw [h]; exact List.mem_cons_of_mem _ hf)
      refine nodeAt_bind_fits fun i nd _ hn => ?_
      cases nd with
      | leaf sym c q =>
        exact ih (WidthInv.setCode (s := { s with stack := rest })
          ⟨hs.seq, hs.root, hs.cur, hs.pq, hr, hs.node, hs.code⟩ _ _)
      | internal l r c q =>
        have hc := hs.children hn
        refine ih ⟨hs.seq, hs.root, hs.cur, hs.pq, fun fr' hf => ?_, hs.node, hs.code⟩
        rcases List.mem_cons.mp hf with rfl | hf
        · exact ⟨hc.1, by simp⟩
        rcases List.mem_cons.mp hf with rfl | hf
        · exact ⟨hc.2, by simp⟩
        · exact hr fr' hf

/-- A stack that holds the root alone. -/
theorem WidthInv.rootStack {s : State} (hs : WidthInv s) {r : Nat} (hr : s.root = some r) :
    WidthInv { s with stack := [Frame.at r] } :=
  ⟨hs.seq, hs.root, hs.cur, hs.pq, fun fr hf => by
    rw [List.mem_singleton.mp hf]
    exact ⟨hs.root r hr, by simp [Frame.at]⟩, hs.node, hs.code⟩

theorem execEGen_fits {s t : State} (hs : WidthInv s) (h : exec .eGen s = .next t) : WidthInv t := by
  have h0 : WidthInv { s with code := Vector.replicate 256 [] } :=
    ⟨hs.seq, hs.root, hs.cur, hs.pq, hs.stack, hs.node, fun sym => by simp [codeAt]⟩
  have : ((genCodes { s with code := Vector.replicate 256 [] }).bind fun _ s => checkCodes s).Fits := by
    have hg : (genCodes { s with code := Vector.replicate 256 [] }).Fits := by
      rw [genCodes]
      split
      · exact h0
      · next r hr =>
        refine nodeAt_bind_fits fun i nd _ _ => ?_
        cases nd with
        | leaf sym c q => exact h0.setCode _ _
        | internal l r' c q => exact genLoop_fits _ (h0.rootStack hr)
    refine hg.bind fun _ u hu => ?_
    rw [checkCodes]
    split_ifs
    · exact WidthInv.raise _ _
    · exact WidthInv.raise _ _
    · exact hu.congr rfl rfl rfl rfl rfl rfl rfl rfl
  exact this.next h

/-! ### The tree codec -/

theorem storeByte_fits (v : Byte) {s : State} (hs : WidthInv s) : (storeByte v s).Fits := by
  rw [storeByte]
  split_ifs
  · exact WidthInv.raise _ _
  · exact hs.congr rfl rfl rfl rfl rfl rfl rfl rfl

theorem wrBit_fits (b : Bool) {s : State} (hs : WidthInv s) : (wrBit b s).Fits := by
  rw [wrBit]
  split_ifs
  · trivial
  · dsimp only
    split_ifs
    · exact storeByte_fits _ (hs.congr rfl rfl rfl rfl rfl rfl rfl rfl)
    · exact hs.congr rfl rfl rfl rfl rfl rfl rfl rfl

theorem wrBits_fits (bs : List Bool) {s : State} (hs : WidthInv s) : (wrBits bs s).Fits := by
  induction bs generalizing s with
  | nil => exact hs
  | cons b bs ih => exact (wrBit_fits b hs).bind fun _ t ht => ih ht

theorem wrBytes_fits (vs : List Byte) {s : State} (hs : WidthInv s) : (wrBytes vs s).Fits := by
  induction vs generalizing s with
  | nil => exact hs
  | cons v vs ih => exact (wrBits_fits _ hs).bind fun _ t ht => ih ht

theorem finalizeOp_fits {s : State} (hs : WidthInv s) : (finalizeOp s).Fits := by
  simp only [finalizeOp]
  split_ifs
  · exact hs.congr rfl rfl rfl rfl rfl rfl rfl rfl
  · exact storeByte_fits _ (hs.congr rfl rfl rfl rfl rfl rfl rfl rfl)

theorem serLoop_fits (n : Nat) {s : State} (hs : WidthInv s) : (serLoop n s).Fits := by
  induction n generalizing s with
  | zero =>
    rw [serLoop]
    split_ifs
    · exact hs
    · trivial
  | succ n ih =>
    rw [serLoop]
    split
    · exact hs
    · next fr rest h =>
      have hr : ∀ fr ∈ rest, PtrFits s fr.node ∧ ∀ i, fr.left = some i → PtrFits s i := fun fr' hf =>
        hs.stack fr' (by rw [h]; exact List.mem_cons_of_mem _ hf)
      refine nodeAt_bind_fits fun i nd _ hn => ?_
      cases nd with
      | leaf sym c q =>
        refine Flow.Fits.bind ?_ fun _ t ht => ih ht
        exact (wrBit_fits true (s := { s with stack := rest })
          ⟨hs.seq, hs.root, hs.cur, hs.pq, hr, hs.node, hs.code⟩).bind fun _ t ht => wrBits_fits _ ht
      | internal l r c q =>
        have hc := hs.children hn
        refine Flow.Fits.bind ?_ fun _ t ht => ih ht
        refine wrBit_fits false ⟨hs.seq, hs.root, hs.cur, hs.pq, fun fr' hf => ?_, hs.node, hs.code⟩
        rcases List.mem_cons.mp hf with rfl | hf
        · exact ⟨hc.1, by simp [Frame.at]⟩
        rcases List.mem_cons.mp hf with rfl | hf
        · exact ⟨hc.2, by simp [Frame.at]⟩
        · exact hr fr' hf

theorem execETree_fits {s t : State} (hs : WidthInv s) (h : exec .eTree s = .next t) : WidthInv t := by
  have : ((serTree s).bind fun _ s => Flow.ok () { s with phase := .ePack }).Fits := by
    have hg : (serTree s).Fits := by
      rw [serTree]
      split
      · split
        · exact hs
        · next r hr => exact serLoop_fits _ (hs.rootStack hr)
      · exact serLoop_fits _ hs
    exact hg.bind fun _ u hu => hu.congr rfl rfl rfl rfl rfl rfl rfl rfl
  exact this.next h

/-- A node completed: it goes to the one that waits for it, or is the root. -/
theorem desReturn_fits (fs : List Frame) {i : Nat} {s : State} (hs : WidthInv s) (hi : PtrFits s i)
    (hf : ∀ fr ∈ fs, PtrFits s fr.node ∧ ∀ i, fr.left = some i → PtrFits s i) : (desReturn fs i s).Fits := by
  induction fs generalizing i s with
  | nil =>
    refine ⟨hs.seq, fun j hj => ?_, hs.cur, hs.pq, by simp, hs.node, hs.code⟩
    cases hj; exact hi
  | cons fr rest ih =>
    have hfr := hf fr (by simp)
    have hr : ∀ fr ∈ rest, PtrFits s fr.node ∧ ∀ i, fr.left = some i → PtrFits s i := fun fr' h =>
      hf fr' (List.mem_cons_of_mem _ h)
    rw [desReturn]
    split
    · refine ⟨hs.seq, hs.root, hs.cur, hs.pq, fun fr' h => ?_, hs.node, hs.code⟩
      rcases List.mem_cons.mp h with rfl | h
      · exact ⟨hfr.1, fun j hj => by cases hj; exact hi⟩
      · exact hr fr' h
    · next l hl =>
      rw [setNode]
      split_ifs with hfit
      · exact ih (hs.setNode hfit ⟨hfr.1.seq, hfr.2 l hl, hi⟩) hfr.1 hr
      · trivial

theorem desLeaf_fits (sym : Byte) {s : State} (hs : WidthInv s) : (desLeaf sym s).Fits := by
  rw [desLeaf, setNode]
  split_ifs with hf
  · have hp := PtrFits.of_nodeFits hf
    have h := hs.setNode (n := .leaf sym 0 s.seq) hf ⟨hp.seq, trivial⟩
    exact desReturn_fits _ ⟨hp.seq_succ, h.root, h.cur, h.pq, h.stack, h.node, h.code⟩ hp hs.stack
  · trivial

theorem desInt_fits {s : State} (hs : WidthInv s) (hf : nodeFits s.seq s = true) : (desInt s).Fits := by
  have hp := PtrFits.of_nodeFits hf
  refine ⟨hp.seq_succ, hs.root, hs.cur, hs.pq, fun fr h => ?_, hs.node, hs.code⟩
  rcases List.mem_cons.mp h with rfl | h
  · exact ⟨hp, by simp [Frame.at]⟩
  · exact hs.stack fr h

theorem desToken_fits {s : State} (hs : WidthInv s) : (desToken s).Fits := by
  rw [desToken, desRoom]
  split_ifs with hf
  · rw [Flow.bind_ok]
    have hb : ((rdBit s).onEob .treeTrunc).Post (fun _ t => WidthInv t ∧ nodeFits t.seq t = true) WidthInv WidthInv := by
      have h1 := rdBit_post s
      cases hr : rdBit s with
      | ok b t =>
        rw [hr] at h1
        refine ⟨h1.fits hs, ?_⟩
        rw [h1.same]; exact hf
      | eob t => exact WidthInv.raise _ _
      | raised t => rw [hr] at h1; exact h1.elim
      | fault r => trivial
      | refused r => trivial
    refine hb.bind fun m t ⟨ht, hft⟩ => ?_
    split_ifs
    · exact (rdByte_fits ht).onEob.bind fun sym u hu => desLeaf_fits sym hu
    · exact desInt_fits ht hft
  · exact WidthInv.raise _ _

theorem desLoop_fits (n : Nat) {s : State} (hs : WidthInv s) : (desLoop n s).Fits := by
  induction n generalizing s with
  | zero => trivial
  | succ n ih =>
    refine (desToken_fits hs).bind fun whole t ht => ?_
    split_ifs
    · exact ht
    · exact ih ht

theorem execDTree_fits {s t : State} (hs : WidthInv s) (h : exec .dTree s = .next t) : WidthInv t := by
  have : ((desLoop (bitsLeft s) s).bind fun _ s => Flow.ok () { s with phase := .dWalk }).Fits :=
    (desLoop_fits _ hs).bind fun _ u hu => hu.congr rfl rfl rfl rfl rfl rfl rfl rfl
  exact this.next h

/-! ### The decoder -/

theorem headerRead_fits {n : Word} {s : State} (hs : WidthInv s) : (headerRead n s).Fits := by
  rcases headerRead_cases n s with ⟨-, e⟩ | ⟨-, -, e⟩ | ⟨-, -, e⟩ <;> rw [e]
  · exact WidthInv.raise _ _
  · exact hs.congr rfl rfl rfl rfl rfl rfl rfl rfl
  · exact hs.congr rfl rfl rfl rfl rfl rfl rfl rfl

theorem descend_fits (n : Nat) {l r : Nat} {s : State} (hs : WidthInv s) (hl : PtrFits s l) (hr : PtrFits s r) :
    (descend n l r s).Fits := by
  induction n generalizing l r s with
  | zero => trivial
  | succ n ih =>
    have hb : ((rdBit s).onEob .payloadTrunc).Post (fun _ t => WidthInv t ∧ t.cfg = s.cfg) WidthInv WidthInv := by
      have h1 := rdBit_post s
      cases hr : rdBit s with
      | ok b t => rw [hr] at h1; exact ⟨h1.fits hs, by rw [h1.same]⟩
      | eob t => exact WidthInv.raise _ _
      | raised t => rw [hr] at h1; exact h1.elim
      | fault r => trivial
      | refused r => trivial
    refine hb.bind fun b t ⟨ht, ec⟩ => ?_
    have h1 : WidthInv { t with cur := some (if b then r else l) } := by
      refine ⟨ht.seq, ht.root, fun i hi => ?_, ht.pq, ht.stack, ht.node, ht.code⟩
      cases hi
      show fitsWidth (ptrWidth t.cfg) _ = true
      rw [ec]
      split_ifs
      · exact hr
      · exact hl
    refine nodeAt_bind_fits fun i nd _ hn => ?_
    cases nd with
    | leaf sym c q => exact h1
    | internal l' r' c q => exact ih h1 (h1.children hn).1 (h1.children hn).2

theorem walkSymbol_fits {s : State} (hs : WidthInv s) : (walkSymbol s).Fits := by
  have h1 : WidthInv { s with cur := s.root } :=
    ⟨hs.seq, hs.root, hs.root, hs.pq, hs.stack, hs.node, hs.code⟩
  refine nodeAt_bind_fits fun i nd _ hn => ?_
  cases nd with
  | leaf sym c q =>
    refine (rdBit_fits h1).onEob.bind fun b t ht => ?_
    split_ifs
    · exact WidthInv.raise _ _
    · exact ht
  | internal l r c q => exact descend_fits _ h1 (h1.children hn).1 (h1.children hn).2

theorem walkLoop_fits (n : Nat) {s : State} (hs : WidthInv s) : (walkLoop n s).Fits := by
  induction n generalizing s with
  | zero => exact hs
  | succ n ih =>
    rw [walkLoop]
    split_ifs
    · exact hs
    · refine (walkSymbol_fits hs).bind fun sym t ht => ?_
      rw [emit]
      split_ifs
      · exact ih (ht.congr rfl rfl rfl rfl rfl rfl rfl rfl)
      · trivial

theorem execDWalk_fits {s t : State} (hs : WidthInv s) (h : exec .dWalk s = .next t) : WidthInv t := by
  have : ((walkLoop s.nrem.toNat s).bind fun _ s => Flow.ok () { s with phase := .done }).Fits :=
    (walkLoop_fits _ hs).bind fun _ u hu => hu.congr rfl rfl rfl rfl rfl rfl rfl rfl
  exact this.next h

/-! ### The other operations -/

theorem wrU32_fits (v : Word) {s : State} (hs : WidthInv s) : (wrU32 v s).Fits := wrBytes_fits _ hs

theorem writeHeader_fits (n : Word) {s : State} (hs : WidthInv s) : (writeHeader n s).Fits := by
  have h0 : WidthInv { s with nhdr := n } := hs.congr rfl rfl rfl rfl rfl rfl rfl rfl
  refine (wrU32_fits n h0).bind fun _ u hu => ?_
  have h1 : WidthInv { u with phase := .eTree } := hu.congr rfl rfl rfl rfl rfl rfl rfl rfl
  exact h1

theorem packLoop_fits (n : Nat) {s : State} (hs : WidthInv s) : (packLoop n s).Fits := by
  induction n generalizing s with
  | zero => exact hs
  | succ n ih =>
    rw [packLoop]
    split_ifs
    · rw [memReadIbuf]
      split_ifs
      · rw [Flow.bind_ok]
        refine (wrBits_fits _ hs).bind fun _ u hu => ?_
        have h1 : WidthInv { u with iidx := u.iidx + 1 } := hu.congr rfl rfl rfl rfl rfl rfl rfl rfl
        exact ih h1
      · trivial
    · exact hs

theorem execEPack_fits {s t : State} (hs : WidthInv s) (h : exec .ePack s = .next t) : WidthInv t := by
  have h0 : WidthInv { s with iidx := 0 } := hs.congr rfl rfl rfl rfl rfl rfl rfl rfl
  have : ((packLoop s.ilen.toNat { s with iidx := 0 }).bind fun _ s => Flow.ok () { s with phase := .eFin }).Fits := by
    refine (packLoop_fits _ h0).bind fun _ u hu => ?_
    have h1 : WidthInv { u with phase := .eFin } := hu.congr rfl rfl rfl rfl rfl rfl rfl rfl
    exact h1
  exact this.next h

theorem execEFin_fits {s t : State} (hs : WidthInv s) (h : exec .eFin s = .next t) : WidthInv t := by
  have : ((finalizeOp s).bind fun _ s => Flow.ok () (finishEncode s)).Fits := by
    refine (finalizeOp_fits hs).bind fun _ u hu => ?_
    have h1 : WidthInv (finishEncode u) := hu.congr rfl rfl rfl rfl rfl rfl rfl rfl
    exact h1
  exact this.next h

theorem execDHdr_fits {s t : State} (hs : WidthInv s) (h : exec .dHdr s = .next t) : WidthInv t := by
  rcases execDHdr_next h with ⟨u, -, rfl⟩ | ⟨u, n, hu, hh⟩
  · exact WidthInv.raise _ _
  · exact (headerRead_fits (hu.fits hs)).next hh

theorem readOutcome_fits {α : Type} {f : α → Word} {x : Flow α} {t : State} (hx : x.Fits)
    (h : readOutcome f x = .next t) : WidthInv t := by
  cases x with
  | ok a u => cases h; exact WidthInv.congr (s := u) hx rfl rfl rfl rfl rfl rfl rfl rfl
  | eob u => cases h; exact WidthInv.congr (s := u) hx rfl rfl rfl rfl rfl rfl rfl rfl
  | raised u => cases h; exact hx
  | fault r => cases h
  | refused r => cases h

theorem rdU32_fits {s : State} (hs : WidthInv s) : (rdU32 s).Fits :=
  (rdU32_post s).mono (fun _ _ h => h.fits hs) (fun _ h => h.1.fits hs) fun _ h => h.elim

/-- A tree token that is read. -/
theorem treeToken_fits {f : State → Flow Bool} {n : Pos} {s : State} (hs : WidthInv s)
    (hf : ∀ u, WidthInv u → nodeFits u.seq u = true → (f u).Fits) :
    ((desRoom s).bind fun _ s => (f { s with rpos := s.rpos + n }).bind fun whole s => .ok () (treeTokenEnd whole s)).Fits := by
  rw [desRoom]
  split_ifs with h
  · rw [Flow.bind_ok]
    have h0 : WidthInv { s with rpos := s.rpos + n } := hs.congr rfl rfl rfl rfl rfl rfl rfl rfl
    refine (hf _ h0 h).bind fun w u hu => ?_
    have h1 : WidthInv (treeTokenEnd w u) := by
      cases w
      · exact hu
      · exact hu.congr rfl rfl rfl rfl rfl rfl rfl rfl
    exact h1
  · exact WidthInv.raise _ _

theorem execLenhdr_fits {n : Nat} {s t : State} (hs : WidthInv s) (h : exec (.lenhdr n) s = .next t) : WidthInv t := by
  have h' : execLenhdr n s = .next t := h
  rw [execLenhdr] at h'
  split at h'
  · exact (writeHeader_fits _ hs).next h'
  · have h0 : WidthInv { s with rpos := s.rpos + 32 } := hs.congr rfl rfl rfl rfl rfl rfl rfl rfl
    exact (headerRead_fits h0).next h'
  · cases h'

theorem execTnodeInt_fits {s t : State} (hs : WidthInv s) (h : exec .tnodeInt s = .next t) : WidthInv t := by
  have h' : execTnodeInt s = .next t := h
  rw [execTnodeInt] at h'
  split at h'
  · exact (wrBit_fits _ hs).next h'
  · exact (treeToken_fits hs fun _ h1 h2 => desInt_fits h1 h2).next h'
  · cases h'

theorem execTnodeLeaf_fits {v : Nat} {s t : State} (hs : WidthInv s) (h : exec (.tnodeLeaf v) s = .next t) :
    WidthInv t := by
  have h' : execTnodeLeaf v s = .next t := h
  rw [execTnodeLeaf] at h'
  split at h'
  · exact ((wrBit_fits true hs).bind fun _ u hu => wrBits_fits _ hu).next h'
  · exact (treeToken_fits hs fun _ h1 _ => desLeaf_fits _ h1).next h'
  · cases h'

theorem writeCmd_fits (w : Word) {s : State} (hs : WidthInv s) : WidthInv (writeCmd w s) := by
  rw [writeCmd]
  split_ifs
  · exact hs
  · have h0 : WidthInv { s with cmd := w } := hs.congr rfl rfl rfl rfl rfl rfl rfl rfl
    have h1 := h0.initCommand
    simp only [acceptCmd]
    split_ifs
    · exact WidthInv.raise _ _
    · exact WidthInv.raise _ _
    · exact h1.congr rfl rfl rfl rfl rfl rfl rfl rfl
    · exact h1.congr rfl rfl rfl rfl rfl rfl rfl rfl

/-- No operation makes what a register or a table cannot hold. -/
theorem exec_fits {i : Instr} {s t : State} (hs : WidthInv s) (h : exec i s = .next t) : WidthInv t := by
  cases i with
  | encode f c b => cases h; exact writeCmd_fits _ hs
  | decode f c b => cases h; exact writeCmd_fits _ hs
  | eCount => rw [(execECount_next h).1]; exact hs.congr rfl rfl rfl rfl rfl rfl rfl rfl
  | eBuild => exact execEBuild_fits hs h
  | eGen => exact execEGen_fits hs h
  | eHdr => exact (writeHeader_fits _ hs).next h
  | eTree => exact execETree_fits hs h
  | ePack => exact execEPack_fits hs h
  | eFin => exact execEFin_fits hs h
  | dHdr => exact execDHdr_fits hs h
  | dTree => exact execDTree_fits hs h
  | dWalk => exact execDWalk_fits hs h
  | rdbit => exact readOutcome_fits (rdBit_fits hs) h
  | rdbyte => exact readOutcome_fits (rdByte_fits hs) h
  | rdu32 => exact readOutcome_fits (rdU32_fits hs) h
  | wrbit b => exact (wrBit_fits b hs).next h
  | wrbyte v => exact (wrBits_fits _ hs).next h
  | wru32 v => exact (wrU32_fits _ hs).next h
  | finalize => exact (finalizeOp_fits hs).next h
  | lenhdr n => exact execLenhdr_fits hs h
  | tnodeInt => exact execTnodeInt_fits hs h
  | tnodeLeaf v => exact execTnodeLeaf_fits hs h

/-! ### A turn for one operation of the I/O controller -/

theorem serNext_fits {s : State} (hs : WidthInv s) {e : Node × List Frame} (h : serNext s = some e) :
    (∀ l r c q, e.1 = .internal l r c q → PtrFits s l ∧ PtrFits s r) ∧
      ∀ fr ∈ e.2, PtrFits s fr.node ∧ ∀ i, fr.left = some i → PtrFits s i := by
  have children : ∀ {i nd}, Table.get? s.node i = some nd → ∀ l r c q, nd = .internal l r c q → PtrFits s l ∧ PtrFits s r := by
    rintro i nd hg l r c q rfl
    exact hs.children hg
  rw [serNext] at h
  cases hk : s.stack with
  | cons fr rest =>
    rw [hk] at h
    obtain ⟨nd, hg, rfl⟩ := Option.map_eq_some_iff.mp h
    exact ⟨children hg, fun fr' hfr => hs.stack fr' (by rw [hk]; exact List.mem_cons_of_mem _ hfr)⟩
  | nil =>
    rw [hk] at h
    obtain ⟨r, -, h⟩ := Option.bind_eq_some_iff.mp h
    obtain ⟨nd, hg, rfl⟩ := Option.map_eq_some_iff.mp h
    exact ⟨children hg, by simp⟩

/-- What a phase does with an operation that has ended. -/
theorem proceed_fits {s : State} (hs : WidthInv s) (hf : s.phase = .dTree → s.marker = false → nodeFits s.seq s = true) :
    (proceed s).Fits := by
  have lines : ∀ m, WidthInv { s with bioOut := .none, marker := m } := fun _ => hs.congr rfl rfl rfl rfl rfl rfl rfl rfl
  have ended : ∀ {x : Flow Bool}, x.Fits → (desEnd x).Fits := fun hx =>
    hx.bind fun whole u hu => by
      cases whole
      · exact hu
      · exact WidthInv.congr hu rfl rfl rfl rfl rfl rfl rfl rfl
  have tree : ∀ {rest m p}, (∀ fr ∈ rest, PtrFits s fr.node ∧ ∀ i, fr.left = some i → PtrFits s i) →
      WidthInv { s with stack := rest, marker := m, phase := p } := fun hr =>
    ⟨hs.seq, hs.root, hs.cur, hs.pq, hr, hs.node, hs.code⟩
  rw [proceed]
  split
  · split
    · exact headerRead_fits (lines s.marker)
    · exact WidthInv.raise _ _
  · next hph =>
    split
    · split_ifs with hm h1
      · exact ended (desLeaf_fits _ (lines false))
      · exact lines true
      · exact ended (desInt_fits (lines s.marker) (hf hph (by simpa using hm)))
    · exact WidthInv.raise _ _
  · exact hs.congr rfl rfl rfl rfl rfl rfl rfl rfl
  · split
    · exact hs
    · next h =>
      have := serNext_fits hs h
      split_ifs
      · exact tree this.2
      · exact hs.congr rfl rfl rfl rfl rfl rfl rfl rfl
    · next h =>
      obtain ⟨hc, hr⟩ := serNext_fits hs h
      obtain ⟨hl, hr'⟩ := hc _ _ _ _ rfl
      refine tree fun fr hfr => ?_
      rcases List.mem_cons.mp hfr with rfl | hfr
      · exact ⟨hl, by simp [Frame.at]⟩
      rcases List.mem_cons.mp hfr with rfl | hfr
      · exact ⟨hr', by simp [Frame.at]⟩
      · exact hr fr hfr
  · exact hs.congr rfl rfl rfl rfl rfl rfl rfl rfl
  · exact hs

/-- The writer stays in its phase, or raises its error. -/
abbrev Flow.InPhase {α : Type} (p : Phase) (x : Flow α) : Prop :=
  x.Post (fun _ t => t.phase = p) Never (fun t => t.phase = .error)

theorem storeByte_inPhase (v : Byte) (s : State) : (storeByte v s).InPhase s.phase := by
  rw [storeByte]; split_ifs <;> exact rfl

theorem wrBit_inPhase (b : Bool) (s : State) : (wrBit b s).InPhase s.phase := by
  cases hf : s.finalized with
  | true => rw [wrBit_finalized hf]; trivial
  | false =>
    rw [wrBit_running hf]
    split_ifs
    · exact storeByte_inPhase _ (pended b s)
    · exact rfl

theorem wrBits_inPhase (bs : List Bool) (s : State) : (wrBits bs s).InPhase s.phase := by
  induction bs generalizing s with
  | nil => exact rfl
  | cons b bs ih => exact (wrBit_inPhase b s).bind fun _ t (ht : t.phase = s.phase) => ht ▸ ih t

theorem finalizeOp_inPhase (s : State) : (finalizeOp s).InPhase s.phase := by
  simp only [finalizeOp]
  split_ifs
  · exact rfl
  · exact storeByte_inPhase _ { s with finalized := true }

/-- D_TREE issues the marker of a token only when `NODE` has room for it. -/
theorem room_of_issues {i : Instr} {s u : State} (hi : issues s = some i) (hx : exec i s = .next u) (hp : u.phase = .dTree)
    (hm : u.marker = false) : nodeFits u.seq u = true := by
  have write : ∀ {x : Flow Unit}, x.InPhase s.phase → s.phase ≠ .dTree → x.outcome = .next u → nodeFits u.seq u = true :=
    fun hw hne h => by
      rcases hw.of_outcome h with e | e
      · exact absurd (e ▸ hp) hne
      · rw [hp] at e; cases e
  have read : ∀ {v : State} {o : BioOut}, OnlyRpos s v → s.phase ≠ .dTree ∨ s.marker = true ∨ nodeFits s.seq s = true →
      u = { v with bioOut := o } → nodeFits u.seq u = true := by
    rintro v o hv hc rfl
    rcases hc with hc | hc | hc
    · exact absurd (hv.phase.symm.trans hp) hc
    · have : v.marker = true := by rw [hv.same]; exact hc
      exact absurd (this.symm.trans hm) (by simp)
    · rw [hv.same]; exact hc
  cases hph : s.phase <;> simp only [issues, hph, reduceCtorEq] at hi
  · cases hi
    have hx : (wrU32 _ s).outcome = .next u := hx
    rw [wrU32_eq] at hx
    exact write (wrBits_inPhase _ s) (by rw [hph]; simp) hx
  · obtain ⟨⟨nd, rest⟩, -, hi⟩ := Option.map_eq_some_iff.mp hi
    cases nd with
    | leaf sym c q =>
      dsimp only at hi
      split_ifs at hi <;> cases hi
      · exact write (wrBits_inPhase _ s) (by rw [hph]; simp) hx
      · exact write (wrBit_inPhase _ s) (by rw [hph]; simp) hx
    | internal l r c q => cases hi; exact write (wrBit_inPhase _ s) (by rw [hph]; simp) hx
  · cases hi; exact write (finalizeOp_inPhase s) (by rw [hph]; simp) hx
  · cases hi; obtain ⟨v, o, hv, e⟩ := execRdu32_next hx; exact read hv (.inl (by rw [hph]; simp)) e
  · split_ifs at hi with hm' hf <;> cases hi
    · obtain ⟨v, o, hv, e⟩ := execRdbyte_next hx; exact read hv (.inr (.inl hm')) e
    · obtain ⟨v, o, hv, e⟩ := execRdbit_next hx; exact read hv (.inr (.inr hf)) e

theorem perform_fits {i : Instr} {s t : State} (hs : WidthInv s) (hi : issues s = some i) (h : perform i s = .next t) :
    WidthInv t := by
  rw [perform] at h
  cases hx : exec i s with
  | next u =>
    have hu := exec_fits hs hx
    rw [hx] at h
    dsimp only at h
    split_ifs at h with he
    · cases h; exact hu
    · refine (proceed_fits hu fun hp hm => room_of_issues hi hx hp hm).next h
  | fault r => rw [hx] at h; cases h
  | refused r => rw [hx] at h; cases h

end Sys2Proof.Machine
end

