-- ==== Sys2Proof/Tests/Slice0.lean ====
section
/-! SUPPORT. Sys2Proof/Tests/Slice0.lean: the model's own tests. Expected results are the worked examples and vectors of
95_test_vectors.md (named in each comment), or words written out from the encodings of 30_encoding.md. After them, one
witness or more for the hypotheses of each statement. -/

namespace Sys2Proof.Tests

open Sys2Proof.Machine

-- One declaration after another: the kernel evaluations below would otherwise wait for each other, a thread each.
set_option Elab.async false

/-! ### Small states -/

/-- Parameters with 16 bytes in each buffer. -/
def tiny : Params := { Params.default with ibufCap := 16, obufCap := 16 }

/-- After reset, with given bytes in `IBUF` and their number in `ILEN`. -/
def loaded (bytes : List Nat) : State :=
  { State.reset with
    cfg := tiny, ilen := BitVec.ofNat 32 bytes.length,
    ibuf := bytes.zipIdx.map fun e => (e.2, BitVec.ofNat 8 e.1) }

/-- The same with `PHASE` given. -/
def inPhase (p : Phase) (bytes : List Nat) : State := { loaded bytes with phase := p }

/-- A writer that has stored `n` bytes of an output and holds `r` pending bits 0. -/
def written (n r : Nat) : State :=
  { loaded [] with
    olen := BitVec.ofNat 32 n, wpos := BitVec.ofNat 36 (8 * n + r),
    obuf := (List.range n).map fun a => (a, 0) }

/-- The state in which event `e` comes next. -/
def next (e : Event) (s : State) : State := { s with events := [e] }

/-- `p` holds of the next state. -/
def holds (p : State → Bool) : Host.Outcome State Fault Refusal → Bool
  | .next t => p t
  | _ => false

/-- The bytes of a buffer in the order of their addresses. -/
def bytesOf (m : List Host.Cell) : List Nat := m.map fun c => c.2.toNat

theorem written_law {n r : Nat} (hn : n < 2 ^ 32) (hr : r < 8) : WriterLaw (written n r) := by
  have e : (written n r).wpos.toNat = 8 * n + r := by
    show (BitVec.ofNat 36 (8 * n + r)).toNat = _
    rw [BitVec.toNat_ofNat]; omega
  refine ⟨rfl, ?_, ?_⟩
  · rw [e]; show (BitVec.ofNat 32 n).toNat = _; rw [BitVec.toNat_ofNat]; omega
  · show (0 : Byte).toNat < _; exact Nat.two_pow_pos _

theorem of_holds {p : State → Bool} {x : Host.Outcome State Fault Refusal} (h : holds p x = true) :
    ∃ t, x = .next t ∧ p t = true := by
  cases x with
  | next t => exact ⟨t, rfl, h⟩
  | fault r => cases h
  | refused r => cases h

/-! ### WellFormed refuses operands out of range -/

theorem test_wf_wrbyte : WellFormed (.wrbyte 256) = false := by decide
theorem test_wf_wru32 : WellFormed (.wru32 4294967296) = false := by decide
theorem test_wf_lenhdr : WellFormed (.lenhdr 4294967296) = false := by decide
theorem test_wf_tnodeLeaf : WellFormed (.tnodeLeaf 256) = false := by decide

/-! ### Decoding words written out from 30_encoding.md -/

theorem test_decode_encode : decode (.cmd 0b00000000000000000000000000000101#32) = .ok (.encode true false false) := by
  decide
theorem test_decode_decode : decode (.cmd 0b00000000000000000000000000011010#32) = .ok (.decode false true true) := by
  decide
theorem test_decode_eCount : decode (.phase 0b0001#4) = .ok .eCount := by decide
theorem test_decode_eBuild : decode (.phase 0b0010#4) = .ok .eBuild := by decide
theorem test_decode_eGen : decode (.phase 0b0011#4) = .ok .eGen := by decide
theorem test_decode_eHdr : decode (.phase 0b0100#4) = .ok .eHdr := by decide
theorem test_decode_eTree : decode (.phase 0b0101#4) = .ok .eTree := by decide
theorem test_decode_ePack : decode (.phase 0b0110#4) = .ok .ePack := by decide
theorem test_decode_eFin : decode (.phase 0b0111#4) = .ok .eFin := by decide
theorem test_decode_dHdr : decode (.phase 0b1000#4) = .ok .dHdr := by decide
theorem test_decode_dTree : decode (.phase 0b1001#4) = .ok .dTree := by decide
theorem test_decode_dWalk : decode (.phase 0b1010#4) = .ok .dWalk := by decide
theorem test_decode_rdbit : decode (.bio 0b000#3 0) = .ok .rdbit := by decide
theorem test_decode_rdbyte : decode (.bio 0b001#3 0) = .ok .rdbyte := by decide
theorem test_decode_rdu32 : decode (.bio 0b010#3 0) = .ok .rdu32 := by decide
theorem test_decode_wrbit : decode (.bio 0b100#3 1) = .ok (.wrbit true) := by decide
theorem test_decode_wrbyte : decode (.bio 0b101#3 0xA5) = .ok (.wrbyte 0xA5) := by decide
theorem test_decode_wru32 : decode (.bio 0b110#3 0x12345678) = .ok (.wru32 0x12345678) := by decide
theorem test_decode_finalize : decode (.bio 0b111#3 0) = .ok .finalize := by decide
theorem test_decode_lenhdr :
    decode (.header ([true] ++ List.replicate 30 false ++ [true])) = .ok (.lenhdr 0x80000001) := by decide
theorem test_decode_tnodeInt : decode (.tree [false]) = .ok .tnodeInt := by decide
theorem test_decode_tnodeLeaf :
    decode (.tree [true, false, true, false, true, true, false, true, false]) = .ok (.tnodeLeaf 0x5A) := by decide

theorem test_reject_reserved_bit : decode (.cmd 0x21) = .error .cmdReservedBits := by decide
theorem test_reject_no_mode : decode (.cmd 0) = .error .cmdNoMode := by decide
theorem test_reject_both_modes : decode (.cmd 0x1F) = .error .cmdBothModes := by decide
theorem test_reject_phase : (List.range 16).filter (fun c => (decode (.phase (BitVec.ofNat 4 c))).toBool) =
    [1, 2, 3, 4, 5, 6, 7, 8, 9, 10] := by decide
theorem test_reject_bio : decode (.bio 3 0) = .error .bioReserved := by decide
theorem test_reject_wide_operand : decode (.bio 5 0x100) = .error .bioOperandTooWide := by decide
theorem test_reject_short_header : decode (.header (List.replicate 31 false)) = .error .headerLength := by decide
theorem test_reject_short_leaf : decode (.tree (List.replicate 8 true)) = .error .treeTokenLength := by decide

/-! ### A word of the opcode table, placed and performed as the first step after reset -/

theorem test_table_cmd : decodeTableWord 32 2 = some (.decode false false false) := by decide
theorem test_table_phase : decodeTableWord 8 9 = some .dTree := by decide
theorem test_table_header : decodeTableWord 32 0 = some (.lenhdr 0) := by decide
theorem test_table_leaf : decodeTableWord 16 0x141 = some (.tnodeLeaf 0x41) := by decide
theorem test_table_bio : decodeTableWord 8 0 = some .rdbit := by decide

theorem test_fetch_cmd : holds (fun t => t.phase == .eCount && t.cmd == 1) (step (State.reset.withFetchWord 32 1)) := by
  decide +kernel
theorem test_fetch_header :
    holds (fun t => t.phase == .done && t.rpos == 32) (step (State.reset.withFetchWord 32 0)) := by decide +kernel
theorem test_fetch_phase : holds (fun t => t.phase == .eTree && t.olen == 4) (step (State.reset.withFetchWord 8 4)) := by
  decide +kernel
theorem test_fetch_leaf : holds (fun t => t.phase == .dWalk && Table.get? t.node 0 == some (.leaf 0x41 0 0))
    (step (State.reset.withFetchWord 16 0x141)) := by decide +kernel
theorem test_fetch_int :
    holds (fun t => t.seq == 1 && t.rpos == 33) (step (State.reset.withFetchWord 1 0)) := by decide +kernel

/-- A select is placed where the engine issues it: the RDBIT of a token, whose EOB is TREE_TRUNC, and the WRBYTE of a
leaf, which ends E_TREE. -/
theorem test_fetch_rdbit : holds (fun t => t.phase == .error && t.err == 0x0201) (step (State.reset.withFetchWord 3 0)) := by
  decide +kernel
theorem test_fetch_wrbyte : holds (fun t => t.phase == .ePack && bytesOf t.obuf == [0]) (step (State.reset.withFetchWord 3 5)) := by
  decide +kernel

/-! ### Points of the rules -/

/-- Rule R254: a WRBIT finds nothing to do outside `BUSY`, however full `OBUF` is. -/
theorem test_wrbit_after_done :
    holds (fun t => t == { written 16 7 with phase := .done }) (step (next (.bio 4 1) { written 16 7 with phase := .done })) := by
  decide +kernel
/-- Rules R13 and R209: FINALIZE is the operation of E_FIN, pads once, and ends it. -/
theorem test_finalize_once :
    holds (fun t => t.phase == .done && t.olen == 2 && issues t == none)
      (step (next (.bio 7 0) { written 1 3 with phase := .eFin })) := by decide +kernel
/-- Rule R185: the symbol of a leaf comes only after its marker. -/
theorem test_marker_first :
    [false, true].map (fun m => issues { inPhase .eTree [] with root := some 0, node := [(0, .leaf 0x5A 1 0)], marker := m }) =
      [some (.wrbit true), some (.wrbyte 0x5A)] := by decide +kernel
/-- Rule R11: 9 bits for 511. -/
theorem test_ptrWidth : [510, 511, 512, 513].map (fun n => ptrWidth { tiny with nodeCap := some n }) =
    [some 9, some 9, some 9, some 10] := by decide +kernel

/-! ### One step of each operation -/

/-- X8: all three flags; `FLAGS` = 7. -/
theorem test_encode : holds (fun t => t.phase == .eCount && t.flags == 7 && t.cmd == 0x1D)
    (exec (.encode true true true) (loaded [0x41, 0x42])) := by decide +kernel
/-- P2 step 10. -/
theorem test_decode : holds (fun t => t.phase == .dHdr && t.flags == 4 && t.cmd == 0x12)
    (exec (.decode false false true) (loaded [0, 0, 0, 0])) := by decide +kernel
/-- X6: BAD_ILEN. -/
theorem test_bad_ilen : holds (fun t => statusWord t == 0xF3 && t.err == 0x0204)
    (exec (.encode false false false) { loaded [] with ilen := 17 }) := by decide +kernel
/-- X5: the flags are latched before the check. -/
theorem test_bad_cmd : holds (fun t => t.err == 0x0104 && t.flags == 7 && t.cmd == 0x1F)
    (step (next (.host (.write32 0 0x1F)) (loaded []))) := by decide +kernel
/-- T5. -/
theorem test_eCount : holds (fun t => freqAt t 0 == 2 && freqAt t 255 == 1 && freqAt t 1 == 0 && t.iidx == 3)
    (exec .eCount (inPhase .eCount [0x00, 0xFF, 0x00])) := by decide +kernel
/-- T5: the rarer symbol becomes the left child. -/
theorem test_eBuild : holds (fun t => t.root == some 2 && t.seq == 3 && t.node ==
      [(0, .leaf 0 2 0), (1, .leaf 255 1 1), (2, .internal 1 0 3 2)])
    (exec .eBuild (setFreq 0 2 (setFreq 255 1 (inPhase .eBuild [])))) := by decide +kernel

/-- The tree T5 of 95_test_vectors.md, with its counts. -/
def treeT5 : State :=
  { setFreq 0 2 (setFreq 255 1 (loaded [0x00, 0xFF, 0x00])) with
    root := some 2, seq := 3, node := [(0, .leaf 0 2 0), (1, .leaf 255 1 1), (2, .internal 1 0 3 2)] }

/-- G4, the checks not built. -/
theorem test_eGen : holds (fun t => codeAt t 255 == [false] && codeAt t 0 == [true] && codeAt t 1 == [])
    (exec .eGen { treeT5 with phase := .eGen, cfg := { tiny with invariantChecks := false } }) := by decide +kernel
/-- W7, E14. -/
theorem test_eHdr : holds (fun t => bytesOf t.obuf == [0, 0, 0, 10] && t.olen == 4 && t.wpos == 32)
    (exec .eHdr { inPhase .eHdr [] with ilen := 10 }) := by decide +kernel
/-- C3 and E7: bytes 4 and 5, three bits pending. -/
theorem test_eTree : holds (fun t => bytesOf t.obuf == [0, 0, 0, 0, 0x7F, 0xE0] && t.wpos == 51 && t.wacc == 0)
    (exec .eTree { treeT5 with phase := .eTree, olen := 4, wpos := 32, obuf := (written 4 0).obuf }) := by decide +kernel
/-- E7: the payload `1 0 1`, pending. -/
theorem test_ePack : holds (fun t => t.wacc == 5 && t.wpos == 3 && t.iidx == 3)
    (exec .ePack (setCode 0 [true] (setCode 255 [false] { treeT5 with phase := .ePack }))) := by decide +kernel
/-- W2, and the taps that `FLAGS` asks for. -/
theorem test_eFin : holds (fun t => bytesOf t.obuf == [0xA0] && t.olen == 1 && t.freqTap && !t.codeTap && statusWord t == 0xE2)
    (exec .eFin { inPhase .eFin [] with wpos := 3, wacc := 5, flags := 1 }) := by decide +kernel
/-- D17. -/
theorem test_dHdr_too_large : holds (fun t => t.err == 0x0205 && t.rpos == 32 && t.olen == 0)
    (exec .dHdr (inPhase .dHdr [0, 0, 0, 17])) := by decide +kernel
/-- S4. -/
theorem test_dHdr_trunc : holds (fun t => t.err == 0x0101 && t.rpos == 24) (exec .dHdr (inPhase .dHdr [0, 0, 0])) := by
  decide +kernel
/-- C3 read back from `RPOS` = 32 (rule R191). -/
theorem test_dTree : holds (fun t => t.rpos == 51 && t.root == some 0 && t.node ==
      [(0, .internal 1 2 0 0), (1, .leaf 255 0 1), (2, .leaf 0 0 2)])
    (exec .dTree { inPhase .dTree [0, 0, 0, 3, 0x7F, 0xE0, 0x14] with rpos := 32 }) := by decide +kernel
/-- E7 decoded. -/
theorem test_dWalk : holds (fun t => bytesOf t.obuf == [0x00, 0xFF, 0x00] && t.rpos == 54 && t.nrem == 0)
    (exec .dWalk { treeT5 with
      phase := .dWalk, ibuf := (loaded [0, 0, 0, 3, 0x7F, 0xE0, 0x14]).ibuf, ilen := 7, rpos := 51, nrem := 3 }) := by decide +kernel
/-- D5. -/
theorem test_dWalk_leafroot : holds (fun t => t.err == 0x0501 && t.rpos == 43 && t.olen == 0)
    (exec .dWalk { inPhase .dWalk [0, 0, 0, 2, 0xA0, 0xA0] with
      rpos := 41, nrem := 2, root := some 0, node := [(0, .leaf 0x41 0 0)] }) := by decide +kernel
/-- B1: the fourth bit of A0 80 is 0 and the third is 1. -/
theorem test_rdbit : holds (fun t => t.bioOut == .value 1 && t.rpos == 3)
    (exec .rdbit { loaded [0xA0, 0x80] with rpos := 2 }) := by decide +kernel
/-- B3. -/
theorem test_rdbyte : holds (fun t => t.bioOut == .value 0x41 && t.rpos == 9)
    (exec .rdbyte { loaded [0xA0, 0x80] with rpos := 1 }) := by decide +kernel
/-- B5: the four bits left are consumed. -/
theorem test_rdbyte_eob : holds (fun t => t.bioOut == .eob && t.rpos == 16)
    (exec .rdbyte { loaded [0xA0, 0x80] with rpos := 12 }) := by decide +kernel
/-- B7. -/
theorem test_rdu32 : holds (fun t => t.bioOut == .value 0x12345678 && t.rpos == 32)
    (exec .rdu32 (loaded [0x12, 0x34, 0x56, 0x78])) := by decide +kernel
/-- W3, its last bit. -/
theorem test_wrbit : holds (fun t => bytesOf t.obuf == [0xF0] && t.wpos == 8 && t.wacc == 0)
    (exec (.wrbit false) { loaded [] with wpos := 7, wacc := 0x78 }) := by decide +kernel
/-- W5. -/
theorem test_wrbyte : holds (fun t => bytesOf t.obuf == [0xA0] && t.wpos == 9 && t.wacc == 1)
    (exec (.wrbyte 0x41) { loaded [] with wpos := 1, wacc := 1 }) := by decide +kernel
/-- B7 the other way. -/
theorem test_wru32 : holds (fun t => bytesOf t.obuf == [0x12, 0x34, 0x56, 0x78] && t.wpos == 32)
    (exec (.wru32 0x12345678) (loaded [])) := by decide +kernel
/-- W2. -/
theorem test_finalize : holds (fun t => bytesOf t.obuf == [0xA0] && t.olen == 1 && t.wpos == 3 && t.wacc == 0)
    (exec .finalize { loaded [] with wpos := 3, wacc := 5 }) := by decide +kernel
/-- D18: N = `OBUF_CAP`. -/
theorem test_lenhdr : holds (fun t => t.phase == .dTree && t.nrem == 16 && t.nhdr == 16)
    (exec (.lenhdr 16) (inPhase .dHdr [0, 0, 0, 16])) := by decide +kernel
/-- D13: the 512th marker overflows and is not consumed. -/
theorem test_tnodeInt : holds (fun t => t.err == 0x0401 && t.rpos == 543)
    (exec .tnodeInt { inPhase .dTree [] with rpos := 543, seq := 511 }) := by decide +kernel
/-- C1, E2: `1 01011010` after the header. -/
theorem test_tnodeLeaf : holds (fun t => bytesOf t.obuf == [0xAD] && t.wpos == 9 && t.wacc == 0)
    (exec (.tnodeLeaf 0x5A) (inPhase .eTree [])) := by decide +kernel

/-! ### Witnesses: for each statement, states and operands that meet its hypotheses

The name is that of the statement; where a statement has several clauses the witnesses of its clauses stand together,
at the boundary of what each clause admits. -/

theorem witness_DecodeOfEncodeIsTheOperation :
    WellFormed (.wrbyte 255) = true ∧ WellFormed (.wru32 4294967295) = true ∧
      WellFormed (.lenhdr 4294967295) = true ∧ WellFormed (.tnodeLeaf 255) = true := by decide

theorem witness_DecodedWordIsTheEncoding : decode (.bio 5 0xFF) = .ok (.wrbyte 255) := by decide

theorem witness_CommandWordsAreTheMaskedOnes :
    decode (.cmd 0x1D) = .ok (.encode true true true) ∧ decode (.cmd 0x02) = .ok (.decode false false false) := by decide

/-- `treeT5` before E_TREE, `r` pending bits after `n` stored bytes. -/
def beforeTree (n r : Nat) : State :=
  { treeT5 with
    phase := .eTree, olen := (written n r).olen, wpos := (written n r).wpos, obuf := (written n r).obuf }

theorem witness_StepPerformsTheDecodedOperation :
    (decode (.cmd 0x05) = .ok (.encode true false false) ∧
      (next (.host (.write32 0 0x05)) (loaded [])).events = [.host (.write32 0 0x05)]) ∧
    (decode (.phase (inPhase .dWalk []).phase.code) = .ok .dWalk ∧
      (next .engine (inPhase .dWalk [])).events = [.engine] ∧ (inPhase .dWalk []).events = []) ∧
    (decode (.bio 7 0) = .ok .finalize ∧ (next (.bio 7 0) (inPhase .eFin [])).events = [.bio 7 0] ∧
      issues (inPhase .eFin []) = some .finalize ∧ issues (inPhase .done []) ≠ some .finalize ∧
      (∃ t, exec .finalize { written 1 3 with phase := .eFin } = .next t ∧ t.phase ≠ .error) ∧
      (∃ t, exec .finalize { written 16 3 with phase := .eFin } = .next t ∧ t.phase = .error)) ∧
    (issues { beforeTree 4 0 with finalized := true } = some (.wrbit false) ∧
      ∃ r, exec (.wrbit false) { beforeTree 4 0 with finalized := true } = .refused r) ∧
    (issues { inPhase .dTree [] with ilen := 17, rpos := 128 } = some .rdbit ∧
      ∃ r, exec .rdbit { inPhase .dTree [] with ilen := 17, rpos := 128 } = .fault r) ∧
    ((∃ u, finishToken { inPhase .dTree [0x41] with marker := true, seq := 1, stack := [Frame.at 0] } = .next u ∧ u.phase = .dTree) ∧
      ∃ u, finishToken { inPhase .dTree [0x41] with marker := true } = .next u ∧ u.phase = .dWalk) ∧
    (busy (inPhase .error []) = false ∧ (next .engine (inPhase .error [])).events = [.engine]) := by
  have h1 := of_holds (show holds (fun t => decide (t.phase ≠ .error)) (exec .finalize { written 1 3 with phase := .eFin }) = true by
    decide +kernel)
  have h2 := of_holds (show holds (fun t => decide (t.phase = .error)) (exec .finalize { written 16 3 with phase := .eFin }) = true by
    decide +kernel)
  have h3 := of_holds (show holds (fun u => decide (u.phase = .dTree))
    (finishToken { inPhase .dTree [0x41] with marker := true, seq := 1, stack := [Frame.at 0] }) = true by decide +kernel)
  have h4 := of_holds (show holds (fun u => decide (u.phase = .dWalk))
    (finishToken { inPhase .dTree [0x41] with marker := true }) = true by decide +kernel)
  exact ⟨by decide, by decide, ⟨by decide, by decide, by decide, by decide, by simpa using h1, by simpa using h2⟩,
    ⟨by decide +kernel, _, rfl⟩, ⟨by decide +kernel, _, rfl⟩, ⟨by simpa using h3, by simpa using h4⟩, by decide⟩

theorem witness_TokenStepPerformsTheTokenAtRpos :
    (InRoom (next .token (inPhase .dHdr [0, 0, 0, 16])) 32 ∧
      inBits (next .token (inPhase .dHdr [0, 0, 0, 16])) 0 32 = bitsMsb 32 16 ∧
      decode (.header (bitsMsb 32 16)) = .ok (.lenhdr 16)) ∧
    (InRoom (next .token { inPhase .dTree [0, 0xA0, 0x80] with rpos := 8, seq := 510 }) 9 ∧
      inBits (next .token { inPhase .dTree [0, 0xA0, 0x80] with rpos := 8, seq := 510 }) 8 9 = true :: bitsMsb 8 0x41 ∧
      decode (.tree (true :: bitsMsb 8 0x41)) = .ok (.tnodeLeaf 0x41) ∧
      nodeFits 510 (next .token { inPhase .dTree [0, 0xA0, 0x80] with rpos := 8, seq := 510 }) = true) ∧
    (next .token (inPhase .dHdr [0, 0, 0, 16])).marker = false ∧
    (∃ v, (beforeTree 4 0).cfg.wf = true ∧ (beforeTree 4 0).bioOut = .none ∧ (beforeTree 4 0).marker = false ∧
      decode (.bio 4 0) = .ok (.wrbit false) ∧ issues (beforeTree 4 0) = some (.wrbit false) ∧
      (beforeTree 4 0).events = [] ∧ step (beforeTree 4 0) = .next v) ∧
    ∃ v, issues { inPhase .dTree [0x41] with marker := true } = some .rdbyte ∧
      step { inPhase .dTree [0x41] with marker := true } = .next v ∧ v.phase = .dWalk := by
  obtain ⟨v, hv, -⟩ := of_holds (show holds (fun _ => true) (step (beforeTree 4 0)) = true by decide +kernel)
  have h := of_holds (show holds (fun v => decide (v.phase = .dWalk)) (step { inPhase .dTree [0x41] with marker := true }) = true by
    decide +kernel)
  obtain ⟨w, hw, hp⟩ := h
  exact ⟨⟨⟨by decide, by decide⟩, by decide, by decide⟩, ⟨⟨by decide, by decide⟩, by decide, by decide, by decide⟩, rfl,
    ⟨v, by decide, rfl, rfl, by decide, by decide +kernel, rfl, hv⟩, w, by decide +kernel, hw, of_decide_eq_true hp⟩

theorem witness_CommandWriteChecksInOrder :
    busy (next (.host (.write32 0 3)) (inPhase .ePack [])) = true ∧
      busy (next (.host (.write32 0 3)) (inPhase .done [])) = false := by decide

theorem witness_CommandsStart :
    busy (loaded []) = false ∧ ({ loaded [] with ilen := 16 } : State).ilen.toNat ≤ (loaded []).cfg.ibufCap := by decide

theorem witness_WritesWhileBusyAreIgnored :
    busy (inPhase .eCount []) = true ∧ busy (inPhase .dWalk []) = true ∧ 15 < (inPhase .eCount []).cfg.ibufCap ∧
      (next (.host (.writeIbuf 15 7)) (inPhase .eCount [])).events = [.host (.writeIbuf 15 7)] ∧
      (next (.host (.write32 0x0C 7)) (inPhase .eCount [])).events = [.host (.write32 0x0C 7)] ∧
      (next (.host (.write32 0 2)) (inPhase .eCount [])).events = [.host (.write32 0 2)] := by decide

theorem witness_OnlyCommandOrResetLeavesDoneAndError :
    ∃ s t : State, busy s = false ∧ step s = .next t ∧ (∀ w rest, s.events ≠ .host (.write32 0 w) :: rest) ∧
      ∀ rest, s.events ≠ .reset :: rest := by
  obtain ⟨t, h, -⟩ := of_holds (show holds (fun _ => true)
    (step (next (.bio 4 1) { written 16 7 with phase := .done })) = true by decide +kernel)
  exact ⟨next (.bio 4 1) { written 16 7 with phase := .done }, t, rfl, h, by simp [next], by simp [next]⟩

theorem witness_CountPhaseCountsEverySymbol :
    ({ loaded [] with ilen := 16 } : State).ilen.toNat ≤ ({ loaded [] with ilen := 16 } : State).cfg.ibufCap := by decide

theorem witness_BuildPhaseMakesTheTree :
    (loaded []).cfg.wf = true ∧ (loaded []).seq = 0 ∧ (loaded []).pq = [] ∧ (loaded []).node = [] ∧
      presentSymbols (loaded []) = [] ∧ 255 ∈ presentSymbols (setFreq 255 1 (loaded [])) := by
  refine ⟨by decide, rfl, rfl, rfl, by simp [presentSymbols, freqAt, loaded, State.reset], ?_⟩
  rw [presentSymbols, List.mem_filter]
  exact ⟨by decide, by simp [freqAt_setFreq]⟩

theorem witness_MergeOrderIsCountThenSequence :
    ∃ P : Node → Prop, P (.leaf 1 3 0) ∧ P (.leaf 2 3 1) ∧ P (.internal 0 1 3 2) ∧
      (∀ a b, P a → P b → a ≠ b → a.seq ≠ b.seq) ∧
      ∀ x y cx cy qx qy, P (.leaf x cx qx) → P (.leaf y cy qy) → (x < y ↔ qx < qy) := by
  refine ⟨fun n => n = .leaf 1 3 0 ∨ n = .leaf 2 3 1 ∨ n = .internal 0 1 3 2, by simp, by simp, by simp, ?_, ?_⟩
  · rintro a b (rfl | rfl | rfl) (rfl | rfl | rfl) h <;> first | exact absurd rfl h | decide
  · simp only [Node.leaf.injEq, reduceCtorEq, or_false]
    rintro x y cx cy qx qy (⟨rfl, rfl, rfl⟩ | ⟨rfl, rfl, rfl⟩) (⟨rfl, rfl, rfl⟩ | ⟨rfl, rfl, rfl⟩) <;> decide

/-- Two leaves of equal count and an internal node, all members of `PQ`. -/
def members : State :=
  { loaded [] with
    pq := [2, 1, 0], node := [(0, .leaf 1 3 0), (1, .leaf 2 3 1), (2, .internal 0 1 3 2)] }

theorem witness_RemovalTakesTheLeastMember :
    members.pq ≠ [] ∧ members.pq.Nodup ∧ (∀ i ∈ members.pq, ∃ n, Table.get? members.node i = some n ∧ n.seq = i) ∧
      ∀ i ∈ members.pq, ∀ j ∈ members.pq, ∀ x y cx cy, Table.get? members.node i = some (.leaf x cx i) →
        Table.get? members.node j = some (.leaf y cy j) → (x < y ↔ i < j) := by
  refine ⟨by decide, by decide, ?_, ?_⟩
  · simp [members, Table.get?, Node.seq]
  · simp only [members, List.mem_cons, List.not_mem_nil, or_false]
    rintro i (rfl | rfl | rfl) j (rfl | rfl | rfl) x y cx cy h h' <;> simp [Table.get?] at h h' <;>
      obtain ⟨rfl, -⟩ := h <;> obtain ⟨rfl, -⟩ := h' <;> decide

/-- The tree that `treeT5` holds. -/
def tree5 : HuffTree := .node (.leaf 255) (.leaf 0)

theorem treeT5_holds : HoldsTree treeT5 tree5 :=
  ⟨2, rfl, ⟨1, 0, 3, 2, rfl, ⟨1, 1, rfl⟩, ⟨2, 0, rfl⟩⟩, by decide⟩

theorem witness_CodePhaseEntersThePaths :
    (treeT5.stack = [] ∧ HoldsTree treeT5 tree5 ∧ tree5.leaves.Nodup ∧ ∀ sym, freqAt treeT5 sym ≠ 0 ↔ sym ∈ tree5.leaves) ∧
    ((loaded []).root = none ∧ ∀ sym, freqAt (loaded []) sym = 0) := by
  have h0 : ∀ sym, freqAt (loaded []) sym = 0 := fun sym => by simp [freqAt, loaded, State.reset]
  refine ⟨⟨rfl, treeT5_holds, by decide, fun sym => ?_⟩, rfl, h0⟩
  have e : freqAt treeT5 sym = freqAt (setFreq 0 2 (setFreq 255 1 (loaded [0x00, 0xFF, 0x00]))) sym := rfl
  have h0' : freqAt (loaded [0x00, 0xFF, 0x00]) sym = 0 := by simp [freqAt, loaded, State.reset]
  rw [e, freqAt_setFreq, freqAt_setFreq, h0']
  by_cases h : sym = 0
  · subst h; decide
  · by_cases h' : sym = 255
    · subst h'; decide
    · rw [if_neg h, if_neg h']; simp only [tree5, HuffTree.leaves, List.cons_append, List.nil_append, List.mem_cons, List.not_mem_nil]
      refine ⟨fun hh => absurd rfl hh, fun hh => ?_⟩
      rcases hh with hh | hh | hh
      · exact absurd hh h'
      · exact absurd hh h
      · exact hh.elim

theorem witness_CodesOfATreeArePrefixFree :
    tree5.codes[0]? = some (255, [false]) ∧ tree5.codes[1]? = some (0, [true]) ∧ (0 : Nat) ≠ 1 ∧
      ((0x41 : Byte), [false]) ∈ (HuffTree.leaf 0x41).codes := by decide

theorem witness_HeaderPhaseWritesTheLength :
    (written 0 0).cfg.wf = true ∧ WriterLaw (written 0 0) ∧ (written 0 0).wpos = 0 :=
  ⟨by decide, written_law (by norm_num) (by norm_num), by decide⟩

theorem beforeTree_law {n r : Nat} (hn : n < 2 ^ 32) (hr : r < 8) : WriterLaw (beforeTree n r) :=
  ⟨rfl, (written_law hn hr).olen, (written_law hn hr).pending⟩

/-- The 19 bits of the tree complete the sixteenth byte, or the seventeenth, which has no room. -/
theorem witness_TreePhaseWritesTheSerialization :
    ((beforeTree 14 4).cfg.wf = true ∧ WriterLaw (beforeTree 14 4) ∧ (beforeTree 14 4).stack = [] ∧
      HoldsTree (beforeTree 14 4) tree5 ∧ OutRoom (beforeTree 14 4) tree5.ser.length) ∧
    (WriterLaw (beforeTree 14 5) ∧ HoldsTree (beforeTree 14 5) tree5 ∧ OutRoom (beforeTree 14 5) 0 ∧
      ¬ OutRoom (beforeTree 14 5) tree5.ser.length) ∧
    ({ beforeTree 14 4 with root := none } : State).root = none :=
  ⟨⟨by decide, beforeTree_law (by norm_num) (by norm_num), rfl, treeT5_holds, (by decide : (116 + 19) / 8 ≤ 16)⟩,
   ⟨beforeTree_law (by norm_num) (by norm_num), treeT5_holds, (by decide : (117 + 0) / 8 ≤ 16),
    (by decide : ¬ (117 + 19) / 8 ≤ 16)⟩, rfl⟩

/-- Three input bytes whose codes have a bit each: the last bit that fits, and one more. -/
theorem witness_PackPhaseWritesTheCodes :
    ∃ (s s' : State) (bits : List Bool), bits.length = 3 ∧
      (s.cfg.wf = true ∧ WriterLaw s ∧ s.ilen.toNat ≤ s.cfg.ibufCap ∧
        bits = (List.range s.ilen.toNat).flatMap (fun i => codeAt s (ibufByte s i)) ∧ OutRoom s bits.length) ∧
      (WriterLaw s' ∧ bits = (List.range s'.ilen.toNat).flatMap (fun i => codeAt s' (ibufByte s' i)) ∧
        OutRoom s' 0 ∧ ¬ OutRoom s' bits.length) := by
  refine ⟨setCode 0 [true] (setCode 255 [false] (beforeTree 16 4)), setCode 0 [true] (setCode 255 [false] (beforeTree 16 5)),
    [true, false, true], rfl, ⟨by decide, ?_, by decide, by decide +kernel, (by decide : (132 + 3) / 8 ≤ 16)⟩, ?_, by decide +kernel,
    (by decide : (133 + 0) / 8 ≤ 16), (by decide : ¬ (133 + 3) / 8 ≤ 16)⟩
  · exact ⟨rfl, (written_law (n := 16) (r := 4) (by norm_num) (by norm_num)).olen, (written_law (n := 16) (r := 4) (by norm_num) (by norm_num)).pending⟩
  · exact ⟨rfl, (written_law (n := 16) (r := 5) (by norm_num) (by norm_num)).olen, (written_law (n := 16) (r := 5) (by norm_num) (by norm_num)).pending⟩

theorem witness_FinishPhaseClosesTheStream :
    (WriterLaw (written 15 1) ∧ OutRoom (written 15 1) 7) ∧
    ((written 16 1).cfg.wf = true ∧ WriterLaw (written 16 1) ∧ (written 16 1).wpos.toNat % 8 ≠ 0 ∧
      (written 16 1).cfg.obufCap ≤ (written 16 1).olen.toNat) :=
  ⟨⟨written_law (by norm_num) (by norm_num), (by decide : (121 + 7) / 8 ≤ 16)⟩,
   by decide, written_law (by norm_num) (by norm_num), by decide, by decide⟩

theorem witness_HeaderPhaseReadsTheLength :
    ((loaded [0, 0, 0]).ilen.toNat < 4 ∧ (loaded [0, 0, 0]).rpos = 0) ∧
    (4 ≤ (loaded [0, 0, 0, 17]).ilen.toNat ∧ (loaded [0, 0, 0, 17]).ilen.toNat ≤ (loaded [0, 0, 0, 17]).cfg.ibufCap ∧
      (loaded [0, 0, 0, 17]).cfg.obufCap < bitsValue (inBits (loaded [0, 0, 0, 17]) 0 32)) ∧
    bitsValue (inBits (loaded [0, 0, 0, 16]) 0 32) = (loaded [0, 0, 0, 16]).cfg.obufCap ∧
    bitsValue (inBits (loaded [0, 0, 0, 0]) 0 32) = 0 := by decide

/-- A single leaf that takes the last bit of the input and the last node. -/
theorem witness_TreePhaseReadsTheSerialization :
    ∃ s : State, s.stack = [] ∧ InRoom s (HuffTree.leaf 0x41).ser.length ∧
      inBits s s.rpos.toNat (HuffTree.leaf 0x41).ser.length = (HuffTree.leaf 0x41).ser ∧
      ∀ i < s.seq + (HuffTree.leaf 0x41).size, nodeFits i s = true := by
  refine ⟨{ loaded [0x01, 0x41] with rpos := 7, seq := 510 }, rfl, ⟨by decide, by decide⟩, by decide, fun i hi => ?_⟩
  show decide (i < 511) = true
  have : i < 510 + 1 := hi
  simp [this]

theorem witness_TreePhaseEndsOrFailsByName :
    (loaded [0, 0]).stack = [] ∧ (loaded [0, 0]).ilen.toNat ≤ (loaded [0, 0]).cfg.ibufCap ∧
      ({ loaded [0, 0] with rpos := 16 } : State).rpos.toNat ≤ 8 * (loaded [0, 0]).ilen.toNat := by decide

/-- `treeT5` in D_WALK with the code bits `1 0 1` last in the input. -/
def walking : State :=
  { treeT5 with
    phase := .dWalk, ibuf := (loaded [0x05]).ibuf, ilen := 1, rpos := 5, nrem := 3, olen := 13 }

theorem witness_WalkPhaseEmitsTheSymbols :
    walking.cfg.wf = true ∧ HoldsTree walking tree5 ∧
      (∀ e ∈ [((0 : Byte), [true]), (255, [false]), (0, [true])], e ∈ tree5.codes) ∧ walking.nrem.toNat = 3 ∧
      walking.olen.toNat + 3 ≤ walking.cfg.obufCap ∧ InRoom walking 3 ∧
      inBits walking walking.rpos.toNat 3 = [true, false, true] :=
  ⟨by decide, treeT5_holds, by decide, by decide, by decide, ⟨by decide, by decide⟩, by decide⟩

/-- A single leaf in D_WALK. -/
def leafWalk (bytes : List Nat) (pos : Pos) (n : Word) : State :=
  { inPhase .dWalk bytes with
    rpos := pos, nrem := n, root := some 0, node := [(0, .leaf 0x41 0 0)] }

theorem witness_SingleLeafTakesOneBitPerSymbol :
    ((leafWalk [0xE0] 3 5).cfg.wf = true ∧ (leafWalk [0xE0] 3 5).root = some 0 ∧
      Table.get? (leafWalk [0xE0] 3 5).node 0 = some (.leaf 0x41 0 0) ∧
      (leafWalk [0xE0] 3 5).olen.toNat + (leafWalk [0xE0] 3 5).nrem.toNat ≤ (leafWalk [0xE0] 3 5).cfg.obufCap ∧
      InRoom (leafWalk [0xE0] 3 5) 5 ∧ inBits (leafWalk [0xE0] 3 5) 3 5 = List.replicate 5 false) ∧
    ((leafWalk [0xE1] 3 5).cfg.leafrootBit1 = .fault ∧ 4 < (leafWalk [0xE1] 3 5).nrem.toNat ∧
      InRoom (leafWalk [0xE1] 3 5) (4 + 1) ∧
      inBits (leafWalk [0xE1] 3 5) 3 (4 + 1) = List.replicate 4 false ++ [true]) :=
  ⟨⟨by decide, rfl, rfl, by decide, ⟨by decide, by decide⟩, by decide⟩, rfl, by decide, ⟨by decide, by decide⟩, by decide⟩

/-- A tree with codes of two bits, and a payload that ends in the middle of the second symbol's code. -/
def cutShort : State :=
  { inPhase .dWalk [0x01] with
    rpos := 6, nrem := 2, olen := 14, root := some 4, seq := 5,
    node := [(0, .leaf 1 0 0), (1, .leaf 2 0 1), (2, .leaf 3 0 2), (3, .internal 1 2 0 3), (4, .internal 0 3 0 4)] }

/-- The tree that `cutShort` holds. -/
def tree3 : HuffTree := .node (.leaf 1) (.node (.leaf 2) (.leaf 3))

theorem cutShort_holds : HoldsTree cutShort tree3 :=
  ⟨4, rfl, ⟨0, 3, 0, 4, rfl, ⟨0, 0, rfl⟩, ⟨1, 2, 0, 3, rfl, ⟨0, 1, rfl⟩, ⟨0, 2, rfl⟩⟩⟩, by decide⟩

/-- The codes of one symbol and a part of the next, and no code at all before the end of the bits. -/
theorem witness_WalkPhaseNeverEndsShort_short :
    (cutShort.cfg.wf = true ∧ cutShort.ilen.toNat ≤ cutShort.cfg.ibufCap ∧
      cutShort.rpos.toNat ≤ 8 * cutShort.ilen.toNat ∧ HoldsTree cutShort tree3 ∧
      cutShort.olen.toNat + cutShort.nrem.toNat ≤ cutShort.cfg.obufCap) ∧
    (((1 : Byte), [false]) ∈ tree3.codes ∧ 1 < cutShort.nrem.toNat ∧ ((2 : Byte), [true] ++ [false]) ∈ tree3.codes ∧
      cutShort.rpos.toNat + ([false] ++ [true]).length = 8 * cutShort.ilen.toNat ∧
      inBits cutShort cutShort.rpos.toNat 2 = [false] ++ [true]) ∧
    (0 < cutShort.nrem.toNat ∧ ({ cutShort with rpos := 8 } : State).rpos.toNat + 0 = 8 * cutShort.ilen.toNat ∧
      ((1 : Byte), ([] : List Bool) ++ [false]) ∈ tree3.codes) :=
  ⟨⟨by decide, by decide, by decide, cutShort_holds, by decide⟩, by decide, by decide⟩

theorem witness_WalkPhaseNeverEndsShort :
    (∃ t, exec .dWalk (leafWalk [0xE0] 3 5) = .next t ∧ t.phase = .done) ∧
    (∃ t, exec .dWalk (leafWalk [0xE0] 3 6) = .next t ∧ t.phase = .error) ∧
      (leafWalk [0xE0] 3 6).ilen.toNat ≤ (leafWalk [0xE0] 3 6).cfg.ibufCap ∧
      (leafWalk [0xE0] 3 6).rpos.toNat ≤ 8 * (leafWalk [0xE0] 3 6).ilen.toNat := by
  have h1 := of_holds (show holds (fun t => decide (t.phase = .done)) (exec .dWalk (leafWalk [0xE0] 3 5)) = true by decide +kernel)
  have h2 := of_holds (show holds (fun t => decide (t.phase = .error)) (exec .dWalk (leafWalk [0xE0] 3 6)) = true by decide +kernel)
  exact ⟨by simpa using h1, by simpa using h2, by decide, by decide⟩

theorem witness_ReadBitReturnsTheBitAtRpos :
    InRoom { loaded [0xA0] with rpos := 7 } 1 ∧
      8 * (loaded [0xA0]).ilen.toNat ≤ ({ loaded [0xA0] with rpos := 8 } : State).rpos.toNat :=
  ⟨⟨by decide, by decide⟩, by decide⟩

theorem witness_ReadByteAndWordAssembleTheirBits :
    InRoom { loaded [0xA0, 0x80] with rpos := 8 } 8 ∧ InRoom (loaded [0x12, 0x34, 0x56, 0x78]) 32 ∧
      ((loaded [0xA0]).ilen.toNat ≤ (loaded [0xA0]).cfg.ibufCap ∧
        ({ loaded [0xA0] with rpos := 1 } : State).rpos.toNat ≤ 8 * (loaded [0xA0]).ilen.toNat ∧
        8 * (loaded [0xA0]).ilen.toNat < ({ loaded [0xA0] with rpos := 1 } : State).rpos.toNat + 8 ∧
        8 * (loaded [0xA0]).ilen.toNat < ({ loaded [0xA0] with rpos := 1 } : State).rpos.toNat + 32) :=
  ⟨⟨by decide, by decide⟩, ⟨by decide, by decide⟩, by decide, by decide, by decide, by decide⟩

theorem witness_WriteBitCompletesBytes :
    ((written 0 6).cfg.wf = true ∧ (written 0 6).finalized = false ∧
      (1 : Byte).toNat = (2 * (written 0 6).wacc.toNat + true.toNat) % 256 ∧ (written 0 6).wpos.toNat % 8 ≠ 7) ∧
    ((written 15 7).wpos.toNat % 8 = 7 ∧ (written 15 7).olen.toNat < (written 15 7).cfg.obufCap ∧
      WriterLaw (written 15 7) ∧ OutRoom (written 15 7) 1) ∧
    ((written 16 7).wpos.toNat % 8 = 7 ∧ (written 16 7).cfg.obufCap ≤ (written 16 7).olen.toNat) :=
  ⟨by decide, ⟨by decide, by decide, written_law (by norm_num) (by norm_num), (by decide : (127 + 1) / 8 ≤ 16)⟩, by decide⟩

theorem witness_WritesAppendTheirBits :
    WriterLaw (written 12 7) ∧ OutRoom (written 12 7) 32 ∧ OutRoom (written 12 7) 8 ∧ OutRoom (written 12 7) 1 ∧
      ∃ v, v < 2 ^ 32 ∧ Instr.wru32 4294967295 = .wru32 v ∧ bitsMsb 32 4294967295 = bitsMsb 32 v :=
  ⟨written_law (by norm_num) (by norm_num), (by decide : (103 + 32) / 8 ≤ 16), (by decide : (103 + 8) / 8 ≤ 16),
    (by decide : (103 + 1) / 8 ≤ 16), 4294967295, by decide, rfl, rfl⟩

theorem witness_FinalizePadsTheLastByte :
    (written 16 0).wpos.toNat % 8 = 0 ∧
    ((written 16 1).wpos.toNat % 8 ≠ 0 ∧ (written 16 1).cfg.obufCap ≤ (written 16 1).olen.toNat) ∧
    ((written 15 7).wpos.toNat % 8 ≠ 0 ∧ (written 15 7).olen.toNat < (written 15 7).cfg.obufCap) ∧
    WriterLaw (written 15 1) ∧ OutRoom (written 15 1) 7 :=
  ⟨by decide, by decide, by decide, written_law (by norm_num) (by norm_num), (by decide : (121 + 7) / 8 ≤ 16)⟩

theorem witness_FullOutputRaisesOverflow :
    (WriterLaw (written 16 7) ∧ (written 16 7).olen.toNat = (written 16 7).cfg.obufCap ∧ (written 16 7).wpos.toNat % 8 = 7) ∧
    (WriterLaw (written 16 1) ∧ (written 16 1).olen.toNat = (written 16 1).cfg.obufCap ∧ (written 16 1).wpos.toNat % 8 ≠ 0) :=
  ⟨⟨written_law (by norm_num) (by norm_num), by decide, by decide⟩, written_law (by norm_num) (by norm_num), by decide, by decide⟩

theorem witness_WriteAfterFinalizeIsRefused : ({ loaded [] with finalized := true } : State).finalized = true := rfl

/-- An `OBUF` of 4 bytes, the least that rule R10 allows. -/
def four : State := { loaded [] with cfg := { tiny with obufCap := 4 } }

/-- `p` holds where an operation ends with its result. -/
def ends (p : State → Bool) : Flow Unit → Bool
  | .ok _ t => p t
  | _ => false

theorem of_ends {p : State → Bool} {x : Flow Unit} (h : ends p x = true) : ∃ t, x = .ok () t ∧ p t = true := by
  cases x with
  | ok a t => exact ⟨t, rfl, h⟩
  | eob t => cases h
  | raised t => cases h
  | fault r => cases h
  | refused r => cases h

/-- 25 bits and their padding fill an `OBUF` of 4 bytes. -/
theorem witness_WrittenBitsReadBack :
    ∃ (s t u : State) (bits : List Bool), bits.length = 25 ∧ s.cfg.wf = true ∧ WriterLaw s ∧ s.wpos = 0 ∧
      OutRoom s (bits.length + 7) ∧ (wrBits bits s).bind (fun _ s => finalizeOp s) = .ok () t ∧
      u.ibuf = t.obuf ∧ u.ilen = t.olen ∧ u.rpos = 0 ∧ u.ilen.toNat ≤ u.cfg.ibufCap := by
  obtain ⟨t, h, ht⟩ := of_ends (show ends (fun t => decide (t.olen = 4))
    ((wrBits (List.replicate 25 true) four).bind fun _ s => finalizeOp s) = true by decide +kernel)
  refine ⟨four, t, { loaded [] with ibuf := t.obuf, ilen := t.olen }, List.replicate 25 true, List.length_replicate,
    by decide, ⟨rfl, by decide, by decide⟩, rfl, (by decide : (0 + (25 + 7)) / 8 ≤ 4), h, rfl, rfl, rfl, ?_⟩
  show t.olen.toNat ≤ 16
  rw [of_decide_eq_true ht]
  decide

theorem witness_HeaderTokenIsReadAndWritten :
    ((inPhase .dHdr []).phase = .dHdr ∧ 16 ≤ (inPhase .dHdr []).cfg.obufCap ∧ (inPhase .dHdr []).cfg.obufCap < 17) ∧
    (({ written 12 7 with phase := .eHdr } : State).phase = .eHdr ∧ WriterLaw { written 12 7 with phase := .eHdr } ∧
      OutRoom { written 12 7 with phase := .eHdr } 32) :=
  ⟨by decide, rfl, ⟨rfl, (written_law (n := 12) (r := 7) (by norm_num) (by norm_num)).olen, (written_law (n := 12) (r := 7) (by norm_num) (by norm_num)).pending⟩,
    (by decide : (103 + 32) / 8 ≤ 16)⟩

theorem witness_TreeTokensAreWritten :
    (beforeTree 15 6).phase = .eTree ∧ (beforeTree 15 6).cfg.wf = true ∧ WriterLaw (beforeTree 15 6) ∧
      OutRoom (beforeTree 15 6) 1 ∧ OutRoom (beforeTree 15 6) 9 ∧
      ∃ v, v < 2 ^ 8 ∧ Instr.tnodeLeaf 255 = .tnodeLeaf v ∧ true :: bitsMsb 8 255 = true :: bitsMsb 8 v :=
  ⟨rfl, by decide, beforeTree_law (by norm_num) (by norm_num), (by decide : (126 + 1) / 8 ≤ 16), (by decide : (126 + 9) / 8 ≤ 16),
    255, by decide, rfl, rfl⟩

/-- Two nodes wait: the inner one for its right child, the outer one for its left. -/
def waiting : List Frame := [{ node := 2, left := some 3, path := [] }, { node := 1, left := none, path := [] }]

theorem witness_TreeTokensAreRead :
    (inPhase .dTree []).phase = .dTree ∧ nodeFits 510 (inPhase .dTree []) = true ∧ nodeFits 511 (inPhase .dTree []) = false ∧
      (inPhase .dTree []).stack = [] ∧
      ({ inPhase .dTree [] with seq := 1, stack := [Frame.at 0] } : State).stack = { node := 0, left := none, path := [] } :: [] ∧
      (∀ fr ∈ waiting.take 1, fr.left.isSome = true ∧ fr.node < 510) ∧ waiting = waiting.take 1 ++ waiting.drop 1 ∧
      waiting.drop 1 = { node := 1, left := none, path := [] } :: [] ∧ waiting.take 1 = waiting.take 1 ++ [] := by
  decide

theorem witness_TokenOutOfPhaseIsRefused :
    (loaded []).phase ≠ .eHdr ∧ (loaded []).phase ≠ .dHdr ∧ (loaded []).phase ≠ .eTree ∧ (loaded []).phase ≠ .dTree := by decide

theorem witness_NoOperationWritesTheInput :
    ∃ t, (loaded [0xA0]).cfg.wf = true ∧ exec (.wrbyte 0x41) (loaded [0xA0]) = .next t := by
  obtain ⟨t, h, -⟩ := of_holds (show holds (fun _ => true) (exec (.wrbyte 0x41) (loaded [0xA0])) = true by decide +kernel)
  exact ⟨t, by decide, h⟩

theorem witness_CursorsMoveOnlyWithTheirUnit :
    ∃ t u, exec .finalize (written 0 3) = .next t ∧ exec .dHdr (inPhase .dHdr [0, 0, 0, 1]) = .next u ∧
      ∀ f c b, Instr.finalize ≠ .encode f c b ∧ Instr.finalize ≠ .decode f c b := by
  obtain ⟨t, h, -⟩ := of_holds (show holds (fun _ => true) (exec .finalize (written 0 3)) = true by decide +kernel)
  obtain ⟨u, h', -⟩ := of_holds (show holds (fun _ => true) (exec .dHdr (inPhase .dHdr [0, 0, 0, 1])) = true by decide +kernel)
  exact ⟨t, u, h, h', by simp⟩

theorem witness_ReadsChangeOnlyRpos :
    ∃ t, Instr.rdbyte ∈ [Instr.rdbit, .rdbyte, .rdu32] ∧ exec .rdbyte (loaded [0xA0]) = .next t ∧
      (loaded [0xA0]).rpos.toNat ≤ 8 * (loaded [0xA0]).ilen.toNat := by
  obtain ⟨t, h, -⟩ := of_holds (show holds (fun _ => true) (exec .rdbyte (loaded [0xA0])) = true by decide +kernel)
  exact ⟨t, by decide, h, by decide⟩

/-- A single leaf in D_WALK with payload bits 1 under the policy `accept`. -/
def walkOnes : State :=
  { leafWalk [0xFF] 0 5 with cfg := { tiny with leafrootBit1 := .accept } }

theorem witness_WritesStoreOnlyFromOlenOn :
    (∃ t, exec .eHdr (inPhase .eHdr []) = .next t ∧ t.phase ≠ .error) ∧
    (∃ t, exec (.wrbit true) (written 15 7) = .next t ∧ t.phase ≠ .error) ∧
    (∃ t, exec .eCount (inPhase .eCount [1]) = .next t ∧ t.phase ≠ .error) ∧
    (∃ t, exec .dWalk walkOnes = .next t ∧ t.phase ≠ .error) ∧
    (inPhase .eHdr []).phase ≠ .error ∧ walkOnes.cfg.wf = true ∧ walkOnes.phase ≠ .error := by
  have h1 := of_holds (show holds (fun t => decide (t.phase ≠ .error)) (exec .eHdr (inPhase .eHdr [])) = true by decide +kernel)
  have h2 := of_holds (show holds (fun t => decide (t.phase ≠ .error)) (exec (.wrbit true) (written 15 7)) = true by decide +kernel)
  have h3 := of_holds (show holds (fun t => decide (t.phase ≠ .error)) (exec .eCount (inPhase .eCount [1])) = true by decide +kernel)
  have h4 := of_holds (show holds (fun t => decide (t.phase ≠ .error)) (exec .dWalk walkOnes) = true by decide +kernel)
  exact ⟨by simpa using h1, by simpa using h2, by simpa using h3, by simpa using h4, by decide, by decide, by decide⟩

theorem witness_OperationsRaiseOnlyTheirErrors :
    (∃ t, exec .dHdr (inPhase .dHdr [0, 0, 0]) = .next t ∧ t.phase = .error) ∧
    (∃ t, exec (.wrbit true) (written 16 7) = .next t ∧ t.phase = .error) ∧
    (∃ t, exec .tnodeInt { inPhase .dTree [] with seq := 511 } = .next t ∧ t.phase = .error) ∧
    (inPhase .dHdr [0, 0, 0]).cfg.wf = true ∧ (written 16 7).cfg.wf = true ∧ (inPhase .dTree []).cfg.wf = true ∧
    (inPhase .dHdr [0, 0, 0]).phase ≠ .error ∧ (written 16 7).phase ≠ .error ∧ (inPhase .dTree []).phase ≠ .error ∧
    ∀ i ∈ [Instr.dHdr, .wrbit true, .tnodeInt], ∀ f c b, i ≠ .encode f c b ∧ i ≠ .decode f c b := by
  have h1 := of_holds (show holds (fun t => decide (t.phase = .error)) (exec .dHdr (inPhase .dHdr [0, 0, 0])) = true by decide +kernel)
  have h2 := of_holds (show holds (fun t => decide (t.phase = .error)) (exec (.wrbit true) (written 16 7)) = true by decide +kernel)
  have h3 := of_holds (show holds (fun t => decide (t.phase = .error)) (exec .tnodeInt { inPhase .dTree [] with seq := 511 }) = true by
    decide +kernel)
  exact ⟨by simpa using h1, by simpa using h2, by simpa using h3, by decide, by decide, by decide, by decide, by decide, by decide,
    by simp⟩

theorem witness_StepKeepsBuffers :
    ∃ t, BufferInv { written 15 7 with phase := .eFin } ∧
      step (next (.bio 7 0) { written 15 7 with phase := .eFin }) = .next t ∧ t.olen = 16 := by
  obtain ⟨t, h, ht⟩ := of_holds (show holds (fun t => t.olen == 16)
    (step (next (.bio 7 0) { written 15 7 with phase := .eFin })) = true by decide +kernel)
  exact ⟨t, ⟨by decide, by decide, by decide, by decide, by decide, by decide⟩, h, by simpa using ht⟩

theorem witness_StepKeepsErrorChannel :
    ∃ t, ErrorInv (inPhase .eCount [1]) ∧ step (inPhase .eCount [1]) = .next t := by
  obtain ⟨t, h, -⟩ := of_holds (show holds (fun _ => true) (step (inPhase .eCount [1])) = true by decide +kernel)
  exact ⟨t, ⟨.inl rfl, by decide, by decide, by decide, by decide⟩, h⟩

theorem witness_StepKeepsEngineRegisters :
    ∃ t, EngineInv (inPhase .dTree [0xA0, 0x80]) ∧ step (next .token (inPhase .dTree [0xA0, 0x80])) = .next t := by
  obtain ⟨t, h, -⟩ := of_holds (show holds (fun _ => true) (step (next .token (inPhase .dTree [0xA0, 0x80]))) = true by decide +kernel)
  exact ⟨t, ⟨rfl, fun _ _ => rfl, by decide, by decide, by decide, by decide, by decide, by decide, by decide, by decide,
    by decide, by decide, fun h => absurd h (by decide), rfl⟩, h⟩

theorem witness_ResetInputResetsEveryRegister : (next .reset (inPhase .dWalk [1])).events = .reset :: [] := rfl

theorem witness_StatusReadsStateAndPhase : (next (.host (.read32 0x04)) (inPhase .dWalk [1])).events = [.host (.read32 0x04)] := rfl

theorem witness_RegistersReadTheirValues :
    busy (inPhase .done []) = false ∧
      (0x18 : BitVec 15) = 0x18 ∧ (0xF : Word).toNat = ({ inPhase .done [] with rpos := 0xFFFFFFFFF } : State).rpos.toNat / 2 ^ 32 ∧
      (7 : Word).toNat = ({ inPhase .done [] with flags := 7 } : State).flags.toNat := by decide

theorem witness_ReadsWhileBusyAreFree :
    busy (inPhase .eCount []) = true ∧ (0x7FC#15).toNat % 4 = 0 ∧ (0x400 ≤ (0x7FC#15).toNat ∧ (0x7FC#15).toNat < 0x800) ∧
      0x4000 ≤ (0x7FFC#15).toNat ∧ 15 < (inPhase .eCount []).cfg.ibufCap ∧ 15 < (inPhase .eCount []).cfg.obufCap := by decide

theorem witness_ReservedOffsetsReadZero :
    (0x7FFF#15).toNat % 4 ≠ 0 ∧ (0x28 ≤ (0x3FC#15).toNat ∧ (0x3FC#15).toNat < 0x400) ∧
      (0x800 ≤ (0x3FFC#15).toNat ∧ (0x3FFC#15).toNat < 0x4000) ∧ (0x04#15 ≠ 0 ∧ 0x04#15 ≠ 0x0C) := by decide

theorem witness_TapsReadTheTables :
    ∃ s : State, busy s = false ∧ s.freqTap = true ∧ s.codeTap = true ∧ (codeAt s 255).length ≤ 255 ∧
      (0x7FC#15).toNat = 0x400 + 4 * (255 : Byte).toNat ∧ (0x7FFC#15).toNat = 0x4000 + 64 * (255 : Byte).toNat + 4 * 15 :=
  ⟨{ inPhase .done [] with freqTap := true, codeTap := true }, by decide +kernel⟩

theorem witness_HostReachesTheBuffers :
    busy (inPhase .done []) = false ∧ 15 < (inPhase .done []).cfg.ibufCap ∧ 15 < (inPhase .done []).cfg.obufCap ∧
      (15 < ({ written 16 0 with phase := .done } : State).olen.toNat ∧ Table.get? (written 16 0).obuf 15 = some 0) ∧
      ((inPhase .idle []).phase ≠ .done ∧ (written 15 0).olen.toNat ≤ 15) := by decide

theorem witness_WrittenTreeReadsBack :
    ∃ s u d : State, s.cfg.wf = true ∧ WriterLaw s ∧ s.stack = [] ∧ HoldsTree s tree5 ∧ OutRoom s tree5.ser.length ∧
      exec .eTree s = .next u ∧ d.stack = [] ∧ d.seq = 0 ∧ d.cfg.wf = true ∧ tree5.size ≤ 511 ∧
      InRoom d tree5.ser.length ∧ inBits d d.rpos.toNat tree5.ser.length = (outBits u).drop (outBits s).length := by
  obtain ⟨u, h, hu⟩ := of_holds (show holds (fun t => decide ((outBits t).drop (outBits (beforeTree 4 0)).length = tree5.ser))
    (exec .eTree (beforeTree 4 0)) = true by decide +kernel)
  refine ⟨beforeTree 4 0, u, inPhase .dTree [0x7F, 0xE0, 0x00], by decide, beforeTree_law (by norm_num) (by norm_num), rfl,
    treeT5_holds, (by decide : (32 + 19) / 8 ≤ 16), h, rfl, rfl, by decide, by decide, ⟨by decide, by decide⟩, ?_⟩
  rw [of_decide_eq_true hu]
  decide

/-- E7: the input 00 FF 00. -/
theorem witness_DecodeOfEncodeIsTheInput :
    ∃ s t : State, busy s = false ∧ s.events = [] ∧ s.cfg.wf = true ∧ s.ilen.toNat ≤ s.cfg.ibufCap ∧
      s.ilen.toNat ≤ s.cfg.obufCap ∧
      Host.Core.run Sys2Proof.core 7 (acceptCmd (cmdWord 1 false false false) s) = .next t ∧ t.phase = .done ∧
      t.olen.toNat ≤ t.cfg.ibufCap ∧ bytesOf t.obuf = [0, 0, 0, 3, 0x7F, 0xE0, 0x14] := by
  obtain ⟨t, h, ht⟩ := of_holds (show holds (fun t => decide (t.phase = .done ∧ t.olen.toNat ≤ t.cfg.ibufCap ∧
      bytesOf t.obuf = [0, 0, 0, 3, 0x7F, 0xE0, 0x14]))
    (Host.Core.run Sys2Proof.core 7 (acceptCmd (cmdWord 1 false false false) (loaded [0x00, 0xFF, 0x00]))) = true by
      decide +kernel)
  have ht := of_decide_eq_true ht
  exact ⟨_, t, by decide, rfl, by decide, by decide, by decide, h, ht.1, ht.2.1, ht.2.2⟩

theorem witness_CodeTableIsPrefixFree :
    treeT5.stack = [] ∧ HoldsTree treeT5 tree5 ∧ tree5.leaves.Nodup ∧ ∀ sym, freqAt treeT5 sym ≠ 0 ↔ sym ∈ tree5.leaves :=
  witness_CodePhaseEntersThePaths.1

theorem witness_PointerWidthIsLeast :
    (tiny.wf = true ∧ tiny.nodeCap = some 511) ∧ ({ tiny with nodeCap := none } : Params).nodeCap = none := by decide

/-- An error entry, which draws the registers anew. -/
theorem witness_StepKeepsWidths :
    ∃ t, WidthInv (inPhase .dTree []) ∧ step (inPhase .dTree []) = .next t ∧ t.phase = .error := by
  obtain ⟨t, h, ht⟩ := of_holds (show holds (fun t => decide (t.phase = .error)) (step (inPhase .dTree [])) = true by
    decide +kernel)
  refine ⟨t, ⟨by decide, by decide, by decide, by decide, by decide, ?_, fun sym => ?_⟩, h, of_decide_eq_true ht⟩
  · simp [inPhase, loaded, State.reset]
  · simp [codeAt, inPhase, loaded, State.reset]

end Sys2Proof.Tests
end

section
/-! SUPPORT. What a step is made of: a rule for predicates that every step keeps, and what a step does to the buffers
and the parameters. -/

namespace Sys2Proof.Machine

/-! ### A rule for what every step keeps -/

/-- What a predicate has to satisfy so that every step keeps it: one clause for each thing that a step can do. -/
structure StepRules (I : State → Prop) : Prop where
  events : ∀ s es, I s → I { s with events := es }
  data : ∀ s v n, I s → I { s with rdata := v, draws := n }
  ilen : ∀ s v, busy s = false → I s → I { s with ilen := v }
  ibuf : ∀ s a v, busy s = false → a < s.cfg.ibufCap → I s → I { s with ibuf := Table.set s.ibuf a v }
  reset : ∀ s, I s → I (resetInput s)
  accept : ∀ s w, busy s = false → I s → I (acceptCmd w s)
  engine : ∀ s t, I s → engineTurn s = .next t → I t
  issued : ∀ s t i, I s → issues s = some i → perform i s = .next t → I t
  token : ∀ s t, I s → s.marker = false → tokenTurn s = .next t → I t

section
variable {I : State → Prop}

theorem StepRules.deliver (R : StepRules I) {s : State} (r : ReadValue) (h : I s) : I (deliver r s) := by
  cases r with
  | value v => exact R.data s v s.draws h
  | unspecified => exact R.data s _ _ h

theorem StepRules.deliverByte (R : StepRules I) {s : State} (r : ReadValue) (h : I s) : I (deliverByte r s) := by
  cases r with
  | value v => exact R.data s v s.draws h
  | unspecified => exact R.data s _ _ h

theorem StepRules.writeIlen (R : StepRules I) {s : State} (v : Word) (h : I s) : I (writeIlen v s) := by
  rw [Machine.writeIlen]
  split_ifs with hb
  · exact h
  · exact R.ilen s v (by simpa using hb) h

theorem StepRules.writeIbufByte (R : StepRules I) {s : State} {a : Nat} (v : Byte) (ha : a < s.cfg.ibufCap) (h : I s) :
    I (writeIbufByte a v s) := by
  rw [Machine.writeIbufByte]
  split_ifs with hb
  · exact h
  · exact R.ibuf s a v (by simpa using hb) ha h

theorem StepRules.writeCmd (R : StepRules I) {s : State} (w : Word) (h : I s) : I (writeCmd w s) := by
  rw [Machine.writeCmd]
  split_ifs with hb
  · exact h
  · exact R.accept s w (by simpa using hb) h

theorem StepRules.writeReg (R : StepRules I) {s t : State} {off : BitVec 15} {v : Word} (h : I s)
    (ht : writeReg off v s = .next t) : I t := by
  rw [Machine.writeReg] at ht
  split at ht
  · rw [cmdTurn_eq] at ht; cases ht; exact R.writeCmd v h
  · cases ht; exact R.writeIlen v h
  · cases ht; exact h

theorem StepRules.hostTurn (R : StepRules I) {a : HostAccess} {s t : State} (h : I s) (ht : hostTurn a s = .next t) :
    I t := by
  cases a <;> simp only [Machine.hostTurn] at ht
  case read32 off => cases ht; exact R.deliver _ h
  case write32 off v => exact R.writeReg h ht
  case readNarrow off => cases ht; exact R.deliver _ h
  case writeNarrow off v => cases ht; exact h
  case readIbuf a => split_ifs at ht; cases ht; exact R.deliverByte _ h
  case writeIbuf a v => split_ifs at ht with ha; cases ht; exact R.writeIbufByte v ha h
  case readObuf a => split_ifs at ht; cases ht; exact R.deliverByte _ h
  case writeObuf a v => split_ifs at ht; cases ht; exact h
  case copyToIbuf a => split_ifs at ht with ha; cases ht; exact R.writeIbufByte _ ha h
  case wait =>
    split_ifs at ht
    · exact R.engine _ t (R.events s _ h) ht
    · cases ht; exact R.deliver _ h
  case loopback => cases ht; exact R.events s _ h

theorem StepRules.bioTurn (R : StepRules I) {sel : BitVec 3} {op : Word} {s t : State} (h : I s)
    (ht : bioTurn sel op s = .next t) : I t := by
  rcases bioTurn_next ht with ⟨i, -, hi, hp⟩ | rfl
  · exact R.issued s t i h hi hp
  · exact h

theorem StepRules.finishToken (R : StepRules I) {s t : State} (h : I s) (ht : finishToken s = .next t) : I t := by
  cases hi : issues s with
  | some i => rw [finishToken_some hi] at ht; exact R.issued s t i h hi ht
  | none => rw [finishToken_none hi] at ht; cases ht; exact h

theorem StepRules.tokenTurn (R : StepRules I) {s t : State} (h : I s) (ht : tokenTurn s = .next t) : I t := by
  cases hm : s.marker with
  | true => rw [Machine.tokenTurn, if_pos hm] at ht; exact R.finishToken h ht
  | false => exact R.token s t h hm ht

/-- A predicate that satisfies the rules is kept by every step. -/
theorem StepRules.step (R : StepRules I) {s t : State} (h : I s) (ht : step s = .next t) : I t := by
  rw [Machine.step, turn] at ht
  have h' : ∀ es, I { s with events := es } := fun es => R.events s es h
  split at ht
  · exact R.engine s t h ht
  · cases ht; exact R.reset _ (h' _)
  · exact R.engine _ t (h' _) ht
  · exact R.hostTurn (h' _) ht
  · exact R.bioTurn (h' _) ht
  · exact R.tokenTurn (h' _) ht

end

/-! ### The buffers and the parameters -/

/-- What a turn of the engine does to the buffers and the parameters: it leaves the parameters and `IBUF` alone, and it
keeps `OBUF` in its form and in its space, and `OLEN` within it. -/
structure BufferStep (s t : State) : Prop where
  cfg : t.cfg = s.cfg
  ibuf : t.ibuf = s.ibuf
  rising : Table.rising s.obuf → Table.rising t.obuf
  inCap : (∀ c ∈ s.obuf, c.1 < s.cfg.obufCap) → ∀ c ∈ t.obuf, c.1 < s.cfg.obufCap
  fits : s.olen.toNat ≤ s.cfg.obufCap → t.olen.toNat ≤ s.cfg.obufCap

theorem BufferStep.refl (s : State) : BufferStep s s := ⟨rfl, rfl, id, id, id⟩

theorem BufferStep.trans {s t u : State} (h : BufferStep s t) (h' : BufferStep t u) : BufferStep s u := by
  have hc := h'.inCap
  have hf := h'.fits
  rw [h.cfg] at hc hf
  exact ⟨h'.cfg.trans h.cfg, h'.ibuf.trans h.ibuf, fun x => h'.rising (h.rising x), fun x => hc (h.inCap x),
    fun x => hf (h.fits x)⟩

/-- What is neither a parameter nor a buffer nor `OLEN` may change besides. -/
theorem BufferStep.besides {s t u : State} (h : BufferStep s t) (hc : u.cfg = t.cfg) (hi : u.ibuf = t.ibuf)
    (ho : u.obuf = t.obuf) (hn : u.olen = t.olen) : BufferStep s u :=
  ⟨hc.trans h.cfg, hi.trans h.ibuf, by rw [ho]; exact h.rising, by rw [ho]; exact h.inCap, by rw [hn]; exact h.fits⟩

theorem BufferStep.wf {s t : State} (h : BufferStep s t) (hp : s.cfg.wf = true) : t.cfg.wf = true := by rwa [h.cfg]

theorem BufferStep.bufferInv {s t : State} (h : BufferStep s t) (hs : BufferInv s) : BufferInv t where
  params := h.wf hs.params
  ibufWf := by rw [h.ibuf]; exact hs.ibufWf
  ibufInside := by rw [h.ibuf, h.cfg]; exact hs.ibufInside
  obufWf := h.rising hs.obufWf
  obufInside := by rw [h.cfg]; exact h.inCap hs.obufInside
  olenFits := by rw [h.cfg]; exact h.fits hs.olenFits

/-- The error entry keeps both buffers, and `OLEN` is 0 after it. -/
theorem BufferStep.raise {s t : State} (c : Cause) (h : BufferStep s t) : BufferStep s (raise c t) :=
  ⟨h.cfg, h.ibuf, h.rising, h.inCap, fun _ => Nat.zero_le _⟩

theorem OutMoved.bufferStep {s t : State} (h : OutMoved s t) : BufferStep s t :=
  ⟨h.cfg, by rw [h.same], h.rising, h.inCap, h.fits⟩

theorem OnlyOut.bufferStep {s t : State} (h : OnlyOut s t) : BufferStep s t := h.toOutMoved.bufferStep

theorem FullAfter.bufferStep {s t : State} (h : FullAfter s t) : BufferStep s t := by
  obtain ⟨u, hu, -, rfl⟩ := h
  exact hu.bufferStep.raise _

theorem OnlyRpos.bufferStep {s t : State} (h : OnlyRpos s t) : BufferStep s t := by
  rw [h.same]; exact (BufferStep.refl s).besides rfl rfl rfl rfl

theorem DesStep.bufferStep {s t : State} (h : DesStep s t) : BufferStep s t := by
  rw [h.same]; exact (BufferStep.refl s).besides rfl rfl rfl rfl

theorem DesError.bufferStep {s t : State} (h : DesError s t) : BufferStep s t := by
  obtain ⟨u, c, hu, -, rfl⟩ := h
  exact hu.bufferStep.raise c

theorem Walked.bufferStep {s t : State} (h : Walked s t) : BufferStep s t :=
  ⟨by rw [h.same], by rw [h.same], h.rising, h.inCap, h.fits⟩

theorem OnlyWalk.bufferStep {s t : State} (h : OnlyWalk s t) : BufferStep s t := by
  rw [h.same]; exact (BufferStep.refl s).besides rfl rfl rfl rfl

theorem WalkedError.bufferStep {s t : State} (h : WalkedError s t) : BufferStep s t := by
  obtain ⟨u, hu, v, hv, ⟨-, rfl⟩ | ⟨-, -, rfl⟩⟩ := h
  · exact (hu.bufferStep.trans hv.bufferStep).raise _
  · exact (hu.bufferStep.trans hv.bufferStep).raise _

theorem Built.bufferStep {s t : State} (h : Built s t) : BufferStep s t := by
  rw [h.same]; exact (BufferStep.refl s).besides rfl rfl rfl rfl

theorem headerRead_bufferStep {n : Word} {s t : State} (h : (headerRead n s).outcome = .next t) : BufferStep s t := by
  rcases headerRead_next h with ⟨-, rfl⟩ | ⟨-, -, rfl⟩ | ⟨-, -, rfl⟩
  · exact BufferStep.raise _ ⟨rfl, rfl, id, id, id⟩
  · exact ⟨rfl, rfl, id, id, id⟩
  · exact ⟨rfl, rfl, id, id, id⟩

theorem phaseTurn_bufferStep {s t : State} (hp : s.cfg.wf = true) (h : phaseTurn s = .next t) : BufferStep s t := by
  have enter : ∀ {u : State} {p : Phase}, BufferStep s u → BufferStep s { u with phase := p } := fun hu =>
    hu.besides rfl rfl rfl rfl
  have hdr : BufferStep s { s with nhdr := s.ilen } := ⟨rfl, rfl, id, id, id⟩
  have stack : ∀ fs, BufferStep s (withStack fs s) := fun _ => ⟨rfl, rfl, id, id, id⟩
  have iidx : ∀ i, BufferStep s (withIidx i s) := fun _ => ⟨rfl, rfl, id, id, id⟩
  obtain ⟨-, e⟩ | ⟨-, ⟨-, e⟩ | ⟨-, e⟩ | ⟨-, e⟩ | ⟨-, e⟩ | ⟨-, e⟩ | ⟨-, e⟩ | ⟨-, e⟩ | ⟨-, e⟩ | ⟨-, e⟩ | ⟨-, e⟩⟩ :=
    phaseTurn_cases s <;> rw [e] at h
  · cases h; exact BufferStep.refl _
  · -- E_COUNT
    rw [(execECount_next h).1]; exact (BufferStep.refl s).besides rfl rfl rfl rfl
  · -- E_BUILD
    obtain ⟨u, hu, rfl | rfl⟩ := execEBuild_next h
    · exact enter hu.bufferStep
    · exact hu.bufferStep.raise _
  · -- E_GEN
    obtain ⟨u, hu, -, ht⟩ := execEGen_next h
    have hb : BufferStep s u := by rw [hu]; exact (BufferStep.refl s).besides rfl rfl rfl rfl
    rcases ht with rfl | rfl | rfl
    · exact enter hb
    · exact hb.raise _
    · exact hb.raise _
  · -- E_HDR
    rcases execEHdr_next hp h with ⟨u, hu, rfl⟩ | hf
    · exact enter (hdr.trans hu.bufferStep)
    · exact hdr.trans hf.bufferStep
  · -- E_TREE
    rcases execETree_next hp h with ⟨u, hu, rfl⟩ | ⟨fs, hf⟩
    · exact enter ((stack _).trans hu.bufferStep)
    · exact (stack _).trans hf.bufferStep
  · -- E_PACK
    rcases execEPack_next hp h with ⟨u, hu, -, rfl⟩ | ⟨i, hf⟩
    · exact enter ((iidx _).trans hu.bufferStep)
    · exact (iidx _).trans hf.bufferStep
  · -- E_FIN
    rcases execEFin_next hp h with ⟨u, hu, rfl⟩ | hf
    · exact hu.bufferStep.besides rfl rfl rfl rfl
    · exact hf.bufferStep
  · -- D_HDR
    rcases execDHdr_next h with ⟨u, hu, rfl⟩ | ⟨u, n, hu, hh⟩
    · exact hu.bufferStep.raise _
    · exact hu.bufferStep.trans (headerRead_bufferStep hh)
  · -- D_TREE
    rcases execDTree_next h with ⟨u, hu, -, rfl⟩ | he
    · exact enter hu.bufferStep
    · exact he.bufferStep
  · -- D_WALK
    rcases execDWalk_next hp h with ⟨u, hu, -, rfl⟩ | he
    · exact enter hu.bufferStep
    · exact he.bufferStep

theorem perform_bufferStep {i : Instr} {s t : State} (hp : s.cfg.wf = true) (hi : issues s = some i)
    (h : perform i s = .next t) : BufferStep s t := by
  rcases perform_next hp hi h with ⟨-, u, hu, hc⟩ | ⟨-, u, hu, hc⟩ | ⟨-, hc⟩ | ⟨-, hc⟩ | ⟨-, hc⟩
  · -- D_HDR
    have hl : BufferStep s { u with bioOut := .none } := hu.bufferStep.besides rfl rfl rfl rfl
    rcases hc with rfl | ⟨n, hh⟩
    · exact hl.raise _
    · exact hl.trans (headerRead_bufferStep hh)
  · -- D_TREE
    have hl : BufferStep s { u with bioOut := .none } := hu.bufferStep.besides rfl rfl rfl rfl
    rcases hc with rfl | ⟨-, rfl⟩ | ⟨v, hv, hc⟩
    · exact hl.raise _
    · exact hl.besides rfl rfl rfl rfl
    · have hd : BufferStep s (tokenDone u) := hl.besides rfl rfl rfl rfl
      rcases hc with rfl | ⟨-, rfl⟩
      · exact hd.trans hv.bufferStep
      · exact (hd.trans hv.bufferStep).besides rfl rfl rfl rfl
  · -- E_HDR
    rcases hc with ⟨u, hu, rfl⟩ | hf
    · exact hu.bufferStep.besides rfl rfl rfl rfl
    · exact hf.bufferStep
  · -- E_TREE
    rcases hc with ⟨u, hu, ⟨-, -, rfl⟩ | ⟨_, rfl⟩⟩ | hf
    · exact hu.bufferStep.besides rfl rfl rfl rfl
    · exact hu.bufferStep.besides rfl rfl rfl rfl
    · exact hf.bufferStep
  · -- E_FIN
    rcases hc with ⟨u, hu, rfl⟩ | hf
    · exact hu.bufferStep.besides rfl rfl rfl rfl
    · exact hf.bufferStep

theorem finishToken_bufferStep {s t : State} (hp : s.cfg.wf = true) (h : finishToken s = .next t) : BufferStep s t := by
  cases hi : issues s with
  | some i => rw [finishToken_some hi] at h; exact perform_bufferStep hp hi h
  | none => rw [finishToken_none hi] at h; cases h; exact BufferStep.refl _

theorem engineTurn_bufferStep {s t : State} (hp : s.cfg.wf = true) (h : engineTurn s = .next t) : BufferStep s t := by
  rcases engineTurn_next h with ⟨-, h⟩ | ⟨-, u, hu, h⟩
  · exact phaseTurn_bufferStep hp h
  · have hb := finishToken_bufferStep hp hu
    rcases h with ⟨-, h⟩ | ⟨-, rfl⟩
    · exact hb.trans (phaseTurn_bufferStep (hb.wf hp) h)
    · exact hb

theorem movePast_bufferStep (n : Nat) (s : State) : BufferStep s (movePast n s) := ⟨rfl, rfl, id, id, id⟩

theorem tokenTurn_bufferStep {s t : State} (hp : s.cfg.wf = true) (hm : s.marker = false) (h : tokenTurn s = .next t) :
    BufferStep s t := by
  obtain ⟨-, ⟨u, hu, rfl⟩ | ⟨n, -, hh⟩⟩ | ⟨-, he | ⟨n, -, ⟨u, hu, rfl⟩ | ⟨u, hu, -, rfl⟩⟩⟩ | ⟨-, -, h⟩ :=
    tokenTurn_next hp hm h
  · exact hu.bufferStep.raise _
  · exact (movePast_bufferStep 32 s).trans (headerRead_bufferStep hh)
  · exact he.bufferStep
  · exact (movePast_bufferStep n s).trans hu.bufferStep
  · exact ((movePast_bufferStep n s).trans hu.bufferStep).besides rfl rfl rfl rfl
  · exact phaseTurn_bufferStep hp h

theorem acceptCmd_bufferStep (w : Word) (s : State) : BufferStep s (acceptCmd w s) := by
  have init : BufferStep s (initCommand { s with cmd := w }) := ⟨rfl, rfl, id, id, fun _ => Nat.zero_le _⟩
  rcases acceptCmd_cases w s with e | e | ⟨-, e | e⟩ <;> rw [e]
  · exact init.raise _
  · exact init.raise _
  · exact init.besides rfl rfl rfl rfl
  · exact init.besides rfl rfl rfl rfl

theorem bufferRules : StepRules BufferInv where
  events := fun _ _ h => ⟨h.params, h.ibufWf, h.ibufInside, h.obufWf, h.obufInside, h.olenFits⟩
  data := fun _ _ _ h => ⟨h.params, h.ibufWf, h.ibufInside, h.obufWf, h.obufInside, h.olenFits⟩
  ilen := fun _ _ _ h => ⟨h.params, h.ibufWf, h.ibufInside, h.obufWf, h.obufInside, h.olenFits⟩
  ibuf := fun s a v _ ha h => by
    refine ⟨h.params, Memory.wf_set a v h.ibufWf, fun c hc => ?_, h.obufWf, h.obufInside, h.olenFits⟩
    rcases Table.mem_set hc with rfl | hc
    · exact ha
    · exact h.ibufInside c hc
  reset := fun _ h =>
    ⟨h.params, reset_memory_wf.1, by simp [State.reset], reset_memory_wf.2, by simp [State.reset], Nat.zero_le _⟩
  accept := fun s w _ h => (acceptCmd_bufferStep w s).bufferInv h
  engine := fun _ _ h ht => (engineTurn_bufferStep h.params ht).bufferInv h
  issued := fun _ _ _ h hi ht => (perform_bufferStep h.params hi ht).bufferInv h
  token := fun _ _ h hm ht => (tokenTurn_bufferStep h.params hm ht).bufferInv h

/-- Settles O45: each thing that a step can do keeps the buffers (`bufferRules`), so every step does. -/
theorem stepKeepsBuffers : Obligations.StepKeepsBuffers := fun _ _ h ht => bufferRules.step h ht

end Sys2Proof.Machine
end

section
/-! SUPPORT. Every step keeps the widths of rule R11, from `exec_fits` and `perform_fits` of Sys2Proof/Laws. -/

namespace Sys2Proof.Machine

/-- A turn of the engine for a phase performs an operation, or nothing. -/
theorem phaseTurn_next {s t : State} (h : phaseTurn s = .next t) : t = s ∨ ∃ i, exec i s = .next t := by
  rw [phaseTurn] at h
  split at h
  · exact .inr ⟨_, h⟩
  · cases h; exact .inl rfl

theorem phaseTurn_fits {s t : State} (hs : WidthInv s) (h : phaseTurn s = .next t) : WidthInv t := by
  rcases phaseTurn_next h with rfl | ⟨i, hi⟩
  · exact hs
  · exact exec_fits hs hi

theorem finishToken_fits {s t : State} (hs : WidthInv s) (h : finishToken s = .next t) : WidthInv t := by
  cases hi : issues s with
  | some i => rw [finishToken_some hi] at h; exact perform_fits hs hi h
  | none => rw [finishToken_none hi] at h; cases h; exact hs

theorem engineTurn_fits {s t : State} (hs : WidthInv s) (h : engineTurn s = .next t) : WidthInv t := by
  rcases engineTurn_next h with ⟨-, h⟩ | ⟨-, u, hu, ⟨-, h⟩ | ⟨-, rfl⟩⟩
  · exact phaseTurn_fits hs h
  · exact phaseTurn_fits (finishToken_fits hs hu) h
  · exact finishToken_fits hs hu

theorem rdBits_fits (n : Nat) {s : State} (hs : WidthInv s) : (rdBits n s).Fits :=
  (rdBits_post n s).mono (fun _ _ h => h.fits hs) (fun _ h => h.1.fits hs) fun _ h => h.elim

theorem treeTokenBits_fits {s : State} (hs : WidthInv s) : (treeTokenBits s).Fits :=
  (rdBit_fits hs).bind fun _ _ ht => (rdBits_fits _ ht).bind fun _ _ hu => hu

theorem desRoom_fits {s : State} (hs : WidthInv s) : (desRoom s).Fits := by
  rw [desRoom]
  split_ifs
  · exact hs
  · exact WidthInv.raise _ _

/-- A token turn ends as the operation does that the bits stand for, or with what the reading of the bits has left. -/
theorem tokenTurnOf_fits {place : List Bool → Code} {seen : Flow (List Bool)} {s t : State} (hs : WidthInv s)
    (hx : seen.Fits) (h : tokenTurnOf place seen s = .next t) : WidthInv t := by
  cases seen with
  | ok bits u =>
    rw [tokenTurnOf] at h
    split at h
    · exact exec_fits hs h
    · cases h
  | eob u => cases h; exact hx
  | raised u => cases h; exact hx
  | fault r => cases h
  | refused r => cases h

theorem tokenTurn_fits {s t : State} (hs : WidthInv s) (h : tokenTurn s = .next t) : WidthInv t := by
  rw [tokenTurn] at h
  split_ifs at h
  · exact finishToken_fits hs h
  · split at h
    · exact tokenTurnOf_fits hs (rdBits_fits 32 hs).onEob h
    · exact tokenTurnOf_fits hs ((desRoom_fits hs).bind fun _ _ hu => (treeTokenBits_fits hu).onEob) h
    · exact phaseTurn_fits hs h

theorem acceptCmd_fits (w : Word) {s : State} (hb : busy s = false) (hs : WidthInv s) : WidthInv (acceptCmd w s) := by
  have h := writeCmd_fits w hs
  rwa [writeCmd, if_neg (by simp [hb])] at h

/-- `SEQ` = 0 fits whatever its width is. -/
theorem fitsWidth_zero (w : Option Nat) : fitsWidth w 0 = true := by
  cases w with
  | none => rfl
  | some w => exact decide_eq_true (Nat.two_pow_pos w)

theorem resetInput_fits (s : State) : WidthInv (resetInput s) where
  seq := fitsWidth_zero _
  root := by simp [State.reset]
  cur := by simp [State.reset]
  pq := by simp [State.reset]
  stack := by simp [State.reset]
  node := by simp [State.reset]
  code := fun sym => by simp [codeAt, State.reset]

theorem widthRules : StepRules WidthInv where
  events := fun _ _ h => h.congr rfl rfl rfl rfl rfl rfl rfl rfl
  data := fun _ _ _ h => h.congr rfl rfl rfl rfl rfl rfl rfl rfl
  ilen := fun _ _ _ h => h.congr rfl rfl rfl rfl rfl rfl rfl rfl
  ibuf := fun _ _ _ _ _ h => h.congr rfl rfl rfl rfl rfl rfl rfl rfl
  reset := fun s _ => resetInput_fits s
  accept := fun _ w hb h => acceptCmd_fits w hb h
  engine := fun _ _ h ht => engineTurn_fits h ht
  issued := fun _ _ _ h hi ht => perform_fits h hi ht
  token := fun _ _ h _ ht => tokenTurn_fits h ht

/-- Settles O60: each thing that a step can do keeps the widths (`widthRules`), so every step does. -/
theorem stepKeepsWidths : Obligations.StepKeepsWidths := fun _ _ h ht => widthRules.step h ht

end Sys2Proof.Machine
end

section
/-! SUPPORT. Every step keeps the engine's registers lawful: what each thing that the engine does makes of `EngineInv`. -/

namespace Sys2Proof.Machine

theorem busy_of_encode {s : State} (h : s.phase ∈ encodePhases) : busy s = true := by
  rw [busy]
  revert h
  cases s.phase <;> decide

theorem busy_of_decode {s : State} (h : s.phase ∈ decodePhases) : busy s = true := by
  rw [busy]
  revert h
  cases s.phase <;> decide

/-- No phase belongs to both commands (rules R201, R221). -/
theorem not_decode_of_encode {p : Phase} (h : p ∈ encodePhases) : p ∉ decodePhases := by
  revert h
  cases p <;> decide

/-- The phases of ENCODE are not among those that come after D_HDR. -/
theorem not_decoding_of_encode {p : Phase} (h : p ∈ encodePhases) : ¬ (p = .dTree ∨ p = .dWalk) := by
  rintro (rfl | rfl) <;> exact absurd h (by decide)

/-- Only the two tree phases issue the symbol of a leaf (rules R185, R190). -/
theorem phase_of_issues_symbol {s : State} (h : issues s = some .rdbyte ∨ ∃ v, issues s = some (.wrbyte v)) :
    s.phase = .dTree ∨ s.phase = .eTree := by
  cases hp : s.phase <;> simp [issues, hp] at h ⊢

@[simp] theorem busy_raise (c : Cause) (s : State) : busy (raise c s) = false := rfl

/-- In D_TREE the symbol follows the marker of a leaf (rule R190). -/
theorem issues_dTree_marked {s : State} (hp : s.phase = .dTree) (hm : s.marker = true) : issues s = some .rdbyte := by
  rw [issues, hp]; exact if_pos hm

/-! ### States that the engine's operations make -/

/-- The error entry: one cursor being 0, and nothing on the result lines, is all that it needs. -/
theorem EngineInv.raise {s : State} (c : Cause) (hc : s.rpos = 0 ∨ s.wpos = 0) (hl : s.bioOut = .none) :
    EngineInv (raise c s) where
  pq := rfl
  stack := fun _ _ => rfl
  nodeWf := List.Pairwise.nil
  nodeSeq := by simp
  ilen := by simp
  rpos := by simp
  iidx := by simp
  wacc := by simp
  header := by simp
  encodes := by simp [encodePhases]
  decodes := by simp [decodePhases]
  cursors := hc
  marker := by simp
  lines := hl

/-- The next phase, or the end of the command. -/
theorem EngineInv.withPhase {s : State} {p : Phase} (h : EngineInv s) (hb : busy s = true) (hm : s.marker = false)
    (hs : p ≠ .dTree → p ≠ .eTree → s.stack = [])
    (hh : p = .dTree ∨ p = .dWalk → s.nrem = s.nhdr ∧ s.nhdr.toNat ≤ s.cfg.obufCap)
    (he : p ∈ encodePhases → s.rpos = 0) (hd : p ∈ decodePhases → s.wpos = 0) :
    EngineInv { s with phase := p } where
  pq := h.pq
  stack := hs
  nodeWf := h.nodeWf
  nodeSeq := h.nodeSeq
  ilen := fun _ => h.ilen hb
  rpos := fun _ => h.rpos hb
  iidx := fun _ => h.iidx hb
  wacc := fun _ => h.wacc (busy_phase hb).1
  header := hh
  encodes := he
  decodes := hd
  cursors := h.cursors
  marker := fun hm' => absurd (hm.symm.trans hm') (by simp)
  lines := h.lines

/-- What the writer does in a phase of ENCODE. -/
theorem EngineInv.onlyOut {s t : State} (h : EngineInv s) (he : s.phase ∈ encodePhases) (ho : OnlyOut s t) :
    EngineInv t := by
  have pending := ho.pending
  rw [ho.same] at pending ⊢
  exact ⟨h.pq, h.stack, h.nodeWf, h.nodeSeq, h.ilen, h.rpos, h.iidx, fun hp => pending (h.wacc hp), h.header,
    h.encodes, fun hd => absurd hd (not_decode_of_encode he), .inl (h.encodes he), h.marker, h.lines⟩

/-- What the writer leaves when `OBUF` is full in a phase of ENCODE. -/
theorem EngineInv.fullAfter {s t : State} (hr : s.rpos = 0) (hl : s.bioOut = .none) (hf : FullAfter s t) :
    EngineInv t := by
  obtain ⟨u, hu, -, rfl⟩ := hf
  refine EngineInv.raise _ (.inl ?_) ?_
  · rw [hu.same]; exact hr
  · rw [hu.same]; exact hl

/-- What the reader and DES do in D_TREE. -/
theorem EngineInv.desStep {s t : State} (h : EngineInv s) (hp : s.phase = .dTree) (hd : DesStep s t) :
    EngineInv t := by
  have hd' : s.phase ∈ decodePhases := by rw [hp]; decide
  have inside := hd.inside (h.rpos (busy_of_decode hd'))
  have rising := hd.rising h.nodeWf
  have nodeSeq := hd.nodeSeq h.nodeSeq
  rw [hd.same] at inside rising nodeSeq ⊢
  exact ⟨h.pq, fun hne => absurd hp hne, rising, nodeSeq, h.ilen, fun _ => inside, h.iidx, h.wacc, h.header,
    fun he => absurd hd' (not_decode_of_encode he), h.decodes, .inr (h.decodes hd'),
    fun hm => .inl (issues_dTree_marked hp hm), h.lines⟩

/-- What the reader does in D_HDR. -/
theorem EngineInv.onlyRpos {s t : State} (h : EngineInv s) (hp : s.phase = .dHdr) (ho : OnlyRpos s t) :
    EngineInv t := by
  have hd : s.phase ∈ decodePhases := by rw [hp]; decide
  have inside := ho.inside (h.rpos (busy_of_decode hd))
  rw [ho.same] at inside ⊢
  exact ⟨h.pq, h.stack, h.nodeWf, h.nodeSeq, h.ilen, fun _ => inside, h.iidx, h.wacc, h.header,
    fun he => absurd hd (not_decode_of_encode he), h.decodes, .inr (h.decodes hd), h.marker, h.lines⟩

/-- The error of D_TREE. -/
theorem EngineInv.desError {s t : State} (h : EngineInv s) (hp : s.phase = .dTree) (he : DesError s t) :
    EngineInv t := by
  obtain ⟨u, c, hu, -, rfl⟩ := he
  have hu' := h.desStep hp hu
  exact EngineInv.raise c hu'.cursors hu'.lines

/-- The result lines are taken, and no token is half done any more. -/
theorem EngineInv.tokenDone {s : State} (h : EngineInv s) : EngineInv (tokenDone s) :=
  ⟨h.pq, h.stack, h.nodeWf, h.nodeSeq, h.ilen, h.rpos, h.iidx, h.wacc, h.header, h.encodes, h.decodes, h.cursors,
    fun hm => (Bool.false_ne_true hm).elim, rfl⟩

/-- The result lines being taken changes nothing where nothing waits on them. -/
theorem EngineInv.takeLines {s : State} (h : EngineInv s) : ({ s with bioOut := .none } : State) = s := by
  rw [← h.lines]

/-- The N of a header in D_HDR. -/
theorem EngineInv.headerRead {n : Word} {s t : State} (h : EngineInv s) (hp : s.phase = .dHdr) (hm : s.marker = false)
    (ht : (headerRead n s).outcome = .next t) : EngineInv t := by
  have hd : s.phase ∈ decodePhases := by rw [hp]; decide
  have hb := busy_of_decode hd
  have hn : EngineInv { s with nhdr := n, nrem := n } :=
    ⟨h.pq, h.stack, h.nodeWf, h.nodeSeq, h.ilen, h.rpos, h.iidx, h.wacc, fun hp' => by simp [hp] at hp', h.encodes,
      h.decodes, h.cursors, h.marker, h.lines⟩
  have hs : s.stack = [] := h.stack (by simp [hp]) (by simp [hp])
  rcases headerRead_next ht with ⟨-, rfl⟩ | ⟨-, -, rfl⟩ | ⟨hle, -, rfl⟩
  · exact EngineInv.raise _ h.cursors h.lines
  · exact hn.withPhase hb hm (fun _ _ => hs) (by simp) (by simp [encodePhases]) fun _ => h.decodes hd
  · exact hn.withPhase hb hm (fun _ _ => hs) (fun _ => ⟨rfl, hle⟩) (by simp [encodePhases]) fun _ => h.decodes hd

/-- D_TREE has read its last token. -/
theorem EngineInv.treeRead {s : State} (h : EngineInv s) (hp : s.phase = .dTree) (hm : s.marker = false)
    (hs : s.stack = []) : EngineInv { s with phase := .dWalk } := by
  have hd : s.phase ∈ decodePhases := by rw [hp]; decide
  exact h.withPhase (busy_of_decode hd) hm (fun _ _ => hs) (fun _ => h.header (.inl hp)) (by simp [encodePhases])
    fun _ => h.decodes hd

/-- The next phase of an ENCODE. -/
theorem EngineInv.nextEncode {s : State} {p : Phase} (h : EngineInv s) (he : s.phase ∈ encodePhases)
    (hm : s.marker = false) (hs : p = .eTree ∨ s.stack = []) (hp : p ∈ encodePhases ∨ p = .done) :
    EngineInv { s with phase := p } := by
  have hd : p ∉ decodePhases := by
    rcases hp with hp | rfl
    · exact not_decode_of_encode hp
    · decide
  refine h.withPhase (busy_of_encode he) hm (fun _ hne => hs.resolve_left hne) (fun hp' => ?_) (fun _ => h.encodes he)
    fun hd' => absurd hd' hd
  rcases hp' with rfl | rfl <;> exact absurd (by decide) hd

/-- E_FIN ends. -/
theorem EngineInv.finishEncode {s : State} (h : EngineInv s) (hp : s.phase = .eFin) (hm : s.marker = false) :
    EngineInv (finishEncode s) := by
  have he : s.phase ∈ encodePhases := by rw [hp]; decide
  have h' := h.nextEncode (p := .done) he hm (.inr (h.stack (by simp [hp]) (by simp [hp]))) (.inr rfl)
  exact ⟨h'.pq, h'.stack, h'.nodeWf, h'.nodeSeq, h'.ilen, h'.rpos, h'.iidx, h'.wacc, h'.header, h'.encodes, h'.decodes,
    h'.cursors, h'.marker, h'.lines⟩

/-! ### A turn for a phase -/

theorem EngineInv.eCount {s t : State} (h : EngineInv s) (hph : s.phase = .eCount) (hm : s.marker = false)
    (ht : exec .eCount s = .next t) : EngineInv t := by
  obtain ⟨same, hi⟩ := execECount_next ht
  rw [same] at hi ⊢
  have hc : EngineInv { s with freq := t.freq, iidx := t.iidx } :=
    ⟨h.pq, h.stack, h.nodeWf, h.nodeSeq, h.ilen, h.rpos, fun _ => hi, h.wacc, h.header, h.encodes, h.decodes,
      h.cursors, h.marker, h.lines⟩
  exact hc.nextEncode (by rw [show _ = Phase.eCount from hph]; decide) hm (.inr (h.stack (by simp [hph]) (by simp [hph])))
    (.inl (by decide))

theorem EngineInv.eBuild {s t : State} (h : EngineInv s) (hph : s.phase = .eBuild) (hm : s.marker = false)
    (ht : exec .eBuild s = .next t) : EngineInv t := by
  obtain ⟨u, hu, ht⟩ := execEBuild_next ht
  have hi : EngineInv u := by
    have rising := hu.rising h.nodeWf
    have nodeSeq := hu.nodeSeq h.nodeSeq
    rw [hu.same] at rising nodeSeq ⊢
    exact ⟨rfl, h.stack, rising, nodeSeq, h.ilen, h.rpos, h.iidx, h.wacc, h.header, h.encodes, h.decodes, h.cursors,
      fun hm' => absurd (hm.symm.trans hm') (by simp), h.lines⟩
  have hup : u.phase = .eBuild := by rw [hu.same]; exact hph
  have hum : u.marker = false := by rw [hu.same]; exact hm
  rcases ht with rfl | rfl
  · exact hi.nextEncode (by rw [hup]; decide) hum (.inr (hi.stack (by simp [hup]) (by simp [hup]))) (.inl (by decide))
  · exact EngineInv.raise _ hi.cursors hi.lines

theorem EngineInv.eGen {s t : State} (h : EngineInv s) (hph : s.phase = .eGen) (hm : s.marker = false)
    (ht : exec .eGen s = .next t) : EngineInv t := by
  obtain ⟨u, hu, hus, ht⟩ := execEGen_next ht
  have hst : u.stack = [] := hus (h.stack (by simp [hph]) (by simp [hph]))
  have hi : EngineInv u := by
    rw [hu] at hst ⊢
    exact ⟨h.pq, fun _ _ => hst, h.nodeWf, h.nodeSeq, h.ilen, h.rpos, h.iidx, h.wacc, h.header, h.encodes, h.decodes,
      h.cursors, fun hm' => absurd (hm.symm.trans hm') (by simp), h.lines⟩
  have hup : u.phase = .eGen := by rw [hu]; exact hph
  have hum : u.marker = false := by rw [hu]; exact hm
  rcases ht with rfl | rfl | rfl
  · exact hi.nextEncode (by rw [hup]; decide) hum (.inr hst) (.inl (by decide))
  · exact EngineInv.raise _ hi.cursors hi.lines
  · exact EngineInv.raise _ hi.cursors hi.lines

/-- The header, stack and index that the writer's phases start from. -/
theorem EngineInv.atWriter {s : State} {n i : Word} {fs : List Frame} (h : EngineInv s) (he : s.phase ∈ encodePhases)
    (hm : s.marker = false) (hi : i.toNat ≤ s.ilen.toNat) (hs : s.phase = .eTree ∨ fs = []) :
    EngineInv { s with nhdr := n, iidx := i, stack := fs } :=
  ⟨h.pq, fun _ hne => hs.resolve_left hne, h.nodeWf, h.nodeSeq, h.ilen, h.rpos, fun _ => hi, h.wacc,
    fun hp => absurd hp (not_decoding_of_encode he),
    h.encodes, h.decodes, h.cursors, fun hm' => absurd (hm.symm.trans hm') (by simp), h.lines⟩

/-- A phase of the writer ends. -/
theorem EngineInv.afterWriter {s u : State} {p : Phase} (h : EngineInv s) (he : s.phase ∈ encodePhases)
    (hm : s.marker = false) (hs : p = .eTree ∨ s.stack = []) (hp : p ∈ encodePhases) (hu : OnlyOut s u) :
    EngineInv { u with phase := p } := by
  refine (h.onlyOut he hu).nextEncode ?_ ?_ ?_ (.inl hp) <;> rw [hu.same]
  · exact he
  · exact hm
  · exact hs

theorem EngineInv.eHdr {s t : State} (hp : s.cfg.wf = true) (h : EngineInv s) (hph : s.phase = .eHdr)
    (hm : s.marker = false) (ht : exec .eHdr s = .next t) : EngineInv t := by
  have he : s.phase ∈ encodePhases := by rw [hph]; decide
  have hst : s.stack = [] := h.stack (by simp [hph]) (by simp [hph])
  have hs : EngineInv { s with nhdr := s.ilen } :=
    h.atWriter (fs := s.stack) he hm (h.iidx (busy_of_encode he)) (.inr hst)
  rcases execEHdr_next hp ht with ⟨u, hu, rfl⟩ | hf
  · exact hs.afterWriter he hm (.inl rfl) (by decide) hu
  · exact EngineInv.fullAfter (s := { s with nhdr := s.ilen }) (h.encodes he) h.lines hf

theorem EngineInv.eTree {s t : State} (hp : s.cfg.wf = true) (h : EngineInv s) (hph : s.phase = .eTree)
    (hm : s.marker = false) (ht : exec .eTree s = .next t) : EngineInv t := by
  have he : s.phase ∈ encodePhases := by rw [hph]; decide
  have hs : EngineInv (withStack [] s) := h.atWriter (n := s.nhdr) he hm (h.iidx (busy_of_encode he)) (.inr rfl)
  rcases execETree_next hp ht with ⟨u, hu, rfl⟩ | ⟨fs, hf⟩
  · exact hs.afterWriter he hm (.inr rfl) (by decide) hu
  · exact EngineInv.fullAfter (s := withStack fs s) (h.encodes he) h.lines hf

theorem EngineInv.ePack {s t : State} (hp : s.cfg.wf = true) (h : EngineInv s) (hph : s.phase = .ePack)
    (hm : s.marker = false) (ht : exec .ePack s = .next t) : EngineInv t := by
  have he : s.phase ∈ encodePhases := by rw [hph]; decide
  have hst : s.stack = [] := h.stack (by simp [hph]) (by simp [hph])
  rcases execEPack_next hp ht with ⟨u, hu, hi, rfl⟩ | ⟨i, hf⟩
  · have hs : EngineInv (withIidx u.iidx s) := h.atWriter (n := s.nhdr) (fs := s.stack) he hm hi (.inr hst)
    exact hs.afterWriter he hm (.inr hst) (by decide) hu
  · exact EngineInv.fullAfter (s := withIidx i s) (h.encodes he) h.lines hf

theorem EngineInv.eFin {s t : State} (hp : s.cfg.wf = true) (h : EngineInv s) (hph : s.phase = .eFin)
    (hm : s.marker = false) (ht : exec .eFin s = .next t) : EngineInv t := by
  have he : s.phase ∈ encodePhases := by rw [hph]; decide
  rcases execEFin_next hp ht with ⟨u, hu, rfl⟩ | hf
  · exact (h.onlyOut he hu).finishEncode (hu.phase.trans hph) (by rw [hu.same]; exact hm)
  · exact EngineInv.fullAfter (h.encodes he) h.lines hf

theorem EngineInv.dHdr {s t : State} (h : EngineInv s) (hph : s.phase = .dHdr) (hm : s.marker = false)
    (ht : exec .dHdr s = .next t) : EngineInv t := by
  rcases execDHdr_next ht with ⟨u, hu, rfl⟩ | ⟨u, n, hu, hh⟩
  · have hi := h.onlyRpos hph hu
    exact EngineInv.raise _ hi.cursors hi.lines
  · exact (h.onlyRpos hph hu).headerRead (hu.phase.trans hph) (by rw [hu.same]; exact hm) hh

theorem EngineInv.dTree {s t : State} (h : EngineInv s) (hph : s.phase = .dTree) (hm : s.marker = false)
    (ht : exec .dTree s = .next t) : EngineInv t := by
  rcases execDTree_next ht with ⟨u, hu, hst, rfl⟩ | he
  · exact (h.desStep hph hu).treeRead (by rw [hu.same]; exact hph) (by rw [hu.same]; exact hm) hst
  · exact h.desError hph he

theorem EngineInv.dWalk {s t : State} (hp : s.cfg.wf = true) (h : EngineInv s) (hph : s.phase = .dWalk)
    (hm : s.marker = false) (ht : exec .dWalk s = .next t) : EngineInv t := by
  have hd : s.phase ∈ decodePhases := by rw [hph]; decide
  rcases execDWalk_next hp ht with ⟨u, hu, -, rfl⟩ | ⟨u, hu, v, hv, hc⟩
  · have hs := h.withPhase (p := .done) (busy_of_decode hd) hm (fun _ _ => h.stack (by simp [hph]) (by simp [hph]))
      (by simp) (by simp [encodePhases]) (by simp [decodePhases])
    rw [hu.same]
    exact ⟨hs.pq, hs.stack, hs.nodeWf, hs.nodeSeq, by simp [busy, Phase.stateField], by simp [busy, Phase.stateField],
      by simp [busy, Phase.stateField], hs.wacc, by simp, by simp [encodePhases], by simp [decodePhases],
      .inr (h.decodes hd), hs.marker, hs.lines⟩
  · have hw : v.wpos = 0 := by rw [hv.same, hu.same]; exact h.decodes hd
    have hl : v.bioOut = .none := by rw [hv.same, hu.same]; exact h.lines
    rcases hc with ⟨-, rfl⟩ | ⟨-, -, rfl⟩
    · exact EngineInv.raise _ (.inr hw) hl
    · exact EngineInv.raise _ (.inr hw) hl

theorem EngineInv.phaseTurn {s t : State} (hp : s.cfg.wf = true) (h : EngineInv s) (hm : s.marker = false)
    (ht : phaseTurn s = .next t) : EngineInv t := by
  obtain ⟨-, e⟩ | ⟨-, ⟨hph, e⟩ | ⟨hph, e⟩ | ⟨hph, e⟩ | ⟨hph, e⟩ | ⟨hph, e⟩ | ⟨hph, e⟩ | ⟨hph, e⟩ | ⟨hph, e⟩ |
    ⟨hph, e⟩ | ⟨hph, e⟩⟩ := phaseTurn_cases s <;> rw [e] at ht
  · cases ht; exact h
  · exact h.eCount hph hm ht
  · exact h.eBuild hph hm ht
  · exact h.eGen hph hm ht
  · exact h.eHdr hp hph hm ht
  · exact h.eTree hp hph hm ht
  · exact h.ePack hp hph hm ht
  · exact h.eFin hp hph hm ht
  · exact h.dHdr hph hm ht
  · exact h.dTree hph hm ht
  · exact h.dWalk hp hph hm ht

/-! ### A turn for one operation of the I/O controller, or for one token -/

/-- A token of E_TREE has been written: its phase goes on, or ends with nothing left on `STACK`. -/
theorem EngineInv.serEnd {s : State} (h : EngineInv s) (hph : s.phase = .eTree) (rest : List Frame) :
    EngineInv (serEnd rest s) := by
  have he : s.phase ∈ encodePhases := by rw [hph]; decide
  have hs : EngineInv { s with stack := rest, marker := false } :=
    ⟨h.pq, fun _ hne => absurd hph hne, h.nodeWf, h.nodeSeq, h.ilen, h.rpos, h.iidx, h.wacc, h.header, h.encodes,
      h.decodes, h.cursors, fun hm => (Bool.false_ne_true hm).elim, h.lines⟩
  cases rest with
  | nil => exact hs.nextEncode (p := .ePack) he rfl (.inr rfl) (.inl (by decide))
  | cons fr rest => exact hs

theorem EngineInv.perform {i : Instr} {s t : State} (hp : s.cfg.wf = true) (h : EngineInv s) (hi : issues s = some i)
    (ht : perform i s = .next t) : EngineInv t := by
  have whole : s.phase ≠ .dTree → s.phase ≠ .eTree → s.marker = false := fun h1 h2 => by
    by_contra hm
    exact (phase_of_issues_symbol (h.marker (by simpa using hm))).elim h1 h2
  rcases perform_next hp hi ht with ⟨hph, u, hu, hc⟩ | ⟨hph, u, hu, hc⟩ | ⟨hph, hc⟩ | ⟨hph, hc⟩ | ⟨hph, hc⟩
  · -- D_HDR
    have hi := h.onlyRpos hph hu
    have hm : u.marker = false := by rw [hu.same]; exact whole (by simp [hph]) (by simp [hph])
    rw [hi.takeLines] at hc
    rcases hc with rfl | ⟨n, hh⟩
    · exact EngineInv.raise _ hi.cursors hi.lines
    · exact hi.headerRead (hu.phase.trans hph) hm hh
  · -- D_TREE
    have hup := hu.phase.trans hph
    have hi := h.desStep hph hu.desStep
    rcases hc with rfl | ⟨-, rfl⟩ | ⟨v, hv, hc⟩
    · exact EngineInv.raise _ hi.cursors rfl
    · exact ⟨hi.pq, hi.stack, hi.nodeWf, hi.nodeSeq, hi.ilen, hi.rpos, hi.iidx, hi.wacc, hi.header, hi.encodes,
        hi.decodes, hi.cursors, fun _ => .inl (issues_dTree_marked hup rfl), rfl⟩
    · have hv' := hi.tokenDone.desStep hup hv
      rcases hc with rfl | ⟨hst, rfl⟩
      · exact hv'
      · exact hv'.treeRead (by rw [hv.same]; exact hup) (by rw [hv.same]; rfl) hst
  · -- E_HDR
    have he : s.phase ∈ encodePhases := by rw [hph]; decide
    have hm := whole (by simp [hph]) (by simp [hph])
    rcases hc with ⟨u, hu, rfl⟩ | hf
    · have hi := h.onlyOut he hu
      have hup : u.phase ∈ encodePhases := by rw [hu.phase]; exact he
      have hum : u.marker = false := by rw [hu.same]; exact hm
      have hn : EngineInv { u with nhdr := s.ilen } :=
        hi.atWriter (fs := u.stack) hup hum (hi.iidx (busy_of_encode hup))
          (.inr (hi.stack (by simp [hu.phase, hph]) (by simp [hu.phase, hph])))
      exact hn.nextEncode hup hum (.inl rfl) (.inl (by decide))
    · exact EngineInv.fullAfter (h.encodes he) h.lines hf
  · -- E_TREE
    have he : s.phase ∈ encodePhases := by rw [hph]; decide
    rcases hc with ⟨u, hu, ⟨-, hv, rfl⟩ | ⟨rest, rfl⟩⟩ | hf
    · have hi := h.onlyOut he hu
      exact ⟨hi.pq, hi.stack, hi.nodeWf, hi.nodeSeq, hi.ilen, hi.rpos, hi.iidx, hi.wacc, hi.header, hi.encodes,
        hi.decodes, hi.cursors, fun _ => .inr hv, hi.lines⟩
    · exact (h.onlyOut he hu).serEnd (hu.phase.trans hph) rest
    · exact EngineInv.fullAfter (h.encodes he) h.lines hf
  · -- E_FIN
    have he : s.phase ∈ encodePhases := by rw [hph]; decide
    have hm := whole (by simp [hph]) (by simp [hph])
    rcases hc with ⟨u, hu, rfl⟩ | hf
    · exact (h.onlyOut he hu).finishEncode (hu.phase.trans hph) (by rw [hu.same]; exact hm)
    · exact EngineInv.fullAfter (h.encodes he) h.lines hf

/-- The second half of a token leaves no token half done. -/
theorem perform_marker {i : Instr} {s t : State} (hp : s.cfg.wf = true) (hm : s.marker = true) (hi : issues s = some i)
    (hl : issues s = some .rdbyte ∨ ∃ v, issues s = some (.wrbyte v)) (ht : perform i s = .next t) :
    t.marker = false := by
  have tree := phase_of_issues_symbol hl
  rcases perform_next hp hi ht with ⟨hph, -⟩ | ⟨-, u, -, hc⟩ | ⟨hph, -⟩ | ⟨-, hc⟩ | ⟨hph, -⟩
  · simp [hph] at tree
  · rcases hc with rfl | ⟨hm', -⟩ | ⟨v, hv, rfl | ⟨-, rfl⟩⟩
    · rfl
    · exact absurd (hm.symm.trans hm') (by simp)
    · rw [hv.same]; rfl
    · show v.marker = false; rw [hv.same]; rfl
  · simp [hph] at tree
  · rcases hc with ⟨u, -, ⟨hm', -⟩ | ⟨rest, rfl⟩⟩ | ⟨u, -, -, rfl⟩
    · exact absurd (hm.symm.trans hm') (by simp)
    · rfl
    · rfl
  · simp [hph] at tree

/-- A token that is half done is finished, and the invariant says that this is one operation of the I/O controller. -/
theorem EngineInv.finishToken {s t : State} (hp : s.cfg.wf = true) (h : EngineInv s) (hm : s.marker = true)
    (ht : finishToken s = .next t) : EngineInv t ∧ t.marker = false := by
  have hl := h.marker hm
  obtain ⟨i, hi⟩ : ∃ i, issues s = some i := by
    rcases hl with e | ⟨v, e⟩
    · exact ⟨_, e⟩
    · exact ⟨_, e⟩
  rw [finishToken_some hi] at ht
  exact ⟨h.perform hp hi ht, perform_marker hp hm hi hl ht⟩

theorem EngineInv.engineTurn {s t : State} (hp : s.cfg.wf = true) (h : EngineInv s) (ht : engineTurn s = .next t) :
    EngineInv t := by
  rcases engineTurn_next ht with ⟨hm, ht⟩ | ⟨hm, u, hu, hc⟩
  · exact h.phaseTurn hp hm ht
  · obtain ⟨hi, hum⟩ := h.finishToken hp hm hu
    rcases hc with ⟨-, ht⟩ | ⟨-, rfl⟩
    · exact hi.phaseTurn ((finishToken_bufferStep hp hu).wf hp) hum ht
    · exact hi

/-- The reader past `n` bits that the input has. -/
theorem EngineInv.movePast {n : Nat} {s : State} (h : EngineInv s) (hd : s.phase ∈ decodePhases) (hm : s.marker = false)
    (hr : s.rpos.toNat + n ≤ 8 * s.ilen.toNat) : EngineInv (movePast n s) := by
  have e := movePast_rpos_toNat ⟨hr, h.ilen (busy_of_decode hd)⟩
  exact ⟨h.pq, h.stack, h.nodeWf, h.nodeSeq, h.ilen, fun _ => e.trans_le hr, h.iidx, h.wacc, h.header,
    fun he => absurd hd (not_decode_of_encode he), h.decodes, .inr (h.decodes hd),
    fun hm' => absurd (hm.symm.trans hm') (by simp), h.lines⟩

theorem EngineInv.tokenTurn {s t : State} (hp : s.cfg.wf = true) (h : EngineInv s) (hm : s.marker = false)
    (ht : tokenTurn s = .next t) : EngineInv t := by
  rcases tokenTurn_next hp hm ht with ⟨hph, hc⟩ | ⟨hph, hc⟩ | ⟨-, -, ht⟩
  · have hd : s.phase ∈ decodePhases := by rw [hph]; decide
    rcases hc with ⟨u, hu, rfl⟩ | ⟨n, hr, hh⟩
    · have hi := h.onlyRpos hph hu
      exact EngineInv.raise _ hi.cursors hi.lines
    · exact (h.movePast hd hm (hr (h.rpos (busy_of_decode hd)))).headerRead hph hm hh
  · have hd : s.phase ∈ decodePhases := by rw [hph]; decide
    rcases hc with he | ⟨n, hr, hc⟩
    · exact h.desError hph he
    · have hn := h.movePast hd hm (hr (h.rpos (busy_of_decode hd)))
      rcases hc with ⟨u, hu, rfl⟩ | ⟨u, hu, hst, rfl⟩
      · exact hn.desStep hph hu
      · exact (hn.desStep hph hu).treeRead (by rw [hu.same]; exact hph) (by rw [hu.same]; exact hm) hst
  · exact h.phaseTurn hp hm ht

/-! ### What the host does -/

/-- Outside `BUSY` no token is half done: the engine issues nothing there. -/
theorem EngineInv.marker_of_not_busy {s : State} (h : EngineInv s) (hb : busy s = false) : s.marker = false := by
  by_contra hm
  rcases h.marker (by simpa using hm) with e | ⟨v, e⟩ <;> rw [issues_of_not_busy hb] at e <;> cases e

/-- A write to `ILEN` or `IBUF` outside `BUSY`, where no clause speaks of the input. -/
theorem EngineInv.withInput {s : State} (h : EngineInv s) (hb : busy s = false) (v : Word) (m : List Host.Cell) :
    EngineInv { s with ilen := v, ibuf := m } :=
  ⟨h.pq, h.stack, h.nodeWf, h.nodeSeq, fun hb' => absurd (hb.symm.trans hb') (by simp),
    fun hb' => absurd (hb.symm.trans hb') (by simp), fun hb' => absurd (hb.symm.trans hb') (by simp), h.wacc, h.header,
    h.encodes, h.decodes, h.cursors, fun hm => absurd ((h.marker_of_not_busy hb).symm.trans hm) (by simp), h.lines⟩

/-- The host's script, and what it has read, are nothing to the engine. -/
theorem EngineInv.withHost {s : State} (h : EngineInv s) (v : Word) (n : Nat) (es : List Event) :
    EngineInv { s with rdata := v, draws := n, events := es } :=
  ⟨h.pq, h.stack, h.nodeWf, h.nodeSeq, h.ilen, h.rpos, h.iidx, h.wacc, h.header, h.encodes, h.decodes, h.cursors,
    h.marker, h.lines⟩

theorem EngineInv.reset (s : State) : EngineInv (resetInput s) where
  pq := rfl
  stack := fun _ _ => rfl
  nodeWf := List.Pairwise.nil
  nodeSeq := by simp [State.reset]
  ilen := fun hb => by cases hb
  rpos := fun hb => by cases hb
  iidx := fun hb => by cases hb
  wacc := by simp [State.reset]
  header := by simp [State.reset]
  encodes := fun _ => rfl
  decodes := fun _ => rfl
  cursors := .inl rfl
  marker := fun hm => by cases hm
  lines := rfl

/-- The first phase of a command starts with every register of the engine cleared (rule R51). -/
theorem EngineInv.start {s : State} (p : Phase) (h : EngineInv s) (hi : s.ilen.toNat ≤ s.cfg.ibufCap) (w : Word)
    (hp : p ≠ .dTree ∧ p ≠ .dWalk) : EngineInv { initCommand { s with cmd := w } with phase := p } where
  pq := rfl
  stack := fun _ _ => rfl
  nodeWf := List.Pairwise.nil
  nodeSeq := by simp
  ilen := fun _ => hi
  rpos := fun _ => Nat.zero_le _
  iidx := fun _ => Nat.zero_le _
  wacc := fun _ => by simp
  header := fun hp' => absurd hp' (by simp [hp])
  encodes := fun _ => rfl
  decodes := fun _ => rfl
  cursors := .inl rfl
  marker := fun hm => by cases hm
  lines := h.lines

theorem EngineInv.acceptCmd {s : State} (h : EngineInv s) (w : Word) : EngineInv (acceptCmd w s) := by
  rcases acceptCmd_cases w s with e | e | ⟨hi, e | e⟩ <;> rw [e]
  · exact EngineInv.raise _ (.inl rfl) h.lines
  · exact EngineInv.raise _ (.inl rfl) h.lines
  · exact EngineInv.start .eCount h hi w (by simp)
  · exact EngineInv.start .dHdr h hi w (by simp)

/-- The rules ask for lawful parameters (rule R10), which no step changes. -/
theorem engineRules : StepRules fun s => s.cfg.wf = true ∧ EngineInv s where
  events := fun s es ⟨hp, h⟩ => ⟨hp, h.withHost s.rdata s.draws es⟩
  data := fun s v n ⟨hp, h⟩ => ⟨hp, h.withHost v n s.events⟩
  ilen := fun s v hb ⟨hp, h⟩ => ⟨hp, h.withInput hb v s.ibuf⟩
  ibuf := fun s _ _ hb _ ⟨hp, h⟩ => ⟨hp, h.withInput hb s.ilen _⟩
  reset := fun s ⟨hp, _⟩ => ⟨hp, EngineInv.reset s⟩
  accept := fun s w _ ⟨hp, h⟩ => ⟨(acceptCmd_bufferStep w s).wf hp, h.acceptCmd w⟩
  engine := fun _ _ ⟨hp, h⟩ ht => ⟨(engineTurn_bufferStep hp ht).wf hp, h.engineTurn hp ht⟩
  issued := fun _ _ _ ⟨hp, h⟩ hi ht => ⟨(perform_bufferStep hp hi ht).wf hp, h.perform hp hi ht⟩
  token := fun _ _ ⟨hp, h⟩ hm ht => ⟨(tokenTurn_bufferStep hp hm ht).wf hp, h.tokenTurn hp hm ht⟩

/-- Settles O47: each thing that a step can do keeps the engine's registers lawful (`engineRules`), so every step does. -/
theorem stepKeepsEngineRegisters : Obligations.StepKeepsEngineRegisters := fun _ _ hp h ht =>
  (engineRules.step ⟨hp, h⟩ ht).2

end Sys2Proof.Machine
end

section
/-! SUPPORT. What a step performs: the operation at the place of rule R90, and the order of rule R13. -/

namespace Sys2Proof.Machine

/-! ### A step by its first event -/

theorem step_of_nil {s : State} (h : s.events = []) : step s = engineTurn s := by rw [step, turn, h]

theorem step_of_engine {s : State} {rest : List Event} (h : s.events = .engine :: rest) :
    step s = engineTurn { s with events := rest } := by rw [step, turn, h]

theorem step_of_token {s : State} {rest : List Event} (h : s.events = .token :: rest) :
    step s = tokenTurn { s with events := rest } := by rw [step, turn, h]

theorem step_of_bio {s : State} {sel : BitVec 3} {op : Word} {rest : List Event} (h : s.events = .bio sel op :: rest) :
    step s = bioTurn sel op { s with events := rest } := by rw [step, turn, h]

theorem step_of_cmd {s : State} {w : Word} {rest : List Event} (h : s.events = .host (.write32 0 w) :: rest) :
    step s = cmdTurn w { s with events := rest } := by rw [step, turn, h]; rfl

/-! ### Turns -/

theorem phaseTurn_of_decode {s : State} {i : Instr} (h : decode (.phase s.phase.code) = .ok i) :
    phaseTurn s = exec i s := by rw [phaseTurn, h]

theorem phaseTurn_of_not_busy {s : State} (h : busy s = false) : phaseTurn s = .next s := by
  rcases phaseTurn_cases s with ⟨-, e⟩ | ⟨hb, -⟩
  · exact e
  · exact absurd (h.symm.trans hb) (by simp)

/-- Outside `BUSY` a turn of the engine changes nothing (rules R254, R261). -/
theorem engineTurn_of_not_busy {s : State} (h : busy s = false) : engineTurn s = .next s := by
  rw [engineTurn]
  split_ifs
  · rw [finishToken_none (issues_of_not_busy h)]
    dsimp only
    rw [if_pos rfl, phaseTurn_of_not_busy h]
  · exact phaseTurn_of_not_busy h

/-- A token that is half done is finished, and then the phase goes on where it is still the same. -/
theorem engineTurn_of_marker {s u : State} (hm : s.marker = true) (hu : finishToken s = .next u) :
    engineTurn s = if u.phase = s.phase then phaseTurn u else .next u := by
  rw [engineTurn, if_pos hm, hu]

theorem bioTurn_of_issued {sel : BitVec 3} {op : Word} {i : Instr} {s : State} (hd : decode (.bio sel op) = .ok i)
    (hi : issues s = some i) : bioTurn sel op s = perform i s := by
  rw [bioTurn, hd]; exact if_pos hi

theorem bioTurn_of_not_issued {sel : BitVec 3} {op : Word} {i : Instr} {s : State} (hd : decode (.bio sel op) = .ok i)
    (hi : issues s ≠ some i) : bioTurn sel op s = .next s := by
  rw [bioTurn, hd]; exact if_neg hi

theorem perform_of_next {i : Instr} {s t : State} (h : exec i s = .next t) :
    perform i s = if t.phase = .error then .next t else (proceed t).outcome := by rw [perform, h]

theorem perform_of_fault {i : Instr} {s : State} {r : Fault} (h : exec i s = .fault r) : perform i s = .fault r := by
  rw [perform, h]

theorem perform_of_refused {i : Instr} {s : State} {r : Refusal} (h : exec i s = .refused r) :
    perform i s = .refused r := by rw [perform, h]

/-- Settles O5: each event leads to its turn, and each turn to the operation that its place decodes to. -/
theorem stepPerformsTheDecodedOperation : Obligations.StepPerformsTheDecodedOperation := by
  intro s rest i
  refine ⟨fun w hd he => ?_, fun hd hm he => ?_, fun hd hm he => ?_, fun sel op hd he => ⟨fun hi t ht => ?_,
    fun hi r hr => ?_, fun hi r hr => ?_, fun hi => ?_, fun hb => ?_⟩, fun hd hm he u hu => ?_, fun hb he => ?_,
    fun hb he => ?_⟩
  · rw [step_of_cmd he, cmdTurn, hd]
  · exact (step_of_engine he).trans ((engineTurn_whole (s := { s with events := rest }) hm).trans (phaseTurn_of_decode hd))
  · rw [step_of_nil he, engineTurn_whole hm, phaseTurn_of_decode hd]
  · rw [step_of_bio he, bioTurn_of_issued hd hi, perform_of_next ht]
    exact ⟨fun hp => if_pos hp, fun hp => if_neg hp⟩
  · rw [step_of_bio he, bioTurn_of_issued hd hi, perform_of_refused hr]
  · rw [step_of_bio he, bioTurn_of_issued hd hi, perform_of_fault hr]
  · rw [step_of_bio he, bioTurn_of_not_issued hd hi]
  · exact issues_of_not_busy hb
  · rw [step_of_engine he, engineTurn_of_marker (s := { s with events := rest }) hm hu]
    refine ⟨fun hp => (if_pos hp).trans (phaseTurn_of_decode ?_), fun hp => if_neg hp⟩
    rw [hp]; exact hd
  · rw [step_of_engine he]; exact engineTurn_of_not_busy hb
  · rw [step_of_nil he]; exact engineTurn_of_not_busy hb

/-! ### A token turn -/

/-- A token turn performs the token whose bits have been seen. -/
theorem tokenTurnOf_ok {place : List Bool → Code} {bits : List Bool} {i : Instr} {s u : State}
    (h : decode (place bits) = .ok i) : tokenTurnOf place (.ok bits u) s = exec i s := by
  show (match decode (place bits) with | .ok i => exec i s | .error _ => .refused .tokenOutOfPhase) = _
  rw [h]

/-- A tree token has the number of bits that its first one tells (rules R96, R97, R105). -/
theorem decodeTree_width {bits : List Bool} {i : Instr} (h : decode (.tree bits) = .ok i) :
    ∃ m rest, bits = m :: rest ∧ rest.length = treeTokenWidth m - 1 := by
  change decodeTree bits = .ok i at h
  unfold decodeTree at h
  split at h
  · exact ⟨false, [], rfl, rfl⟩
  · next sym =>
    split_ifs at h with hl
    exact ⟨true, sym, rfl, hl⟩
  · cases h

theorem tokenTurn_header {s : State} {bits : List Bool} {i : Instr} (hm : s.marker = false) (hph : s.phase = .dHdr)
    (hr : InRoom s bits.length) (hb : inBits s s.rpos.toNat bits.length = bits) (hd : decode (.header bits) = .ok i) :
    tokenTurn s = exec i s := by
  have hl : bits.length = 32 := by
    by_contra hl
    rw [decode, decodeHeader, if_neg hl] at hd; cases hd
  rw [hl] at hr hb
  rw [tokenTurn, if_neg (by simp [hm]), hph]
  dsimp only
  rw [rdBits_ok hr, hb, Flow.onEob_ok, tokenTurnOf_ok hd]

theorem treeTokenBits_ok {s : State} {m : Bool} {rest : List Bool} (hl : rest.length = treeTokenWidth m - 1)
    (hr : InRoom s (m :: rest).length) (hb : inBits s s.rpos.toNat (m :: rest).length = m :: rest) :
    treeTokenBits s = .ok (m :: rest) (movePast (1 + rest.length) s) := by
  have hr' : InRoom s (1 + rest.length) := hr.mono (by rw [List.length_cons]; omega)
  have h1 : InRoom s 1 := hr'.mono (by omega)
  rw [List.length_cons, inBits, List.cons.injEq] at hb
  rw [treeTokenBits, rdBit_ok h1, Flow.bind_ok, hb.1, ← hl, rdBits_ok hr'.movePast, Flow.bind_ok, movePast_rpos_toNat h1,
    inBits_movePast, hb.2, movePast_movePast]

theorem tokenTurn_tree {s : State} {bits : List Bool} {i : Instr} (hm : s.marker = false) (hph : s.phase = .dTree)
    (hf : nodeFits s.seq s = true) (hr : InRoom s bits.length) (hb : inBits s s.rpos.toNat bits.length = bits)
    (hd : decode (.tree bits) = .ok i) : tokenTurn s = exec i s := by
  obtain ⟨m, rest, rfl, hl⟩ := decodeTree_width hd
  rw [tokenTurn, if_neg (by simp [hm]), hph]
  dsimp only
  rw [desRoom, if_pos hf, Flow.bind_ok, treeTokenBits_ok hl hr hb, Flow.onEob_ok, tokenTurnOf_ok hd]

/-- Settles O6: the token by `tokenTurn_header` and `tokenTurn_tree`, the order of rule R13 by `perform_goesOn`. -/
theorem tokenStepPerformsTheTokenAtRpos : Obligations.TokenStepPerformsTheTokenAtRpos := by
  refine ⟨fun s rest bits i he hm hr hb => ?_, fun s v sel op i hp ho hl hd hi he hv => ?_⟩
  · have hb' : inBits { s with events := rest } s.rpos.toNat bits.length = bits :=
      (inBits_congr (s := s) (t := { s with events := rest }) rfl rfl _ _).trans hb
    rw [step_of_token he]
    exact ⟨fun hph hd => tokenTurn_header hm hph hr hb' hd, fun hph hd hf => tokenTurn_tree hm hph hf hr hb' hd⟩
  · rw [step_of_nil he] at hv
    obtain ⟨t, ht, hsame, hover⟩ := perform_goesOn hp ho hl hi hv
    have ht' : t.events = [] := (perform_keeps hp hi ht).2.trans he
    refine ⟨t, ?_, fun hph => ?_, hover⟩
    · have hs : ({ s with events := [] } : State) = s := by rw [← he]
      rw [step_of_bio (rest := []) rfl]
      show bioTurn sel op { s with events := [] } = _
      rw [hs, bioTurn_of_issued hd hi, ht]
    · rw [step_of_nil ht']; exact hsame hph

/-! ### The width of a node pointer -/

/-- Settles O59: `ptrWidth_least`, and 510 has nine bits. -/
theorem pointerWidthIsLeast : Obligations.PointerWidthIsLeast := by
  refine ⟨fun p n hp hn => ?_, fun p hn => ?_⟩
  · have h511 : 511 ≤ n := by
      simp only [Params.wf, hn, Bool.and_eq_true, decide_eq_true_eq] at hp
      exact hp.2
    have hw : ptrWidth p = some (Nat.log2 (n - 1) + 1) := by rw [ptrWidth, hn]; rfl
    obtain ⟨holds, least⟩ := ptrWidth_least hn (by omega) hw
    refine ⟨_, hw, by rw [seqWidth, hw]; rfl, holds, least, ?_⟩
    rintro rfl
    decide
  · have hw : ptrWidth p = none := by rw [ptrWidth, hn]; rfl
    exact ⟨hw, by rw [seqWidth, hw]; rfl⟩

end Sys2Proof.Machine
end

section
/-! SUPPORT. What the operations of the engine leave as it is, and how they end: the frames of rules R34, R60 and R129. -/

namespace Sys2Proof.Machine

/-! ### The frame of the engine -/

/-- The parameters, the input and what the host holds (rules R10, R34, R60). -/
structure InputKept (s t : State) : Prop where
  cfg : t.cfg = s.cfg := by rfl
  ilen : t.ilen = s.ilen := by rfl
  ibuf : t.ibuf = s.ibuf := by rfl
  epoch : t.epoch = s.epoch := by rfl
  events : t.events = s.events := by rfl
  rdata : t.rdata = s.rdata := by rfl

/-- What an operation of the engine leaves besides: the command word and its flags; `RPOS` unless it reads the stream, and
`WPOS` unless it writes it (rules R25, R26, R129). -/
structure EngineKept (reads writes : Bool) (s t : State) : Prop extends InputKept s t where
  cmd : t.cmd = s.cmd := by rfl
  flags : t.flags = s.flags := by rfl
  rpos : reads = false → t.rpos = s.rpos := by exact fun _ => rfl
  wpos : writes = false → t.wpos = s.wpos := by exact fun _ => rfl

/-- While the operation goes on, `PHASE`, `ERR` and the taps stay too. -/
structure EngineFrame (reads writes : Bool) (s t : State) : Prop extends EngineKept reads writes s t where
  phase : t.phase = s.phase := by rfl
  err : t.err = s.err := by rfl
  freqTap : t.freqTap = s.freqTap := by rfl
  codeTap : t.codeTap = s.codeTap := by rfl

/-- How an operation of the engine ends: in its phase, in the next one, as E_FIN does, or in the error entry. -/
inductive EngineEnd (reads writes : Bool) (s : State) : State → Prop where
  | still {t : State} (h : EngineFrame reads writes s t) : EngineEnd reads writes s t
  | enter {u : State} (p : Phase) (hp : p ≠ .error) (h : EngineFrame reads writes s u) :
    EngineEnd reads writes s { u with phase := p }
  | finish {u : State} (h : EngineFrame reads writes s u) : EngineEnd reads writes s (finishEncode u)
  | error {u : State} (c : Cause) (h : EngineFrame reads writes s u) : EngineEnd reads writes s (raise c u)

section
variable {r w : Bool} {s t u : State}

theorem InputKept.trans (h : InputKept s t) (h' : InputKept t u) : InputKept s u :=
  ⟨h'.cfg.trans h.cfg, h'.ilen.trans h.ilen, h'.ibuf.trans h.ibuf, h'.epoch.trans h.epoch, h'.events.trans h.events,
    h'.rdata.trans h.rdata⟩

theorem EngineKept.trans (h : EngineKept r w s t) (h' : EngineKept r w t u) : EngineKept r w s u :=
  ⟨h.toInputKept.trans h'.toInputKept, h'.cmd.trans h.cmd, h'.flags.trans h.flags,
    fun hr => (h'.rpos hr).trans (h.rpos hr), fun hw => (h'.wpos hw).trans (h.wpos hw)⟩

theorem EngineFrame.trans (h : EngineFrame r w s t) (h' : EngineFrame r w t u) : EngineFrame r w s u :=
  ⟨h.toEngineKept.trans h'.toEngineKept, h'.phase.trans h.phase, h'.err.trans h.err, h'.freqTap.trans h.freqTap,
    h'.codeTap.trans h.codeTap⟩

/-- What the operation keeps while it goes on is kept at its end, whichever end that is. -/
theorem EngineEnd.kept (h : EngineEnd r w s t) : EngineKept r w s t := by
  cases h with
  | still h => exact h.toEngineKept
  | enter p hp h => exact h.toEngineKept.trans {}
  | finish h => exact h.toEngineKept.trans {}
  | error c h => exact h.toEngineKept.trans {}

theorem EngineEnd.after (h : EngineFrame r w s t) (h' : EngineEnd r w t u) : EngineEnd r w s u := by
  cases h' with
  | still h' => exact .still (h.trans h')
  | enter p hp h' => exact .enter p hp (h.trans h')
  | finish h' => exact .finish (h.trans h')
  | error c h' => exact .error c (h.trans h')

/-! ### The shared operations -/

theorem OutMoved.frame (h : OutMoved s t) : EngineFrame r true s t := by
  rw [h.same]; exact { wpos := nofun }

theorem OnlyOut.frame (h : OnlyOut s t) : EngineFrame r true s t := h.toOutMoved.frame

theorem FullAfter.ends (h : FullAfter s t) : EngineEnd r true s t := by
  obtain ⟨u, hu, -, rfl⟩ := h
  exact .error _ hu.frame

theorem OnlyRpos.frame (h : OnlyRpos s t) : EngineFrame true w s t := by
  rw [h.same]; exact { rpos := nofun }

theorem DesStep.frame (h : DesStep s t) : EngineFrame true w s t := by
  rw [h.same]; exact { rpos := nofun }

theorem DesError.ends (h : DesError s t) : EngineEnd true w s t := by
  obtain ⟨u, c, hu, -, rfl⟩ := h
  exact .error c hu.frame

theorem Walked.frame (h : Walked s t) : EngineFrame true w s t := by
  rw [h.same]; exact { rpos := nofun }

theorem OnlyWalk.frame (h : OnlyWalk s t) : EngineFrame true w s t := by
  rw [h.same]; exact { rpos := nofun }

theorem WalkedError.ends (h : WalkedError s t) : EngineEnd true w s t := by
  obtain ⟨u, hu, v, hv, ⟨-, rfl⟩ | ⟨-, -, rfl⟩⟩ := h
  · exact .error _ (hu.frame.trans hv.frame)
  · exact .error _ (hu.frame.trans hv.frame)

theorem Built.frame (h : Built s t) : EngineFrame r w s t := by
  rw [h.same]; exact {}

theorem movePast_frame (n : Nat) (s : State) : EngineFrame true w s (movePast n s) := { rpos := nofun }

/-- The N of a header ends D_HDR in one of three ways (rules R222, R223). -/
theorem headerRead_ends {n : Word} (h : (headerRead n s).outcome = .next t) : EngineEnd r w s t := by
  have hn : EngineFrame r w s { s with nhdr := n, nrem := n } := {}
  rcases headerRead_next h with ⟨-, rfl⟩ | ⟨-, -, rfl⟩ | ⟨-, -, rfl⟩
  · exact .error _ hn
  · exact .enter .done (by simp) hn
  · exact .enter .dTree (by simp) hn

/-- FINALIZE leaves `WPOS` (rule R127). -/
theorem finalizeOp_frame (s : State) :
    (finalizeOp s).Post (fun _ => EngineFrame r w s) Never (EngineEnd r w s) := by
  by_cases h0 : s.wpos.toNat % 8 = 0
  · rw [finalizeOp_aligned h0]; exact {}
  · rw [finalizeOp_pending h0, storeByte]
    split_ifs
    · exact .error _ {}
    · exact {}

end

/-! ### The operations -/

/-- The operation may move `RPOS`: it reads the stream, or starts a command (rules R25, R129). -/
def readsStream : Instr → Bool
  | .eCount | .eBuild | .eGen | .eHdr | .eTree | .ePack | .eFin | .wrbit _ | .wrbyte _ | .wru32 _ | .finalize => false
  | .encode _ _ _ | .decode _ _ _ | .dHdr | .dTree | .dWalk | .rdbit | .rdbyte | .rdu32 | .lenhdr _ | .tnodeInt |
    .tnodeLeaf _ => true

/-- The operation may move `WPOS`: it writes bits of the stream, or starts a command (rules R26, R129). -/
def writesStream : Instr → Bool
  | .eCount | .eBuild | .eGen | .eFin | .dHdr | .dTree | .dWalk | .rdbit | .rdbyte | .rdu32 | .finalize => false
  | .encode _ _ _ | .decode _ _ _ | .eHdr | .eTree | .ePack | .wrbit _ | .wrbyte _ | .wru32 _ | .lenhdr _ | .tnodeInt |
    .tnodeLeaf _ => true

/-- A tree token, written or read. -/
theorem treeToken_ends {s t : State} {n : Nat}
    (h : (s.phase = .eTree ∧ (OnlyOut s t ∨ FullAfter s t)) ∨
      (s.phase = .dTree ∧ ((t = raise .nodeOverflow s) ∨ (∃ u, DesStep (movePast n s) u ∧ t = u) ∨
        (∃ u, DesStep (movePast n s) u ∧ u.stack = [] ∧ t = { u with phase := .dWalk })))) : EngineEnd true true s t := by
  rcases h with ⟨-, hu | hf⟩ | ⟨-, rfl | ⟨u, hu, rfl⟩ | ⟨u, hu, -, rfl⟩⟩
  · exact .still hu.frame
  · exact hf.ends
  · exact .error _ {}
  · exact .still ((movePast_frame n s).trans hu.frame)
  · exact .enter _ (by simp) ((movePast_frame n s).trans hu.frame)

/-- How each operation but a command write ends. -/
theorem exec_ends {i : Instr} {s t : State} (hp : s.cfg.wf = true) (hi : ∀ f c b, i ≠ .encode f c b ∧ i ≠ .decode f c b)
    (h : exec i s = .next t) : EngineEnd (readsStream i) (writesStream i) s t := by
  have written : ∀ {r}, OnlyOut s t ∨ FullAfter s t → EngineEnd r true s t := fun h =>
    h.elim (fun hu => .still hu.frame) FullAfter.ends
  have read : ∀ {w}, (∃ u o, OnlyRpos s u ∧ t = { u with bioOut := o }) → EngineEnd true w s t := by
    rintro w ⟨u, o, hu, rfl⟩
    exact .still (hu.frame.trans {})
  cases i with
  | encode f c b => exact absurd rfl (hi f c b).1
  | decode f c b => exact absurd rfl (hi f c b).2
  | eCount =>
    rw [(execECount_next h).1]
    exact .enter (u := { s with freq := t.freq, iidx := t.iidx }) .eBuild (by simp) {}
  | eBuild =>
    obtain ⟨u, hu, rfl | rfl⟩ := execEBuild_next h
    · exact .enter _ (by simp) hu.frame
    · exact .error _ hu.frame
  | eGen =>
    obtain ⟨u, hu, -, ht⟩ := execEGen_next h
    have hf : EngineFrame false false s u := by rw [hu]; exact {}
    rcases ht with rfl | rfl | rfl
    · exact .enter _ (by simp) hf
    · exact .error _ hf
    · exact .error _ hf
  | eHdr =>
    have hn : EngineFrame false true s { s with nhdr := s.ilen } := {}
    rcases execEHdr_next hp h with ⟨u, hu, rfl⟩ | hf
    · exact .enter _ (by simp) (hn.trans hu.frame)
    · exact .after hn hf.ends
  | eTree =>
    have hs : ∀ fs, EngineFrame false true s (withStack fs s) := fun _ => {}
    rcases execETree_next hp h with ⟨u, hu, rfl⟩ | ⟨fs, hf⟩
    · exact .enter _ (by simp) ((hs _).trans hu.frame)
    · exact .after (hs _) hf.ends
  | ePack =>
    have hx : ∀ i, EngineFrame false true s (withIidx i s) := fun _ => {}
    rcases execEPack_next hp h with ⟨u, hu, -, rfl⟩ | ⟨i, hf⟩
    · exact .enter _ (by simp) ((hx _).trans hu.frame)
    · exact .after (hx _) hf.ends
  | eFin =>
    have post : ((finalizeOp s).bind fun _ s => Flow.ok () (finishEncode s)).Post (fun _ => EngineEnd false false s)
        Never (EngineEnd false false s) := (finalizeOp_frame s).bind fun _ u hu => EngineEnd.finish hu
    exact (post.of_outcome h).elim id id
  | dHdr =>
    rcases execDHdr_next h with ⟨u, hu, rfl⟩ | ⟨u, n, hu, hh⟩
    · exact .error _ hu.frame
    · exact .after hu.frame (headerRead_ends hh)
  | dTree =>
    rcases execDTree_next h with ⟨u, hu, -, rfl⟩ | he
    · exact .enter _ (by simp) hu.frame
    · exact he.ends
  | dWalk =>
    rcases execDWalk_next hp h with ⟨u, hu, -, rfl⟩ | he
    · exact .enter _ (by simp) hu.frame
    · exact he.ends
  | rdbit => exact read (execRdbit_next h)
  | rdbyte => exact read (execRdbyte_next h)
  | rdu32 => exact read (execRdu32_next h)
  | wrbit b => exact written (execWrbit_next hp h)
  | wrbyte v => exact written (execWrbyte_next hp h)
  | wru32 v => exact written (execWru32_next hp h)
  | finalize => exact ((finalizeOp_frame s).of_outcome h).elim .still id
  | lenhdr n =>
    have hn : EngineFrame true true s { s with nhdr := BitVec.ofNat 32 n } := {}
    rcases execLenhdr_next hp h with ⟨-, ⟨u, hu, rfl⟩ | hf⟩ | ⟨-, hh⟩
    · exact .enter _ (by simp) (hn.trans hu.frame)
    · exact .after hn hf.ends
    · exact .after (movePast_frame 32 s) (headerRead_ends hh)
  | tnodeInt => exact treeToken_ends (execTnodeInt_next hp h)
  | tnodeLeaf v => exact treeToken_ends (execTnodeLeaf_next hp h)

/-! ### The input and the cursors -/

theorem writeCmd_inputKept (w : Word) (s : State) : InputKept s (writeCmd w s) := by
  rw [writeCmd]
  split_ifs
  · exact {}
  · rcases acceptCmd_cases w s with e | e | ⟨-, e | e⟩ <;> rw [e] <;> exact {}

/-- No operation writes the input (rules R34, R60). -/
theorem exec_inputKept {i : Instr} {s t : State} (hp : s.cfg.wf = true) (h : exec i s = .next t) : InputKept s t := by
  cases i
  case encode f c b => cases h; exact writeCmd_inputKept _ s
  case decode f c b => cases h; exact writeCmd_inputKept _ s
  all_goals exact (exec_ends hp (by simp) h).kept.toInputKept

/-- Settles O39: `exec_inputKept`. -/
theorem noOperationWritesTheInput : Obligations.NoOperationWritesTheInput := by
  intro i s t hp h
  have k := exec_inputKept hp h
  exact ⟨k.ilen, k.cfg, k.epoch, k.events, k.rdata, k.ibuf, fun a => by rw [ibufByte, k.ibuf, k.epoch, ibufByte]⟩

/-- Settles O40: an operation that does not read the stream leaves `RPOS`, one that does not write it leaves `WPOS`
(`exec_ends`). -/
theorem cursorsMoveOnlyWithTheirUnit : Obligations.CursorsMoveOnlyWithTheirUnit := by
  intro i s t hp h hi
  have k := (exec_ends hp hi h).kept
  refine ⟨k.cmd, k.flags, fun hr => k.rpos ?_, fun hw => k.wpos ?_⟩
  · rcases hr with hm | ⟨b, rfl⟩ | ⟨v, rfl⟩ | ⟨v, rfl⟩
    · exact (by decide : ∀ j ∈ [Instr.eCount, .eBuild, .eGen, .eHdr, .eTree, .ePack, .eFin, .finalize],
        readsStream j = false) i hm
    · rfl
    · rfl
    · rfl
  · exact (by decide : ∀ j ∈ [Instr.eCount, .eBuild, .eGen, .dHdr, .dTree, .dWalk, .rdbit, .rdbyte, .rdu32,
      .finalize, .eFin], writesStream j = false) i hw

end Sys2Proof.Machine
end

section
/-! SUPPORT. Every step keeps the error channel lawful (rules R33, R37, R39, R40), from how each operation ends. -/

namespace Sys2Proof.Machine

/-- No cause has the value 0 (rule R240). -/
theorem Cause.word_ne_zero (c : Cause) : c.word ≠ 0 := by cases c <;> decide

/-- The error entry makes the channel lawful, given the flags of the command. -/
theorem ErrorInv.raise {s : State} (c : Cause) (hf : s.flags = s.cmd.extractLsb' 2 3) : ErrorInv (raise c s) where
  errValue := .inr ⟨c, rfl⟩
  errState := ⟨fun _ => rfl, fun _ => c.word_ne_zero⟩
  flags := hf
  freqTap := nofun
  codeTap := nofun

/-- However an operation ends that the engine performs while `BUSY`, the error channel is lawful: while `BUSY`, `ERR` is 0
and no tap is valid. -/
theorem ErrorInv.after {r w : Bool} {s t : State} (h : ErrorInv s) (hb : busy s = true) (he : EngineEnd r w s t) :
    ErrorInv t := by
  obtain ⟨herror, hdone, -⟩ := busy_phase hb
  have noErr : s.err = 0 := by by_contra hne; exact herror (h.errState.mp hne)
  have noFreq : s.freqTap = false := by by_contra hv; exact hdone (h.freqTap (by simpa using hv)).1
  have noCode : s.codeTap = false := by by_contra hv; exact hdone (h.codeTap (by simpa using hv)).1
  have quiet : ∀ {u}, EngineFrame r w s u → u.err = 0 ∧ u.freqTap = false ∧ u.codeTap = false ∧
      u.flags = u.cmd.extractLsb' 2 3 := fun hu =>
    ⟨hu.err.trans noErr, hu.freqTap.trans noFreq, hu.codeTap.trans noCode, by rw [hu.flags, hu.cmd]; exact h.flags⟩
  cases he with
  | still hu =>
    obtain ⟨e, ef, ec, hf⟩ := quiet hu
    exact ⟨.inl e, by simp [e, hu.phase, herror], hf, by simp [ef], by simp [ec]⟩
  | enter p hp hu =>
    obtain ⟨e, ef, ec, hf⟩ := quiet hu
    exact ⟨.inl e, by simp [e, hp], hf, by simp [ef], by simp [ec]⟩
  | finish hu =>
    obtain ⟨e, ef, ec, hf⟩ := quiet hu
    refine ⟨.inl e, by simp [e], hf, fun hv => ⟨rfl, ?_⟩, fun hv => ⟨rfl, ?_⟩⟩
    · rw [finishEncode_freqTap, ef] at hv; exact hv
    · rw [finishEncode_codeTap, ec] at hv; exact hv
  | error c hu =>
    obtain ⟨-, -, -, hf⟩ := quiet hu
    exact ErrorInv.raise c hf

theorem busy_of_issues {s : State} {i : Instr} (h : issues s = some i) : busy s = true := by
  by_contra hb
  rw [issues_of_not_busy (by simpa using hb)] at h
  cases h

theorem phaseTurn_ends {s t : State} (hp : s.cfg.wf = true) (hb : busy s = true) (h : phaseTurn s = .next t) :
    ∃ r w, EngineEnd r w s t := by
  obtain ⟨hb', -⟩ | ⟨-, ⟨-, e⟩ | ⟨-, e⟩ | ⟨-, e⟩ | ⟨-, e⟩ | ⟨-, e⟩ | ⟨-, e⟩ | ⟨-, e⟩ | ⟨-, e⟩ | ⟨-, e⟩ | ⟨-, e⟩⟩ :=
    phaseTurn_cases s
  · exact absurd (hb'.symm.trans hb) (by simp)
  all_goals exact ⟨_, _, exec_ends hp (by simp) (e ▸ h)⟩

/-- An operation of the I/O controller, and what the phase does with it. -/
theorem perform_ends {i : Instr} {s t : State} (hp : s.cfg.wf = true) (hi : issues s = some i)
    (h : perform i s = .next t) : EngineEnd true true s t := by
  rcases perform_next hp hi h with ⟨-, u, hu, hc⟩ | ⟨-, u, hu, hc⟩ | ⟨-, hc⟩ | ⟨-, hc⟩ | ⟨-, hc⟩
  · -- D_HDR
    have hl : EngineFrame true true s { u with bioOut := .none } := hu.frame.trans {}
    rcases hc with rfl | ⟨n, hh⟩
    · exact .error _ hl
    · exact .after hl (headerRead_ends hh)
  · -- D_TREE
    rcases hc with rfl | ⟨-, rfl⟩ | ⟨v, hv, rfl | ⟨-, rfl⟩⟩
    · exact .error _ (hu.frame.trans {})
    · exact .still (hu.frame.trans {})
    · exact .still (hu.frame.trans (.trans {} hv.frame))
    · exact .enter _ (by simp) (hu.frame.trans (.trans {} hv.frame))
  · -- E_HDR
    rcases hc with ⟨u, hu, rfl⟩ | hf
    · exact .enter (u := { u with nhdr := s.ilen }) _ (by simp) (hu.frame.trans {})
    · exact hf.ends
  · -- E_TREE
    rcases hc with ⟨u, hu, ⟨-, -, rfl⟩ | ⟨rest, rfl⟩⟩ | hf
    · exact .still (hu.frame.trans {})
    · have hs : EngineFrame true true s { u with stack := rest, marker := false } := hu.frame.trans {}
      cases rest with
      | nil => exact .enter .ePack (by simp) hs
      | cons fr rest => exact .still hs
    · exact hf.ends
  · -- E_FIN
    rcases hc with ⟨u, hu, rfl⟩ | hf
    · exact .finish hu.frame
    · exact hf.ends

theorem tokenTurn_ends {s t : State} (hp : s.cfg.wf = true) (hb : busy s = true) (hm : s.marker = false)
    (h : tokenTurn s = .next t) : ∃ r w, EngineEnd r w s t := by
  obtain ⟨-, ⟨u, hu, rfl⟩ | ⟨n, -, hh⟩⟩ | ⟨-, he | ⟨n, -, ⟨u, hu, rfl⟩ | ⟨u, hu, -, rfl⟩⟩⟩ | ⟨-, -, h⟩ :=
    tokenTurn_next hp hm h
  · exact ⟨true, true, .error _ hu.frame⟩
  · exact ⟨true, true, .after (movePast_frame 32 s) (headerRead_ends hh)⟩
  · exact ⟨true, true, he.ends⟩
  · exact ⟨true, true, .still ((movePast_frame n s).trans hu.frame)⟩
  · exact ⟨true, true, .enter _ (by simp) ((movePast_frame n s).trans hu.frame)⟩
  · exact phaseTurn_ends hp hb h

theorem ErrorInv.phaseTurn {s t : State} (hp : s.cfg.wf = true) (hb : busy s = true) (h : ErrorInv s)
    (ht : phaseTurn s = .next t) : ErrorInv t := by
  obtain ⟨r, w, he⟩ := phaseTurn_ends hp hb ht
  exact h.after hb he

theorem ErrorInv.perform {i : Instr} {s t : State} (hp : s.cfg.wf = true) (h : ErrorInv s) (hi : issues s = some i)
    (ht : perform i s = .next t) : ErrorInv t := h.after (busy_of_issues hi) (perform_ends hp hi ht)

theorem ErrorInv.finishToken {s t : State} (hp : s.cfg.wf = true) (h : ErrorInv s) (ht : finishToken s = .next t) :
    ErrorInv t := by
  cases hi : issues s with
  | some i => rw [finishToken_some hi] at ht; exact h.perform hp hi ht
  | none => rw [finishToken_none hi] at ht; cases ht; exact h

theorem ErrorInv.engineTurn {s t : State} (hp : s.cfg.wf = true) (h : ErrorInv s) (ht : engineTurn s = .next t) :
    ErrorInv t := by
  cases hb : busy s with
  | false => rw [engineTurn_of_not_busy hb] at ht; cases ht; exact h
  | true =>
    rcases engineTurn_next ht with ⟨-, ht⟩ | ⟨-, u, hu, hc⟩
    · exact h.phaseTurn hp hb ht
    · have h' := h.finishToken hp hu
      rcases hc with ⟨hph, ht⟩ | ⟨-, rfl⟩
      · exact h'.phaseTurn ((finishToken_bufferStep hp hu).wf hp) (by rw [busy, hph]; exact hb) ht
      · exact h'

/-- Outside `BUSY` a token turn changes nothing (log 18). -/
theorem tokenTurn_of_not_busy {s : State} (h : busy s = false) : tokenTurn s = .next s := by
  rw [tokenTurn]
  split_ifs
  · exact finishToken_none (issues_of_not_busy h)
  · split
    · next hp => rw [busy, hp] at h; cases h
    · next hp => rw [busy, hp] at h; cases h
    · exact phaseTurn_of_not_busy h

theorem ErrorInv.tokenTurn {s t : State} (hp : s.cfg.wf = true) (h : ErrorInv s) (hm : s.marker = false)
    (ht : tokenTurn s = .next t) : ErrorInv t := by
  cases hb : busy s with
  | false => rw [tokenTurn_of_not_busy hb] at ht; cases ht; exact h
  | true =>
    obtain ⟨r, w, he⟩ := tokenTurn_ends hp hb hm ht
    exact h.after hb he

/-- What the host does besides commands is nothing to the error channel. -/
theorem ErrorInv.withHost {s : State} (h : ErrorInv s) (i v : Word) (m : List Host.Cell) (n : Nat) (es : List Event) :
    ErrorInv { s with ilen := i, ibuf := m, rdata := v, draws := n, events := es } :=
  ⟨h.errValue, h.errState, h.flags, h.freqTap, h.codeTap⟩

theorem ErrorInv.reset (s : State) : ErrorInv (resetInput s) where
  errValue := .inl rfl
  errState := ⟨fun h => absurd rfl h, nofun⟩
  flags := by simp [State.reset]
  freqTap := nofun
  codeTap := nofun

/-- A command starts with `ERR` 0, its own flags and no tap valid (rule R51). -/
theorem ErrorInv.acceptCmd (w : Word) (s : State) : ErrorInv (acceptCmd w s) := by
  have start : ∀ p : Phase, p ≠ .error → ErrorInv { initCommand { s with cmd := w } with phase := p } := fun p hp =>
    ⟨.inl rfl, ⟨fun h => absurd rfl h, fun h => absurd h hp⟩, rfl, nofun, nofun⟩
  rcases acceptCmd_cases w s with e | e | ⟨-, e | e⟩ <;> rw [e]
  · exact ErrorInv.raise _ rfl
  · exact ErrorInv.raise _ rfl
  · exact start .eCount (by simp)
  · exact start .dHdr (by simp)

/-- The rules ask for lawful parameters (rule R10), which no step changes. -/
theorem errorRules : StepRules fun s => s.cfg.wf = true ∧ ErrorInv s where
  events := fun s es ⟨hp, h⟩ => ⟨hp, h.withHost s.ilen s.rdata s.ibuf s.draws es⟩
  data := fun s v n ⟨hp, h⟩ => ⟨hp, h.withHost s.ilen v s.ibuf n s.events⟩
  ilen := fun s v _ ⟨hp, h⟩ => ⟨hp, h.withHost v s.rdata s.ibuf s.draws s.events⟩
  ibuf := fun s _ _ _ _ ⟨hp, h⟩ => ⟨hp, h.withHost s.ilen s.rdata _ s.draws s.events⟩
  reset := fun s ⟨hp, _⟩ => ⟨hp, ErrorInv.reset s⟩
  accept := fun s w _ ⟨hp, _⟩ => ⟨(acceptCmd_bufferStep w s).wf hp, ErrorInv.acceptCmd w s⟩
  engine := fun _ _ ⟨hp, h⟩ ht => ⟨(engineTurn_bufferStep hp ht).wf hp, h.engineTurn hp ht⟩
  issued := fun _ _ _ ⟨hp, h⟩ hi ht => ⟨(perform_bufferStep hp hi ht).wf hp, h.perform hp hi ht⟩
  token := fun _ _ ⟨hp, h⟩ hm ht => ⟨(tokenTurn_bufferStep hp hm ht).wf hp, h.tokenTurn hp hm ht⟩

/-- Settles O46: each thing that a step can do keeps the error channel lawful (`errorRules`), so every step does. -/
theorem stepKeepsErrorChannel : Obligations.StepKeepsErrorChannel := fun _ _ hp h ht => (errorRules.step ⟨hp, h⟩ ht).2

end Sys2Proof.Machine
end

section
/-! SUPPORT. Outside `BUSY` the result stays until a command or reset (rules R48, R254). -/

namespace Sys2Proof.Machine

/-- How a command ended, and its output: `PHASE`, `ERR`, `OLEN` and `OBUF`. -/
structure ResultKept (s t : State) : Prop where
  phase : t.phase = s.phase := by rfl
  err : t.err = s.err := by rfl
  olen : t.olen = s.olen := by rfl
  obuf : t.obuf = s.obuf := by rfl

theorem deliver_resultKept (r : ReadValue) (s : State) : ResultKept s (deliver r s) := by cases r <;> exact {}

theorem deliverByte_resultKept (r : ReadValue) (s : State) : ResultKept s (deliverByte r s) := by cases r <;> exact {}

theorem writeIlen_resultKept (v : Word) (s : State) : ResultKept s (writeIlen v s) := by
  rw [writeIlen]; split_ifs <;> exact {}

theorem writeIbufByte_resultKept (a : Nat) (v : Byte) (s : State) : ResultKept s (writeIbufByte a v s) := by
  rw [writeIbufByte]; split_ifs <;> exact {}

/-- A write to `REG` outside `CMD`. -/
theorem writeReg_resultKept {off : BitVec 15} {v : Word} {s t : State} (h0 : off ≠ 0) (h : writeReg off v s = .next t) :
    ResultKept s t := by
  rw [writeReg] at h
  split at h
  · next e => exact absurd (BitVec.eq_of_toNat_eq e) h0
  · cases h; exact writeIlen_resultKept v s
  · cases h; exact {}

theorem hostTurn_resultKept {a : HostAccess} {s t : State} (hb : busy s = false) (hc : ∀ w, a ≠ .write32 0 w)
    (h : hostTurn a s = .next t) : ResultKept s t := by
  cases a <;> simp only [hostTurn] at h
  case read32 off => cases h; exact deliver_resultKept _ s
  case write32 off v => exact writeReg_resultKept (fun e => hc v (by rw [e])) h
  case readNarrow off => cases h; exact deliver_resultKept _ s
  case writeNarrow off v => cases h; exact {}
  case readIbuf a => split_ifs at h; cases h; exact deliverByte_resultKept _ s
  case writeIbuf a v => split_ifs at h; cases h; exact writeIbufByte_resultKept a v s
  case readObuf a => split_ifs at h; cases h; exact deliverByte_resultKept _ s
  case writeObuf a v => split_ifs at h; cases h; exact {}
  case copyToIbuf a => split_ifs at h; cases h; exact writeIbufByte_resultKept a _ s
  case wait => rw [hb] at h; cases h; exact deliver_resultKept _ s
  case loopback => cases h; exact {}

/-- Outside `BUSY` the engine issues no operation, so an event for one changes nothing (log 18). -/
theorem bioTurn_of_not_busy {sel : BitVec 3} {op : Word} {s t : State} (hb : busy s = false)
    (h : bioTurn sel op s = .next t) : t = s := by
  rcases bioTurn_next h with ⟨i, -, hi, -⟩ | e
  · rw [issues_of_not_busy hb] at hi; cases hi
  · exact e

/-- Settles O10: the engine does nothing outside `BUSY`, and no other access of the host touches the result. -/
theorem onlyCommandOrResetLeavesDoneAndError : Obligations.OnlyCommandOrResetLeavesDoneAndError := by
  intro s t hb h hcmd hreset
  suffices k : ResultKept s t from ⟨k.phase, k.err, k.olen, fun a => by rw [k.obuf]⟩
  rw [step, turn] at h
  have hb' : ∀ es, busy { s with events := es } = false := fun _ => hb
  split at h
  · rw [engineTurn_of_not_busy hb] at h; cases h; exact {}
  · next rest he => exact absurd he (hreset rest)
  · rw [engineTurn_of_not_busy (hb' _)] at h; cases h; exact {}
  · next a rest he =>
    have k := hostTurn_resultKept (s := { s with events := rest }) hb (fun w e => hcmd w rest (by rw [he, e])) h
    exact ⟨k.phase, k.err, k.olen, k.obuf⟩
  · rw [bioTurn_of_not_busy (hb' _) h]; exact {}
  · rw [tokenTurn_of_not_busy (hb' _)] at h; cases h; exact {}

end Sys2Proof.Machine
end

section
/-! SUPPORT. What the host reads and writes, access by access (rules R30 to R40, R47, R48, R60). -/

namespace Sys2Proof.Machine

/-! ### A step for an access of the host -/

theorem step_of_host {s : State} {a : HostAccess} {rest : List Event} (h : s.events = .host a :: rest) :
    step s = hostTurn a { s with events := rest } := by rw [step, turn, h]

theorem step_of_read32 {s : State} {off : BitVec 15} {rest : List Event} (h : s.events = .host (.read32 off) :: rest) :
    step s = .next (deliver (readReg { s with events := rest } off) { s with events := rest }) := by
  rw [step_of_host h, hostTurn]

/-- The host receives the value that its read returns. -/
theorem step_of_read_value {s : State} {off : BitVec 15} {v : Word} {rest : List Event}
    (h : s.events = .host (.read32 off) :: rest) (hv : readReg { s with events := rest } off = .value v) :
    step s = .next { s with events := rest, rdata := v } := by
  rw [step_of_read32 h, hv, deliver]

/-- The host receives a free value (log 4). -/
theorem step_of_read_unspecified {s : State} {off : BitVec 15} {rest : List Event}
    (h : s.events = .host (.read32 off) :: rest) (hv : readReg { s with events := rest } off = .unspecified) :
    step s = .next { s with events := rest, rdata := Config.freeWord s.draws, draws := s.draws + 1 } := by
  rw [step_of_read32 h, hv, deliver]

/-! ### The registers -/

theorem whenIdle_of_not_busy {s : State} (h : busy s = false) (v : Word) : whenIdle s v = .value v := by
  rw [whenIdle, h]; rfl

theorem readReg_cmd (s : State) : readReg s 0x00 = .value s.cmd := rfl
theorem readReg_status (s : State) : readReg s 0x04 = .value (statusWord s) := rfl
theorem readReg_err (s : State) : readReg s 0x08 = whenIdle s s.err := rfl
theorem readReg_ilen (s : State) : readReg s 0x0C = .value s.ilen := rfl
theorem readReg_olen (s : State) : readReg s 0x10 = whenIdle s s.olen := rfl
theorem readReg_rposLo (s : State) : readReg s 0x14 = whenIdle s (s.rpos.extractLsb' 0 32) := rfl
theorem readReg_rposHi (s : State) : readReg s 0x18 = whenIdle s ((s.rpos.extractLsb' 32 4).setWidth 32) := rfl
theorem readReg_wposLo (s : State) : readReg s 0x1C = whenIdle s (s.wpos.extractLsb' 0 32) := rfl
theorem readReg_wposHi (s : State) : readReg s 0x20 = whenIdle s ((s.wpos.extractLsb' 32 4).setWidth 32) := rfl
theorem readReg_flags (s : State) : readReg s 0x24 = .value (flagsWord s) := rfl

/-- The two halves of a position (rule R36). -/
theorem eq_posLo {p : Pos} {v : Word} (h : v.toNat = p.toNat % 2 ^ 32) : v = p.extractLsb' 0 32 :=
  BitVec.eq_of_toNat_eq (by simp [h])

theorem eq_posHi {p : Pos} {v : Word} (h : v.toNat = p.toNat / 2 ^ 32) : v = (p.extractLsb' 32 4).setWidth 32 := by
  have := p.isLt
  refine BitVec.eq_of_toNat_eq ?_
  rw [h, BitVec.toNat_setWidth, BitVec.extractLsb'_toNat, Nat.shiftRight_eq_div_pow]
  omega

/-- Settles O50: the word of each phase. -/
theorem statusReadsStateAndPhase : Obligations.StatusReadsStateAndPhase := by
  intro s rest h
  refine ⟨statusWord s, step_of_read_value h (readReg_status _), ?_⟩
  rw [statusWord]
  cases s.phase <;> decide

/-- Settles O51: what a read of each register returns. -/
theorem registersReadTheirValues : Obligations.RegistersReadTheirValues := by
  intro s rest off v hb h hv
  refine step_of_read_value h ?_
  have idle := whenIdle_of_not_busy (s := { s with events := rest }) hb
  rcases hv with ⟨rfl, rfl⟩ | ⟨rfl, rfl⟩ | ⟨rfl, rfl⟩ | ⟨rfl, rfl⟩ | ⟨rfl, e⟩ | ⟨rfl, e⟩ | ⟨rfl, e⟩ | ⟨rfl, e⟩ | ⟨rfl, e⟩
  · exact readReg_cmd _
  · rw [readReg_err, idle]
  · exact readReg_ilen _
  · rw [readReg_olen, idle]
  · rw [readReg_rposLo, idle, eq_posLo e]
  · rw [readReg_rposHi, idle, eq_posHi e]
  · rw [readReg_wposLo, idle, eq_posLo e]
  · rw [readReg_wposHi, idle, eq_posHi e]
  · rw [readReg_flags, flagsWord, BitVec.eq_of_toNat_eq (x := v) (y := s.flags.setWidth 32)]
    rw [e, BitVec.toNat_setWidth, Nat.mod_eq_of_lt (by have := s.flags.isLt; omega)]

/-! ### Reserved offsets, and writes that are ignored -/

theorem readReg_misaligned {s : State} {off : BitVec 15} (h : off.toNat % 4 ≠ 0) : readReg s off = .value 0 := if_neg h

theorem readAligned_reserved {s : State} {off : Nat} (h : (0x28 ≤ off ∧ off < 0x400) ∨ (0x800 ≤ off ∧ off < 0x4000)) :
    readAligned s off = .value 0 := by
  rw [readAligned, if_neg (by omega), if_neg (by omega)] <;> omega

theorem readReg_reserved {s : State} {off : BitVec 15}
    (h : off.toNat % 4 ≠ 0 ∨ (0x28 ≤ off.toNat ∧ off.toNat < 0x400) ∨ (0x800 ≤ off.toNat ∧ off.toNat < 0x4000)) :
    readReg s off = .value 0 := by
  by_cases ha : off.toNat % 4 = 0
  · rw [readReg, if_pos ha, readAligned_reserved (h.resolve_left (not_not.mpr ha))]
  · exact readReg_misaligned ha

/-- Only `CMD` and `ILEN` are writable (rules R30, R38). -/
theorem writeReg_ignored {off : BitVec 15} {v : Word} {s : State} (h0 : off ≠ 0) (hi : off ≠ 0x0C) :
    writeReg off v s = .next s := by
  rw [writeReg]
  split
  · next e => exact absurd (BitVec.eq_of_toNat_eq e) h0
  · next e => exact absurd (BitVec.eq_of_toNat_eq e) hi
  · rfl

/-- Settles O53: `readReg_reserved` and `writeReg_ignored`. -/
theorem reservedOffsetsReadZero : Obligations.ReservedOffsetsReadZero := by
  intro s rest off v
  refine ⟨fun h hr => step_of_read_value h (readReg_reserved hr), fun h h0 hi => ?_, fun h => ?_, fun h => ?_⟩
  · rw [step_of_host h, hostTurn, writeReg_ignored h0 hi]
  · rw [step_of_host h, hostTurn, deliver]
  · rw [step_of_host h, hostTurn]

/-! ### The taps -/

theorem readReg_freqTap {s : State} {off : BitVec 15} {sym : Byte} (h : off.toNat = 0x400 + 4 * sym.toNat) :
    readReg s off = readFreqTap s sym.toNat := by
  have := sym.isLt
  rw [readReg, if_pos (by omega), readAligned.eq_def, if_neg (by omega), if_pos (by omega)]
  congr 1
  omega

theorem readReg_codeTap {s : State} {off : BitVec 15} {sym : Byte} {w : Nat} (hw : w < 16)
    (h : off.toNat = 0x4000 + 64 * sym.toNat + 4 * w) : readReg s off = readCodeTap s sym.toNat w := by
  rw [readReg, if_pos (by omega), readAligned.eq_def, if_pos (by omega)]
  congr 1 <;> omega

/-- The word of a valid `CODE` tap outside `BUSY` (rule R40). -/
def codeTapWord (code : List Bool) (w : Nat) : Word :=
  if w = 0 then BitVec.ofNat 32 code.length else if w ≤ 8 then codeWord code w else 0

theorem readFreqTap_valid {s : State} (hb : busy s = false) (hv : s.freqTap = true) (sym : Byte) :
    readFreqTap s sym.toNat = .value (freqAt s sym) := by
  rw [readFreqTap, if_pos hv, whenIdle_of_not_busy hb, BitVec.ofNat_toNat, BitVec.setWidth_eq]

theorem readFreqTap_invalid {s : State} (hv : s.freqTap = false) (sym : Nat) : readFreqTap s sym = .unspecified := by
  rw [readFreqTap, hv]; rfl

theorem readCodeTap_valid {s : State} (hb : busy s = false) (hv : s.codeTap = true) (sym : Byte) (w : Nat) :
    readCodeTap s sym.toNat w = .value (codeTapWord (codeAt s sym) w) := by
  rw [readCodeTap, if_pos hv, whenIdle_of_not_busy hb, BitVec.ofNat_toNat, BitVec.setWidth_eq, codeTapWord]

theorem readCodeTap_invalid {s : State} (hv : s.codeTap = false) (sym w : Nat) : readCodeTap s sym w = .unspecified := by
  rw [readCodeTap, hv]; rfl

theorem getElem?_bitsMsb {n k : Nat} (v : Nat) (h : k < n) : (bitsMsb n v)[k]? = some (v.testBit (n - 1 - k)) := by
  induction n generalizing k with
  | zero => omega
  | succ n ih =>
    cases k with
    | zero => rfl
    | succ k => rw [bitsMsb, List.getElem?_cons_succ, ih (by omega)]; congr 2; omega

/-- Stream bit `k` of a number of `n` bits is its bit `n - 1 - k` (rule R102). -/
theorem testBit_bitsValue {bits : List Bool} {k : Nat} {b : Bool} (h : bits[k]? = some b) :
    (bitsValue bits).testBit (bits.length - 1 - k) = b := by
  have hk : k < bits.length := (List.getElem?_eq_some_iff.mp h).1
  have e := getElem?_bitsMsb (bitsValue bits) hk
  rw [bitsMsb_bitsValue, h] at e
  exact (Option.some.inj e).symm

/-- Code bit `j` is bit `31 - (j mod 32)` of word `1 + (j div 32)` (rule R40). -/
theorem getLsbD_codeWord (code : List Bool) (j : Nat) :
    (codeWord code (1 + j / 32)).getLsbD (31 - j % 32) = (code[j]?).getD false := by
  have hj : j % 32 < 32 := Nat.mod_lt _ (by norm_num)
  have hbit : ((List.range 32).map fun i => (code[32 * (1 + j / 32 - 1) + i]?).getD false)[j % 32]? =
      some ((code[j]?).getD false) := by
    rw [List.getElem?_map, List.getElem?_range hj, Option.map_some, show 32 * (1 + j / 32 - 1) + j % 32 = j by omega]
  have e := testBit_bitsValue hbit
  rw [List.length_map, List.length_range] at e
  rw [codeWord, BitVec.getLsbD_ofNat, decide_eq_true (by omega), Bool.true_and, e]

/-- Settles O54: what a read of each tap returns. -/
theorem tapsReadTheTables : Obligations.TapsReadTheTables := by
  intro s rest sym w off hb hw h
  refine ⟨fun ho hv => step_of_read_value h ?_, fun ho hv => step_of_read_unspecified h ?_, fun ho hv hl => ?_,
    fun ho hv => step_of_read_unspecified h ?_⟩
  · rw [readReg_freqTap ho]; exact readFreqTap_valid (s := { s with events := rest }) hb hv sym
  · rw [readReg_freqTap ho]; exact readFreqTap_invalid hv _
  · refine ⟨codeTapWord (codeAt s sym) w, step_of_read_value h ?_, fun h0 => ?_, fun j hj h256 => ?_, fun h9 => ?_⟩
    · rw [readReg_codeTap hw ho]; exact readCodeTap_valid (s := { s with events := rest }) hb hv sym w
    · rw [codeTapWord, if_pos h0, BitVec.toNat_ofNat, Nat.mod_eq_of_lt (by omega)]
    · rw [codeTapWord, if_neg (by omega), if_pos (by omega), hj, getLsbD_codeWord]
    · rw [codeTapWord, if_neg (by omega), if_neg (by omega)]
  · rw [readReg_codeTap hw ho]; exact readCodeTap_invalid hv _ _

/-! ### The buffers -/

theorem writeIlen_of_not_busy {s : State} (h : busy s = false) (v : Word) : writeIlen v s = { s with ilen := v } :=
  if_neg (by simp [h])

theorem writeIbufByte_of_not_busy {s : State} (h : busy s = false) (a : Nat) (v : Byte) :
    writeIbufByte a v s = { s with ibuf := Table.set s.ibuf a v } := if_neg (by simp [h])

/-- A byte of `IBUF` after a write. -/
theorem ibufByte_set (s : State) (a b : Nat) (v : Byte) :
    ibufByte { s with ibuf := Table.set s.ibuf a v } b = if a = b then v else ibufByte s b := by
  rw [ibufByte, Table.get?_set]
  split_ifs
  · rfl
  · rfl

theorem readObufByte_result {s : State} {a : Nat} {v : Byte} (hp : s.phase = .done) (ha : a < s.olen.toNat)
    (hv : Table.get? s.obuf a = some v) : readObufByte s a = .value (v.setWidth 32) := by
  rw [readObufByte, if_pos ⟨hp, ha⟩, hv]

theorem readObufByte_outside {s : State} {a : Nat} (h : s.phase ≠ .done ∨ s.olen.toNat ≤ a) :
    readObufByte s a = .unspecified := if_neg fun ⟨hp, ha⟩ => h.elim (fun hn => hn hp) (by omega)

theorem hostTurn_writeIlen {s : State} (hb : busy s = false) (v : Word) :
    hostTurn (.write32 0x0C v) s = .next { s with ilen := v } := congrArg _ (writeIlen_of_not_busy hb v)

theorem hostTurn_writeIbuf {s : State} {a : Nat} (hb : busy s = false) (ha : a < s.cfg.ibufCap) (v : Byte) :
    hostTurn (.writeIbuf a v) s = .next { s with ibuf := Table.set s.ibuf a v } := by
  rw [hostTurn, if_pos ha, writeIbufByte_of_not_busy hb]

theorem hostTurn_readIbuf {s : State} {a : Nat} (ha : a < s.cfg.ibufCap) :
    hostTurn (.readIbuf a) s = .next { s with rdata := (ibufByte s a).setWidth 32 } := by
  rw [hostTurn, if_pos ha, deliverByte]

theorem hostTurn_readObuf {s : State} {a : Nat} (ha : a < s.cfg.obufCap) :
    hostTurn (.readObuf a) s = .next (deliverByte (readObufByte s a) s) := by
  rw [hostTurn, if_pos ha]

/-- Settles O55: each access to a buffer, with the event taken off. -/
theorem hostReachesTheBuffers : Obligations.HostReachesTheBuffers := by
  intro s rest
  let u : State := { s with events := rest }
  refine ⟨fun v hb h => ?_, fun a v hb ha h => ?_, fun a ha h => ?_, fun a v ha hp ho hv h => ?_, fun a ha ho h => ?_⟩ <;>
    rw [step_of_host h]
  · exact hostTurn_writeIlen (s := u) hb v
  · refine ⟨_, hostTurn_writeIbuf (s := u) hb ha v, rfl, ?_, fun b hne => ?_⟩
    · exact (ibufByte_set u a a v).trans (if_pos rfl)
    · exact (ibufByte_set u a b v).trans (if_neg hne.symm)
  · exact hostTurn_readIbuf (s := u) ha
  · rw [hostTurn_readObuf (s := u) ha, readObufByte_result (s := u) hp ho hv, deliverByte]
  · rw [hostTurn_readObuf (s := u) ha, readObufByte_outside (s := u) ho, deliverByte]

end Sys2Proof.Machine
end

section
/-! SUPPORT. The code table that E_GEN leaves for a tree (rules R170 to R176). -/

namespace Sys2Proof.Machine

/-- The traversal enters the codes of the tree, and leaves the stack empty (rules R171, R172). -/
theorem genCodes_tree {s : State} {t : HuffTree} (hs : s.stack = []) (h : HoldsTree s t) :
    genCodes s = .ok () (assignCodes t.codes s) := by
  obtain ⟨r, hr, ht, hsize⟩ := h
  cases t with
  | leaf sym =>
    obtain ⟨c, q, hn⟩ := ht
    rw [genCodes_leaf hr hn]; rfl
  | node l r' =>
    have ht' := ht
    obtain ⟨a, b, c, q, hn, -, -⟩ := ht
    obtain ⟨k, hk⟩ := Nat.exists_eq_add_of_le hsize
    rw [genCodes_internal hr hn, hk, genLoop_tree (.node l r') (s := withStack [Frame.at r] s) rfl ht', genLoop_done,
      withStack_withStack, withStack_self hs]
    · simp [HuffTree.codes, Frame.at]
    · rw [withStack_withStack, assignCodes_withStack]; rfl

/-- The entry of a symbol of the tree is its code. -/
theorem codeAt_codes_mem {t : HuffTree} {s : State} {x : Byte} (hd : t.leaves.Nodup) (hx : x ∈ t.leaves) :
    (x, codeAt (assignCodes t.codes s) x) ∈ t.codes := by
  rw [← t.codes_map_fst] at hx
  obtain ⟨e, he, rfl⟩ := List.mem_map.mp hx
  rw [codeAt_assignCodes_of_mem (by rw [t.codes_map_fst]; exact hd) he (HuffTree.length_code_le hd he)]
  exact he

/-- `CODE` with every entry empty, as E_GEN starts. -/
def clearedCodes (s : State) : State := { s with code := Vector.replicate 256 [] }

theorem codeAt_clearedCodes (s : State) (x : Byte) : codeAt (clearedCodes s) x = [] := by
  simp [codeAt, clearedCodes]

/-- The table that E_GEN makes of a tree. -/
def codeTable (t : HuffTree) (s : State) : State := assignCodes t.codes (clearedCodes s)

/-- Exactly the symbols of the tree have a code (rules R45, R173). -/
theorem codeAt_codeTable_eq_nil {t : HuffTree} {s : State} {x : Byte} (hd : t.leaves.Nodup) :
    codeAt (codeTable t s) x = [] ↔ x ∉ t.leaves := by
  refine ⟨fun e hx => ?_, fun hx => ?_⟩
  · exact HuffTree.codes_ne_nil (codeAt_codes_mem (s := clearedCodes s) hd hx) e
  · rw [codeTable, codeAt_assignCodes_of_not_mem (by rw [t.codes_map_fst]; exact hx), codeAt_clearedCodes]

/-- The codes of two symbols are apart (rule R174). -/
theorem codeTable_apart {t : HuffTree} {s : State} (hd : t.leaves.Nodup) {x y : Byte} (hne : x ≠ y)
    (hx : codeAt (codeTable t s) x ≠ []) (hy : codeAt (codeTable t s) y ≠ []) :
    Apart (codeAt (codeTable t s) x) (codeAt (codeTable t s) y) := by
  have mem : ∀ {z}, codeAt (codeTable t s) z ≠ [] → (z, codeAt (codeTable t s) z) ∈ t.codes := fun h =>
    codeAt_codes_mem hd (by_contra fun hz => h ((codeAt_codeTable_eq_nil hd).mpr hz))
  have : Std.Symm fun e f : Byte × List Bool => Apart e.2 f.2 := ⟨fun _ _ h => h.symm⟩
  exact t.codes_apart.forall (mem hx) (mem hy) fun e => hne (congrArg Prod.fst e)

/-- No code of the table has more than 255 bits (rule R175). -/
theorem length_codeTable_le {t : HuffTree} {s : State} (hd : t.leaves.Nodup) (x : Byte) :
    (codeAt (codeTable t s) x).length ≤ 255 := by
  by_cases hx : x ∈ t.leaves
  · exact HuffTree.length_code_le hd (codeAt_codes_mem (s := clearedCodes s) hd hx)
  · rw [(codeAt_codeTable_eq_nil hd).mpr hx]; exact Nat.zero_le _

/-- E_GEN completes with that table where the leaves of the tree are the present symbols: the checks of rule R176 pass. -/
theorem execEGen_tree {s : State} {t : HuffTree} (hs : s.stack = []) (h : HoldsTree s t) (hd : t.leaves.Nodup)
    (hf : ∀ sym, freqAt s sym ≠ 0 ↔ sym ∈ t.leaves) :
    exec .eGen s = .next { codeTable t s with phase := .eHdr } := by
  have hfreq : ∀ x, freqAt (codeTable t s) x = freqAt s x := fun x => by
    rw [codeTable, assignCodes_eq]; rfl
  show ((genCodes (clearedCodes s)).bind fun _ s => checkCodes s).outcome = _
  rw [genCodes_tree (s := clearedCodes s) hs h, Flow.bind_ok, ← codeTable,
    checkCodes_ok (fun _ _ => codeTable_apart hd) fun x => ?_, Flow.outcome_ok]
  rw [codeAt_codeTable_eq_nil hd, ← hf, hfreq, not_not]

/-- Settles O58: the table of `execEGen_tree`. -/
theorem codeTableIsPrefixFree : Obligations.CodeTableIsPrefixFree := by
  intro s t hs h hd hf
  refine ⟨_, execEGen_tree hs h hd hf, fun x y hne hx hy => (codeTable_apart (s := s) hd hne hx hy).1, fun sym =>
    ⟨?_, length_codeTable_le (s := s) hd sym⟩⟩
  show 1 ≤ (codeAt (codeTable t s) sym).length ↔ _
  rw [Nat.one_le_iff_ne_zero, Ne, List.length_eq_zero_iff, codeAt_codeTable_eq_nil hd, not_not, hf]

end Sys2Proof.Machine
end

section
/-! SUPPORT. The state after reset. -/

namespace Sys2Proof.Machine

/-- Settles O48: the reset input makes every invariant hold, and `State.reset` differs from what it leaves only in the
count of the resets, of which none speaks. -/
theorem resetStateIsSafe : Obligations.ResetStateIsSafe where
  buffers := ⟨by decide, reset_memory_wf.1, nofun, reset_memory_wf.2, nofun, Nat.zero_le _⟩
  errors :=
    have h := ErrorInv.reset State.reset
    ⟨h.errValue, h.errState, h.flags, h.freqTap, h.codeTap⟩
  engine :=
    have h := EngineInv.reset State.reset
    ⟨h.pq, h.stack, h.nodeWf, h.nodeSeq, h.ilen, h.rpos, h.iidx, h.wacc, h.header, h.encodes, h.decodes, h.cursors,
      h.marker, h.lines⟩
  widths := (resetInput_fits State.reset).congr rfl rfl rfl rfl rfl rfl rfl rfl

end Sys2Proof.Machine
end

section
/-! SUPPORT. The encodings of 30_encoding.md are inverse to the decoder, format by format (rules R91 to R97). -/

namespace Sys2Proof

open Sys2Proof.Machine

/-! ### From an operation to its word and back -/

theorem decode_encode_cmdEncode (f c b : Bool) : decode (encode (.encode f c b)) = .ok (.encode f c b) := by
  revert f c b; decide

theorem decode_encode_cmdDecode (f c b : Bool) : decode (encode (.decode f c b)) = .ok (.decode f c b) := by
  revert f c b; decide

theorem decode_encode_wrbyte {v : Nat} (h : v < 2 ^ 8) : decode (encode (.wrbyte v)) = .ok (.wrbyte v) := by
  have e : (BitVec.ofNat 32 v).toNat = v := by rw [BitVec.toNat_ofNat]; omega
  show (if (BitVec.ofNat 32 v).toNat < 2 ^ 8 then _ else _) = _
  rw [e, if_pos h]

theorem decode_encode_wru32 {v : Nat} (h : v < 2 ^ 32) : decode (encode (.wru32 v)) = .ok (.wru32 v) := by
  show Except.ok (Instr.wru32 (BitVec.ofNat 32 v).toNat) = _
  rw [BitVec.toNat_ofNat, Nat.mod_eq_of_lt h]

theorem decode_encode_lenhdr {n : Nat} (h : n < 2 ^ 32) : decode (encode (.lenhdr n)) = .ok (.lenhdr n) := by
  rw [encode, decode, decodeHeader, if_pos (length_bitsMsb 32 n), bitsValue_bitsMsb_of_lt h]

theorem decode_encode_tnodeLeaf {v : Nat} (h : v < 2 ^ 8) : decode (encode (.tnodeLeaf v)) = .ok (.tnodeLeaf v) := by
  show (if (bitsMsb 8 v).length = 8 then Except.ok (Instr.tnodeLeaf (bitsValue (bitsMsb 8 v)))
    else .error .treeTokenLength) = _
  rw [if_pos (length_bitsMsb 8 v), bitsValue_bitsMsb_of_lt h]

/-- Settles O1: the operands by the lemma of their format; a word without operand is a fixed one. -/
theorem decodeOfEncodeIsTheOperation : Obligations.DecodeOfEncodeIsTheOperation := by
  intro i h
  cases i with
  | encode f c b => exact decode_encode_cmdEncode f c b
  | decode f c b => exact decode_encode_cmdDecode f c b
  | wrbit b => cases b <;> rfl
  | wrbyte v => exact decode_encode_wrbyte (of_decide_eq_true h)
  | wru32 v => exact decode_encode_wru32 (of_decide_eq_true h)
  | lenhdr n => exact decode_encode_lenhdr (of_decide_eq_true h)
  | tnodeLeaf v => exact decode_encode_tnodeLeaf (of_decide_eq_true h)
  | _ => rfl

/-! ### From a word to its operation and back -/

/-- The word of a format is the encoding of a well-formed operation. -/
def IsWordOf (c : Code) (i : Instr) : Prop := WellFormed i = true ∧ encode i = c

theorem decodeCmd_isWordOf {w : Word} {i : Instr} (h : decodeCmd w = .ok i) : IsWordOf (.cmd w) i := by
  rw [decodeCmd] at h
  split_ifs at h with hz
  have hz := not_not.mp hz
  split at h <;> cases h
  · next h0 h1 => exact ⟨rfl, congrArg Code.cmd (cmdWord_of_bits hz 1 (.inl rfl) h0 h1)⟩
  · next h0 h1 => exact ⟨rfl, congrArg Code.cmd (cmdWord_of_bits hz 2 (.inr rfl) h0 h1)⟩

theorem decodePhase_isWordOf {c : BitVec 4} {i : Instr} (h : decodePhase c = .ok i) : IsWordOf (.phase c) i := by
  rw [decodePhase] at h
  split at h <;> cases h
  all_goals exact ⟨rfl, congrArg Code.phase (BitVec.eq_of_toNat_eq (Eq.symm ‹c.toNat = _›))⟩

/-- An operation without operand has the word of its select with every operand line 0 (log 10). -/
theorem bioPlain_isWordOf {sel : BitVec 3} {op : Word} {i j : Instr} (hj : IsWordOf (.bio sel 0) j)
    (h : bioPlain op j = .ok i) : IsWordOf (.bio sel op) i := by
  rw [bioPlain] at h
  split_ifs at h with h0
  cases h
  rw [h0]; exact hj

/-- Operand lines that hold a number below 2 hold the bit on the lowest of them. -/
theorem ofNat_getLsbD_zero {op : Word} (h : op.toNat < 2) : BitVec.ofNat 32 (op.getLsbD 0).toNat = op := by
  apply BitVec.eq_of_toNat_eq
  rw [BitVec.toNat_ofNat, BitVec.getLsbD, Nat.toNat_testBit]
  omega

theorem decodeBio_isWordOf {sel : BitVec 3} {op : Word} {i : Instr} (h : decodeBio sel op = .ok i) :
    IsWordOf (.bio sel op) i := by
  rw [decodeBio] at h
  split at h
  · obtain rfl : sel = 0 := BitVec.eq_of_toNat_eq ‹_›
    exact bioPlain_isWordOf ⟨rfl, rfl⟩ h
  · obtain rfl : sel = 1 := BitVec.eq_of_toNat_eq ‹_›
    exact bioPlain_isWordOf ⟨rfl, rfl⟩ h
  · obtain rfl : sel = 2 := BitVec.eq_of_toNat_eq ‹_›
    exact bioPlain_isWordOf ⟨rfl, rfl⟩ h
  · obtain rfl : sel = 4 := BitVec.eq_of_toNat_eq ‹_›
    split_ifs at h with hlt
    cases h
    exact ⟨rfl, congrArg (Code.bio 4) (ofNat_getLsbD_zero hlt)⟩
  · obtain rfl : sel = 5 := BitVec.eq_of_toNat_eq ‹_›
    split_ifs at h with hlt
    cases h
    exact ⟨decide_eq_true hlt, congrArg (Code.bio 5) (by simp)⟩
  · obtain rfl : sel = 6 := BitVec.eq_of_toNat_eq ‹_›
    cases h
    exact ⟨decide_eq_true op.isLt, congrArg (Code.bio 6) (by simp)⟩
  · obtain rfl : sel = 7 := BitVec.eq_of_toNat_eq ‹_›
    exact bioPlain_isWordOf ⟨rfl, rfl⟩ h
  · cases h

theorem decodeHeader_isWordOf {bits : List Bool} {i : Instr} (h : decodeHeader bits = .ok i) :
    IsWordOf (.header bits) i := by
  rw [decodeHeader] at h
  split_ifs at h with hl
  cases h
  exact ⟨decide_eq_true (hl ▸ bitsValue_lt bits), congrArg Code.header (bitsMsb_bitsValue' hl)⟩

theorem decodeTree_isWordOf {bits : List Bool} {i : Instr} (h : decodeTree bits = .ok i) :
    IsWordOf (.tree bits) i := by
  unfold decodeTree at h
  split at h
  · cases h; exact ⟨rfl, rfl⟩
  · next sym =>
    split_ifs at h with hl
    cases h
    exact ⟨decide_eq_true (hl ▸ bitsValue_lt sym), congrArg (fun x => Code.tree (true :: x)) (bitsMsb_bitsValue' hl)⟩
  · cases h

/-- Settles O2: format by format. -/
theorem decodedWordIsTheEncoding : Obligations.DecodedWordIsTheEncoding := by
  intro c i h
  cases c with
  | cmd w => exact decodeCmd_isWordOf h
  | phase c => exact decodePhase_isWordOf h
  | bio sel op => exact decodeBio_isWordOf h
  | header bits => exact decodeHeader_isWordOf h
  | tree bits => exact decodeTree_isWordOf h

/-! ### Command words -/

theorem decode_cmd_eq_encode_iff {w : Word} {f c b : Bool} :
    decode (.cmd w) = .ok (.encode f c b) ↔ w = cmdWord 1 f c b :=
  ⟨fun h => (Code.cmd.inj (decodedWordIsTheEncoding _ _ h).2).symm, fun h => h ▸ decode_encode_cmdEncode f c b⟩

theorem decode_cmd_eq_decode_iff {w : Word} {f c b : Bool} :
    decode (.cmd w) = .ok (.decode f c b) ↔ w = cmdWord 2 f c b :=
  ⟨fun h => (Code.cmd.inj (decodedWordIsTheEncoding _ _ h).2).symm, fun h => h ▸ decode_encode_cmdDecode f c b⟩

/-- Under the mask of rule R91 only the mode of a command word is left. -/
theorem cmdWord_masked {m : Nat} (hm : m = 1 ∨ m = 2) (f c b : Bool) :
    cmdWord m f c b &&& 0xFFFFFFE3#32 = BitVec.ofNat 32 m := by
  rcases hm with rfl | rfl <;> (revert f c b; decide)

/-- The flags of a command word are its bits 2, 3 and 4 (rule R91). -/
theorem cmdWord_flags {m : Nat} (hm : m = 1 ∨ m = 2) (f c b : Bool) :
    f = (cmdWord m f c b).getLsbD 2 ∧ c = (cmdWord m f c b).getLsbD 3 ∧ b = (cmdWord m f c b).getLsbD 4 := by
  rcases hm with rfl | rfl <;> (revert f c b; decide)

/-- The mask leaves every bit but 2, 3 and 4. -/
theorem getLsbD_of_masked {w v : Word} (h : w &&& 0xFFFFFFE3#32 = v) {k : Nat} (hk : (0xFFFFFFE3#32).getLsbD k = true) :
    w.getLsbD k = v.getLsbD k := by
  rw [← h, BitVec.getLsbD_and, hk, Bool.and_true]

theorem mask_above_flags : ∀ k < 27, (0xFFFFFFE3#32).getLsbD (5 + k) = true := by decide

/-- A word that is only its mode under the mask is the command word of that mode with its own flags. -/
theorem cmdWord_of_masked {w : Word} {m : Nat} (hm : m = 1 ∨ m = 2) (h : w &&& 0xFFFFFFE3#32 = BitVec.ofNat 32 m) :
    w = cmdWord m (w.getLsbD 2) (w.getLsbD 3) (w.getLsbD 4) := by
  have hz : w.extractLsb' 5 27 = 0 := by
    apply BitVec.eq_of_getLsbD_eq
    intro k hk
    have hlt : m < 2 ^ (5 + k) :=
      (show m < 2 ^ 5 by omega).trans_le (Nat.pow_le_pow_right (by norm_num) (by omega))
    rw [BitVec.getLsbD_extractLsb', getLsbD_of_masked h (mask_above_flags k hk), BitVec.getLsbD_ofNat,
      Nat.testBit_lt_two_pow hlt]
    simp
  refine (cmdWord_of_bits hz m hm ?_ ?_).symm
  · rw [getLsbD_of_masked h (by decide)]; rcases hm with rfl | rfl <;> rfl
  · rw [getLsbD_of_masked h (by decide)]; rcases hm with rfl | rfl <;> rfl

/-- Settles O4: a word decodes to a command exactly when it is its command word, and these are the masked ones. -/
theorem commandWordsAreTheMaskedOnes : Obligations.CommandWordsAreTheMaskedOnes := by
  intro w
  simp only [decode_cmd_eq_encode_iff, decode_cmd_eq_decode_iff]
  refine ⟨⟨?_, fun h => ⟨_, _, _, cmdWord_of_masked (.inl rfl) h⟩⟩,
    ⟨?_, fun h => ⟨_, _, _, cmdWord_of_masked (.inr rfl) h⟩⟩, ?_⟩
  · rintro ⟨f, c, b, rfl⟩; exact cmdWord_masked (.inl rfl) f c b
  · rintro ⟨f, c, b, rfl⟩; exact cmdWord_masked (.inr rfl) f c b
  · rintro f c b (rfl | rfl)
    · exact cmdWord_flags (.inl rfl) f c b
    · exact cmdWord_flags (.inr rfl) f c b

/-- Settles O3: each of the seven fixed words is decoded. -/
theorem sampleWordsDecode : Obligations.SampleWordsDecode := by
  unfold Obligations.SampleWordsDecode
  decide

end Sys2Proof
end

section
/-! SUPPORT. The tokens of the stream performed by themselves: what each does in the phases that write and read it, and
elsewhere (rules R95 to R97, R185, R190, R204, R222; log 11). -/

namespace Sys2Proof.Machine

/-! ### A token by its phase -/

theorem exec_lenhdr_eHdr {n : Nat} {s : State} (h : s.phase = .eHdr) :
    exec (.lenhdr n) s = (writeHeader (BitVec.ofNat 32 n) s).outcome := by
  show execLenhdr n s = _
  rw [execLenhdr, h]

theorem exec_lenhdr_dHdr {n : Nat} {s : State} (h : s.phase = .dHdr) :
    exec (.lenhdr n) s = (headerRead (BitVec.ofNat 32 n) (movePast 32 s)).outcome := by
  show execLenhdr n s = _
  rw [execLenhdr, h]; rfl

theorem exec_tnodeInt_eTree {s : State} (h : s.phase = .eTree) : exec .tnodeInt s = (wrBits [false] s).outcome := by
  show execTnodeInt s = _
  rw [execTnodeInt, h, wrBits_singleton]; rfl

theorem exec_tnodeLeaf_eTree {v : Nat} {s : State} (hv : v < 2 ^ 8) (h : s.phase = .eTree) :
    exec (.tnodeLeaf v) s = (wrBits (true :: bitsMsb 8 v) s).outcome := by
  show execTnodeLeaf v s = _
  rw [execTnodeLeaf, h]
  dsimp only
  rw [writeLeaf_eq, byteBits, BitVec.toNat_ofNat, Nat.mod_eq_of_lt hv]

/-- A token of the tree that is read: DES's test for room, the bits, and what DES makes of them. -/
theorem exec_tnodeInt_dTree {s : State} (h : s.phase = .dTree) :
    exec .tnodeInt s = ((desRoom s).bind fun _ s => (desInt (movePast 1 s)).bind fun whole s =>
      .ok () (treeTokenEnd whole s)).outcome := by
  show execTnodeInt s = _
  rw [execTnodeInt, h]; rfl

theorem exec_tnodeLeaf_dTree {v : Nat} {s : State} (h : s.phase = .dTree) :
    exec (.tnodeLeaf v) s = ((desRoom s).bind fun _ s => (desLeaf (BitVec.ofNat 8 v) (movePast 9 s)).bind fun whole s =>
      .ok () (treeTokenEnd whole s)).outcome := by
  show execTnodeLeaf v s = _
  rw [execTnodeLeaf, h]; rfl

theorem exec_lenhdr_refused {n : Nat} {s : State} (he : s.phase ≠ .eHdr) (hd : s.phase ≠ .dHdr) :
    exec (.lenhdr n) s = .refused .tokenOutOfPhase := by
  show execLenhdr n s = _
  rw [execLenhdr]
  split
  · next h => exact absurd h he
  · next h => exact absurd h hd
  · rfl

theorem exec_tnodeInt_refused {s : State} (he : s.phase ≠ .eTree) (hd : s.phase ≠ .dTree) :
    exec .tnodeInt s = .refused .tokenOutOfPhase := by
  show execTnodeInt s = _
  rw [execTnodeInt]
  split
  · next h => exact absurd h he
  · next h => exact absurd h hd
  · rfl

theorem exec_tnodeLeaf_refused {v : Nat} {s : State} (he : s.phase ≠ .eTree) (hd : s.phase ≠ .dTree) :
    exec (.tnodeLeaf v) s = .refused .tokenOutOfPhase := by
  show execTnodeLeaf v s = _
  rw [execTnodeLeaf]
  split
  · next h => exact absurd h he
  · next h => exact absurd h hd
  · rfl

/-- Settles O38: each token in a phase that neither writes nor reads it. -/
theorem tokenOutOfPhaseIsRefused : Obligations.TokenOutOfPhaseIsRefused := fun _ _ =>
  ⟨exec_lenhdr_refused, fun he hd => ⟨exec_tnodeInt_refused he hd, exec_tnodeLeaf_refused he hd⟩⟩

/-! ### Tokens that are written -/

/-- `bits` have been appended to the output stream, and nothing but the writer's registers and `OBUF` differs. -/
structure Appended (bits : List Bool) (s t : State) : Prop where
  same : t = { s with wacc := t.wacc, wpos := s.wpos + BitVec.ofNat 36 bits.length, olen := t.olen, obuf := t.obuf }
  law : WriterLaw t
  stream : outBits t = outBits s ++ bits
  outside : ∀ a, a < s.olen.toNat ∨ t.olen.toNat ≤ a → Table.get? t.obuf a = Table.get? s.obuf a

/-- WRBITs with room append their bits and change nothing else (rule R124). -/
theorem wrBits_appended {bits : List Bool} {s : State} (hp : s.cfg.wf = true) (hl : WriterLaw s)
    (hr : OutRoom s bits.length) : ∃ t, wrBits bits s = .ok () t ∧ Appended bits s t := by
  obtain ⟨t, ht, hlt, hot, hbits, hw⟩ := wrBits_ok hp hl hr
  have hwpos : t.wpos = s.wpos + BitVec.ofNat 36 bits.length := by
    apply BitVec.eq_of_toNat_eq
    rw [BitVec.toNat_add, BitVec.toNat_ofNat, Nat.add_mod_mod, ← hw, Nat.mod_eq_of_lt t.wpos.isLt]
  have hfin : t.finalized = s.finalized := hlt.running.trans hl.running.symm
  exact ⟨t, ht, hot.same.trans (by rw [hfin, hwpos]), hlt, hbits, hot.outside⟩

/-- Settles O36: the bits of each token are appended. -/
theorem treeTokensAreWritten : Obligations.TreeTokensAreWritten := by
  intro s i bits hph hp hl hr hi
  obtain ⟨t, ht, app⟩ := wrBits_appended hp hl hr
  refine ⟨t, ?_, app.same, app.law, app.stream, app.outside⟩
  obtain ⟨rfl, rfl⟩ | ⟨v, hv, rfl, rfl⟩ := hi
  · rw [exec_tnodeInt_eTree hph, ht, Flow.outcome_ok]
  · rw [exec_tnodeLeaf_eTree hv hph, ht, Flow.outcome_ok]

/-- E_HDR's write of the header, with room for it (rule R204). -/
theorem writeHeader_ok {n : Word} {s : State} (hp : s.cfg.wf = true) (hl : WriterLaw s) (hr : OutRoom s 32) :
    ∃ u, writeHeader n s = .ok () { u with phase := .eTree } ∧ Appended (bitsMsb 32 n.toNat) { s with nhdr := n } u := by
  obtain ⟨u, hu, app⟩ := wrBits_appended (bits := bitsMsb 32 n.toNat) (s := { s with nhdr := n }) hp
    ⟨hl.running, hl.olen, hl.pending⟩ (by rw [length_bitsMsb]; exact hr)
  exact ⟨u, by rw [writeHeader, wrU32_eq, hu, Flow.bind_ok], app⟩

/-- Settles O35: D_HDR's three ends by `headerRead_cases`, E_HDR's write by `writeHeader_ok`. -/
theorem headerTokenIsReadAndWritten : Obligations.HeaderTokenIsReadAndWritten := by
  intro s n hn
  have e : (BitVec.ofNat 32 n).toNat = n := by rw [BitVec.toNat_ofNat, Nat.mod_eq_of_lt hn]
  have hzero : BitVec.ofNat 32 n = 0 ↔ n = 0 := by rw [← BitVec.toNat_inj, e]; rfl
  have hcases := headerRead_cases (BitVec.ofNat 32 n) (movePast 32 s)
  rw [e, hzero] at hcases
  refine ⟨fun hph hcap => ?_, fun hph hcap => ?_, fun hph hp hl hr => ?_⟩
  · rw [exec_lenhdr_dHdr hph]
    obtain ⟨hover, -⟩ | ⟨-, h0, h⟩ | ⟨-, h0, h⟩ := hcases
    · exact absurd hcap (not_le.mpr hover)
    · rw [h, if_pos h0]; rfl
    · rw [h, if_neg (mt hzero.mpr h0)]; rfl
  · rw [exec_lenhdr_dHdr hph]
    obtain ⟨-, h⟩ | ⟨hfits, -⟩ | ⟨hfits, -⟩ := hcases
    · exact ⟨_, by rw [h, Flow.outcome_raised], rfl, rfl, rfl, rfl⟩
    · exact absurd hcap (not_lt.mpr hfits)
    · exact absurd hcap (not_lt.mpr hfits)
  · obtain ⟨u, hu, app⟩ := writeHeader_ok (n := BitVec.ofNat 32 n) hp hl hr
    rw [e] at app
    refine ⟨{ u with phase := .eTree }, by rw [exec_lenhdr_eHdr hph, hu, Flow.outcome_ok], ?_,
      ⟨app.law.running, app.law.olen, app.law.pending⟩, app.stream, app.outside⟩
    exact congrArg (fun u : State => { u with phase := .eTree }) app.same

/-! ### Tokens of the tree that are read -/

theorem desRoom_ok {s : State} (h : nodeFits s.seq s = true) : desRoom s = .ok () s := by rw [desRoom, if_pos h]

theorem desRoom_full {s : State} (h : nodeFits s.seq s = false) : desRoom s = .raised (raise .nodeOverflow s) := by
  rw [desRoom, if_neg (by simp [h])]

/-- The state in which DES has read the token of a leaf and written the leaf (rule R190). -/
def leafTaken (sym : Byte) (s : State) : State :=
  { movePast 9 s with node := Table.set s.node s.seq (.leaf sym 0 s.seq), seq := s.seq + 1 }

/-- TNODE_LEAF with room: the leaf is written, and it goes to the node that waits for it. -/
theorem exec_tnodeLeaf_room {v : Nat} {s : State} (hph : s.phase = .dTree) (hf : nodeFits s.seq s = true) :
    exec (.tnodeLeaf v) s = ((desReturn s.stack s.seq (leafTaken (BitVec.ofNat 8 v) s)).bind fun whole s =>
      .ok () (treeTokenEnd whole s)).outcome := by
  have hf' : nodeFits (movePast 9 s).seq (movePast 9 s) = true := hf
  rw [exec_tnodeLeaf_dTree hph, desRoom_ok hf, Flow.bind_ok, desLeaf, setNode, if_pos hf', Flow.bind_ok]
  rfl

/-- The same, past the nodes that wait for their right child only: each is made before this leaf, so `NODE` has room for
it. -/
theorem exec_tnodeLeaf_full {v : Nat} {s : State} {full rest : List Frame} (hph : s.phase = .dTree)
    (hf : nodeFits s.seq s = true) (hs : s.stack = full ++ rest)
    (hw : ∀ fr ∈ full, fr.left.isSome = true ∧ fr.node < s.seq) :
    exec (.tnodeLeaf v) s =
      let closed := closeFull full s.seq (leafTaken (BitVec.ofNat 8 v) s).node
      ((desReturn rest closed.1 { leafTaken (BitVec.ofNat 8 v) s with node := closed.2 }).bind fun whole s =>
        .ok () (treeTokenEnd whole s)).outcome := by
  rw [exec_tnodeLeaf_room hph hf, hs, desReturn_full fun fr hfr => ?_]
  exact ⟨(hw fr hfr).1, (nodeFits_congr (s := s) rfl fr.node).trans (nodeFits_mono hf (hw fr hfr).2.le)⟩

/-- Settles O37: DES's test for room, and `desReturn` by what waits on `STACK`. -/
theorem treeTokensAreRead : Obligations.TreeTokensAreRead := by
  intro s hph
  refine ⟨fun hf => ?_, fun hf hs v => ?_, fun hf j p rest hs v => ?_, fun hf v full rest done nodes hs hw hc => ?_,
    fun hf v => ⟨?_, ?_⟩⟩
  · rw [exec_tnodeInt_dTree hph, desRoom_ok hf]; rfl
  · rw [exec_tnodeLeaf_room hph hf, hs]; rfl
  · rw [exec_tnodeLeaf_room hph hf, hs]; rfl
  · obtain ⟨rfl, rfl⟩ := Prod.mk.inj hc
    rw [exec_tnodeLeaf_full hph hf hs hw]
    refine ⟨?_, ?_⟩
    · rintro rfl; rfl
    · rintro j p rest' rfl; rfl
  · rw [exec_tnodeInt_dTree hph, desRoom_full hf]; rfl
  · rw [exec_tnodeLeaf_dTree hph, desRoom_full hf]; rfl

end Sys2Proof.Machine
end

section
/-! SUPPORT. The operations of the I/O controller: what RDBIT, RDBYTE and RDU32 return, what WRBIT, WRBYTE, WRU32 and
FINALIZE store, and that what is written is read back (rules R120 to R130). -/

namespace Sys2Proof.Machine

/-! ### Reads -/

/-- Settles O27: `rdBit_ok` and `rdBit_eob`. -/
theorem readBitReturnsTheBitAtRpos : Obligations.ReadBitReturnsTheBitAtRpos := by
  intro s
  refine ⟨fun h => ?_, fun h => ?_⟩
  · show execRdbit s = _
    rw [execRdbit, rdBit_ok h]; rfl
  · show execRdbit s = _
    rw [execRdbit, rdBit_eob h]; rfl

/-- The byte that RDBYTE has assembled, on the 32 result lines (log 10). -/
theorem exec_rdbyte_ok {s : State} (h : InRoom s 8) :
    exec .rdbyte s = .next { movePast 8 s with
      bioOut := .value (BitVec.ofNat 32 (bitsValue (inBits s s.rpos.toNat 8))) } := by
  have hlt : bitsValue (inBits s s.rpos.toNat 8) < 2 ^ 8 := by simpa using bitsValue_lt (inBits s s.rpos.toNat 8)
  show execRdbyte s = _
  rw [execRdbyte, rdByte_ok h, readOutcome, BitVec.setWidth_ofNat_of_le_of_lt (by omega) hlt]

/-- Settles O28: the results by `rdByte_ok` and `rdU32_ok`, the signal by `rdByte_eob` and `rdU32_eob`. -/
theorem readByteAndWordAssembleTheirBits : Obligations.ReadByteAndWordAssembleTheirBits := by
  intro s
  refine ⟨exec_rdbyte_ok, fun h => ?_, fun hc hr => ⟨fun h => ?_, fun h => ?_⟩⟩
  · show execRdu32 s = _
    rw [execRdu32, rdU32_ok h]; rfl
  · show execRdbyte s = _
    rw [execRdbyte, rdByte_eob hc hr h]; rfl
  · show execRdu32 s = _
    rw [execRdu32, rdU32_eob hc hr h]; rfl

/-! ### What each writing operation writes -/

theorem exec_wrbit (b : Bool) (s : State) : exec (.wrbit b) s = (wrBit b s).outcome := rfl

theorem exec_wrbyte (v : Nat) (s : State) :
    exec (.wrbyte v) s = (wrBits (bitsMsb 8 (BitVec.ofNat 8 v).toNat) s).outcome := rfl

theorem exec_wru32 (v : Nat) (s : State) :
    exec (.wru32 v) s = (wrBits (bitsMsb 32 (BitVec.ofNat 32 v).toNat) s).outcome := by
  rw [← wrU32_eq]; rfl

theorem exec_finalize (s : State) : exec .finalize s = (finalizeOp s).outcome := rfl

/-- Settles O30: each of the three is WRBITs of its bits (`wrBits_appended`). -/
theorem writesAppendTheirBits : Obligations.WritesAppendTheirBits := by
  intro s i bits hp hl hr hi
  obtain ⟨t, ht, app⟩ := wrBits_appended hp hl hr
  refine ⟨t, ?_, app.same, app.law, app.stream, app.outside⟩
  obtain ⟨b, rfl, rfl⟩ | ⟨v, hv, rfl, rfl⟩ | ⟨v, hv, rfl, rfl⟩ := hi
  · rw [exec_wrbit, ← wrBits_singleton, ht, Flow.outcome_ok]
  · rw [exec_wrbyte, BitVec.toNat_ofNat, Nat.mod_eq_of_lt hv, ht, Flow.outcome_ok]
  · rw [exec_wru32, BitVec.toNat_ofNat, Nat.mod_eq_of_lt hv, ht, Flow.outcome_ok]

/-- The first of the bits is refused, so all of them are (log 12). -/
theorem wrBits_finalized {b : Bool} {bs : List Bool} {s : State} (h : s.finalized = true) :
    wrBits (b :: bs) s = .refused .writeAfterFinalize := by
  rw [wrBits, wrBit_finalized h, Flow.bind_refused]

/-- Settles O33: `wrBits_finalized`. -/
theorem writeAfterFinalizeIsRefused : Obligations.WriteAfterFinalizeIsRefused := by
  intro s h
  refine ⟨fun b => ?_, fun v => ?_, fun v => ?_⟩
  · rw [exec_wrbit, wrBit_finalized h, Flow.outcome_refused]
  · rw [exec_wrbyte, bitsMsb, wrBits_finalized h, Flow.outcome_refused]
  · rw [exec_wru32, bitsMsb, wrBits_finalized h, Flow.outcome_refused]

/-! ### One bit -/

/-- `WACC` takes the bit in on the right, modulo 256 (rule R124). -/
theorem pended_eq {b : Bool} {acc : Byte} {s : State} (h : acc.toNat = (2 * s.wacc.toNat + b.toNat) % 256) :
    pended b s = { s with wacc := acc, wpos := s.wpos + 1 } := by
  have e : 2 * s.wacc + BitVec.ofNat 8 b.toNat = acc := by
    apply BitVec.eq_of_toNat_eq
    rw [h, BitVec.toNat_add, BitVec.toNat_mul, BitVec.toNat_ofNat]
    simp
  rw [pended, e]

/-- A bit that leaves the byte incomplete. -/
theorem wrBit_incomplete {b : Bool} {s : State} (hf : s.finalized = false) (h : s.wpos.toNat % 8 ≠ 7) :
    wrBit b s = .ok () (pended b s) := by
  have hm : (pended b s).wpos.toNat % 8 = (s.wpos.toNat + 1) % 8 := wpos_succ_mod s
  rw [wrBit_running hf, if_neg (by omega)]

/-- The eighth bit of a byte. -/
theorem wrBit_eighth {b : Bool} {s : State} (hf : s.finalized = false) (h : s.wpos.toNat % 8 = 7) :
    wrBit b s = storeByte (pended b s).wacc (pended b s) := by
  have hm : (pended b s).wpos.toNat % 8 = (s.wpos.toNat + 1) % 8 := wpos_succ_mod s
  rw [wrBit_running hf, if_pos (by omega)]

/-- Settles O29: whether the bit is the eighth, and then whether `OBUF` has room; the law is `wrBit_ok`. -/
theorem writeBitCompletesBytes : Obligations.WriteBitCompletesBytes := by
  intro s b acc hp hf hacc
  have hpend := pended_eq hacc
  refine ⟨fun h7 => ?_, fun h7 hroom => ?_, fun h7 hfull => ?_, fun hl hr => ?_⟩
  · rw [exec_wrbit, wrBit_incomplete hf h7, hpend, Flow.outcome_ok]
  · refine ⟨stored acc { s with wacc := acc, wpos := s.wpos + 1 }, ?_, rfl, Table.get?_set_self _ _ _,
      fun a ha => Table.get?_set_of_ne _ _ (Ne.symm ha)⟩
    rw [exec_wrbit, wrBit_eighth hf h7, storeByte_ok (s := pended b s) hroom, hpend, Flow.outcome_ok]
  · rw [exec_wrbit, wrBit_eighth hf h7, storeByte_full (s := pended b s) hfull, hpend, Flow.outcome_raised]
  · obtain ⟨t, ht, hlt, -, hbits, -⟩ := wrBit_ok (b := b) hp hl hr
    exact ⟨t, by rw [exec_wrbit, ht, Flow.outcome_ok], hlt, hbits⟩

/-! ### FINALIZE -/

/-- The pending bits with zeros on the right (rule R127). -/
theorem wacc_shiftLeft (v : Byte) (k : Nat) : v <<< k = BitVec.ofNat 8 (v.toNat * 2 ^ k % 256) := by
  apply BitVec.eq_of_toNat_eq
  rw [BitVec.toNat_shiftLeft, Nat.shiftLeft_eq, BitVec.toNat_ofNat, Nat.mod_mod]

/-- With room, FINALIZE stores the byte of the pending bits. -/
theorem finalizeOp_stored {s : State} (h0 : s.wpos.toNat % 8 ≠ 0) (hroom : s.olen.toNat < s.cfg.obufCap) :
    finalizeOp s = .ok () (stored (s.wacc <<< (8 - s.wpos.toNat % 8)) { s with finalized := true }) := by
  rw [finalizeOp_pending h0, storeByte_ok (s := { s with finalized := true }) hroom]

/-- Without room, FINALIZE with pending bits enters the error. -/
theorem finalizeOp_full {s : State} (h0 : s.wpos.toNat % 8 ≠ 0) (hfull : s.cfg.obufCap ≤ s.olen.toNat) :
    finalizeOp s = .raised (raise .encObufFull { s with finalized := true }) := by
  rw [finalizeOp_pending h0, storeByte_full (s := { s with finalized := true }) hfull]

/-- Settles O31: `finalizeOp_aligned`, `finalizeOp_full` and `finalizeOp_stored` by the pending bits and the room;
`finalizeOp_ok` for the law. -/
theorem finalizePadsTheLastByte : Obligations.FinalizePadsTheLastByte := by
  intro s hp
  refine ⟨fun h0 => ?_, fun h0 hfull => ?_, fun h0 hroom => ?_, fun hl hr => ?_⟩
  · rw [exec_finalize, finalizeOp_aligned h0, Flow.outcome_ok]
  · rw [exec_finalize, finalizeOp_full h0 hfull, Flow.outcome_raised]
  · refine ⟨stored (s.wacc <<< (8 - s.wpos.toNat % 8)) { s with finalized := true }, ?_, rfl, ?_,
      fun a ha => Table.get?_set_of_ne _ _ (Ne.symm ha)⟩
    · rw [exec_finalize, finalizeOp_stored h0 hroom, Flow.outcome_ok]
    · rw [← wacc_shiftLeft]; exact Table.get?_set_self _ _ _
  · obtain ⟨t, ht, -, -, -, holen, -⟩ := finalizeOp_ok hp hl hr
    refine ⟨t, ?_, holen⟩
    rw [exec_finalize, ht, Flow.outcome_ok]

/-- Settles O32: `wrBit_full` and `finalizeOp_full`. -/
theorem fullOutputRaisesOverflow : Obligations.FullOutputRaisesOverflow := by
  intro s hp hl hfull
  have hdiv : s.wpos.toNat / 8 = s.cfg.obufCap := hl.olen.symm.trans hfull
  refine ⟨fun b h7 => ?_, fun h0 => ?_⟩
  · obtain ⟨e, hw⟩ := wrBit_full (b := b) hp hl (by simp only [OutRoom]; omega) (by simp only [OutRoom]; omega)
    exact ⟨raise .encObufFull (pended b s), by rw [exec_wrbit, e, Flow.outcome_raised], rfl, rfl, rfl, hw⟩
  · refine ⟨raise .encObufFull { s with finalized := true }, ?_, rfl, rfl, rfl, rfl, hdiv⟩
    rw [exec_finalize, finalizeOp_full h0 hfull.ge, Flow.outcome_raised]

/-! ### What is written is read back -/

/-- Every byte of the output is recorded, so that a copy of `OBUF` in `IBUF` reads as the output. -/
def OutRecorded (s : State) : Prop := ∀ a < s.olen.toNat, ∃ v, Table.get? s.obuf a = some v

theorem succ_olen_le (s : State) : (s.olen + 1).toNat ≤ s.olen.toNat + 1 := by
  rw [BitVec.toNat_add]; exact Nat.mod_le _ _

/-- The stored byte is recorded, and those below it stay so. -/
theorem storeByte_recorded {v : Byte} {s : State} (h : OutRecorded s) :
    (storeByte v s).Post (fun _ => OutRecorded) Never fun _ => True := by
  rw [storeByte]
  split_ifs
  · trivial
  · intro a ha
    have hle := succ_olen_le s
    have ha' : a < (s.olen + 1).toNat := ha
    show ∃ w, Table.get? (Table.set s.obuf s.olen.toNat v) a = some w
    by_cases hlast : s.olen.toNat = a
    · exact ⟨v, by rw [← hlast, Table.get?_set_self]⟩
    · rw [Table.get?_set_of_ne _ _ hlast]
      exact h a (by omega)

theorem wrBit_recorded {b : Bool} {s : State} (h : OutRecorded s) :
    (wrBit b s).Post (fun _ => OutRecorded) Never fun _ => True := by
  rcases Bool.eq_false_or_eq_true s.finalized with hf | hf
  · rw [wrBit_finalized hf]; trivial
  · rw [wrBit_running hf]
    split_ifs
    · exact storeByte_recorded (s := pended b s) h
    · exact h

theorem wrBits_recorded {bs : List Bool} {s : State} (h : OutRecorded s) :
    (wrBits bs s).Post (fun _ => OutRecorded) Never fun _ => True := by
  induction bs generalizing s with
  | nil => exact h
  | cons b bs ih => exact (wrBit_recorded h).bind fun _ _ ht => ih ht

theorem finalizeOp_recorded {s : State} (h : OutRecorded s) :
    (finalizeOp s).Post (fun _ => OutRecorded) Never fun _ => True := by
  by_cases h0 : s.wpos.toNat % 8 = 0
  · rw [finalizeOp_aligned h0]; exact h
  · rw [finalizeOp_pending h0]; exact storeByte_recorded (s := { s with finalized := true }) h

theorem inBits_eq_map (s : State) (p n : Nat) : inBits s p n = (List.range n).map fun k => inBit s (p + k) := by
  induction n generalizing p with
  | zero => rfl
  | succ n ih =>
    rw [inBits, ih, List.range_succ_eq_map]
    simp [Nat.add_assoc, Nat.add_comm 1]

/-- The eight input bits of an address are the bits of its byte (rule R62). -/
theorem inBits_byte (s : State) (a : Nat) : inBits s (8 * a) 8 = byteBits (ibufByte s a) := by
  rw [inBits_eq_map, byteBits_eq_streamBits]
  refine List.map_congr_left fun k hk => ?_
  have hk8 : k < 8 := List.mem_range.mp hk
  rw [inBit, streamBitOf, streamBitOf, show (8 * a + k) / 8 = a by omega, show (8 * a + k) % 8 = k % 8 by omega]

/-- The bits of the first `n` input bytes. -/
theorem inBits_bytes (s : State) (n : Nat) :
    inBits s 0 (8 * n) = ((List.range n).map (ibufByte s)).flatMap byteBits := by
  induction n with
  | zero => rfl
  | succ n ih =>
    rw [Nat.mul_succ, inBits_add, ih, Nat.zero_add, inBits_byte, List.range_succ, List.map_append, List.flatMap_append]
    simp

/-- The output of `t`, placed in `IBUF`, reads as the bits of its bytes. -/
theorem inBits_of_output {t u : State} (ho : OutRecorded t) (hb : u.ibuf = t.obuf) :
    inBits u 0 (8 * t.olen.toNat) = (outBytes t).flatMap byteBits := by
  rw [inBits_bytes, outBytes]
  congr 1
  refine List.map_congr_left fun a ha => ?_
  obtain ⟨v, hv⟩ := ho a (List.mem_range.mp ha)
  rw [ibufByte, obufByte, hb, hv, Option.getD_some, Option.getD_some]

/-- What FINALIZE leaves after WRBITs from `WPOS` = 0: the bytes of the bits and of the padding, all of them recorded
(rules R124, R127). -/
theorem wrBits_finalizeOp_ok {bits : List Bool} {s : State} (hp : s.cfg.wf = true) (hl : WriterLaw s) (h0 : s.wpos = 0)
    (hr : OutRoom s (bits.length + 7)) :
    ∃ t, (wrBits bits s).bind (fun _ s => finalizeOp s) = .ok () t ∧ OutRecorded t ∧
      t.olen.toNat = (bits.length + 7) / 8 ∧
      (outBytes t).flatMap byteBits = bits ++ List.replicate (8 * t.olen.toNat - bits.length) false := by
  have hw0 : s.wpos.toNat = 0 := by rw [h0]; rfl
  have ho0 : s.olen.toNat = 0 := by rw [hl.olen, hw0]
  have hempty : outBits s = [] := by simp [outBits, outBytes, ho0, hw0, bitsMsb]
  obtain ⟨w, hw, hlw, how, hbits, hwpos⟩ := wrBits_ok hp hl (hr.mono (Nat.le_add_right _ 7))
  rw [hw0, Nat.zero_add] at hwpos
  have hrw : OutRoom w 7 := by
    simp only [OutRoom, hw0, Nat.zero_add, hwpos, how.cfg] at hr ⊢
    exact hr
  obtain ⟨t, ht, -, -, -, holen, hbytes⟩ := finalizeOp_ok (how.cfg.symm ▸ hp) hlw hrw
  have hrecorded : OutRecorded t := by
    have hs : OutRecorded s := fun a ha => absurd ha (by omega)
    have postW := wrBits_recorded (bs := bits) hs
    rw [hw] at postW
    have postT := finalizeOp_recorded postW
    rwa [ht] at postT
  rw [hwpos] at holen hbytes
  rw [hbits, hempty, List.nil_append] at hbytes
  exact ⟨t, by rw [hw, Flow.bind_ok, ht], hrecorded, holen, hbytes⟩

/-- Settles O34: the input bits are the written bits and the padding (`wrBits_finalizeOp_ok`, `inBits_of_output`). -/
theorem writtenBitsReadBack : Obligations.WrittenBitsReadBack := by
  intro s bits hp hl h0 hr
  obtain ⟨t, ht, hrecorded, holen, hbytes⟩ := wrBits_finalizeOp_ok hp hl h0 hr
  refine ⟨t, ht, fun u hibuf hilen hrpos hcap => ?_⟩
  rw [← inBits_of_output hrecorded hibuf] at hbytes
  rw [← hilen] at hbytes holen
  have hr0 : u.rpos.toNat = 0 := by rw [hrpos]; rfl
  have hsplit : inBits u 0 bits.length ++ inBits u bits.length (8 * u.ilen.toNat - bits.length) =
      bits ++ List.replicate (8 * u.ilen.toNat - bits.length) false := by
    rw [← hbytes, ← Nat.add_sub_cancel' (show bits.length ≤ 8 * u.ilen.toNat by omega), inBits_add, Nat.zero_add,
      Nat.add_sub_cancel_left]
  obtain ⟨hread, hpad⟩ := List.append_inj hsplit (length_inBits u 0 bits.length)
  refine ⟨?_, hpad, by omega⟩
  rw [rdBits_ok ⟨by omega, hcap⟩, hr0, hread, movePast, hrpos, zero_add]

end Sys2Proof.Machine
end

section
/-! SUPPORT. What each operation stores in `OBUF`: nothing, or the bytes from the old `OLEN` up to the new one (rules R120
to R127, R185, R204, R207, R229). -/

namespace Sys2Proof.Machine

/-! ### Operations that leave the output alone -/

/-- `OLEN` and `OBUF` are as before. -/
structure OutputKept (s t : State) : Prop where
  olen : t.olen = s.olen := by rfl
  obuf : t.obuf = s.obuf := by rfl

theorem OnlyRpos.outputKept {s t : State} (h : OnlyRpos s t) : OutputKept s t := by rw [h.same]; exact {}

theorem DesStep.outputKept {s t : State} (h : DesStep s t) : OutputKept s t := by rw [h.same]; exact {}

theorem Built.outputKept {s t : State} (h : Built s t) : OutputKept s t := by rw [h.same]; exact {}

theorem headerRead_outputKept {n : Word} {s t : State} (h : (headerRead n s).outcome = .next t)
    (ht : t.phase ≠ .error) : OutputKept s t := by
  rcases headerRead_next h with ⟨-, rfl⟩ | ⟨-, -, rfl⟩ | ⟨-, -, rfl⟩
  · exact absurd rfl ht
  · exact {}
  · exact {}

/-- The phases that write nothing. -/
theorem exec_outputKept {i : Instr} {s t : State} (hi : i ∈ [.eCount, .eBuild, .eGen, .dHdr, .dTree])
    (h : exec i s = .next t) (ht : t.phase ≠ .error) : OutputKept s t := by
  simp only [List.mem_cons, List.not_mem_nil, or_false] at hi
  obtain rfl | rfl | rfl | rfl | rfl := hi
  · rw [(execECount_next h).1]; exact {}
  · obtain ⟨u, hu, rfl | rfl⟩ := execEBuild_next h
    · exact { olen := hu.outputKept.olen, obuf := hu.outputKept.obuf }
    · exact absurd rfl ht
  · obtain ⟨u, hu, -, rfl | rfl | rfl⟩ := execEGen_next h
    · rw [hu]; exact {}
    · exact absurd rfl ht
    · exact absurd rfl ht
  · obtain ⟨u, hu, rfl⟩ | ⟨u, n, hu, hh⟩ := execDHdr_next h
    · exact absurd rfl ht
    · have hk := headerRead_outputKept hh ht
      exact ⟨hk.olen.trans hu.outputKept.olen, hk.obuf.trans hu.outputKept.obuf⟩
  · obtain ⟨u, hu, -, rfl⟩ | ⟨u, c, -, -, rfl⟩ := execDTree_next h
    · exact { olen := hu.outputKept.olen, obuf := hu.outputKept.obuf }
    · exact absurd rfl ht

/-- The next state of each reading operation. -/
theorem exec_read_next {i : Instr} {s t : State} (hi : i ∈ [.rdbit, .rdbyte, .rdu32]) (h : exec i s = .next t) :
    ∃ u o, OnlyRpos s u ∧ t = { u with bioOut := o } := by
  simp only [List.mem_cons, List.not_mem_nil, or_false] at hi
  obtain rfl | rfl | rfl := hi
  · exact execRdbit_next h
  · exact execRdbyte_next h
  · exact execRdu32_next h

/-- Settles O41: `exec_read_next`. -/
theorem readsChangeOnlyRpos : Obligations.ReadsChangeOnlyRpos := by
  intro i s t hi h
  obtain ⟨u, o, hu, rfl⟩ := exec_read_next hi h
  have hibuf : u.ibuf = s.ibuf := by rw [hu.same]
  have hepoch : u.epoch = s.epoch := by rw [hu.same]
  refine ⟨congrArg (fun u : State => { u with bioOut := o }) hu.same, hu.forward, hu.inside, fun a => ⟨?_, ?_⟩⟩
  · exact congrArg (Table.get? · a) hu.outputKept.obuf
  · rw [ibufByte, ibufByte]
    show (Table.get? u.ibuf a).getD (Config.ibufFill u.epoch a) = _
    rw [hibuf, hepoch]

/-! ### Operations that write the output -/

/-- `OLEN` has not gone back, and every byte outside the addresses from the old one up to the new one is as before. -/
structure StoredFrom (s t : State) : Prop where
  forward : s.olen.toNat ≤ t.olen.toNat
  outside : ∀ a, a < s.olen.toNat ∨ t.olen.toNat ≤ a → Table.get? t.obuf a = Table.get? s.obuf a

theorem OutputKept.storedFrom {s t : State} (h : OutputKept s t) : StoredFrom s t :=
  ⟨by rw [h.olen], fun _ _ => by rw [h.obuf]⟩

theorem OnlyOut.storedFrom {s t : State} (h : OnlyOut s t) : StoredFrom s t := ⟨h.forward, h.outside⟩

theorem Walked.storedFrom {s t : State} (h : Walked s t) : StoredFrom s t := ⟨h.forward, h.outside⟩

/-- A tree token, written or read. -/
theorem treeToken_storedFrom {s t : State} {n : Nat} (ht : t.phase ≠ .error)
    (h : (s.phase = .eTree ∧ (OnlyOut s t ∨ FullAfter s t)) ∨
      (s.phase = .dTree ∧ ((t = raise .nodeOverflow s) ∨ (∃ u, DesStep (movePast n s) u ∧ t = u) ∨
        (∃ u, DesStep (movePast n s) u ∧ u.stack = [] ∧ t = { u with phase := .dWalk })))) : StoredFrom s t := by
  have read : ∀ {u}, DesStep (movePast n s) u → OutputKept s u := fun hu =>
    ⟨hu.outputKept.olen, hu.outputKept.obuf⟩
  obtain ⟨-, hu | hf⟩ | ⟨-, rfl | ⟨u, hu, rfl⟩ | ⟨u, hu, -, rfl⟩⟩ := h
  · exact hu.storedFrom
  · exact absurd hf.phase ht
  · exact absurd rfl ht
  · exact (read hu).storedFrom
  · exact OutputKept.storedFrom { olen := (read hu).olen, obuf := (read hu).obuf }

/-- No operation but a command write stores a byte outside the addresses from the old `OLEN` up to the new one. -/
theorem exec_storedFrom {i : Instr} {s t : State} (hp : s.cfg.wf = true)
    (hi : ∀ f c b, i ≠ .encode f c b ∧ i ≠ .decode f c b) (h : exec i s = .next t) (ht : t.phase ≠ .error) :
    StoredFrom s t := by
  have written : OnlyOut s t ∨ FullAfter s t → StoredFrom s t := fun h =>
    h.elim OnlyOut.storedFrom fun hf => absurd hf.phase ht
  have read : (∃ u o, OnlyRpos s u ∧ t = { u with bioOut := o }) → StoredFrom s t := by
    rintro ⟨u, o, hu, rfl⟩
    exact OutputKept.storedFrom { olen := hu.outputKept.olen, obuf := hu.outputKept.obuf }
  cases i with
  | encode f c b => exact absurd rfl (hi f c b).1
  | decode f c b => exact absurd rfl (hi f c b).2
  | eCount | eBuild | eGen | dHdr | dTree => exact (exec_outputKept (by simp) h ht).storedFrom
  | eHdr =>
    rcases execEHdr_next hp h with ⟨u, hu, rfl⟩ | hf
    · exact ⟨hu.forward, hu.outside⟩
    · exact absurd hf.phase ht
  | eTree =>
    rcases execETree_next hp h with ⟨u, hu, rfl⟩ | ⟨fs, hf⟩
    · exact ⟨hu.forward, hu.outside⟩
    · exact absurd hf.phase ht
  | ePack =>
    rcases execEPack_next hp h with ⟨u, hu, -, rfl⟩ | ⟨i, hf⟩
    · exact ⟨hu.forward, hu.outside⟩
    · exact absurd hf.phase ht
  | eFin =>
    rcases execEFin_next hp h with ⟨u, hu, rfl⟩ | hf
    · exact ⟨hu.forward, hu.outside⟩
    · exact absurd hf.phase ht
  | dWalk =>
    rcases execDWalk_next hp h with ⟨u, hu, -, rfl⟩ | ⟨u, -, v, -, ⟨-, rfl⟩ | ⟨-, -, rfl⟩⟩
    · exact ⟨hu.forward, hu.outside⟩
    · exact absurd rfl ht
    · exact absurd rfl ht
  | rdbit => exact read (execRdbit_next h)
  | rdbyte => exact read (execRdbyte_next h)
  | rdu32 => exact read (execRdu32_next h)
  | wrbit b => exact written (execWrbit_next hp h)
  | wrbyte v => exact written (execWrbyte_next hp h)
  | wru32 v => exact written (execWru32_next hp h)
  | finalize => exact written (execFinalize_next hp h)
  | lenhdr n =>
    rcases execLenhdr_next hp h with ⟨-, ⟨u, hu, rfl⟩ | hf⟩ | ⟨-, hh⟩
    · exact ⟨hu.forward, hu.outside⟩
    · exact absurd hf.phase ht
    · have hk := headerRead_outputKept hh ht
      exact OutputKept.storedFrom ⟨hk.olen, hk.obuf⟩
  | tnodeInt => exact treeToken_storedFrom ht (execTnodeInt_next hp h)
  | tnodeLeaf v => exact treeToken_storedFrom ht (execTnodeLeaf_next hp h)

/-! ### Operations that store one byte at most -/

/-- `OLEN` has grown by one byte at most. -/
def OneByteMore (s t : State) : Prop := t.olen.toNat ≤ s.olen.toNat + 1

/-- The error entry sets `OLEN` to 0. -/
theorem storeByte_oneByteMore (v : Byte) (s : State) :
    (storeByte v s).Post (fun _ => OneByteMore s) Never (OneByteMore s) := by
  rw [storeByte]
  split_ifs
  · exact Nat.zero_le _
  · exact succ_olen_le s

theorem wrBit_oneByteMore (b : Bool) (s : State) :
    (wrBit b s).Post (fun _ => OneByteMore s) Never (OneByteMore s) := by
  rcases Bool.eq_false_or_eq_true s.finalized with hf | hf
  · rw [wrBit_finalized hf]; trivial
  · rw [wrBit_running hf]
    split_ifs
    · exact storeByte_oneByteMore _ (pended b s)
    · exact Nat.le_succ _

theorem finalizeOp_oneByteMore (s : State) :
    (finalizeOp s).Post (fun _ => OneByteMore s) Never (OneByteMore s) := by
  by_cases h0 : s.wpos.toNat % 8 = 0
  · rw [finalizeOp_aligned h0]; exact Nat.le_succ _
  · rw [finalizeOp_pending h0]; exact storeByte_oneByteMore _ { s with finalized := true }

/-- WRBIT, FINALIZE and E_FIN (rules R124, R127, R209). -/
theorem exec_oneByteMore {i : Instr} {s t : State} (hi : i ∈ [.eFin, .finalize] ∨ ∃ b, i = .wrbit b)
    (h : exec i s = .next t) : OneByteMore s t := by
  simp only [List.mem_cons, List.not_mem_nil, or_false] at hi
  obtain (rfl | rfl) | ⟨b, rfl⟩ := hi
  · have post : ((finalizeOp s).bind fun _ s => Flow.ok () (finishEncode s)).Post (fun _ => OneByteMore s)
        Never (OneByteMore s) := (finalizeOp_oneByteMore s).bind fun _ _ hu => hu
    exact (post.of_outcome h).elim id id
  · exact ((finalizeOp_oneByteMore s).of_outcome h).elim id id
  · exact ((wrBit_oneByteMore b s).of_outcome h).elim id id

/-- Settles O42: `exec_storedFrom`, `exec_oneByteMore` and `exec_outputKept`. -/
theorem writesStoreOnlyFromOlenOn : Obligations.WritesStoreOnlyFromOlenOn := by
  intro i s t hp _ h ht
  refine ⟨fun hi => ?_, fun hi => exec_oneByteMore hi h, fun hi => ?_⟩
  · have hcmd : ∀ f c b, i ≠ .encode f c b ∧ i ≠ .decode f c b := by
      intro f c b
      constructor <;> rintro rfl <;> simp at hi
    have hk := exec_storedFrom hp hcmd h ht
    exact ⟨hk.forward, hk.outside⟩
  · have hk := exec_outputKept hi h ht
    exact ⟨hk.olen, fun a => by rw [hk.obuf]⟩

end Sys2Proof.Machine
end

section
/-! SUPPORT. What E_COUNT leaves in `FREQ` (rules R141, R142). -/

namespace Sys2Proof.Machine

/-- The state with `FREQ` all 0 and `IIDX` 0, where the loop of E_COUNT begins (rule R141). -/
def clearedCounts (s : State) : State := { s with freq := Vector.replicate 256 0, iidx := 0 }

theorem freqAt_clearedCounts (s : State) (sym : Byte) : freqAt (clearedCounts s) sym = 0 := by
  simp [freqAt, clearedCounts]

theorem exec_eCount (s : State) :
    exec .eCount s =
      ((countLoop s.ilen.toNat (clearedCounts s)).bind fun _ t => .ok () { t with phase := .eBuild }).outcome := rfl

/-- Settles O11: from counts that are 0, the loop counts what `countLoop_ok` says, the whole input. -/
theorem countPhaseCountsEverySymbol : Obligations.CountPhaseCountsEverySymbol := by
  intro s hc
  have hzero : ∀ sym, (freqAt (clearedCounts s) sym).toNat = 0 := fun sym => by
    rw [freqAt_clearedCounts]; rfl
  obtain ⟨t, hrun, hsame, hcount⟩ := countLoop_ok (s := clearedCounts s) (n := s.ilen.toNat) hc
    (Nat.zero_add _) fun sym => (hzero sym).le
  refine ⟨{ t with phase := .eBuild }, by rw [exec_eCount, hrun, Flow.bind_ok, Flow.outcome_ok], ?_, fun sym => ?_⟩
  · rw [hsame]; rfl
  · rw [List.range_eq_range']
    calc (freqAt t sym).toNat
        = (freqAt (clearedCounts s) sym).toNat +
            ((List.range' 0 s.ilen.toNat).filter fun i => ibufByte s i == sym).length := hcount sym
      _ = _ := by rw [hzero, Nat.zero_add]

end Sys2Proof.Machine
end

section
/-! SUPPORT. The order of the merge and the tree that E_BUILD leaves (rules R151 to R159). -/

namespace Sys2Proof.Machine

/-! ### The order and the removal -/

theorem Before.irrefl (a : Node) : ¬ Before a a := by
  rintro (h | ⟨-, h⟩)
  · exact BitVec.lt_irrefl _ h
  · exact Nat.lt_irrefl _ h

/-- Settles O13: among the nodes of `P` the order is `Before`, which is irreflexive, total and transitive. -/
theorem mergeOrderIsCountThenSequence : Obligations.MergeOrderIsCountThenSequence := by
  intro P hseq hleaf
  have order : ∀ a b, P a → P b → (nodeBefore a b = true ↔ Before a b) := fun a b ha hb =>
    nodeBefore_iff fun x y cx cy qx qy ea eb => hleaf x y cx cy qx qy (ea ▸ ha) (eb ▸ hb)
  refine ⟨order, fun a ha => ?_, fun a b ha hb hne => ?_, fun a b c ha hb hc hab hbc => ?_⟩
  · exact Bool.eq_false_iff.mpr fun h => Before.irrefl a ((order a a ha ha).mp h)
  · rw [order a b ha hb, order b a hb ha]
    exact Before.total (hseq a b ha hb hne)
  · rw [order a b ha hb] at hab
    rw [order b c hb hc] at hbc
    exact (order a c ha hc).mpr (hab.trans hbc)

/-- Where each member has its index as `SEQ` (rule R22), it is enough that the leaves are numbered in symbol order by
their indices. -/
theorem Ordered.of_index_order {nodes : List (Nat × Node)} {is : List Nat}
    (hentry : ∀ i ∈ is, ∃ n, Table.get? nodes i = some n ∧ n.seq = i)
    (hleaf : ∀ i ∈ is, ∀ j ∈ is, ∀ x y cx cy, Table.get? nodes i = some (.leaf x cx i) →
      Table.get? nodes j = some (.leaf y cy j) → (x < y ↔ i < j)) : Ordered nodes is := by
  have seq_eq : ∀ i ∈ is, ∀ n, Table.get? nodes i = some n → n.seq = i := fun i hi n hn => by
    obtain ⟨m, hm, hq⟩ := hentry i hi
    cases hn.symm.trans hm
    exact hq
  refine ⟨hentry, fun i hi j hj n m hn hm x y cx cy qx qy ea eb => ?_⟩
  subst ea eb
  obtain rfl : qx = i := seq_eq i hi _ hn
  obtain rfl : qy = j := seq_eq j hj _ hm
  exact hleaf _ hi _ hj x y cx cy hn hm

/-- Settles O14: what `removeLeast_ok` says in terms of `Before`, in terms of `nodeBefore`. -/
theorem removalTakesTheLeastMember : Obligations.RemovalTakesTheLeastMember := by
  intro s hne _ hentry hleaf
  have ho := Ordered.of_index_order hentry hleaf
  obtain ⟨i, n, hrun, hi, hn, hmin⟩ := removeLeast_ok hne ho
  exact ⟨i, n, hrun, hi, hn, fun j hj hji m hm =>
    (nodeBefore_iff (ho.leaves i hi j hj n m hn hm)).mpr (hmin j hj hji m hm)⟩

/-! ### The tree -/

/-- With at most one member left, that one, if any, is the root (rules R155, R156). -/
theorem takeRoot_of_length_le_one {s : State} (h : s.pq.length ≤ 1) :
    takeRoot s = { s with root := s.pq.head?, pq := [] } := by
  obtain ⟨r, hr⟩ | hnil : (∃ r, s.pq = [r]) ∨ s.pq = [] := by
    rcases Nat.le_one_iff_eq_zero_or_eq_one.mp h with h | h
    · exact .inr (List.length_eq_zero_iff.mp h)
    · exact .inl (List.length_eq_one_iff.mp h)
  · simp [takeRoot, hr]
  · have htake : takeRoot s = { s with root := none } := by rw [takeRoot, hnil]
    rw [htake, hnil, List.head?_nil]

theorem exec_eBuild (s : State) :
    exec .eBuild s = (((seedLoop allSymbols s).bind fun _ s => mergeLoop s.pq.length s).bind
      fun _ t => checkCounts (takeRoot t)).outcome := by
  rw [Flow.bind_assoc]; rfl

/-- E_BUILD completes with the forest of `build_ok`, and its only member, if any, is the root. -/
theorem exec_eBuild_ok {s : State} (hwf : s.cfg.wf = true) (hseq : s.seq = 0) (hpq : s.pq = [])
    (hnode : s.node = []) :
    ∃ t, exec .eBuild s = .next { t with root := t.pq.head?, pq := [], phase := .eGen } ∧
      Forest s (presentSymbols s) t ∧ t.pq.length ≤ 1 ∧ (presentSymbols s ≠ [] → t.pq ≠ []) := by
  obtain ⟨t, hrun, hforest, hone, hne⟩ := build_ok hwf hseq hpq hnode
  refine ⟨t, ?_, hforest, hone, hne⟩
  rw [exec_eBuild, hrun, Flow.bind_ok, takeRoot_of_length_le_one hone, hforest.checkCounts, Flow.outcome_ok]

/-- A forest over no symbol is empty. -/
theorem Forest.eq_empty {s₀ s : State} (h : Forest s₀ [] s) : s.seq = 0 ∧ s.pq = [] ∧ s.node = [] := by
  have hsize : s.seq + s.pq.length = 0 := h.size
  have hlen := h.length
  exact ⟨by omega, List.length_eq_zero_iff.mp (by omega), List.length_eq_zero_iff.mp (by omega)⟩

/-- The one tree that is left over `k` symbols has `2k - 1` nodes, and its root is the last of them: of one symbol its
leaf, of more the internal node made last (rule R155). -/
theorem Forest.pq_eq_last {s₀ s : State} {syms : List Byte} (h : Forest s₀ syms s) (hone : s.pq.length ≤ 1)
    (hne : s.pq ≠ []) : s.seq = 2 * syms.length - 1 ∧ s.pq = [2 * syms.length - 2] := by
  obtain ⟨r, hr⟩ : ∃ r, s.pq = [r] :=
    List.length_eq_one_iff.mp (le_antisymm hone (List.length_pos_iff.mpr hne))
  have hsize := h.size
  have hbound : r < s.seq := h.bound r (by simp [hr])
  rw [hr, List.length_singleton] at hsize
  have hroot : r = s.seq - 1 := by
    by_cases hk : syms.length < s.seq
    · have hlast := h.last hk
      rw [hr] at hlast
      exact (List.mem_singleton.mp hlast).symm
    · omega
  exact ⟨by omega, by rw [hr, hroot, show s.seq - 1 = 2 * syms.length - 2 by omega]⟩

/-- The one member that is left is the root of a tree whose leaves are the seeded symbols. -/
theorem Forest.tree_of_single {s₀ s : State} {syms : List Byte} (h : Forest s₀ syms s) {r : Nat} (hr : s.pq = [r]) :
    ∃ tree, TreeAt s.node tree r ∧ tree.leaves.Perm syms := by
  obtain ⟨f, htree, hleaves⟩ := h.trees
  refine ⟨f r, htree r (by simp [hr]), ?_⟩
  simpa [hr] using hleaves

/-- Settles O12: the forest that `exec_eBuild_ok` gives is empty with no symbol present, and is one tree otherwise. -/
theorem buildPhaseMakesTheTree : Obligations.BuildPhaseMakesTheTree := by
  intro s hwf hseq hpq hnode
  obtain ⟨t, hrun, hforest, hone, hne⟩ := exec_eBuild_ok hwf hseq hpq hnode
  refine ⟨_, hrun, ?_, fun hnone => ?_, fun hsome => ?_⟩
  · rw [hforest.same, ← hpq]
  · obtain ⟨hq, hp, hn⟩ := (hnone ▸ hforest).eq_empty
    exact ⟨by simp [hp], hq, hn⟩
  · obtain ⟨hq, hr⟩ := hforest.pq_eq_last hone (hne hsome)
    exact ⟨hq, by simp [hr], hforest.length.trans hq, hforest.leaf, hforest.inner, hforest.tree_of_single hr⟩

end Sys2Proof.Machine
end

section
/-! SUPPORT. The codes that E_GEN enters, and that they are no prefixes of one another (rules R170 to R174). -/

namespace Sys2Proof.Machine

/-- Each code of a tree of different symbols is the entry of its symbol (rule R171). -/
theorem codeAt_codeTable_of_mem {t : HuffTree} {s : State} (hd : t.leaves.Nodup) {e : Byte × List Bool}
    (he : e ∈ t.codes) : codeAt (codeTable t s) e.1 = e.2 :=
  codeAt_assignCodes_of_mem (t.codes_map_fst ▸ hd) he (HuffTree.length_code_le hd he)

/-- The table differs from the state in which E_GEN starts in `CODE` only. -/
theorem codeTable_eq (t : HuffTree) (s : State) : codeTable t s = { s with code := (codeTable t s).code } :=
  assignCodes_eq t.codes (clearedCodes s)

/-- With no tree and no symbol present E_GEN leaves the table empty, and the checks of rule R176 pass. -/
theorem execEGen_none {s : State} (hroot : s.root = none) (hf : ∀ sym, freqAt s sym = 0) :
    exec .eGen s = .next { clearedCodes s with phase := .eHdr } := by
  have hcheck : checkCodes (clearedCodes s) = .ok () { clearedCodes s with phase := .eHdr } :=
    checkCodes_ok (fun x _ _ hx _ => absurd (codeAt_clearedCodes s x) hx) fun x =>
      iff_of_true (codeAt_clearedCodes s x) (hf x)
  show ((genCodes (clearedCodes s)).bind fun _ s => checkCodes s).outcome = _
  rw [genCodes_none (s := clearedCodes s) hroot, Flow.bind_ok, hcheck, Flow.outcome_ok]

/-- Settles O15: the table of `execEGen_tree`, and the empty one of `execEGen_none`. -/
theorem codePhaseEntersThePaths : Obligations.CodePhaseEntersThePaths := by
  refine fun s hs => ⟨fun t h hd hf => ?_, fun hroot hf => ?_⟩
  · refine ⟨_, execEGen_tree hs h hd hf, ?_, fun e he => codeAt_codeTable_of_mem (s := s) hd he, fun sym hsym =>
      (codeAt_codeTable_eq_nil (s := s) hd).mpr hsym⟩
    rw [codeTable_eq]
  · exact ⟨_, execEGen_none hroot hf, rfl, codeAt_clearedCodes s⟩

/-- Settles O16: every code has a bit (`HuffTree.codes_ne_nil`), and two codes are apart whichever comes first
(`HuffTree.codes_apart`). -/
theorem codesOfATreeArePrefixFree : Obligations.CodesOfATreeArePrefixFree := by
  refine fun t => ⟨fun e he => List.length_pos_iff.mpr (HuffTree.codes_ne_nil he), fun i j e f hi hj hne => ?_⟩
  have apart := List.pairwise_iff_getElem.mp t.codes_apart
  obtain ⟨hi', rfl⟩ := List.getElem?_eq_some_iff.mp hi
  obtain ⟨hj', rfl⟩ := List.getElem?_eq_some_iff.mp hj
  obtain hij | hji := Nat.lt_or_gt_of_ne hne
  · exact (apart i j hi' hj' hij).1
  · exact (apart j i hj' hi' hji).2

end Sys2Proof.Machine
end

section
/-! SUPPORT. E_TREE and D_TREE performed whole: what E_TREE leaves of the tree at `ROOT`, what D_TREE makes of its
serialization, and how D_TREE ends on any input (rules R185 to R195). -/

namespace Sys2Proof.Machine

/-! ### E_TREE -/

theorem exec_eTree (s : State) :
    exec .eTree s = ((serTree s).bind fun _ t => .ok () { t with phase := .ePack }).outcome := rfl

/-- Where `ROOT` holds a tree and nothing waits, SER starts at the root with a step for each node of the tree. -/
theorem serTree_eq_serLoop {s : State} {t : HuffTree} (hs : s.stack = []) (ht : HoldsTree s t) :
    ∃ r k, TreeAt s.node t r ∧ serTree s = serLoop (t.size + k) (withStack [Frame.at r] s) := by
  obtain ⟨r, hroot, htree, hsize⟩ := ht
  obtain ⟨k, hk⟩ := Nat.exists_eq_add_of_le hsize
  exact ⟨r, k, htree, by rw [serTree_some hs hroot, hk]⟩

/-- SER of the tree at `ROOT`, with room: the serialization joins the stream (rules R185, R186). -/
theorem serTree_ok {s : State} {t : HuffTree} (hp : s.cfg.wf = true) (hl : WriterLaw s) (hs : s.stack = [])
    (ht : HoldsTree s t) (hr : OutRoom s t.ser.length) :
    ∃ u, serTree s = .ok () u ∧ WriterLaw u ∧ OnlyOut s u ∧ outBits u = outBits s ++ t.ser ∧
      u.wpos.toNat = s.wpos.toNat + t.ser.length := by
  obtain ⟨r, k, htree, hser⟩ := serTree_eq_serLoop hs ht
  obtain ⟨u, hu, hlaw, hout, hbits, hwpos⟩ := serLoop_tree t (n := k) (s := withStack [Frame.at r] s) rfl htree hp
    ⟨hl.running, hl.olen, hl.pending⟩ hr
  have hout' : OnlyOut (withStack [] s) u := hout
  rw [withStack_self hs] at hout'
  have hstack : u.stack = [] := by rw [hout'.same, hs]
  exact ⟨u, by rw [hser, hu, serLoop_done hstack], hlaw, hout', hbits, hwpos⟩

/-- SER of the tree at `ROOT`, without room for it: the error entry (rule R185). -/
theorem serTree_full {s : State} {t : HuffTree} (hp : s.cfg.wf = true) (hl : WriterLaw s) (hs : s.stack = [])
    (ht : HoldsTree s t) (h0 : OutRoom s 0) (hr : ¬ OutRoom s t.ser.length) :
    ∃ u, serTree s = .raised (raise .encObufFull u) := by
  obtain ⟨r, k, htree, hser⟩ := serTree_eq_serLoop hs ht
  rw [hser]
  exact serLoop_full t (s := withStack [Frame.at r] s) rfl htree hp ⟨hl.running, hl.olen, hl.pending⟩ h0 hr

/-- Settles O18: the tree fits (`serTree_ok`), does not fit (`serTree_full`), or is not there (`serTree_none`). -/
theorem treePhaseWritesTheSerialization : Obligations.TreePhaseWritesTheSerialization := by
  refine fun s hp hl hs => ⟨fun t ht hr => ?_, fun t ht h0 hr => ?_, fun hroot => ?_⟩
  · obtain ⟨u, hu, hlaw, hout, hbits, hwpos⟩ := serTree_ok hp hl hs ht hr
    refine ⟨{ u with phase := .ePack }, by rw [exec_eTree, hu, Flow.bind_ok, Flow.outcome_ok], ?_,
      ⟨hlaw.running, hlaw.olen, hlaw.pending⟩, hbits, hwpos, hout.outside⟩
    have hsame := hout.same
    rw [hlaw.running.trans hl.running.symm] at hsame
    exact congrArg (fun u : State => { u with phase := .ePack }) hsame
  · obtain ⟨u, hu⟩ := serTree_full hp hl hs ht h0 hr
    exact ⟨_, by rw [exec_eTree, hu, Flow.bind_raised, Flow.outcome_raised], rfl, rfl, rfl⟩
  · rw [exec_eTree, serTree_none hs hroot, Flow.bind_ok, Flow.outcome_ok]

/-! ### D_TREE -/

theorem exec_dTree (s : State) :
    exec .dTree s = ((desLoop (bitsLeft s) s).bind fun _ t => .ok () { t with phase := .dWalk }).outcome := rfl

/-- Every node takes at least one bit of the serialization (rule R186). -/
theorem HuffTree.size_le_length_ser (t : HuffTree) : t.size ≤ t.ser.length := by
  have hsize := t.size_eq_leaves
  have hser := t.length_ser
  omega

/-- Settles O22: DES of the tree (`desLoop_tree`) has enough steps, and as no node waits the tree is whole. -/
theorem treePhaseReadsTheSerialization : Obligations.TreePhaseReadsTheSerialization := by
  intro s t hs hr hb hf
  have hsteps : t.size ≤ bitsLeft s := by
    have hsize := t.size_le_length_ser
    have hroom := hr.1
    rw [bitsLeft]; omega
  obtain ⟨k, hk⟩ := Nat.exists_eq_add_of_le hsteps
  obtain ⟨u, hu, honly, hrpos, hseq, hpre, hout⟩ := desLoop_tree t (n := k) hr hb hf
  have hrun : desLoop (bitsLeft s) s = .ok () { u with stack := [], root := some s.seq } := by
    rw [hk, hu, hs]; rfl
  refine ⟨{ u with stack := [], root := some s.seq, phase := .dWalk }, ?_, ?_, hpre, hout⟩
  · rw [exec_dTree, hrun, Flow.bind_ok, Flow.outcome_ok]
  · rw [honly, ← hrpos, ← hseq, ← hs]

/-- Settles O23: the three ends of `desLoop_ends`. -/
theorem treePhaseEndsOrFailsByName : Obligations.TreePhaseEndsOrFailsByName := by
  intro s hs hc hr
  have hfits : StackFits s := fun fr hfr => absurd hfr (by simp [hs])
  have hsteps : 8 * s.ilen.toNat < s.rpos.toNat + bitsLeft s := by rw [bitsLeft]; omega
  rw [exec_dTree]
  obtain ⟨t, ht⟩ | ⟨u, hu, hcap, hrpos⟩ | ⟨u, hu, hrpos⟩ := desLoop_ends hc hr hfits hsteps
  · exact ⟨_, by rw [ht, Flow.bind_ok, Flow.outcome_ok], .inl rfl⟩
  · exact ⟨raise .nodeOverflow u, by rw [hu, Flow.bind_raised, Flow.outcome_raised], .inr (.inr ⟨rfl, rfl, hcap, hrpos⟩)⟩
  · exact ⟨raise .treeTrunc u, by rw [hu, Flow.bind_raised, Flow.outcome_raised], .inr (.inl ⟨rfl, rfl, hrpos⟩)⟩

/-! ### What E_TREE writes, D_TREE reads -/

/-- The nodes have consecutive indices (rule R191). -/
theorem HuffTree.preorder_map_fst (t : HuffTree) (i : Nat) : (t.preorder i).map Prod.fst = List.range' i t.size := by
  induction t generalizing i with
  | leaf sym => rfl
  | node l r ihl ihr =>
    rw [preorder, List.map_cons, List.map_append, ihl, ihr, List.range'_append_1, size, List.range'_succ]

/-- `NODE` has at least as many entries as a tree numbered in it. -/
theorem HuffTree.size_le_of_preorder {nodes : List (Nat × Node)} {t : HuffTree} {i : Nat}
    (h : ∀ e ∈ t.preorder i, Table.get? nodes e.1 = some e.2) : t.size ≤ nodes.length := by
  have hsub : List.range' i t.size ⊆ nodes.map Prod.fst := by
    rw [← t.preorder_map_fst]
    exact List.map_subset _ fun e he => Table.mem_of_get? (h e he)
  have hnodup : (List.range' i t.size).Nodup := List.nodup_range'
  calc t.size = (List.range' i t.size).length := List.length_range'.symm
    _ ≤ (nodes.map Prod.fst).length := (hnodup.subperm hsub).length_le
    _ = nodes.length := List.length_map _

/-- Settles O56: the bits that `treePhaseWritesTheSerialization` gives are read by `treePhaseReadsTheSerialization`; the
node memory has at least 511 entries (rule R10), so the tree fits. -/
theorem writtenTreeReadsBack : Obligations.WrittenTreeReadsBack := by
  intro s u d t hp hl hs ht hr hrun hstack hseq hwf hsize hroom hb
  obtain ⟨u', hrun', -, -, hbits, -⟩ := (treePhaseWritesTheSerialization s hp hl hs).1 t ht hr
  obtain rfl : u = u' := by rw [hrun] at hrun'; exact Host.Outcome.next.inj hrun'
  rw [hbits, List.drop_left] at hb
  obtain ⟨e, he, hsame, hpre, -⟩ := treePhaseReadsTheSerialization d t hstack hroom hb fun i hi =>
    nodeFits_of_lt hwf (by omega)
  refine ⟨e, he, ⟨d.seq, by rw [hsame], TreeAt.of_preorder hpre, HuffTree.size_le_of_preorder hpre⟩, ?_⟩
  rw [hsame]
  exact movePast_rpos_toNat hroom

end Sys2Proof.Machine
end

section
/-! SUPPORT. How a command starts (rules R51, R200, R220, R246). -/

namespace Sys2Proof.Machine

/-- A command word has a mode and no reserved bit (rule R92). -/
theorem cmdWord_legal {m : Nat} (hm : m = 1 ∨ m = 2) (f c b : Bool) : illegalCmd (cmdWord m f c b) = false := by
  rcases hm with rfl | rfl <;> (revert f c b; decide)

/-- Bit 0 of a command word tells ENCODE from DECODE (rule R91). -/
theorem cmdWord_enc {m : Nat} (hm : m = 1 ∨ m = 2) (f c b : Bool) : (cmdWord m f c b).getLsbD 0 = (m == 1) := by
  rcases hm with rfl | rfl <;> (revert f c b; decide)

/-- Bits 4:2 of a command word are its flags (rule R91). -/
theorem cmdWord_flagBits {m : Nat} (hm : m = 1 ∨ m = 2) (f c b : Bool) :
    ((cmdWord m f c b).extractLsb' 2 3).toNat = f.toNat + 2 * c.toNat + 4 * b.toNat := by
  rcases hm with rfl | rfl <;> (revert f c b; decide)

/-- A legal word with `ILEN` in the buffer passes both checks of rule R246. -/
theorem acceptCmd_legal {w : Word} {s : State} (hw : illegalCmd w = false) (hc : s.ilen.toNat ≤ s.cfg.ibufCap) :
    acceptCmd w s = { initCommand { s with cmd := w } with phase := if w.getLsbD 0 then .eCount else .dHdr } := by
  have hfits : ¬ (initCommand { s with cmd := w }).cfg.ibufCap < (initCommand { s with cmd := w }).ilen.toNat :=
    not_lt.mpr hc
  simp only [acceptCmd]
  rw [hw, if_neg Bool.false_ne_true, if_neg hfits]
  split_ifs <;> rfl

theorem acceptCmd_encode {s : State} (f c b : Bool) (hc : s.ilen.toNat ≤ s.cfg.ibufCap) :
    acceptCmd (cmdWord 1 f c b) s = { initCommand { s with cmd := cmdWord 1 f c b } with phase := .eCount } := by
  rw [acceptCmd_legal (cmdWord_legal (.inl rfl) f c b) hc, cmdWord_enc (.inl rfl)]; rfl

theorem acceptCmd_decode {s : State} (f c b : Bool) (hc : s.ilen.toNat ≤ s.cfg.ibufCap) :
    acceptCmd (cmdWord 2 f c b) s = { initCommand { s with cmd := cmdWord 2 f c b } with phase := .dHdr } := by
  rw [acceptCmd_legal (cmdWord_legal (.inr rfl) f c b) hc, cmdWord_enc (.inr rfl)]; rfl

theorem writeCmd_of_not_busy {w : Word} {s : State} (h : busy s = false) : writeCmd w s = acceptCmd w s := by
  rw [writeCmd, h, if_neg Bool.false_ne_true]

/-- Settles O8: outside `BUSY` the word is accepted (`acceptCmd_encode`, `acceptCmd_decode`). -/
theorem commandsStart : Obligations.CommandsStart := by
  intro s f c b hb hc
  refine ⟨?_, ?_, cmdWord_flagBits (.inl rfl) f c b, cmdWord_flagBits (.inr rfl) f c b⟩
  · show Host.Outcome.next (writeCmd (cmdWord 1 f c b) s) = _
    rw [writeCmd_of_not_busy hb, acceptCmd_encode f c b hc]
  · show Host.Outcome.next (writeCmd (cmdWord 2 f c b) s) = _
    rw [writeCmd_of_not_busy hb, acceptCmd_decode f c b hc]

end Sys2Proof.Machine
end

section
/-! SUPPORT. The encoder's own phases: E_HDR, E_PACK and E_FIN (rules R204, R207, R209). -/

namespace Sys2Proof.Machine

/-! ### E_HDR -/

theorem exec_eHdr (s : State) : exec .eHdr s = (writeHeader s.ilen s).outcome := rfl

/-- A writer that has written nothing has an empty stream. -/
theorem outBits_of_wpos_zero {s : State} (hl : WriterLaw s) (h0 : s.wpos = 0) : outBits s = [] := by
  have hw : s.wpos.toNat = 0 := by rw [h0]; rfl
  have ho : s.olen.toNat = 0 := by rw [hl.olen, hw]
  simp [outBits, outBytes, ho, hw, bitsMsb]

/-- On a byte boundary nothing is pending. -/
theorem outBits_aligned {s : State} (h : s.wpos.toNat % 8 = 0) : outBits s = (outBytes s).flatMap byteBits := by
  rw [outBits, h, bitsMsb, List.append_nil]

/-- `OBUF` has at least the four bytes of the header (rule R10). -/
theorem outRoom_header {s : State} (hp : s.cfg.wf = true) (h0 : s.wpos = 0) : OutRoom s 32 := by
  have hcap : 4 ≤ s.cfg.obufCap := by simp [Params.wf] at hp; omega
  rw [OutRoom, h0]; exact hcap

/-- Settles O17: the 32 bits that `writeHeader_ok` appends to the empty stream complete four bytes. -/
theorem headerPhaseWritesTheLength : Obligations.HeaderPhaseWritesTheLength := by
  intro s hp hl h0
  obtain ⟨u, hu, app⟩ := writeHeader_ok (n := s.ilen) hp hl (outRoom_header hp h0)
  have hsame := app.same
  have hwpos : u.wpos = 32 := by rw [hsame]; show s.wpos + _ = _; rw [h0, length_bitsMsb]; rfl
  have holen : u.olen = 4 := BitVec.eq_of_toNat_eq (by rw [app.law.olen, hwpos]; rfl)
  have hwacc : u.wacc = 0 := BitVec.eq_of_toNat_eq (Nat.lt_one_iff.mp (by simpa [hwpos] using app.law.pending))
  have hbits : (outBytes u).flatMap byteBits = (wordBytes s.ilen).flatMap byteBits := by
    rw [← outBits_aligned (by rw [hwpos]; rfl), app.stream, flatMap_byteBits_wordBytes]
    exact congrArg (· ++ _) (outBits_of_wpos_zero hl h0)
  refine ⟨{ u with phase := .eTree }, by rw [exec_eHdr, hu, Flow.outcome_ok], ?_,
    ⟨app.law.running, app.law.olen, app.law.pending⟩, flatMap_byteBits_inj hbits, fun a ha => app.outside a (.inr ?_)⟩
  · rw [holen, hwacc, h0, length_bitsMsb] at hsame
    exact congrArg (fun u : State => { u with phase := .eTree }) hsame
  · rw [holen]; exact ha

/-! ### E_PACK -/

theorem exec_ePack (s : State) :
    exec .ePack s =
      ((packLoop s.ilen.toNat (withIidx 0 s)).bind fun _ t => .ok () { t with phase := .eFin }).outcome := rfl

/-- Settles O19: the loop from the first input byte on, where the codes fit (`packLoop_ok`) and where they do not
(`packLoop_full`). -/
theorem packPhaseWritesTheCodes : Obligations.PackPhaseWritesTheCodes := by
  rintro s bits hp hl hc hbits
  have hl0 : WriterLaw (withIidx 0 s) := ⟨hl.running, hl.olen, hl.pending⟩
  have hpay : payloadBits (withIidx 0 s) (withIidx 0 s).iidx.toNat s.ilen.toNat = bits := by
    rw [hbits, List.range_eq_range']; rfl
  refine ⟨fun hr => ?_, fun h0 hr => ?_⟩
  · obtain ⟨u, hu, hlaw, hout, hstream, hwpos⟩ := packLoop_ok (n := s.ilen.toNat) (s := withIidx 0 s) hp hl0 hc
      (Nat.zero_add _) (by rw [hpay]; exact hr)
    rw [hpay] at hstream hwpos
    have hsame := hout.same
    rw [hlaw.running.trans hl.running.symm] at hsame
    exact ⟨{ u with phase := .eFin }, by rw [exec_ePack, hu, Flow.bind_ok, Flow.outcome_ok],
      congrArg (fun u : State => { u with phase := .eFin }) hsame, ⟨hlaw.running, hlaw.olen, hlaw.pending⟩, hstream,
      hwpos, hout.outside⟩
  · obtain ⟨u, hu⟩ := packLoop_full (n := s.ilen.toNat) (s := withIidx 0 s) hp hl0 hc (Nat.zero_add _) h0
      (by rw [hpay]; exact hr)
    exact ⟨_, by rw [exec_ePack, hu, Flow.bind_raised, Flow.outcome_raised], rfl, rfl, rfl⟩

/-! ### E_FIN -/

theorem exec_eFin (s : State) :
    exec .eFin s = ((finalizeOp s).bind fun _ t => .ok () (finishEncode t)).outcome := rfl

/-- Settles O20: FINALIZE with room (`finalizeOp_ok`), and with pending bits and none (`finalizeOp_full`). -/
theorem finishPhaseClosesTheStream : Obligations.FinishPhaseClosesTheStream := by
  intro s hp hl
  refine ⟨fun hr => ?_, fun h0 hfull => ?_⟩
  · obtain ⟨u, hu, hfin, hout, hwpos, holen, hbytes⟩ := finalizeOp_ok hp hl hr
    have hsame := hout.same
    rw [finalizeOp_wacc hl.pending hu, hwpos, hfin] at hsame
    exact ⟨finishEncode u, by rw [exec_eFin, hu, Flow.bind_ok, Flow.outcome_ok], congrArg finishEncode hsame, holen,
      hbytes, hout.outside⟩
  · rw [exec_eFin, finalizeOp_full h0 hfull, Flow.bind_raised, Flow.outcome_raised]

end Sys2Proof.Machine
end

section
/-! SUPPORT. A command run by turns of the engine, one whole phase each (rules R201, R221). -/

namespace Sys2Proof.Machine

/-- The next turn of the engine is the whole phase `p`: no event is waiting, and no token is half done. -/
structure Ready (p : Phase) (s : State) : Prop where
  phase : s.phase = p
  marker : s.marker = false
  events : s.events = []

/-- That turn performs the operation of the phase (rule R93). -/
theorem Ready.step {p : Phase} {i : Instr} {s : State} (h : Ready p s) (hd : decode (.phase p.code) = .ok i) :
    step s = exec i s := by
  rw [step_of_nil h.events, engineTurn_whole h.marker, phaseTurn_of_decode (by rw [h.phase]; exact hd)]

theorem run_succ {k : Nat} {s t : State} (h : step s = .next t) :
    Host.Core.run Sys2Proof.core (k + 1) s = Host.Core.run Sys2Proof.core k t := by
  have hcore : Sys2Proof.core.step s = .next t := h
  simp only [Host.Core.run, hcore]

/-- Outside `BUSY` the engine is stopped (rules R254, R261). -/
theorem run_of_not_busy {s : State} (hb : busy s = false) (he : s.events = []) (k : Nat) :
    Host.Core.run Sys2Proof.core k s = .next s := by
  induction k with
  | zero => rfl
  | succ k ih => rw [run_succ ((step_of_nil he).trans (engineTurn_of_not_busy hb)), ih]

/-- A run that ends in `DONE` has met no error: `ERROR` is left by no turn. -/
theorem run_done {k : Nat} {s t u : State} (hrun : Host.Core.run Sys2Proof.core (k + 1) s = .next t)
    (hdone : t.phase = .done) (hstep : step s = .next u) (he : u.events = []) :
    Host.Core.run Sys2Proof.core k u = .next t ∧ u.phase ≠ .error := by
  rw [run_succ hstep] at hrun
  refine ⟨hrun, fun herr => ?_⟩
  rw [run_of_not_busy (by rw [busy, herr]; rfl) he] at hrun
  cases hrun
  exact absurd (herr.symm.trans hdone) (by simp)

end Sys2Proof.Machine
end

section
/-! SUPPORT. An ENCODE run through its phases: what it leaves in `OBUF` is the compressed form of the input (rules R98,
R201, R214). -/

namespace Sys2Proof.Machine

/-! ### The compressed form -/

/-- The bytes `IBUF[0..ILEN-1]`. -/
def inputBytes (s : State) : List Byte := (List.range s.ilen.toNat).map (ibufByte s)

theorem length_inputBytes (s : State) : (inputBytes s).length = s.ilen.toNat := by simp [inputBytes]

theorem inputBytes_congr {s t : State} (h : InputKept s t) : inputBytes t = inputBytes s := by
  have hbyte : ibufByte t = ibufByte s := funext fun a => by rw [ibufByte, ibufByte, h.ibuf, h.epoch]
  rw [inputBytes, inputBytes, h.ilen, hbyte]

/-- The bits are the compressed form of the bytes: their number, and where there are any, the serialization of a tree and
their codes in it. -/
inductive Compressed : List Byte → List Bool → Prop where
  | empty : Compressed [] (bitsMsb 32 0)
  | coded (t : HuffTree) (es : List (Byte × List Bool)) (hd : t.leaves.Nodup) (hne : es ≠ []) (hes : ∀ e ∈ es, e ∈ t.codes) :
    Compressed (es.map Prod.fst) (bitsMsb 32 es.length ++ (t.ser ++ es.flatMap Prod.snd))

/-! ### The tables: E_COUNT, E_BUILD and E_GEN -/

/-- `FREQ` tells which symbols the input has. -/
def Counted (s : State) : Prop := ∀ x, freqAt s x ≠ 0 ↔ x ∈ inputBytes s

theorem Counted.mem_presentSymbols {s : State} (h : Counted s) (x : Byte) : x ∈ presentSymbols s ↔ x ∈ inputBytes s := by
  rw [← h x]; simp [presentSymbols, mem_allSymbols]

theorem Counted.kept {s t : State} (h : Counted s) (hin : InputKept s t) (hf : t.freq = s.freq) : Counted t := by
  intro x
  rw [inputBytes_congr hin, ← h x, freqAt, freqAt]
  simp only [hf]

/-- E_COUNT counts the symbols of the input (rule R141). -/
theorem exec_eCount_counted {s : State} (hc : s.ilen.toNat ≤ s.cfg.ibufCap) :
    ∃ t, exec .eCount s = .next t ∧ t = { s with freq := t.freq, iidx := s.ilen, phase := .eBuild } ∧ Counted t := by
  obtain ⟨t, hrun, hsame, hcount⟩ := countPhaseCountsEverySymbol s hc
  have hin : inputBytes t = inputBytes s := inputBytes_congr (by rw [hsame]; exact {})
  refine ⟨t, hrun, hsame, fun x => ?_⟩
  rw [hin, Ne, ← BitVec.toNat_inj, hcount]
  show _ ≠ 0 ↔ _
  rw [← Nat.pos_iff_ne_zero, List.length_pos_iff_exists_mem]
  simp [inputBytes]

/-- `ROOT` holds a tree with one leaf for each symbol of the input; where the input is empty there is none. -/
inductive Rooted (s : State) : Prop where
  | empty (hin : inputBytes s = []) (hroot : s.root = none)
  | tree (t : HuffTree) (hin : inputBytes s ≠ []) (ht : HoldsTree s t) (hd : t.leaves.Nodup)
    (hleaves : ∀ x, x ∈ t.leaves ↔ x ∈ inputBytes s)

/-- E_BUILD makes that tree (rules R155, R156). -/
theorem exec_eBuild_rooted {s : State} (hp : s.cfg.wf = true) (hseq : s.seq = 0) (hpq : s.pq = []) (hnode : s.node = [])
    (hcounted : Counted s) :
    ∃ t, exec .eBuild s = .next t ∧ t = { s with node := t.node, seq := t.seq, root := t.root, phase := .eGen } ∧
      Rooted t := by
  obtain ⟨t, hrun, hsame, hnone, hsome⟩ := buildPhaseMakesTheTree s hp hseq hpq hnode
  have hin : inputBytes t = inputBytes s := inputBytes_congr (by rw [hsame]; exact {})
  have hpresent := hcounted.mem_presentSymbols
  refine ⟨t, hrun, hsame, ?_⟩
  by_cases h : presentSymbols s = []
  · refine .empty ?_ (hnone h).1
    rw [hin]
    exact List.eq_nil_iff_forall_not_mem.mpr fun x hx => by simpa [h] using (hpresent x).mpr hx
  · obtain ⟨-, hroot, hlength, -, -, tree, htree, hleaves⟩ := hsome h
    have hsize := tree.size_eq_leaves
    rw [hleaves.length_eq] at hsize
    obtain ⟨x, hx⟩ := List.exists_mem_of_ne_nil _ h
    refine .tree tree ?_ ⟨_, hroot, htree, by omega⟩ ?_ fun y => ?_
    · rw [hin]; exact List.ne_nil_of_mem ((hpresent x).mp hx)
    · exact hleaves.nodup_iff.mpr ((presentSymbols_sorted s).imp BitVec.ne_of_lt)
    · rw [hin, hleaves.mem_iff, hpresent]

/-- `ROOT` and `CODE` are those of the input, and `bits` is what E_TREE writes of the tree. -/
inductive Coded (bits : List Bool) (s : State) : Prop where
  | empty (hin : inputBytes s = []) (hroot : s.root = none) (hbits : bits = [])
  | tree (t : HuffTree) (hin : inputBytes s ≠ []) (ht : HoldsTree s t) (hd : t.leaves.Nodup)
    (hcodes : ∀ x ∈ inputBytes s, (x, codeAt s x) ∈ t.codes) (hbits : bits = t.ser)

/-- E_GEN enters the codes of that tree (rules R171, R173). -/
theorem exec_eGen_coded {s : State} (hstack : s.stack = []) (hcounted : Counted s) (hrooted : Rooted s) :
    ∃ u bits, exec .eGen s = .next u ∧ u = { s with code := u.code, phase := .eHdr } ∧ Coded bits u := by
  obtain ⟨htree, hnone⟩ := codePhaseEntersThePaths s hstack
  cases hrooted with
  | empty hin hroot =>
    obtain ⟨u, hrun, hsame, -⟩ := hnone hroot fun x => not_not.mp (mt (hcounted x).mp (by simp [hin]))
    refine ⟨u, [], hrun, hsame, .empty ?_ (by rw [hsame]; exact hroot) rfl⟩
    rw [inputBytes_congr (s := s) (by rw [hsame]; exact {}), hin]
  | tree t hin ht hd hleaves =>
    obtain ⟨u, hrun, hsame, hcodes, -⟩ := htree t ht hd fun x => (hcounted x).trans (hleaves x).symm
    have hkept : inputBytes u = inputBytes s := inputBytes_congr (by rw [hsame]; exact {})
    refine ⟨u, t.ser, hrun, hsame, .tree t (by rw [hkept]; exact hin) (by rw [hsame]; exact ht) hd (fun x hx => ?_) rfl⟩
    rw [hkept, ← hleaves, ← t.codes_map_fst] at hx
    obtain ⟨e, he, rfl⟩ := List.mem_map.mp hx
    rw [hcodes e he]
    exact he

/-- The three phases make the tables of the input, and leave the writer alone. -/
theorem run_tables {s : State} (h : Ready .eCount s) (hp : s.cfg.wf = true) (hc : s.ilen.toNat ≤ s.cfg.ibufCap)
    (hseq : s.seq = 0) (hpq : s.pq = []) (hnode : s.node = []) (hstack : s.stack = []) :
    ∃ u bits, (∀ k, Host.Core.run Sys2Proof.core (k + 3) s = Host.Core.run Sys2Proof.core k u) ∧
      u = { s with
        freq := u.freq, iidx := u.iidx, node := u.node, seq := u.seq, root := u.root, code := u.code, phase := .eHdr } ∧
      Coded bits u := by
  obtain ⟨t₁, hrun₁, hsame₁, hcounted⟩ := exec_eCount_counted hc
  have hready₁ : Ready .eBuild t₁ := by rw [hsame₁]; exact ⟨rfl, h.marker, h.events⟩
  obtain ⟨t₂, hrun₂, hsame₂, hrooted⟩ := exec_eBuild_rooted (s := t₁) (by rw [hsame₁]; exact hp)
    (by rw [hsame₁]; exact hseq) (by rw [hsame₁]; exact hpq) (by rw [hsame₁]; exact hnode) hcounted
  have hready₂ : Ready .eGen t₂ := by rw [hsame₂]; exact ⟨rfl, hready₁.marker, hready₁.events⟩
  obtain ⟨u, bits, hrun₃, hsame₃, hcoded⟩ := exec_eGen_coded (s := t₂) (by rw [hsame₂, hsame₁]; exact hstack)
    (hcounted.kept (by rw [hsame₂]; exact {}) (by rw [hsame₂])) hrooted
  refine ⟨u, bits, fun k => ?_, by rw [hsame₃, hsame₂, hsame₁], hcoded⟩
  rw [run_succ ((h.step rfl).trans hrun₁), run_succ ((hready₁.step rfl).trans hrun₂),
    run_succ ((hready₂.step rfl).trans hrun₃)]

/-! ### Every byte that is written is recorded -/

theorem serLoop_recorded (n : Nat) {s : State} (h : OutRecorded s) :
    (serLoop n s).Post (fun _ => OutRecorded) Never fun _ => True := by
  induction n generalizing s with
  | zero =>
    rw [serLoop]
    split_ifs
    · exact h
    · trivial
  | succ n ih =>
    rw [serLoop]
    split
    · exact h
    · refine nodeAt_bind_post fun i nd _ _ => ?_
      cases nd with
      | leaf sym c q =>
        dsimp only
        rw [writeLeaf_eq]
        exact (wrBits_recorded (by exact h)).bind fun _ _ ht => ih ht
      | internal l r c q => exact (wrBit_recorded (by exact h)).bind fun _ _ ht => ih ht

theorem serTree_recorded {s : State} (h : OutRecorded s) :
    (serTree s).Post (fun _ => OutRecorded) Never fun _ => True := by
  rw [serTree]
  split
  · split
    · exact h
    · exact serLoop_recorded _ (by exact h)
  · exact serLoop_recorded _ h

theorem packLoop_recorded (n : Nat) {s : State} (h : OutRecorded s) :
    (packLoop n s).Post (fun _ => OutRecorded) Never fun _ => True := by
  induction n generalizing s with
  | zero => exact h
  | succ n ih =>
    rw [packLoop]
    split_ifs
    · rw [memReadIbuf]
      split_ifs
      · exact (wrBits_recorded h).bind fun _ _ ht => ih (by exact ht)
      · trivial
    · exact h

/-- An operation that writes and then goes on keeps every byte of the output recorded, unless the writer raises. -/
theorem recorded_of_outcome {x : Flow Unit} {g : State → State} {P : Unit → State → Prop} {R : State → Prop} {t : State}
    (hrun : (x.bind fun _ u => .ok () (g u)).outcome = .next t) (ht : t.phase ≠ .error)
    (hx : x.Post (fun _ => OutRecorded) Never fun _ => True) (hr : x.Post P Never R) (herr : ∀ u, R u → u.phase = .error)
    (hg : ∀ u, OutRecorded u → OutRecorded (g u)) : OutRecorded t := by
  cases x with
  | ok a u => cases hrun; exact hg u hx
  | eob u => exact hx.elim
  | raised u => cases hrun; exact absurd (herr _ hr) ht
  | fault r => cases hrun
  | refused r => cases hrun

/-- The phases of an ENCODE that write keep every byte of the output recorded, unless they end in an error. -/
theorem exec_recorded {i : Instr} {s t : State} (hi : i ∈ [.eHdr, .eTree, .ePack, .eFin]) (hp : s.cfg.wf = true)
    (h : OutRecorded s) (hrun : exec i s = .next t) (ht : t.phase ≠ .error) : OutRecorded t := by
  simp only [List.mem_cons, List.not_mem_nil, or_false] at hi
  obtain rfl | rfl | rfl | rfl := hi
  · refine recorded_of_outcome hrun ht ?_ (wrU32_post hp) (fun _ => FullAfter.phase) fun _ hu => hu
    rw [wrU32_eq]
    exact wrBits_recorded (by exact h)
  · exact recorded_of_outcome hrun ht (serTree_recorded h) (serTree_post hp) (fun _ ⟨_, hu⟩ => hu.phase) fun _ hu => hu
  · exact recorded_of_outcome hrun ht (packLoop_recorded _ (by exact h)) (packLoop_post _ hp) (fun _ ⟨_, hu⟩ => hu.phase)
      fun _ hu => hu
  · exact recorded_of_outcome hrun ht (finalizeOp_recorded h) (finalizeOp_post hp) (fun _ => FullAfter.phase)
      fun _ hu => hu

/-! ### The phases that write -/

/-- What E_HDR, E_TREE and E_PACK leave of what E_COUNT, E_BUILD and E_GEN made. -/
structure TablesKept (s t : State) : Prop where
  root : t.root = s.root := by rfl
  node : t.node = s.node := by rfl
  code : t.code = s.code := by rfl
  stack : t.stack = s.stack := by rfl
  marker : t.marker = s.marker := by rfl

theorem Coded.kept {bits : List Bool} {s t : State} (h : Coded bits s) (hin : InputKept s t) (ht : TablesKept s t) :
    Coded bits t := by
  have hbytes := inputBytes_congr hin
  have hcode : codeAt t = codeAt s := funext fun x => by simp only [codeAt, ht.code]
  cases h with
  | empty he hroot hbits => exact .empty (hbytes.trans he) (ht.root.trans hroot) hbits
  | tree tree hne hholds hd hcodes hbits =>
    obtain ⟨r, hroot, htree, hsize⟩ := hholds
    exact .tree tree (by rw [hbytes]; exact hne)
      ⟨r, ht.root.trans hroot, by rw [ht.node]; exact htree, by rw [ht.node]; exact hsize⟩ hd
      (by rw [hbytes, hcode]; exact hcodes) hbits

/-- The header, the tree and the codes of the input are its compressed form. -/
theorem Coded.compressed {bits : List Bool} {s : State} (h : Coded bits s) :
    Compressed (inputBytes s) (bitsMsb 32 s.ilen.toNat ++ (bits ++ (inputBytes s).flatMap (codeAt s))) := by
  have hlen := length_inputBytes s
  cases h with
  | empty hin _ hbits =>
    rw [hin] at hlen ⊢
    rw [← hlen, hbits]
    exact .empty
  | tree tree hne _ hd hcodes hbits =>
    have hform := Compressed.coded tree ((inputBytes s).map fun x => (x, codeAt s x)) hd (by simpa using hne) fun e he => by
      obtain ⟨x, hx, rfl⟩ := List.mem_map.mp he
      exact hcodes x hx
    simpa [List.flatMap_map, Function.comp_def, hlen, hbits] using hform

/-- The operation appends the bits and goes on to the phase `q`, where they fit; else it ends in an error. -/
structure AppendsOrFull (i : Instr) (q : Phase) (bits : List Bool) (s : State) : Prop where
  fits : OutRoom s bits.length → ∃ u, exec i s = .next u ∧ u.phase = q ∧ TablesKept s u ∧ WriterLaw u ∧
    outBits u = outBits s ++ bits ∧ u.wpos.toNat = s.wpos.toNat + bits.length
  full : ¬ OutRoom s bits.length → ∃ u, exec i s = .next u ∧ u.phase = .error

/-- The engine is to perform the phase `p` of an ENCODE, and has written `bits`. -/
structure Writing (p : Phase) (bits : List Bool) (s : State) : Prop extends Ready p s where
  params : s.cfg.wf = true
  law : WriterLaw s
  room : OutRoom s 0
  recorded : OutRecorded s
  stream : outBits s = bits

/-- A command starts with nothing written (rule R51). -/
theorem Writing.start {p : Phase} {s : State} (h : Ready p s) (hp : s.cfg.wf = true) (hf : s.finalized = false)
    (hw : s.wpos = 0) (ho : s.olen = 0) (ha : s.wacc = 0) : Writing p [] s := by
  have hlaw : WriterLaw s := ⟨hf, by rw [hw, ho]; rfl, by simp [hw, ha]⟩
  exact ⟨h, hp, hlaw, by simp [OutRoom, hw], fun a ha => by simp [ho] at ha, outBits_of_wpos_zero hlaw hw⟩

theorem eHdr_appends {bits : List Bool} {s : State} (h : Writing .eHdr bits s) (h0 : s.wpos = 0) :
    AppendsOrFull .eHdr .eTree (bitsMsb 32 s.ilen.toNat) s := by
  obtain ⟨u, hrun, hsame, hlaw, hbytes, -⟩ := headerPhaseWritesTheLength s h.params h.law h0
  have hwpos : u.wpos = 32 := by rw [hsame]
  have hroom : OutRoom s (bitsMsb 32 s.ilen.toNat).length := by
    rw [length_bitsMsb]; exact outRoom_header h.params h0
  refine ⟨fun _ => ⟨u, hrun, by rw [hsame], by rw [hsame]; exact {}, hlaw, ?_, ?_⟩, fun hr => absurd hroom hr⟩
  · rw [outBits_aligned (by rw [hwpos]; rfl), hbytes, flatMap_byteBits_wordBytes, outBits_of_wpos_zero h.law h0,
      List.nil_append]
  · rw [hwpos, h0, length_bitsMsb]; rfl

theorem eTree_appends {bits tree : List Bool} {s : State} (h : Writing .eTree bits s) (hs : s.stack = [])
    (hc : Coded tree s) : AppendsOrFull .eTree .ePack tree s := by
  obtain ⟨hfits, hfull, hnone⟩ := treePhaseWritesTheSerialization s h.params h.law hs
  cases hc with
  | empty _ hroot hbits =>
    subst hbits
    exact ⟨fun _ => ⟨_, hnone hroot, rfl, {}, ⟨h.law.running, h.law.olen, h.law.pending⟩, (List.append_nil _).symm, rfl⟩,
      fun hr => absurd h.room hr⟩
  | tree t _ ht _ _ hbits =>
    subst hbits
    refine ⟨fun hr => ?_, fun hr => ?_⟩
    · obtain ⟨u, hrun, hsame, hlaw, hstream, hwpos, -⟩ := hfits t ht hr
      exact ⟨u, hrun, by rw [hsame], by rw [hsame]; exact {}, hlaw, hstream, hwpos⟩
    · obtain ⟨u, hrun, herr, -⟩ := hfull t ht h.room hr
      exact ⟨u, hrun, herr⟩

theorem ePack_appends {bits : List Bool} {s : State} (h : Writing .ePack bits s) (hc : s.ilen.toNat ≤ s.cfg.ibufCap) :
    AppendsOrFull .ePack .eFin ((inputBytes s).flatMap (codeAt s)) s := by
  obtain ⟨hfits, hfull⟩ := packPhaseWritesTheCodes s _ h.params h.law hc (List.flatMap_map _ _ _)
  refine ⟨fun hr => ?_, fun hr => ?_⟩
  · obtain ⟨u, hrun, hsame, hlaw, hstream, hwpos, -⟩ := hfits hr
    exact ⟨u, hrun, by rw [hsame], by rw [hsame]; exact {}, hlaw, hstream, hwpos⟩
  · obtain ⟨u, hrun, herr, -⟩ := hfull h.room hr
    exact ⟨u, hrun, herr⟩

section
variable {p : Phase} {i : Instr} {bits new : List Bool} {k : Nat} {s t u : State}

/-- In a run that ends in `DONE` the phase has not ended in an error. -/
theorem Writing.step_done (h : Writing p bits s) (hd : decode (.phase p.code) = .ok i)
    (hrun : Host.Core.run Sys2Proof.core (k + 1) s = .next t) (hdone : t.phase = .done) (hexec : exec i s = .next u) :
    Host.Core.run Sys2Proof.core k u = .next t ∧ u.phase ≠ .error :=
  run_done hrun hdone ((h.step hd).trans hexec) ((exec_inputKept h.params hexec).events.trans h.events)

/-- In a run that ends in `DONE` the phase has had room for its bits, and the next one follows. -/
theorem Writing.advance {q : Phase} (h : Writing p bits s) (ha : AppendsOrFull i q new s)
    (hd : decode (.phase p.code) = .ok i) (hi : i ∈ [.eHdr, .eTree, .ePack, .eFin])
    (hrun : Host.Core.run Sys2Proof.core (k + 1) s = .next t) (hdone : t.phase = .done) :
    ∃ u, Host.Core.run Sys2Proof.core k u = .next t ∧ Writing q (bits ++ new) u ∧ InputKept s u ∧ TablesKept s u := by
  have hroom : OutRoom s new.length := by_contra fun hr => by
    obtain ⟨u, hexec, herr⟩ := ha.full hr
    exact (h.step_done hd hrun hdone hexec).2 herr
  obtain ⟨u, hexec, hphase, hkept, hlaw, hstream, hwpos⟩ := ha.fits hroom
  obtain ⟨hrest, hne⟩ := h.step_done hd hrun hdone hexec
  have hin := exec_inputKept h.params hexec
  refine ⟨u, hrest, ⟨⟨hphase, hkept.marker.trans h.marker, hin.events.trans h.events⟩, by rw [hin.cfg]; exact h.params,
    hlaw, ?_, exec_recorded hi h.params h.recorded hexec hne, by rw [hstream, h.stream]⟩, hin, hkept⟩
  rw [OutRoom, hin.cfg, hwpos]
  exact hroom

/-- E_FIN pads the last byte, and the run is over. -/
theorem Writing.finish (h : Writing .eFin bits s) (hrun : Host.Core.run Sys2Proof.core (k + 1) s = .next t)
    (hdone : t.phase = .done) :
    InputKept s t ∧ OutRecorded t ∧ ∃ n, (outBytes t).flatMap byteBits = bits ++ List.replicate n false := by
  obtain ⟨hfits, hfull⟩ := finishPhaseClosesTheStream s h.params h.law
  have hroom : OutRoom s 7 := by_contra fun hr => by
    have h0 := h.room
    simp only [OutRoom, Nat.add_zero] at hr h0
    have holen := h.law.olen
    exact (h.step_done rfl hrun hdone (hfull (by omega) (by omega))).2 rfl
  obtain ⟨u, hexec, hsame, -, hbytes, -⟩ := hfits hroom
  obtain ⟨hrest, hne⟩ := h.step_done rfl hrun hdone hexec
  have hin := exec_inputKept h.params hexec
  rw [run_of_not_busy (by rw [hsame]; rfl) (hin.events.trans h.events)] at hrest
  cases hrest
  exact ⟨hin, exec_recorded (by simp) h.params h.recorded hexec hne, _, by rw [hbytes, h.stream]⟩

end

/-! ### The whole ENCODE -/

/-- Where an ENCODE ends in `DONE`, the bits of its output are the compressed form of the input and padding. -/
theorem run_encode {s t : State} (f c b : Bool) (he : s.events = []) (hp : s.cfg.wf = true)
    (hc : s.ilen.toNat ≤ s.cfg.ibufCap) (hrun : Host.Core.run Sys2Proof.core 7 (acceptCmd (cmdWord 1 f c b) s) = .next t)
    (hdone : t.phase = .done) :
    InputKept s t ∧ OutRecorded t ∧ ∃ bits n, Compressed (inputBytes s) bits ∧
      (outBytes t).flatMap byteBits = bits ++ List.replicate n false := by
  rw [acceptCmd_encode f c b hc] at hrun
  obtain ⟨s₁, tree, htables, hsame, hcoded⟩ := run_tables
    (s := { initCommand { s with cmd := cmdWord 1 f c b } with phase := .eCount }) ⟨rfl, rfl, he⟩ hp hc rfl rfl rfl rfl
  rw [htables] at hrun
  have hkept₁ : InputKept s s₁ := by rw [hsame]; exact {}
  have hw₁ : Writing .eHdr [] s₁ := by
    rw [hsame]
    exact .start ⟨rfl, rfl, he⟩ hp rfl rfl rfl rfl
  obtain ⟨s₂, hrun, hw₂, hkept₂, htab₂⟩ := hw₁.advance (eHdr_appends hw₁ (by rw [hsame]; rfl)) rfl (by simp) hrun hdone
  have hstack₂ : s₂.stack = [] := htab₂.stack.trans (by rw [hsame]; rfl)
  obtain ⟨s₃, hrun, hw₃, hkept₃, htab₃⟩ := hw₂.advance (eTree_appends hw₂ hstack₂ (hcoded.kept hkept₂ htab₂)) rfl (by simp)
    hrun hdone
  have hin₃ := hkept₁.trans (hkept₂.trans hkept₃)
  obtain ⟨s₄, hrun, hw₄, hkept₄, -⟩ := hw₃.advance (ePack_appends hw₃ (by rw [hin₃.ilen, hin₃.cfg]; exact hc)) rfl (by simp)
    hrun hdone
  obtain ⟨hkept₅, hrecorded, n, hbytes⟩ := hw₄.finish hrun hdone
  refine ⟨hin₃.trans (hkept₄.trans hkept₅), hrecorded, _, n, ?_, hbytes⟩
  have hform := ((hcoded.kept hkept₂ htab₂).kept hkept₃ htab₃).compressed
  rw [hin₃.ilen, inputBytes_congr hin₃] at hform
  rw [List.nil_append, List.append_assoc, hkept₁.ilen, inputBytes_congr hin₃]
  exact hform

end Sys2Proof.Machine
end

section
/-! SUPPORT. A DECODE of the compressed form of some bytes, run through its phases (rules R98, R221, R214). -/

namespace Sys2Proof.Machine

/-! ### The bits at `RPOS` -/

/-- The bits are those of the input at `RPOS`, at addresses that `IBUF` has. -/
structure Ahead (bits : List Bool) (s : State) : Prop where
  room : InRoom s bits.length
  read : inBits s s.rpos.toNat bits.length = bits

/-- As a DECODE starts, the whole input is ahead. -/
theorem Ahead.of_input {bits : List Bool} {s t : State} (hin : InputKept s t) (h0 : t.rpos = 0)
    (hc : s.ilen.toNat ≤ s.cfg.ibufCap) (h : bits <+: inBits s 0 (8 * s.ilen.toNat)) : Ahead bits t := by
  have hr : t.rpos.toNat = 0 := by rw [h0]; rfl
  have hlen : bits.length ≤ 8 * s.ilen.toNat := by simpa using h.length_le
  obtain ⟨k, hk⟩ := Nat.exists_eq_add_of_le hlen
  obtain ⟨rest, hrest⟩ := h
  rw [hk, inBits_add] at hrest
  refine ⟨⟨by rw [hr, hin.ilen]; omega, by rw [hin.ilen, hin.cfg]; exact hc⟩, ?_⟩
  rw [hr, inBits_congr hin.ibuf hin.epoch]
  exact (List.append_inj_left hrest (length_inBits s 0 bits.length).symm).symm

/-- Past the first bits, the others are next. -/
theorem Ahead.append {xs ys : List Bool} {s : State} (h : Ahead (xs ++ ys) s) :
    Ahead xs s ∧ Ahead ys (movePast xs.length s) := by
  obtain ⟨hroom, hread⟩ := h
  rw [List.length_append] at hroom hread
  rw [inBits_add] at hread
  obtain ⟨hxs, hys⟩ := List.append_inj hread (length_inBits s _ _)
  have hxroom : InRoom s xs.length := hroom.mono (Nat.le_add_right _ _)
  exact ⟨⟨hxroom, hxs⟩, ⟨hroom.movePast, by rw [inBits_movePast, movePast_rpos_toNat hxroom]; exact hys⟩⟩

theorem Ahead.kept {bits : List Bool} {s t : State} (h : Ahead bits s) (hin : InputKept s t) (hr : t.rpos = s.rpos) :
    Ahead bits t := by
  refine ⟨⟨?_, ?_⟩, ?_⟩
  · rw [hr, hin.ilen]; exact h.room.1
  · rw [hin.ilen, hin.cfg]; exact h.room.2
  · rw [hr, inBits_congr hin.ibuf hin.epoch]; exact h.read

/-! ### The phases -/

/-- The state in which D_HDR has read N (rule R222). -/
def headed (n : Nat) (s : State) : State :=
  { movePast 32 s with
    nhdr := BitVec.ofNat 32 n, nrem := BitVec.ofNat 32 n, phase := if n = 0 then .done else .dTree }

/-- D_HDR reads an N that fits the output, and is done when it is 0 (rules R222, R223). -/
theorem exec_dHdr_ok {n : Nat} {s : State} (h : Ahead (bitsMsb 32 n) s) (hn : n < 2 ^ 32) (hcap : n ≤ s.cfg.obufCap) :
    exec .dHdr s = .next (headed n s) := by
  obtain ⟨hroom, hread⟩ := h
  rw [length_bitsMsb] at hroom hread
  have hnat : (BitVec.ofNat 32 n).toNat = n := by rw [BitVec.toNat_ofNat, Nat.mod_eq_of_lt hn]
  have hzero : BitVec.ofNat 32 n = 0 ↔ n = 0 := by rw [← BitVec.toNat_inj, hnat]; rfl
  have hhead : exec .dHdr s = (headerRead (BitVec.ofNat 32 n) (movePast 32 s)).outcome := by
    show (((rdU32 s).onEob .hdrTrunc).bind fun n s => headerRead n s).outcome = _
    rw [rdU32_ok hroom, hread, bitsValue_bitsMsb_of_lt hn, Flow.onEob_ok, Flow.bind_ok]
  rw [hhead]
  obtain ⟨hover, -⟩ | ⟨-, h0, h⟩ | ⟨-, h0, h⟩ := headerRead_cases (BitVec.ofNat 32 n) (movePast 32 s)
  · exact absurd hcap (not_le.mpr (by rw [hnat] at hover; exact hover))
  · rw [h, headed, if_pos (hzero.mp h0)]; rfl
  · rw [h, headed, if_neg (mt hzero.mpr h0)]; rfl

/-- D_TREE, from an empty `NODE`, reads the tree that is next and leaves it at `ROOT` (rule R189). -/
theorem exec_dTree_ok {t : HuffTree} {s : State} (hp : s.cfg.wf = true) (hd : t.leaves.Nodup) (hs : s.stack = [])
    (hseq : s.seq = 0) (h : Ahead t.ser s) :
    ∃ u, exec .dTree s = .next u ∧ HoldsTree u t ∧ u = { movePast t.ser.length s with
      node := u.node, seq := u.seq, root := u.root, phase := .dWalk } := by
  have hsize : t.size ≤ 511 := by
    have hleaves := length_le_of_nodup hd
    have heq := t.size_eq_leaves
    omega
  obtain ⟨u, hrun, hsame, hpre, -⟩ := treePhaseReadsTheSerialization s t hs h.room h.read fun i hi =>
    nodeFits_of_lt hp (by omega)
  refine ⟨u, hrun, ⟨s.seq, by rw [hsame], TreeAt.of_preorder hpre, HuffTree.size_le_of_preorder hpre⟩, ?_⟩
  rw [hsame]; rfl

/-- D_WALK emits the symbols of the codes that are next, where `NREM` is their number (rules R226, R229). -/
theorem exec_dWalk_ok {t : HuffTree} {es : List (Byte × List Bool)} {s : State} (hp : s.cfg.wf = true)
    (ht : HoldsTree s t) (hes : ∀ e ∈ es, e ∈ t.codes) (hn : s.nrem.toNat = es.length)
    (ho : s.olen.toNat + es.length ≤ s.cfg.obufCap) (h : Ahead (es.flatMap Prod.snd) s) :
    ∃ u, exec .dWalk s = .next { u with phase := .done } ∧
      WalkedOver (es.map Prod.fst) (es.flatMap Prod.snd).length s u := by
  obtain ⟨u, hrun, hwalked, -⟩ := walkLoop_codes hp ht hes hn ho h.room h.read
  refine ⟨u, ?_, hwalked⟩
  show ((walkLoop s.nrem.toNat s).bind fun _ u => .ok () { u with phase := .done }).outcome = _
  rw [hn, hrun, Flow.bind_ok, Flow.outcome_ok]

/-! ### The whole DECODE -/

/-- What a DECODE of the compressed form of the bytes ends with: they are in `OBUF[0..OLEN-1]`. -/
structure Decoded (xs : List Byte) (s : State) : Prop where
  phase : s.phase = .done
  olen : s.olen.toNat = xs.length
  bytes : ∀ (a : Nat) (x : Byte), xs[a]? = some x → Table.get? s.obuf a = some x

/-- From D_TREE on, with the tree and the codes of `NREM` symbols next. -/
theorem run_tree_payload {t : HuffTree} {es : List (Byte × List Bool)} {s : State} (hr : Ready .dTree s)
    (hp : s.cfg.wf = true) (hd : t.leaves.Nodup) (hes : ∀ e ∈ es, e ∈ t.codes) (hs : s.stack = []) (hseq : s.seq = 0)
    (ho : s.olen = 0) (hn : s.nrem.toNat = es.length) (hcap : es.length ≤ s.cfg.obufCap)
    (h : Ahead (t.ser ++ es.flatMap Prod.snd) s) :
    ∃ v, Host.Core.run Sys2Proof.core 2 s = .next v ∧ Decoded (es.map Prod.fst) v := by
  obtain ⟨htree, hpayload⟩ := h.append
  obtain ⟨w, hrunTree, hholds, hsame⟩ := exec_dTree_ok hp hd hs hseq htree
  have hready : Ready .dWalk w := by rw [hsame]; exact ⟨rfl, hr.marker, hr.events⟩
  have holen : w.olen = 0 := by rw [hsame]; exact ho
  have hcfg : w.cfg = s.cfg := by rw [hsame]; rfl
  obtain ⟨v, hrunWalk, hwalked⟩ := exec_dWalk_ok (s := w) (by rw [hcfg]; exact hp) hholds hes (by rw [hsame]; exact hn)
    (by rw [holen, hcfg]; simpa using hcap) (hpayload.kept (by rw [hsame]; exact {}) (by rw [hsame]))
  refine ⟨{ v with phase := .done }, ?_, ⟨rfl, ?_, fun a x hx => ?_⟩⟩
  · rw [run_succ ((hr.step rfl).trans hrunTree), run_succ ((hready.step rfl).trans hrunWalk)]; rfl
  · have hlen : v.olen.toNat = (w.olen + BitVec.ofNat 32 (es.map Prod.fst).length).toNat := by rw [hwalked.same]
    have hcap32 := Params.obufCap_lt hp
    refine hlen.trans ?_
    rw [holen, BitVec.toNat_add, BitVec.toNat_ofNat, List.length_map]
    simp; omega
  · have hbyte := hwalked.written a x hx
    rw [holen] at hbyte
    simpa using hbyte

/-- From D_HDR on, with the compressed form of bytes for which `OBUF` has room. -/
theorem run_decoding {xs : List Byte} {bits : List Bool} {s : State} (hr : Ready .dHdr s) (hp : s.cfg.wf = true)
    (hcap : xs.length ≤ s.cfg.obufCap) (hs : s.stack = []) (hseq : s.seq = 0) (ho : s.olen = 0) (hform : Compressed xs bits)
    (h : Ahead bits s) : ∃ v, Host.Core.run Sys2Proof.core 3 s = .next v ∧ Decoded xs v := by
  have hcap32 := Params.obufCap_lt hp
  cases hform with
  | empty =>
    refine ⟨headed 0 s, ?_, ⟨rfl, ?_, by simp⟩⟩
    · rw [run_succ ((hr.step rfl).trans (exec_dHdr_ok h (by norm_num) hcap))]
      exact run_of_not_busy (s := headed 0 s) rfl hr.events 2
    · exact congrArg BitVec.toNat ho
  | coded t es hd hne hes =>
    rw [List.length_map] at hcap
    obtain ⟨hheader, hrest⟩ := h.append
    rw [length_bitsMsb] at hrest
    have hready : Ready .dTree (headed es.length s) :=
      ⟨if_neg (mt List.length_eq_zero_iff.mp hne), hr.marker, hr.events⟩
    rw [run_succ ((hr.step rfl).trans (exec_dHdr_ok hheader (by omega) hcap))]
    exact run_tree_payload hready hp hd hes hs hseq ho
      ((BitVec.toNat_ofNat _ _).trans (Nat.mod_eq_of_lt (by omega))) hcap (hrest.kept {} rfl)

/-- The command write and the three turns. -/
theorem run_decode {xs : List Byte} {bits : List Bool} {s : State} (f c b : Bool) (he : s.events = [])
    (hp : s.cfg.wf = true) (hc : s.ilen.toNat ≤ s.cfg.ibufCap) (hcap : xs.length ≤ s.cfg.obufCap)
    (hform : Compressed xs bits) (h : bits <+: inBits s 0 (8 * s.ilen.toNat)) :
    ∃ v, Host.Core.run Sys2Proof.core 3 (acceptCmd (cmdWord 2 f c b) s) = .next v ∧ Decoded xs v := by
  rw [acceptCmd_decode f c b hc]
  exact run_decoding ⟨rfl, rfl, he⟩ hp hcap rfl rfl rfl hform (.of_input (s := s) {} rfl hc h)

/-! ### The codec -/

/-- Settles O57: the output of `run_encode`, copied to `IBUF`, is what `run_decode` reads. -/
theorem decodeOfEncodeIsTheInput : Obligations.DecodeOfEncodeIsTheInput := by
  intro s t u f c b f' c' b' _ he hp hc hcap hrun hdone holen hu
  obtain ⟨hkept, hrecorded, bits, n, hform, hbytes⟩ := run_encode f c b he hp hc hrun hdone
  have hcfg : u.cfg = s.cfg := by rw [hu]; exact hkept.cfg
  have hilen : u.ilen = t.olen := by rw [hu]
  have hread : inBits u 0 (8 * u.ilen.toNat) = bits ++ List.replicate n false := by
    rw [hilen, inBits_of_output hrecorded (by rw [hu]), hbytes]
  obtain ⟨v, hrunv, hdecoded⟩ := run_decode (s := u) f' c' b' (by rw [hu]; exact hkept.events.trans he)
    (by rw [hcfg]; exact hp) (by rw [hu]; exact holen) (by rw [hcfg, length_inputBytes]; exact hcap) hform
    ⟨_, hread.symm⟩
  refine ⟨v, hrunv, hdecoded.phase, BitVec.eq_of_toNat_eq (hdecoded.olen.trans (length_inputBytes s)), fun a ha => ?_⟩
  show (Table.get? v.obuf a).getD 0 = _
  rw [hdecoded.bytes a (ibufByte s a) (by simp [inputBytes, ha]), Option.getD_some]

end Sys2Proof.Machine
end

section
/-! SUPPORT. D_HDR and D_WALK performed whole: the length that D_HDR reads, the symbols that D_WALK emits, the single
leaf, and how D_WALK ends on any payload (rules R222 to R234). -/

namespace Sys2Proof.Machine

/-! ### D_HDR -/

theorem exec_dHdr (s : State) :
    exec .dHdr s = (((rdU32 s).onEob .hdrTrunc).bind fun n t => headerRead n t).outcome := rfl

/-- With fewer than 32 bits left there is no header. -/
theorem exec_dHdr_eob {s : State} (hc : s.ilen.toNat ≤ s.cfg.ibufCap) (hr : s.rpos.toNat ≤ 8 * s.ilen.toNat)
    (h : 8 * s.ilen.toNat < s.rpos.toNat + 32) : exec .dHdr s = .next (raise .hdrTrunc (atEnd s)) := by
  rw [exec_dHdr, rdU32_eob hc hr h, Flow.onEob_eob, Flow.bind_raised, Flow.outcome_raised]

/-- With 32 bits left, their number is the length. -/
theorem exec_dHdr_read {s : State} (h : InRoom s 32) :
    exec .dHdr s = (headerRead (BitVec.ofNat 32 (bitsValue (inBits s s.rpos.toNat 32))) (movePast 32 s)).outcome := by
  rw [exec_dHdr, rdU32_ok h, Flow.onEob_ok, Flow.bind_ok]

/-- Settles O21: too few bits (`exec_dHdr_eob`), or the three lengths of `headerRead_cases`. -/
theorem headerPhaseReadsTheLength : Obligations.HeaderPhaseReadsTheLength := by
  intro s hc h0
  have hr : s.rpos.toNat = 0 := by rw [h0]; rfl
  refine ⟨fun hshort => exec_dHdr_eob hc (by omega) (by omega), fun hlong n hn => ?_⟩
  have hmoved : movePast 32 s = { s with rpos := 32 } := by rw [movePast, h0]; rfl
  have hread : exec .dHdr s = (headerRead n { s with rpos := 32 }).outcome := by
    rw [exec_dHdr_read ⟨by omega, hc⟩, hr, ← hn, hmoved]
  rw [hread]
  obtain ⟨hcap, h⟩ | ⟨hcap, hz, h⟩ | ⟨hcap, hz, h⟩ := headerRead_cases n { s with rpos := 32 } <;> rw [h]
  · exact ⟨fun _ => rfl, fun hle => absurd hcap (not_lt.mpr hle), fun hle => absurd hcap (not_lt.mpr hle)⟩
  · exact ⟨fun hlt => absurd hcap (not_le.mpr hlt), fun _ _ => rfl, fun _ hne => absurd hz hne⟩
  · exact ⟨fun hlt => absurd hcap (not_le.mpr hlt), fun _ he => absurd he hz, fun _ _ => rfl⟩

/-! ### D_WALK over the codes of the payload -/

theorem exec_dWalk (s : State) :
    exec .dWalk s = ((walkLoop s.nrem.toNat s).bind fun _ t => .ok () { t with phase := .done }).outcome := rfl

/-- Settles O24: `walkLoop_codes` over the codes. -/
theorem walkPhaseEmitsTheSymbols : Obligations.WalkPhaseEmitsTheSymbols := by
  intro s t es hp ht hes hn ho hr hb
  obtain ⟨u, hrun, hwalked, hnrem, hnone, hlast⟩ := walkLoop_codes hp ht hes hn ho hr hb
  obtain ⟨hsame, hwritten, houtside⟩ := hwalked
  rw [List.length_map] at hsame houtside
  refine ⟨{ u with phase := .done }, ?_, ?_, hnone, hlast, fun j e he => hwritten j e.1 (by simp [he]), houtside⟩
  · rw [exec_dWalk, hn, hrun, Flow.bind_ok, Flow.outcome_ok]
  · rw [hnrem] at hsame
    exact congrArg (fun u : State => { u with phase := .done }) hsame

/-! ### D_WALK with a single leaf -/

theorem WalkedOver.rpos {syms : List Byte} {m : Nat} {s t : State} (h : WalkedOver syms m s t) :
    t.rpos = s.rpos + BitVec.ofNat 36 m := by rw [h.same]

theorem WalkedOver.olen {syms : List Byte} {m : Nat} {s t : State} (h : WalkedOver syms m s t) :
    t.olen = s.olen + BitVec.ofNat 32 syms.length := by rw [h.same]

/-- An error while the next symbol is read ends the loop. -/
theorem walkLoop_raised {n : Nat} {s t : State} (hn : s.nrem.toNat = n + 1) (h : walkSymbol s = .raised t) :
    walkLoop (n + 1) s = .raised t := by
  have h0 : s.nrem ≠ 0 := fun e => by rw [e] at hn; simp at hn
  rw [walkLoop, if_neg h0, h, Flow.bind_raised]

section
variable {s : State} {r : Nat} {sym : Byte} {c : Word} {q : Nat} (hroot : s.root = some r)
  (hleaf : Table.get? s.node r = some (.leaf sym c q))
include hroot hleaf

/-- The bit of a single leaf gives its symbol, where it is 0 or the policy takes a 1 too. -/
theorem walkSymbol_leaf_ok (hr : InRoom s 1) (hb : s.cfg.leafrootBit1 = .accept ∨ inBit s s.rpos.toNat = false) :
    walkSymbol s = .ok sym (withCur (some r) (movePast 1 s)) := by
  have hok : ¬(inBit s s.rpos.toNat = true ∧ s.cfg.leafrootBit1 = .fault) := by
    rintro ⟨h1, hfault⟩
    rcases hb with h | h
    · rw [hfault] at h; cases h
    · rw [h1] at h; cases h
  rw [walkSymbol_leaf hroot hleaf, walkLeafRoot_ok (s := withCur s.root s) hr, hroot]
  exact if_neg hok

/-- A bit 1 at a single leaf under the policy `fault` is consumed and is the error. -/
theorem walkSymbol_leaf_raised (hr : InRoom s 1) (hfault : s.cfg.leafrootBit1 = .fault)
    (hb : inBit s s.rpos.toNat = true) :
    walkSymbol s = .raised (raise .leafrootBit1 (movePast 1 (withCur s.root s))) := by
  rw [walkSymbol_leaf hroot hleaf, walkLeafRoot_ok (s := withCur s.root s) hr]
  exact if_pos ⟨hb, hfault⟩

/-- The loop over the first `k` symbols of a single leaf, with `n` more to come: each takes one bit. -/
theorem walkLoop_leaf {k n : Nat} (hp : s.cfg.wf = true) (hn : s.nrem.toNat = k + n)
    (ho : s.olen.toNat + k ≤ s.cfg.obufCap) (hr : InRoom s k)
    (hb : s.cfg.leafrootBit1 = .accept ∨ inBits s s.rpos.toNat k = List.replicate k false) :
    ∃ u, walkLoop (k + n) s = walkLoop n u ∧ WalkedOver (List.replicate k sym) k s u ∧ u.nrem.toNat = n := by
  induction k generalizing s with
  | zero => exact ⟨s, by rw [Nat.zero_add], WalkedOver.nil s, by omega⟩
  | succ k ih =>
    rw [inBits, List.replicate_succ, List.cons.injEq] at hb
    have hr1 : InRoom s 1 := hr.mono (by omega)
    have hcap : s.olen.toNat < s.cfg.obufCap := by omega
    have hlen : s.nrem.toNat = k + n + 1 := by omega
    have hsym := walkSymbol_leaf_ok hroot hleaf hr1 (hb.imp_right And.left)
    rw [Nat.add_comm k 1] at hr
    have hrpos := movePast_rpos_toNat hr1
    have holen : (s.olen + 1).toNat = s.olen.toNat + 1 := succ_olen hp hcap
    let v := emitted sym (withCur (some r) (movePast 1 s))
    have hbits : inBits v v.rpos.toNat k = inBits s (s.rpos.toNat + 1) k := by
      rw [show v.rpos.toNat = _ from hrpos, inBits_congr (s := s) (t := v) rfl rfl]
    obtain ⟨u, hrun, hwalked, hleft⟩ := ih (s := v) hroot hleaf hp (nrem_sub_one hlen)
      (by show (s.olen + 1).toNat + k ≤ s.cfg.obufCap; omega) hr.movePast
      (hb.imp_right fun h => hbits.trans h.2)
    refine ⟨u, ?_, ?_, hleft⟩
    · rw [Nat.add_right_comm, walkLoop_succ hlen hsym hcap, hrun]
    · rw [List.replicate_succ, Nat.add_comm k 1]
      exact hwalked.cons hp hcap

/-- The loop over `k` bits 0 and a bit 1, under the policy `fault`: the error, with these bits consumed. -/
theorem walkLoop_leaf_bit1 {k n : Nat} (hp : s.cfg.wf = true) (hn : s.nrem.toNat = k + (n + 1))
    (ho : s.olen.toNat + k ≤ s.cfg.obufCap) (hr : InRoom s (k + 1)) (hfault : s.cfg.leafrootBit1 = .fault)
    (hb : inBits s s.rpos.toNat (k + 1) = List.replicate k false ++ [true]) :
    ∃ t, walkLoop (k + (n + 1)) s = .raised (raise .leafrootBit1 t) ∧ t.rpos = s.rpos + BitVec.ofNat 36 (k + 1) := by
  rw [inBits_add] at hb
  obtain ⟨hzeros, hone⟩ := List.append_inj hb (by simp)
  have hrk : InRoom s k := hr.mono (Nat.le_succ k)
  obtain ⟨u, hrun, hwalked, hleft⟩ := walkLoop_leaf hroot hleaf hp hn ho hrk (.inr hzeros)
  have hsame := hwalked.same
  have hrpos : u.rpos = s.rpos + BitVec.ofNat 36 k := hwalked.rpos
  have hat : u.rpos.toNat = s.rpos.toNat + k := by rw [hrpos]; exact movePast_rpos_toNat hrk
  have hru : InRoom u 1 := by rw [hsame]; exact hr.movePast
  have hbit : inBit u u.rpos.toNat = true := by
    rw [hat, inBit_congr (s := s) (by rw [hsame]) (by rw [hsame])]
    simpa [inBits] using hone
  have herror := walkSymbol_leaf_raised (s := u) (by rw [hsame]; exact hroot) (by rw [hsame]; exact hleaf) hru
    (by rw [hsame]; exact hfault) hbit
  refine ⟨movePast 1 (withCur u.root u), by rw [hrun, walkLoop_raised hleft herror], ?_⟩
  show u.rpos + BitVec.ofNat 36 1 = _
  rw [hrpos, BitVec.ofNat_add, BitVec.add_assoc]

end

/-- Settles O25: `walkLoop_leaf` over all the symbols, and `walkLoop_leaf_bit1`. -/
theorem singleLeafTakesOneBitPerSymbol : Obligations.SingleLeafTakesOneBitPerSymbol := by
  intro s r sym c q hp hroot hleaf ho
  refine ⟨fun hr hb => ?_, fun k hfault hk hr hb => ?_⟩
  · obtain ⟨u, hrun, hwalked, -⟩ := walkLoop_leaf hroot hleaf hp (Nat.add_zero _).symm ho hr hb
    refine ⟨{ u with phase := .done }, ?_, rfl, ?_, hwalked.rpos, fun j hj => hwalked.written j sym (by simp [hj])⟩
    · rw [Nat.add_zero] at hrun
      rw [exec_dWalk, hrun, walkLoop, Flow.bind_ok, Flow.outcome_ok]
    · have holen := hwalked.olen
      rwa [List.length_replicate, BitVec.ofNat_toNat, BitVec.setWidth_eq] at holen
  · obtain ⟨n, hn⟩ : ∃ n, s.nrem.toNat = k + (n + 1) := ⟨s.nrem.toNat - (k + 1), by omega⟩
    obtain ⟨t, hrun, hrpos⟩ := walkLoop_leaf_bit1 hroot hleaf hp hn (by omega) hr hfault hb
    refine ⟨raise .leafrootBit1 t, ?_, rfl, rfl, rfl, hrpos⟩
    rw [exec_dWalk, hn, hrun, Flow.bind_raised, Flow.outcome_raised]

/-! ### How D_WALK ends -/

/-- The errors of D_WALK after some symbols, by their code. -/
theorem WalkedError.named {s t : State} (h : WalkedError s t) (hr : s.rpos.toNat ≤ 8 * s.ilen.toNat) :
    t.phase = .error ∧ t.olen = 0 ∧
      ((t.err = 0x0301 ∧ t.rpos.toNat = 8 * s.ilen.toNat) ∨
        (t.err = 0x0501 ∧ s.cfg.leafrootBit1 = .fault ∧ LeafRoot s)) := by
  obtain ⟨u, hu, v, hv, h⟩ := h
  have hilen : u.ilen = s.ilen := by rw [hu.same]
  have hinside := hv.inside (by rw [hilen]; exact hu.inside hr)
  rw [hilen] at h hinside
  obtain ⟨hend, rfl⟩ | ⟨hfault, hleaf, rfl⟩ := h
  · exact ⟨rfl, rfl, .inl ⟨rfl, le_antisymm hinside hend⟩⟩
  · rw [hu.same] at hfault hleaf
    exact ⟨rfl, rfl, .inr ⟨rfl, hfault, hleaf⟩⟩

/-- Settles O26: the next states are those of `execDWalk_next`; there is one by `walkLoop_ends`; where the payload is too
short it is that of `walkLoop_short`. -/
theorem walkPhaseNeverEndsShort : Obligations.WalkPhaseNeverEndsShort := by
  intro s hp hc hr
  refine ⟨fun t ht => ?_, fun tree hh ho => ⟨?_, fun es sym part rest bits hes hlt hpart hne hbits hend hread => ?_⟩⟩
  · obtain ⟨u, hu, hnrem, rfl⟩ | herror := execDWalk_next hp ht
    · have hgrown := hu.grown
      have htaken := hu.bits
      rw [hnrem] at hgrown htaken
      exact .inl ⟨rfl, hnrem, hgrown, htaken, hu.inside hr⟩
    · exact .inr (herror.named hr)
  · rw [exec_dWalk]
    refine ((walkLoop_ends hp hh hc hr ho).bind (walkLoop_post hp le_rfl) fun _ _ _ => ?_).outcome
    trivial
  · subst hbits
    obtain ⟨u, hrun, hrpos⟩ := walkLoop_short hp hh hes rfl hlt hpart hne ho hc hend hread
    refine ⟨raise .payloadTrunc u, ?_, rfl, rfl, rfl, hrpos⟩
    rw [exec_dWalk, hrun, Flow.bind_raised, Flow.outcome_raised]

end Sys2Proof.Machine
end

section
/-! SUPPORT. The checks of a write to `CMD`, in their order (rules R92, R246). -/

namespace Sys2Proof.Machine

/-- The three ways in which a word is no legal command (rules R92, R246). -/
theorem illegalCmd_iff (w : Word) :
    illegalCmd w = true ↔ w &&& 0xFFFFFFE0#32 ≠ 0 ∨ w.extractLsb' 0 2 = 0 ∨ w.extractLsb' 0 2 = 3 := by
  simp [illegalCmd, or_assoc]

theorem writeCmd_of_busy {w : Word} {s : State} (h : busy s = true) : writeCmd w s = s := by rw [writeCmd, if_pos h]

/-- The order of the checks: BAD_CMD, then BAD_ILEN, then the first phase of the mode (rule R246). -/
theorem acceptCmd_eq (w : Word) (s : State) :
    acceptCmd w s =
      if w &&& 0xFFFFFFE0#32 ≠ 0 ∨ w.extractLsb' 0 2 = 0 ∨ w.extractLsb' 0 2 = 3 then
        raise .badCmd (initCommand { s with cmd := w })
      else if s.cfg.ibufCap < s.ilen.toNat then raise .badIlen (initCommand { s with cmd := w })
      else if w.getLsbD 0 then { initCommand { s with cmd := w } with phase := .eCount }
      else { initCommand { s with cmd := w } with phase := .dHdr } := by
  simp only [← illegalCmd_iff]; rfl

/-- Settles O7: the step is the write of the word (`cmdTurn_eq`), ignored while `BUSY`, accepted otherwise
(`acceptCmd_eq`). -/
theorem commandWriteChecksInOrder : Obligations.CommandWriteChecksInOrder := by
  intro s w rest he
  have hstep : step s = .next (writeCmd w { s with events := rest }) := by rw [step_of_cmd he, cmdTurn_eq]
  refine ⟨fun hb => ?_, fun hb => ⟨_, rfl, ?_⟩⟩
  · rw [hstep, writeCmd_of_busy (s := { s with events := rest }) hb]
  · rw [hstep, writeCmd_of_not_busy (s := { s with events := rest }) hb, acceptCmd_eq]; rfl

end Sys2Proof.Machine
end

section
/-! SUPPORT. The error entry, and the errors of each operation (rules R240, R247, R250). -/

namespace Sys2Proof.Machine

/-- Settles O44: the registers by the writes of the entry, `ERR` cause by cause. -/
theorem errorEntryRecordsTheCause : Obligations.ErrorEntryRecordsTheCause := by
  intro c s
  refine ⟨rfl, rfl, rfl, rfl, rfl, rfl, rfl, rfl, rfl, rfl, rfl, ?_⟩
  cases c <;> rfl

/-- The table of rule R247, and for the tokens, which it does not list, the errors of the phases that write or read them
(log 11). -/
def errorsOf : Instr → List Cause
  | .encode _ _ _ | .decode _ _ _ => [.badCmd, .badIlen]
  | .eCount | .rdbit | .rdbyte | .rdu32 => []
  | .eBuild => [.countSum]
  | .eGen => [.codePrefix, .codeMissing]
  | .eHdr | .eTree | .ePack | .eFin | .wrbit _ | .wrbyte _ | .wru32 _ | .finalize => [.encObufFull]
  | .dHdr => [.hdrTrunc, .decNTooLarge]
  | .dTree => [.treeTrunc, .nodeOverflow]
  | .dWalk => [.payloadTrunc, .leafrootBit1]
  | .lenhdr _ => [.encObufFull, .decNTooLarge]
  | .tnodeInt | .tnodeLeaf _ => [.encObufFull, .nodeOverflow]

/-- If the state is in `ERROR`, then by the error entry with one of the causes. -/
def ErrorAmong (cs : List Cause) (t : State) : Prop := t.phase = .error → ∃ c ∈ cs, ∃ u, t = raise c u

section
variable {cs : List Cause} {s t : State}

theorem ErrorAmong.raise {c : Cause} (hc : c ∈ cs) (u : State) : ErrorAmong cs (raise c u) := fun _ => ⟨c, hc, u, rfl⟩

theorem ErrorAmong.of_ne (h : t.phase ≠ .error) : ErrorAmong cs t := fun ht => absurd ht h

theorem ErrorAmong.of_phase (hs : s.phase ≠ .error) (h : t.phase = s.phase) : ErrorAmong cs t := .of_ne (h ▸ hs)

theorem FullAfter.errorAmong (hc : .encObufFull ∈ cs) (h : FullAfter s t) : ErrorAmong cs t := by
  obtain ⟨u, -, -, rfl⟩ := h
  exact .raise hc u

theorem DesError.errorAmong (h : DesError s t) : ErrorAmong [.treeTrunc, .nodeOverflow] t := by
  obtain ⟨u, c, -, hc, rfl⟩ := h
  exact .raise (List.mem_pair.mpr hc) u

theorem WalkedError.errorAmong (h : WalkedError s t) : ErrorAmong [.payloadTrunc, .leafrootBit1] t := by
  obtain ⟨-, -, v, -, ⟨-, rfl⟩ | ⟨-, -, rfl⟩⟩ := h
  · exact .raise (by simp) v
  · exact .raise (by simp) v

theorem headerRead_errorAmong {n : Word} (hc : .decNTooLarge ∈ cs) (h : (headerRead n s).outcome = .next t) :
    ErrorAmong cs t := by
  rcases headerRead_next h with ⟨-, rfl⟩ | ⟨-, -, rfl⟩ | ⟨-, -, rfl⟩
  · exact .raise hc _
  · exact .of_ne (by simp)
  · exact .of_ne (by simp)

/-- A tree token, written or read. -/
theorem treeToken_errorAmong {n : Nat} (hs : s.phase ≠ .error)
    (h : (s.phase = .eTree ∧ (OnlyOut s t ∨ FullAfter s t)) ∨
      (s.phase = .dTree ∧ ((t = raise .nodeOverflow s) ∨ (∃ u, DesStep (movePast n s) u ∧ t = u) ∨
        (∃ u, DesStep (movePast n s) u ∧ u.stack = [] ∧ t = { u with phase := .dWalk })))) :
    ErrorAmong [.encObufFull, .nodeOverflow] t := by
  rcases h with ⟨-, hu | hf⟩ | ⟨-, rfl | ⟨u, hu, rfl⟩ | ⟨u, -, -, rfl⟩⟩
  · exact .of_phase hs hu.phase
  · exact hf.errorAmong (by simp)
  · exact .raise (by simp) s
  · exact .of_phase (s := movePast n s) hs (by rw [hu.same])
  · exact .of_ne (by simp)

/-- The checks of a command write (rule R246). -/
theorem writeCmd_errorAmong (w : Word) (hs : s.phase ≠ .error) : ErrorAmong [.badCmd, .badIlen] (writeCmd w s) := by
  cases hb : busy s with
  | true => rw [writeCmd_of_busy hb]; exact .of_ne hs
  | false =>
    rw [writeCmd_of_not_busy hb]
    rcases acceptCmd_cases w s with e | e | ⟨-, e | e⟩ <;> rw [e]
    · exact .raise (by simp) _
    · exact .raise (by simp) _
    · exact .of_ne (by simp)
    · exact .of_ne (by simp)

end

/-- An operation enters `ERROR` only with a cause of its row (rule R247). -/
theorem exec_errorAmong {i : Instr} {s t : State} (hp : s.cfg.wf = true) (hs : s.phase ≠ .error)
    (h : exec i s = .next t) : ErrorAmong (errorsOf i) t := by
  have written : OnlyOut s t ∨ FullAfter s t → ErrorAmong [.encObufFull] t := fun h =>
    h.elim (fun hu => .of_phase hs hu.phase) fun hf => hf.errorAmong (by simp)
  have read : (∃ u o, OnlyRpos s u ∧ t = { u with bioOut := o }) → ErrorAmong [] t := by
    rintro ⟨u, o, hu, rfl⟩
    exact .of_phase hs hu.phase
  cases i with
  | encode f c b => cases h; exact writeCmd_errorAmong _ hs
  | decode f c b => cases h; exact writeCmd_errorAmong _ hs
  | eCount => rw [(execECount_next h).1]; exact .of_ne (by simp)
  | eBuild =>
    obtain ⟨u, -, rfl | rfl⟩ := execEBuild_next h
    · exact .of_ne (by simp)
    · exact .raise (by simp [errorsOf]) u
  | eGen =>
    obtain ⟨u, -, -, rfl | rfl | rfl⟩ := execEGen_next h
    · exact .of_ne (by simp)
    · exact .raise (by simp [errorsOf]) u
    · exact .raise (by simp [errorsOf]) u
  | eHdr =>
    rcases execEHdr_next hp h with ⟨u, -, rfl⟩ | hf
    · exact .of_ne (by simp)
    · exact hf.errorAmong (by simp [errorsOf])
  | eTree =>
    rcases execETree_next hp h with ⟨u, -, rfl⟩ | ⟨fs, hf⟩
    · exact .of_ne (by simp)
    · exact hf.errorAmong (by simp [errorsOf])
  | ePack =>
    rcases execEPack_next hp h with ⟨u, -, -, rfl⟩ | ⟨k, hf⟩
    · exact .of_ne (by simp)
    · exact hf.errorAmong (by simp [errorsOf])
  | eFin =>
    rcases execEFin_next hp h with ⟨u, -, rfl⟩ | hf
    · exact .of_ne (by simp)
    · exact hf.errorAmong (by simp [errorsOf])
  | dHdr =>
    rcases execDHdr_next h with ⟨u, -, rfl⟩ | ⟨u, n, -, hh⟩
    · exact .raise (by simp [errorsOf]) u
    · exact headerRead_errorAmong (by simp [errorsOf]) hh
  | dTree =>
    rcases execDTree_next h with ⟨u, -, -, rfl⟩ | he
    · exact .of_ne (by simp)
    · exact he.errorAmong
  | dWalk =>
    rcases execDWalk_next hp h with ⟨u, -, -, rfl⟩ | he
    · exact .of_ne (by simp)
    · exact he.errorAmong
  | rdbit => exact read (execRdbit_next h)
  | rdbyte => exact read (execRdbyte_next h)
  | rdu32 => exact read (execRdu32_next h)
  | wrbit b => exact written (execWrbit_next hp h)
  | wrbyte v => exact written (execWrbyte_next hp h)
  | wru32 v => exact written (execWru32_next hp h)
  | finalize => exact written (execFinalize_next hp h)
  | lenhdr n =>
    rcases execLenhdr_next hp h with ⟨-, ⟨u, -, rfl⟩ | hf⟩ | ⟨-, hh⟩
    · exact .of_ne (by simp)
    · exact hf.errorAmong (by simp [errorsOf])
    · exact headerRead_errorAmong (by simp [errorsOf]) hh
  | tnodeInt => exact treeToken_errorAmong hs (execTnodeInt_next hp h)
  | tnodeLeaf v => exact treeToken_errorAmong hs (execTnodeLeaf_next hp h)

/-- Settles O43: the entry has been performed with a cause of the table (`exec_errorAmong`), whose value is that of
rule R240, and the operation has kept `CMD`, `FLAGS` and `ILEN` (`exec_ends`). -/
theorem operationsRaiseOnlyTheirErrors : Obligations.OperationsRaiseOnlyTheirErrors := by
  intro i s t hp hs hi h ht
  have kept := (exec_ends hp hi h).kept
  obtain ⟨c, hc, u, rfl⟩ := exec_errorAmong hp hs h ht
  refine ⟨⟨rfl, rfl, rfl, rfl, rfl, kept.cmd, kept.flags, kept.ilen⟩, ?_⟩
  cases i with
  | encode f d b => exact absurd rfl (hi f d b).1
  | decode f d b => exact absurd rfl (hi f d b).2
  | eCount | rdbit | rdbyte | rdu32 => exact List.not_mem_nil hc
  | eBuild | eHdr | eTree | ePack | eFin | wrbit _ | wrbyte _ | wru32 _ | finalize =>
    rw [List.mem_singleton.mp hc]; rfl
  | eGen | dHdr | dTree | dWalk | lenhdr _ | tnodeInt | tnodeLeaf _ =>
    exact (List.mem_pair.mp hc).imp (fun e => by rw [e]; rfl) fun e => by rw [e]; rfl

end Sys2Proof.Machine
end

section
/-! SUPPORT. Reads and writes of the host while `BUSY` (rules R282, R283), and the reset input (rule R270). -/

namespace Sys2Proof.Machine

/-! ### Reads while `BUSY` -/

theorem whenIdle_of_busy {s : State} (h : busy s = true) (v : Word) : whenIdle s v = .unspecified := if_pos h

theorem readFreqTap_of_busy {s : State} (h : busy s = true) (sym : Nat) : readFreqTap s sym = .unspecified := by
  rw [readFreqTap, whenIdle_of_busy h, ite_self]

theorem readCodeTap_of_busy {s : State} (h : busy s = true) (sym w : Nat) : readCodeTap s sym w = .unspecified := by
  rw [readCodeTap, whenIdle_of_busy h, ite_self]

/-- `ERR`, `OLEN` and the halves of the positions. -/
theorem readReg_result_of_busy {s : State} {off : BitVec 15} (hb : busy s = true)
    (h : off.toNat ∈ [0x08, 0x10, 0x14, 0x18, 0x1C, 0x20]) : readReg s off = .unspecified := by
  have at_offset {k : BitVec 15} {v : Word} (hk : readReg s k = whenIdle s v) (e : off.toNat = k.toNat) :
      readReg s off = .unspecified := by
    rw [BitVec.eq_of_toNat_eq e, hk, whenIdle_of_busy hb]
  simp only [List.mem_cons, List.not_mem_nil, or_false] at h
  rcases h with h | h | h | h | h | h
  · exact at_offset (readReg_err s) h
  · exact at_offset (readReg_olen s) h
  · exact at_offset (readReg_rposLo s) h
  · exact at_offset (readReg_rposHi s) h
  · exact at_offset (readReg_wposLo s) h
  · exact at_offset (readReg_wposHi s) h

/-- The two taps, at any of their words. -/
theorem readReg_tap_of_busy {s : State} {off : BitVec 15} (hb : busy s = true) (ha : off.toNat % 4 = 0)
    (h : 0x400 ≤ off.toNat ∧ off.toNat < 0x800 ∨ 0x4000 ≤ off.toNat) : readReg s off = .unspecified := by
  rw [readReg, if_pos ha, readAligned.eq_def]
  rcases h with hf | hc
  · rw [if_neg (by omega), if_pos hf, readFreqTap_of_busy hb]
  · rw [if_pos hc, readCodeTap_of_busy hb]

theorem readObufByte_of_busy {s : State} (h : busy s = true) (a : Nat) : readObufByte s a = .unspecified :=
  have ⟨_, notDone, _⟩ := busy_phase h
  readObufByte_outside (.inl notDone)

/-- Settles O52: the stored registers read as at any time, the results and the taps are unspecified
(`readReg_result_of_busy`, `readReg_tap_of_busy`, `readObufByte_of_busy`). -/
theorem readsWhileBusyAreFree : Obligations.ReadsWhileBusyAreFree := by
  intro s rest hb
  let u : State := { s with events := rest }
  refine ⟨fun off h => ⟨fun ho => step_of_read_unspecified h ?_, ?_, ?_, ?_, ?_⟩, fun a ha h => ?_, fun a ha h => ?_⟩
  · exact ho.elim (readReg_result_of_busy (s := u) hb) fun ⟨h4, ht⟩ => readReg_tap_of_busy (s := u) hb h4 ht
  · rintro rfl; exact step_of_read_value h (readReg_cmd u)
  · rintro rfl; exact step_of_read_value h (readReg_status u)
  · rintro rfl; exact step_of_read_value h (readReg_ilen u)
  · rintro rfl; exact step_of_read_value h (readReg_flags u)
  · rw [step_of_host h]; exact hostTurn_readIbuf (s := u) ha
  · rw [step_of_host h, hostTurn_readObuf (s := u) ha, readObufByte_of_busy (s := u) hb, deliverByte]

/-! ### Writes while `BUSY` -/

theorem writeIlen_of_busy {s : State} (h : busy s = true) (v : Word) : writeIlen v s = s := if_pos h

theorem writeIbufByte_of_busy {s : State} (h : busy s = true) (a : Nat) (v : Byte) : writeIbufByte a v s = s := if_pos h

/-- Settles O9: each write is the identity while `BUSY`, and a command is a write to `CMD`. -/
theorem writesWhileBusyAreIgnored : Obligations.WritesWhileBusyAreIgnored := by
  intro s rest hb
  let u : State := { s with events := rest }
  refine ⟨fun w h => ?_, fun v h => ?_, fun a v ha h => ?_, fun f c b => ⟨?_, ?_⟩⟩
  · rw [step_of_cmd h, cmdTurn_eq, writeCmd_of_busy (s := u) hb]
  · rw [step_of_host h]; exact congrArg _ (writeIlen_of_busy (s := u) hb v)
  · rw [step_of_host h, hostTurn, if_pos ha, writeIbufByte_of_busy (s := u) hb]
  · exact congrArg _ (writeCmd_of_busy hb)
  · exact congrArg _ (writeCmd_of_busy hb)

/-! ### The reset input -/

theorem step_of_reset {s : State} {rest : List Event} (h : s.events = .reset :: rest) :
    step s = .next (resetInput { s with events := rest }) := by rw [step, turn, h]

/-- Settles O49: the step is `resetInput`, field by field. -/
theorem resetInputResetsEveryRegister : Obligations.ResetInputResetsEveryRegister := fun _ _ h =>
  ⟨_, step_of_reset h, rfl, rfl, rfl, rfl, rfl, rfl, rfl, rfl, rfl, rfl, rfl, rfl, rfl, rfl, rfl, rfl, rfl, rfl, rfl, rfl,
    rfl, rfl⟩

end Sys2Proof.Machine
end
